-- ==== Sys2Proof/Word.lean ====
section
/-! DEFINITION. The word types: a byte (R53) and a 32-bit register (R9, REG_W). -/

namespace Sys2Proof

/-- A byte of a memory. -/
abbrev Byte := BitVec 8

/-- A 32-bit register value (R9, REG_W). -/
abbrev Word := BitVec 32

end Sys2Proof
end

