-- ==== Sys2Proof/Config.lean ====
section
/-! DEFINITION. The implementation parameters of 00_scope.md R9 and the free values the spec leaves open. -/

namespace Sys2Proof

/-- The memories the engine addresses (20_memory.md R80) and the scanline buffer (10_state.md R52). -/
inductive MemSpace where
  | inMem
  | dbuf
  | pix
  | slPrev
  deriving DecidableEq, Repr

/-- The OPEN parameters of 00_scope.md R9. They are held in the state and changed by nothing, so that a statement
about every state is a statement for given values of them. -/
structure Params where
  /-- IN_CAP, bytes of memory IN. -/
  inCap : Nat
  /-- DBUF_CAP, bytes of memory DBUF. -/
  dbufCap : Nat
  /-- PIX_CAP, bytes of memory PIX. -/
  pixCap : Nat
  /-- MAX_WIDTH, the widest image in pixels. -/
  maxWidth : Nat
  deriving DecidableEq, Repr

/-- R9: "Each OPEN parameter is a natural number with 1 ≤ value ≤ 2^32 − 1". -/
def Params.wf (p : Params) : Bool :=
  decide (1 ≤ p.inCap) && decide (p.inCap < 2 ^ 32) &&
  (decide (1 ≤ p.dbufCap) && decide (p.dbufCap < 2 ^ 32)) &&
  (decide (1 ≤ p.pixCap) && decide (p.pixCap < 2 ^ 32)) &&
  (decide (1 ≤ p.maxWidth) && decide (p.maxWidth < 2 ^ 32))

/-- The parameters of `State.reset`. DESIGN CHOICE (log 1): the spec leaves them open; 95_test_vectors.md takes them
"large enough (at least 65536)". -/
def Params.nominal : Params :=
  { inCap := 65536, dbufCap := 65536, pixCap := 65536, maxWidth := 65536 }

/-- What a byte that nothing has written since the last reset holds (10_state.md R53, R56: "unspecified"): a free
value for each reset, memory and address (log 4, log 8). -/
opaque Config.unwrittenByte : Nat → MemSpace → Nat → BitVec 8

/-- The k-th byte drawn for a host read whose value is unspecified (20_memory.md R101; log 9, log 10). -/
opaque Config.freeByte : Nat → BitVec 8

/-- The k-th word drawn for the value field of a bit_cursor response to which the spec gives none (log 12). -/
opaque Config.freeWord : Nat → BitVec 32

/-- STEP_TIME (70_reset_and_hazards.md R364), the duration of the k-th step: no rule and no definition uses it. -/
opaque Config.stepTime : Nat → Nat

/-- The spaces a host reaches, each with its own address 0 (20_memory.md R80, R97). SL_PREV is none of them. -/
inductive HostSpace where
  | reg
  | inMem
  | dbuf
  | pix
  deriving DecidableEq, Repr

/-- PLATFORM_MAP (20_memory.md R97), where REG, IN, DBUF and PIX sit in a host's address map: no rule and no definition
uses it (log 27). -/
opaque Config.platformMap : HostSpace → Nat

/-- MAX_READ_BITS, the widest multi-bit read (R9). -/
def Config.maxReadBits : Nat := 32

/-- BPP, bytes per pixel (R9; conflict C10). -/
def Config.bpp : Nat := 3

/-- CL_SYMS, LL_SYMS and D_SYMS, the alphabet sizes (R9). -/
def Config.clSyms : Nat := 19

/-- LL_SYMS (R9). -/
def Config.llSyms : Nat := 288

/-- D_SYMS (R9). -/
def Config.dSyms : Nat := 32

/-- MAX_LENGTHS, the longest code-length sequence (R9). -/
def Config.maxLengths : Nat := 320

end Sys2Proof
end

