-- ==== Sys2Proof/Syntax.lean ====
section
/-! DEFINITION. The instruction set: one constructor per row of spec/opcode_table.json (30_encoding.md R135).
An operand is what the row leaves free of the element's value; extra bits are no operand, they are read from the
stream when the element executes (R120, R127). -/

namespace Sys2Proof

/-- The eight encoding spaces of the opcode table, its `format` column (R135). -/
inductive Space where
  | btype
  | ll
  | dist
  | cl
  | filter
  | ctrl
  | bc
  | ht
  deriving DecidableEq, Repr

/-- The syntax elements, host commands and port requests the block executes. -/
inductive Instr where
  -- Block types (30_encoding.md R112).
  | btypeStored -- stored block: dispatch R203, body R204
  | btypeFixed -- fixed-Huffman block R205
  | btypeDynamic -- dynamic-Huffman block: dispatch R203, body R206 to R213
  | btypeReserved -- raises InvalidBlockType R203
  -- LL symbols (R118).
  | llLiteral (b : BitVec 8) -- literal byte R242
  | llEob -- end of block R243
  | llLen257 -- length code, 0 extra bits, base 3 (R124, R125, R244)
  | llLen258 -- length code, 0 extra bits, base 4 (R124, R125, R244)
  | llLen259 -- length code, 0 extra bits, base 5 (R124, R125, R244)
  | llLen260 -- length code, 0 extra bits, base 6 (R124, R125, R244)
  | llLen261 -- length code, 0 extra bits, base 7 (R124, R125, R244)
  | llLen262 -- length code, 0 extra bits, base 8 (R124, R125, R244)
  | llLen263 -- length code, 0 extra bits, base 9 (R124, R125, R244)
  | llLen264 -- length code, 0 extra bits, base 10 (R124, R125, R244)
  | llLen265 -- length code, 1 extra bits, base 11 (R124, R125, R244)
  | llLen266 -- length code, 1 extra bits, base 13 (R124, R125, R244)
  | llLen267 -- length code, 1 extra bits, base 15 (R124, R125, R244)
  | llLen268 -- length code, 1 extra bits, base 17 (R124, R125, R244)
  | llLen269 -- length code, 2 extra bits, base 19 (R124, R125, R244)
  | llLen270 -- length code, 2 extra bits, base 23 (R124, R125, R244)
  | llLen271 -- length code, 2 extra bits, base 27 (R124, R125, R244)
  | llLen272 -- length code, 2 extra bits, base 31 (R124, R125, R244)
  | llLen273 -- length code, 3 extra bits, base 35 (R124, R125, R244)
  | llLen274 -- length code, 3 extra bits, base 43 (R124, R125, R244)
  | llLen275 -- length code, 3 extra bits, base 51 (R124, R125, R244)
  | llLen276 -- length code, 3 extra bits, base 59 (R124, R125, R244)
  | llLen277 -- length code, 4 extra bits, base 67 (R124, R125, R244)
  | llLen278 -- length code, 4 extra bits, base 83 (R124, R125, R244)
  | llLen279 -- length code, 4 extra bits, base 99 (R124, R125, R244)
  | llLen280 -- length code, 4 extra bits, base 115 (R124, R125, R244)
  | llLen281 -- length code, 5 extra bits, base 131 (R124, R125, R244)
  | llLen282 -- length code, 5 extra bits, base 163 (R124, R125, R244)
  | llLen283 -- length code, 5 extra bits, base 195 (R124, R125, R244)
  | llLen284 -- length code, 5 extra bits, base 227 (R124, R125, R244)
  | llLen285 -- length code, 0 extra bits, base 258 (R124, R125, R244)
  | llInvalid286287 (sym : BitVec 9) -- raises InvalidLengthCode R245; `sym` is 286 or 287
  -- D symbols (R119, R126).
  | d0 -- distance code, 0 extra bits, base 1 (R126, R247)
  | d1 -- distance code, 0 extra bits, base 2 (R126, R247)
  | d2 -- distance code, 0 extra bits, base 3 (R126, R247)
  | d3 -- distance code, 0 extra bits, base 4 (R126, R247)
  | d4 -- distance code, 1 extra bits, base 5 (R126, R247)
  | d5 -- distance code, 1 extra bits, base 7 (R126, R247)
  | d6 -- distance code, 2 extra bits, base 9 (R126, R247)
  | d7 -- distance code, 2 extra bits, base 13 (R126, R247)
  | d8 -- distance code, 3 extra bits, base 17 (R126, R247)
  | d9 -- distance code, 3 extra bits, base 25 (R126, R247)
  | d10 -- distance code, 4 extra bits, base 33 (R126, R247)
  | d11 -- distance code, 4 extra bits, base 49 (R126, R247)
  | d12 -- distance code, 5 extra bits, base 65 (R126, R247)
  | d13 -- distance code, 5 extra bits, base 97 (R126, R247)
  | d14 -- distance code, 6 extra bits, base 129 (R126, R247)
  | d15 -- distance code, 6 extra bits, base 193 (R126, R247)
  | d16 -- distance code, 7 extra bits, base 257 (R126, R247)
  | d17 -- distance code, 7 extra bits, base 385 (R126, R247)
  | d18 -- distance code, 8 extra bits, base 513 (R126, R247)
  | d19 -- distance code, 8 extra bits, base 769 (R126, R247)
  | d20 -- distance code, 9 extra bits, base 1025 (R126, R247)
  | d21 -- distance code, 9 extra bits, base 1537 (R126, R247)
  | d22 -- distance code, 10 extra bits, base 2049 (R126, R247)
  | d23 -- distance code, 10 extra bits, base 3073 (R126, R247)
  | d24 -- distance code, 11 extra bits, base 4097 (R126, R247)
  | d25 -- distance code, 11 extra bits, base 6145 (R126, R247)
  | d26 -- distance code, 12 extra bits, base 8193 (R126, R247)
  | d27 -- distance code, 12 extra bits, base 12289 (R126, R247)
  | d28 -- distance code, 13 extra bits, base 16385 (R126, R247)
  | d29 -- distance code, 13 extra bits, base 24577 (R126, R247)
  | dInvalid3031 (sym : BitVec 5) -- raises InvalidDistanceCode R247; `sym` is 30 or 31
  -- CL symbols (R117).
  | clLen015 (len : BitVec 4) -- code length `len` R208
  | clRepeatPrev16 -- repeat the previous length R210
  | clRepeatZero17 -- 3 to 10 zeros R211
  | clRepeatZero18 -- 11 to 138 zeros R212
  -- Filter type bytes (R128).
  | filterNone -- R272
  | filterSub -- R273
  | filterUp -- R274
  | filterAverage -- R275
  | filterPaeth -- R276
  | filterInvalid5 -- filter byte 5: raises InvalidFilterType R278
  | filterInvalid67 (ft : BitVec 8) -- filter byte 6..7: raises InvalidFilterType R278
  | filterInvalid815 (ft : BitVec 8) -- filter byte 8..15: raises InvalidFilterType R278
  | filterInvalid1631 (ft : BitVec 8) -- filter byte 16..31: raises InvalidFilterType R278
  | filterInvalid3263 (ft : BitVec 8) -- filter byte 32..63: raises InvalidFilterType R278
  | filterInvalid64127 (ft : BitVec 8) -- filter byte 64..127: raises InvalidFilterType R278
  | filterInvalid128255 (ft : BitVec 8) -- filter byte 128..255: raises InvalidFilterType R278
  -- Host command words written to CTRL (R130).
  | ctrlAbort (w : BitVec 32) -- ABORT R301; bits 31:3, 2 and 0 of `w` are ignored
  | ctrlClear (w : BitVec 32) -- CLEAR R302; bits 31:3 and 0 of `w` are ignored
  | ctrlStart (w : BitVec 32) -- START R300; bits 31:3 of `w` are ignored
  | ctrlNone (w : BitVec 32) -- no command R303; bits 31:3 of `w` are ignored
  -- bit_cursor port requests (R131).
  | bcReadBitMsb (n : BitVec 6) -- readBitMSB R161; `n` is ignored
  | bcReadBitsMsb (n : BitVec 6) -- readBitsMSB(n) R162
  | bcPeekBitsMsb (n : BitVec 6) -- peekBitsMSB(n) R163
  | bcReadBitsLsb (n : BitVec 6) -- readBitsLSB(n) R164
  | bcSkipBits (n : BitVec 6) -- skipBits(n) R165
  | bcAlignToByte (n : BitVec 6) -- alignToByte R166; `n` is ignored
  | bcReserved67 (op : BitVec 3) (n : BitVec 6) -- op 6 or 7: raises CallerError R168
  -- huffman_decoder port requests (R132).
  | htBuildFixed (tid : BitVec 3) -- buildFixed R183, R184
  | htBuildFromLengths (tid : BitVec 3) -- buildFromLengths R182
  | htDecode (tid : BitVec 3) -- decode R185
  | htReserved3 (tid : BitVec 3) -- op 3: raises CallerError R132
  deriving DecidableEq, Repr

end Sys2Proof
end

