-- ==== Sys2Proof/WellFormed.lean ====
section
/-! DEFINITION. Which instruction terms the encoding admits: an operand that holds an element's whole value must match
its row of spec/opcode_table.json (value AND mask = match, 30_encoding.md R135). -/

namespace Sys2Proof

/-- A value matches a row of the opcode table (R135). -/
def rowMatches (mask pat v : Nat) : Bool := (v &&& mask) == pat

/-- Well-formed: the operand lies in the row. Operands that a row leaves wholly free are checked by their type. -/
def Instr.wf : Instr → Bool
  | .btypeStored => true
  | .btypeFixed => true
  | .btypeDynamic => true
  | .btypeReserved => true
  | .llLiteral _ => true
  | .llEob => true
  | .llLen257 => true
  | .llLen258 => true
  | .llLen259 => true
  | .llLen260 => true
  | .llLen261 => true
  | .llLen262 => true
  | .llLen263 => true
  | .llLen264 => true
  | .llLen265 => true
  | .llLen266 => true
  | .llLen267 => true
  | .llLen268 => true
  | .llLen269 => true
  | .llLen270 => true
  | .llLen271 => true
  | .llLen272 => true
  | .llLen273 => true
  | .llLen274 => true
  | .llLen275 => true
  | .llLen276 => true
  | .llLen277 => true
  | .llLen278 => true
  | .llLen279 => true
  | .llLen280 => true
  | .llLen281 => true
  | .llLen282 => true
  | .llLen283 => true
  | .llLen284 => true
  | .llLen285 => true
  | .llInvalid286287 sym => rowMatches 510 286 sym.toNat
  | .d0 => true
  | .d1 => true
  | .d2 => true
  | .d3 => true
  | .d4 => true
  | .d5 => true
  | .d6 => true
  | .d7 => true
  | .d8 => true
  | .d9 => true
  | .d10 => true
  | .d11 => true
  | .d12 => true
  | .d13 => true
  | .d14 => true
  | .d15 => true
  | .d16 => true
  | .d17 => true
  | .d18 => true
  | .d19 => true
  | .d20 => true
  | .d21 => true
  | .d22 => true
  | .d23 => true
  | .d24 => true
  | .d25 => true
  | .d26 => true
  | .d27 => true
  | .d28 => true
  | .d29 => true
  | .dInvalid3031 sym => rowMatches 30 30 sym.toNat
  | .clLen015 _ => true
  | .clRepeatPrev16 => true
  | .clRepeatZero17 => true
  | .clRepeatZero18 => true
  | .filterNone => true
  | .filterSub => true
  | .filterUp => true
  | .filterAverage => true
  | .filterPaeth => true
  | .filterInvalid5 => true
  | .filterInvalid67 ft => rowMatches 254 6 ft.toNat
  | .filterInvalid815 ft => rowMatches 248 8 ft.toNat
  | .filterInvalid1631 ft => rowMatches 240 16 ft.toNat
  | .filterInvalid3263 ft => rowMatches 224 32 ft.toNat
  | .filterInvalid64127 ft => rowMatches 192 64 ft.toNat
  | .filterInvalid128255 ft => rowMatches 128 128 ft.toNat
  | .ctrlAbort w => rowMatches 2 2 w.toNat
  | .ctrlClear w => rowMatches 6 4 w.toNat
  | .ctrlStart w => rowMatches 7 1 w.toNat
  | .ctrlNone w => rowMatches 7 0 w.toNat
  | .bcReadBitMsb _ => true
  | .bcReadBitsMsb _ => true
  | .bcPeekBitsMsb _ => true
  | .bcReadBitsLsb _ => true
  | .bcSkipBits _ => true
  | .bcAlignToByte _ => true
  | .bcReserved67 op _ => rowMatches 6 6 op.toNat
  | .htBuildFixed _ => true
  | .htBuildFromLengths _ => true
  | .htDecode _ => true
  | .htReserved3 _ => true

end Sys2Proof
end

