-- ==== Sys2Proof/Decode.lean ====
section
/-! DEFINITION. From element values to instructions and back (30_encoding.md R111 to R135).
An element is a value of one of the eight encoding spaces. Which space comes next is decided by where the machine stands
(10_state.md R41), not by the bits, so the decoder is given the space with the value. -/

namespace Sys2Proof

/-- An element's value with its encoding space, each as wide as the spec gives it. -/
inductive Element where
  /-- BTYPE, 2 bits (R111). -/
  | btype (t : BitVec 2)
  /-- An LL symbol, 9 bits (R118). -/
  | ll (s : BitVec 9)
  /-- A D symbol, 5 bits (R119). -/
  | dist (s : BitVec 5)
  /-- A CL symbol, 5 bits (R117). -/
  | cl (s : BitVec 5)
  /-- A filter type byte (R128). -/
  | filter (b : BitVec 8)
  /-- A word written to CTRL (R130). -/
  | ctrl (w : BitVec 32)
  /-- A bit_cursor request: op[2:0] above n[5:0] (R131). -/
  | bc (req : BitVec 9)
  /-- A huffman_decoder request: op[1:0] above tid[2:0] (R132). -/
  | ht (req : BitVec 5)
  deriving DecidableEq, Repr

/-- Why a value is no instruction. -/
inductive Reject where
  /-- An LL symbol above 287 (R118: the alphabet is 0..287). -/
  | llSymbolAbove287
  /-- A CL symbol above 18 (R117: "There are no CL symbols above 18"). -/
  | clSymbolAbove18
  /-- A value wider than its encoding space. -/
  | valueTooWide
  deriving DecidableEq, Repr

/-- What the decoder answers: an instruction, or a refusal by name. -/
inductive Decoding where
  | ok (i : Instr)
  | error (r : Reject)
  deriving DecidableEq, Repr

/-- BTYPE values (R112). -/
def decodeBtype (t : BitVec 2) : Instr :=
  match t.toNat with
  | 0 => .btypeStored
  | 1 => .btypeFixed
  | 2 => .btypeDynamic
  | _ => .btypeReserved

/-- LL symbols (R118). -/
def decodeLL (s : BitVec 9) : Decoding :=
  if s.toNat < 256 then .ok (.llLiteral (s.setWidth 8))
  else
    match s.toNat with
    | 256 => .ok .llEob
    | 257 => .ok .llLen257
    | 258 => .ok .llLen258
    | 259 => .ok .llLen259
    | 260 => .ok .llLen260
    | 261 => .ok .llLen261
    | 262 => .ok .llLen262
    | 263 => .ok .llLen263
    | 264 => .ok .llLen264
    | 265 => .ok .llLen265
    | 266 => .ok .llLen266
    | 267 => .ok .llLen267
    | 268 => .ok .llLen268
    | 269 => .ok .llLen269
    | 270 => .ok .llLen270
    | 271 => .ok .llLen271
    | 272 => .ok .llLen272
    | 273 => .ok .llLen273
    | 274 => .ok .llLen274
    | 275 => .ok .llLen275
    | 276 => .ok .llLen276
    | 277 => .ok .llLen277
    | 278 => .ok .llLen278
    | 279 => .ok .llLen279
    | 280 => .ok .llLen280
    | 281 => .ok .llLen281
    | 282 => .ok .llLen282
    | 283 => .ok .llLen283
    | 284 => .ok .llLen284
    | 285 => .ok .llLen285
    | 286 => .ok (.llInvalid286287 s)
    | 287 => .ok (.llInvalid286287 s)
    | _ => .error .llSymbolAbove287

/-- D symbols (R119). -/
def decodeDist (s : BitVec 5) : Instr :=
  match s.toNat with
  | 0 => .d0
  | 1 => .d1
  | 2 => .d2
  | 3 => .d3
  | 4 => .d4
  | 5 => .d5
  | 6 => .d6
  | 7 => .d7
  | 8 => .d8
  | 9 => .d9
  | 10 => .d10
  | 11 => .d11
  | 12 => .d12
  | 13 => .d13
  | 14 => .d14
  | 15 => .d15
  | 16 => .d16
  | 17 => .d17
  | 18 => .d18
  | 19 => .d19
  | 20 => .d20
  | 21 => .d21
  | 22 => .d22
  | 23 => .d23
  | 24 => .d24
  | 25 => .d25
  | 26 => .d26
  | 27 => .d27
  | 28 => .d28
  | 29 => .d29
  | _ => .dInvalid3031 s

/-- CL symbols (R117). -/
def decodeCL (s : BitVec 5) : Decoding :=
  if s.toNat < 16 then .ok (.clLen015 (s.setWidth 4))
  else
    match s.toNat with
    | 16 => .ok .clRepeatPrev16
    | 17 => .ok .clRepeatZero17
    | 18 => .ok .clRepeatZero18
    | _ => .error .clSymbolAbove18

/-- Filter type bytes (R128), the reserved values in the table's seven ranges. -/
def decodeFilter (b : BitVec 8) : Instr :=
  match b.toNat with
  | 0 => .filterNone
  | 1 => .filterSub
  | 2 => .filterUp
  | 3 => .filterAverage
  | 4 => .filterPaeth
  | 5 => .filterInvalid5
  | _ =>
    if b.toNat < 8 then .filterInvalid67 b
    else if b.toNat < 16 then .filterInvalid815 b
    else if b.toNat < 32 then .filterInvalid1631 b
    else if b.toNat < 64 then .filterInvalid3263 b
    else if b.toNat < 128 then .filterInvalid64127 b
    else .filterInvalid128255 b

/-- Command words (R130, R303): ABORT before CLEAR before START; bits 31:3 are ignored. -/
def decodeCtrl (w : BitVec 32) : Instr :=
  if rowMatches 2 2 w.toNat then .ctrlAbort w
  else if rowMatches 6 4 w.toNat then .ctrlClear w
  else if rowMatches 7 1 w.toNat then .ctrlStart w
  else .ctrlNone w

/-- bit_cursor requests (R131). -/
def decodeBC (req : BitVec 9) : Instr :=
  let op : BitVec 3 := req.extractLsb' 6 3
  let n : BitVec 6 := req.extractLsb' 0 6
  match op.toNat with
  | 0 => .bcReadBitMsb n
  | 1 => .bcReadBitsMsb n
  | 2 => .bcPeekBitsMsb n
  | 3 => .bcReadBitsLsb n
  | 4 => .bcSkipBits n
  | 5 => .bcAlignToByte n
  | _ => .bcReserved67 op n

/-- huffman_decoder requests (R132). -/
def decodeHT (req : BitVec 5) : Instr :=
  let op : BitVec 2 := req.extractLsb' 3 2
  let tid : BitVec 3 := req.extractLsb' 0 3
  match op.toNat with
  | 0 => .htBuildFixed tid
  | 1 => .htBuildFromLengths tid
  | 2 => .htDecode tid
  | _ => .htReserved3 tid

/-- The decoder: total, and rejecting by name. -/
def decode : Element → Decoding
  | .btype t => .ok (decodeBtype t)
  | .ll s => decodeLL s
  | .dist s => .ok (decodeDist s)
  | .cl s => decodeCL s
  | .filter b => .ok (decodeFilter b)
  | .ctrl w => .ok (decodeCtrl w)
  | .bc r => .ok (decodeBC r)
  | .ht r => .ok (decodeHT r)

/-- The encoder: the element of a well-formed instruction, by the same tables (R111 to R132). -/
def encode : Instr → Element
  | .btypeStored => .btype 0
  | .btypeFixed => .btype 1
  | .btypeDynamic => .btype 2
  | .btypeReserved => .btype 3
  | .llLiteral b => .ll (b.setWidth 9)
  | .llEob => .ll 256
  | .llLen257 => .ll 257
  | .llLen258 => .ll 258
  | .llLen259 => .ll 259
  | .llLen260 => .ll 260
  | .llLen261 => .ll 261
  | .llLen262 => .ll 262
  | .llLen263 => .ll 263
  | .llLen264 => .ll 264
  | .llLen265 => .ll 265
  | .llLen266 => .ll 266
  | .llLen267 => .ll 267
  | .llLen268 => .ll 268
  | .llLen269 => .ll 269
  | .llLen270 => .ll 270
  | .llLen271 => .ll 271
  | .llLen272 => .ll 272
  | .llLen273 => .ll 273
  | .llLen274 => .ll 274
  | .llLen275 => .ll 275
  | .llLen276 => .ll 276
  | .llLen277 => .ll 277
  | .llLen278 => .ll 278
  | .llLen279 => .ll 279
  | .llLen280 => .ll 280
  | .llLen281 => .ll 281
  | .llLen282 => .ll 282
  | .llLen283 => .ll 283
  | .llLen284 => .ll 284
  | .llLen285 => .ll 285
  | .llInvalid286287 sym => .ll sym
  | .d0 => .dist 0
  | .d1 => .dist 1
  | .d2 => .dist 2
  | .d3 => .dist 3
  | .d4 => .dist 4
  | .d5 => .dist 5
  | .d6 => .dist 6
  | .d7 => .dist 7
  | .d8 => .dist 8
  | .d9 => .dist 9
  | .d10 => .dist 10
  | .d11 => .dist 11
  | .d12 => .dist 12
  | .d13 => .dist 13
  | .d14 => .dist 14
  | .d15 => .dist 15
  | .d16 => .dist 16
  | .d17 => .dist 17
  | .d18 => .dist 18
  | .d19 => .dist 19
  | .d20 => .dist 20
  | .d21 => .dist 21
  | .d22 => .dist 22
  | .d23 => .dist 23
  | .d24 => .dist 24
  | .d25 => .dist 25
  | .d26 => .dist 26
  | .d27 => .dist 27
  | .d28 => .dist 28
  | .d29 => .dist 29
  | .dInvalid3031 sym => .dist sym
  | .clLen015 len => .cl (len.setWidth 5)
  | .clRepeatPrev16 => .cl 16
  | .clRepeatZero17 => .cl 17
  | .clRepeatZero18 => .cl 18
  | .filterNone => .filter 0
  | .filterSub => .filter 1
  | .filterUp => .filter 2
  | .filterAverage => .filter 3
  | .filterPaeth => .filter 4
  | .filterInvalid5 => .filter 5
  | .filterInvalid67 ft => .filter ft
  | .filterInvalid815 ft => .filter ft
  | .filterInvalid1631 ft => .filter ft
  | .filterInvalid3263 ft => .filter ft
  | .filterInvalid64127 ft => .filter ft
  | .filterInvalid128255 ft => .filter ft
  | .ctrlAbort w => .ctrl w
  | .ctrlClear w => .ctrl w
  | .ctrlStart w => .ctrl w
  | .ctrlNone w => .ctrl w
  | .bcReadBitMsb n => .bc (0#3 ++ n)
  | .bcReadBitsMsb n => .bc (1#3 ++ n)
  | .bcPeekBitsMsb n => .bc (2#3 ++ n)
  | .bcReadBitsLsb n => .bc (3#3 ++ n)
  | .bcSkipBits n => .bc (4#3 ++ n)
  | .bcAlignToByte n => .bc (5#3 ++ n)
  | .bcReserved67 op n => .bc (op ++ n)
  | .htBuildFixed tid => .ht (0#2 ++ tid)
  | .htBuildFromLengths tid => .ht (1#2 ++ tid)
  | .htDecode tid => .ht (2#2 ++ tid)
  | .htReserved3 tid => .ht (3#2 ++ tid)

/-- The encoding space of an element. -/
def Element.space : Element → Space
  | .btype _ => .btype
  | .ll _ => .ll
  | .dist _ => .dist
  | .cl _ => .cl
  | .filter _ => .filter
  | .ctrl _ => .ctrl
  | .bc _ => .bc
  | .ht _ => .ht

/-- An element's value as a number. -/
def Element.value : Element → Nat
  | .btype t => t.toNat
  | .ll s => s.toNat
  | .dist s => s.toNat
  | .cl s => s.toNat
  | .filter b => b.toNat
  | .ctrl w => w.toNat
  | .bc r => r.toNat
  | .ht r => r.toNat

/-- The bits of a value of each encoding space. -/
def Space.width : Space → Nat
  | .btype => 2
  | .ll => 9
  | .dist => 5
  | .cl => 5
  | .filter => 8
  | .ctrl => 32
  | .bc => 9
  | .ht => 5

/-- The low bits of a number as an element. -/
def Element.ofNat (sp : Space) (v : Nat) : Element :=
  match sp with
  | .btype => .btype (BitVec.ofNat 2 v)
  | .ll => .ll (BitVec.ofNat 9 v)
  | .dist => .dist (BitVec.ofNat 5 v)
  | .cl => .cl (BitVec.ofNat 5 v)
  | .filter => .filter (BitVec.ofNat 8 v)
  | .ctrl => .ctrl (BitVec.ofNat 32 v)
  | .bc => .bc (BitVec.ofNat 9 v)
  | .ht => .ht (BitVec.ofNat 5 v)

/-- A little-endian string of bytes as a number. -/
def bytesValue : List Byte → Nat
  | [] => 0
  | b :: bs => b.toNat + 256 * bytesValue bs

/-- Decoding any bytes as an element of a space: a value that does not fit the space is rejected by name. -/
def decodeBytes (sp : Space) (bs : List Byte) : Decoding :=
  if bytesValue bs < 2 ^ sp.width then decode (Element.ofNat sp (bytesValue bs)) else .error .valueTooWide

/-! ## The opcode table -/

/-- A row of spec/opcode_table.json: its space, its match and mask over the element's value bits (for a port request,
over the op field), and the bits the table gives the row, in whole bytes. -/
structure TableRow where
  space : Space
  pat : Nat
  mask : Nat
  nbits : Nat
  deriving DecidableEq, Repr

/-- Rows of the opcode table, space `btype`. -/
def rowsBtype : List TableRow :=
  [⟨.btype, 0, 3, 8⟩, ⟨.btype, 1, 3, 8⟩, ⟨.btype, 2, 3, 8⟩, ⟨.btype, 3, 3, 8⟩]

/-- Rows of the opcode table, space `ll`. -/
def rowsLl1 : List TableRow :=
  [⟨.ll, 0, 256, 16⟩, ⟨.ll, 256, 511, 16⟩, ⟨.ll, 257, 511, 16⟩, ⟨.ll, 258, 511, 16⟩,
   ⟨.ll, 259, 511, 16⟩, ⟨.ll, 260, 511, 16⟩, ⟨.ll, 261, 511, 16⟩, ⟨.ll, 262, 511, 16⟩,
   ⟨.ll, 263, 511, 16⟩, ⟨.ll, 264, 511, 16⟩, ⟨.ll, 265, 511, 16⟩, ⟨.ll, 266, 511, 16⟩,
   ⟨.ll, 267, 511, 16⟩, ⟨.ll, 268, 511, 16⟩, ⟨.ll, 269, 511, 16⟩, ⟨.ll, 270, 511, 16⟩]

/-- Rows of the opcode table, space `ll`. -/
def rowsLl2 : List TableRow :=
  [⟨.ll, 271, 511, 16⟩, ⟨.ll, 272, 511, 16⟩, ⟨.ll, 273, 511, 16⟩, ⟨.ll, 274, 511, 16⟩,
   ⟨.ll, 275, 511, 16⟩, ⟨.ll, 276, 511, 16⟩, ⟨.ll, 277, 511, 16⟩, ⟨.ll, 278, 511, 16⟩,
   ⟨.ll, 279, 511, 16⟩, ⟨.ll, 280, 511, 16⟩, ⟨.ll, 281, 511, 16⟩, ⟨.ll, 282, 511, 16⟩,
   ⟨.ll, 283, 511, 16⟩, ⟨.ll, 284, 511, 16⟩, ⟨.ll, 285, 511, 16⟩, ⟨.ll, 286, 510, 16⟩]

/-- Rows of the opcode table, space `dist`. -/
def rowsDist1 : List TableRow :=
  [⟨.dist, 0, 31, 8⟩, ⟨.dist, 1, 31, 8⟩, ⟨.dist, 2, 31, 8⟩, ⟨.dist, 3, 31, 8⟩,
   ⟨.dist, 4, 31, 8⟩, ⟨.dist, 5, 31, 8⟩, ⟨.dist, 6, 31, 8⟩, ⟨.dist, 7, 31, 8⟩,
   ⟨.dist, 8, 31, 8⟩, ⟨.dist, 9, 31, 8⟩, ⟨.dist, 10, 31, 8⟩, ⟨.dist, 11, 31, 8⟩,
   ⟨.dist, 12, 31, 8⟩, ⟨.dist, 13, 31, 8⟩, ⟨.dist, 14, 31, 8⟩, ⟨.dist, 15, 31, 8⟩]

/-- Rows of the opcode table, space `dist`. -/
def rowsDist2 : List TableRow :=
  [⟨.dist, 16, 31, 8⟩, ⟨.dist, 17, 31, 8⟩, ⟨.dist, 18, 31, 16⟩, ⟨.dist, 19, 31, 16⟩,
   ⟨.dist, 20, 31, 16⟩, ⟨.dist, 21, 31, 16⟩, ⟨.dist, 22, 31, 16⟩, ⟨.dist, 23, 31, 16⟩,
   ⟨.dist, 24, 31, 16⟩, ⟨.dist, 25, 31, 16⟩, ⟨.dist, 26, 31, 16⟩, ⟨.dist, 27, 31, 16⟩,
   ⟨.dist, 28, 31, 16⟩, ⟨.dist, 29, 31, 16⟩, ⟨.dist, 30, 30, 8⟩]

/-- Rows of the opcode table, space `cl`. -/
def rowsCl : List TableRow :=
  [⟨.cl, 0, 16, 8⟩, ⟨.cl, 16, 31, 8⟩, ⟨.cl, 17, 31, 8⟩, ⟨.cl, 18, 31, 8⟩]

/-- Rows of the opcode table, space `filter`. -/
def rowsFilter : List TableRow :=
  [⟨.filter, 0, 255, 8⟩, ⟨.filter, 1, 255, 8⟩, ⟨.filter, 2, 255, 8⟩, ⟨.filter, 3, 255, 8⟩,
   ⟨.filter, 4, 255, 8⟩, ⟨.filter, 5, 255, 8⟩, ⟨.filter, 6, 254, 8⟩, ⟨.filter, 8, 248, 16⟩,
   ⟨.filter, 16, 240, 32⟩, ⟨.filter, 32, 224, 8⟩, ⟨.filter, 64, 192, 8⟩, ⟨.filter, 128, 128, 8⟩]

/-- Rows of the opcode table, space `ctrl`. -/
def rowsCtrl : List TableRow :=
  [⟨.ctrl, 2, 2, 8⟩, ⟨.ctrl, 4, 6, 8⟩, ⟨.ctrl, 1, 7, 32⟩, ⟨.ctrl, 0, 7, 8⟩]

/-- Rows of the opcode table, space `bc`. -/
def rowsBc : List TableRow :=
  [⟨.bc, 0, 7, 8⟩, ⟨.bc, 1, 7, 8⟩, ⟨.bc, 2, 7, 8⟩, ⟨.bc, 3, 7, 8⟩,
   ⟨.bc, 4, 7, 8⟩, ⟨.bc, 5, 7, 8⟩, ⟨.bc, 6, 6, 8⟩]

/-- Rows of the opcode table, space `ht`. -/
def rowsHt : List TableRow :=
  [⟨.ht, 0, 3, 8⟩, ⟨.ht, 1, 3, 8⟩, ⟨.ht, 2, 3, 8⟩, ⟨.ht, 3, 3, 8⟩]

/-- The opcode table, in its own order. -/
def opcodeRows : List TableRow :=
  rowsBtype ++ rowsLl1 ++ rowsLl2 ++ rowsDist1 ++ rowsDist2 ++ rowsCl ++
  rowsFilter ++ rowsCtrl ++ rowsBc ++ rowsHt

/-- The value bits a row's mask and match stand over (R135): for a port request its op field. -/
def Element.rowValue : Element → Nat
  | .bc r => r.toNat / 64
  | .ht r => r.toNat / 8
  | .btype t => t.toNat
  | .ll s => s.toNat
  | .dist s => s.toNat
  | .cl s => s.toNat
  | .filter b => b.toNat
  | .ctrl w => w.toNat

/-- The row holds the value. -/
def TableRow.holds (r : TableRow) (v : Nat) : Bool := rowMatches r.mask r.pat v

/-- How closely a row fits a table word: a word equal to the row's match first, then the number of bits the mask fixes. -/
def TableRow.fit (r : TableRow) (w : Nat) : Nat :=
  (if w = r.pat then 64 else 0) + (List.range 32).countP (fun k => r.mask.testBit k)

/-- The best fitting of the rows that hold the word, the first of equals. -/
def bestRow (w : Nat) : List TableRow → Option TableRow
  | [] => none
  | r :: rs =>
    if r.holds w then
      match bestRow w rs with
      | none => some r
      | some q => if r.fit w < q.fit w then some q else some r
    else bestRow w rs

/-- A table word as the element it stands for. The table numbers a port request's op field from bit 0 and gives its
operand field no bits, so the op moves to its place above an operand of zeros (R131, R132). -/
def tableElement (sp : Space) (w : Nat) : Element :=
  match sp with
  | .bc => .bc (BitVec.ofNat 3 w ++ 0#6)
  | .ht => .ht (BitVec.ofNat 2 w ++ 0#3)
  | _ => Element.ofNat sp w

/-- The bits of the value a space's rows stand over. -/
def Space.rowWidth : Space → Nat
  | .bc => 3
  | .ht => 2
  | .btype => 2
  | .ll => 9
  | .dist => 5
  | .cl => 5
  | .filter => 8
  | .ctrl => 32

/-- The rows of a space wide enough for the word. -/
def rowsFor (w : Nat) (rs : List TableRow) : List TableRow := rs.filter (fun r => decide (w < 2 ^ r.space.rowWidth))

/-- The element a table word of a length stands for. The eight spaces overlap as numbers and the table word does not
name its space, so the best fitting row of that length decides (DESIGN CHOICE, log 17). -/
def elementOfTableWord (nbits w : Nat) : Option Element :=
  match bestRow w (rowsFor w (opcodeRows.filter (fun r => r.nbits == nbits))) with
  | some r => some (tableElement r.space w)
  | none =>
    match bestRow w (rowsFor w opcodeRows) with
    | some r => some (tableElement r.space w)
    | none => none

/-- The instruction the decoder reads from a table word. -/
def decodeTableWord (nbits w : Nat) : Option Instr :=
  match elementOfTableWord nbits w with
  | some e =>
    match decode e with
    | .ok i => some i
    | .error _ => none
  | none => none

end Sys2Proof
end

