-- ==== Sys2Proof/Machine/State.lean ====
section
/-! DEFINITION. The machine's state, as plain data, and its value after reset (10_state.md, 20_memory.md). -/

namespace Sys2Proof.Machine

/-- A memory: its written bytes by strictly rising address. An address that is not listed has no value here; what its
byte is has been left open by the spec and is a free value where it is read (log 4). -/
abbrev Memory := List Host.Cell

/-- Canonical form of a memory: addresses strictly rising. -/
def Memory.wf : Memory → Bool
  | [] => true
  | [_] => true
  | c :: d :: m => decide (c.1 < d.1) && Memory.wf (d :: m)

/-- `phase` (R41): the block's place in the decode algorithm. -/
inductive Phase where
  | idle
  | header
  | stored
  | dynamic
  | tokens
  | blockEnd
  | defilterStart
  | defilterRow
  | done
  | error
  deriving DecidableEq, Repr

/-- The error kinds of 60_exceptions.md R320. -/
inductive ErrorKind where
  | outOfData
  | invalidBlockType
  | lengthMismatch
  | invalidCodeLengths
  | noMatchingCode
  | invalidDistanceCode
  | invalidBackReference
  | invalidLengthCode
  | outputOverflow
  | invalidFilterType
  | imageDataShort
  | invalidConfig
  | callerError
  | aborted
  deriving DecidableEq, Repr

/-- The memories a host addresses (R80): SL_PREV is none of them. -/
inductive HostMem where
  | inMem
  | dbuf
  | pix
  deriving DecidableEq, Repr

/-- One turn of the schedule: what happens next. Host actions land between engine steps (R100); the platform may give a
reset at any time (R350); a request on an internal port can be presented as when "the ports are exposed for test" (D14). -/
inductive Turn where
  /-- The engine takes the step of its phase, or none where its phase has none (R200). -/
  | engine
  /-- The host reads REG at a byte offset, `width` bits wide (R92, R304). -/
  | regRead (offset : Nat) (width : Nat)
  /-- The host writes REG at a byte offset, `width` bits wide (R92, R305). -/
  | regWrite (offset : Nat) (width : Nat) (value : Word)
  /-- The host reads one byte of a memory (R306). -/
  | memRead (mem : HostMem) (addr : Nat)
  /-- The host writes one byte of a memory (R306). -/
  | memWrite (mem : HostMem) (addr : Nat) (value : Byte)
  /-- A request on the bit_cursor port (R131). -/
  | bcRequest (req : BitVec 9)
  /-- A request on the huffman_decoder port with the port's length vector (R132). -/
  | htRequest (req : BitVec 5) (lens : List (BitVec 4))
  /-- The platform's reset event (R350). -/
  | reset
  deriving DecidableEq, Repr

/-- The host-visible registers that hold state (R32, R34 to R38, R42). -/
structure Regs where
  /-- CONFIG.DEFILTER_EN (R32). -/
  defilterEn : Bool
  /-- CONFIG.IRQ_EN (R32). -/
  irqEn : Bool
  /-- IN_LEN (R34). -/
  inLen : Word
  /-- WIDTH (R35). -/
  width : Word
  /-- HEIGHT (R36). -/
  height : Word
  /-- DBUF_LEN (R37). -/
  dbufLen : Word
  /-- PIX_LEN (R38). -/
  pixLen : Word
  /-- BLOCK_COUNT (R42). -/
  blockCount : Word
  deriving DecidableEq, Repr

/-- The bit cursor (R40), mirrored by CUR_BYTE and CUR_BIT (R39). -/
structure Cursor where
  /-- BI, the byte index. -/
  byteIx : Word
  /-- bi, the bit index within the byte. -/
  bitIx : BitVec 3
  deriving DecidableEq, Repr

/-- The error code and context registers (R33, R43). -/
structure ErrRegs where
  /-- STATUS.ERR_CODE. -/
  code : BitVec 4
  /-- ERR_BYTE. -/
  byte : Word
  /-- ERR_BIT bits 2:0. -/
  bit : BitVec 3
  /-- ERR_BLOCK. -/
  block : Word
  /-- ERR_ROW. -/
  row : Word
  deriving DecidableEq, Repr

/-- The block state machine registers (R45). -/
structure BlockRegs where
  /-- BFINAL. -/
  bfinal : Bool
  /-- BTYPE. -/
  btype : BitVec 2
  /-- ACT: false the fixed tables, true the dynamic ones. -/
  act : Bool
  deriving DecidableEq, Repr

/-- The dynamic header registers (R46). -/
structure DynHeader where
  /-- HLIT. -/
  hlit : BitVec 9
  /-- HDIST. -/
  hdist : BitVec 6
  /-- HCLEN. -/
  hclen : BitVec 5
  /-- CLL[0..18]. -/
  cll : List (BitVec 3)
  /-- LENS[0..319]. -/
  lens : List (BitVec 4)
  /-- NL. -/
  nl : BitVec 9
  deriving DecidableEq, Repr

/-- The token registers (R47). -/
structure Token where
  /-- SYM. -/
  sym : BitVec 9
  /-- LEN. -/
  len : BitVec 9
  /-- DSYM. -/
  dsym : BitVec 5
  /-- DIST. -/
  dist : BitVec 16
  deriving DecidableEq, Repr

/-- A Huffman table (R50). `count`, `first` and `offset` list the lengths 1..15, `sym` the places 0..n-1. -/
structure HuffTable where
  count : List (BitVec 9)
  first : List (BitVec 16)
  offset : List (BitVec 9)
  sym : List (BitVec 9)
  used : BitVec 9
  minLen : BitVec 4
  maxLen : BitVec 4
  deriving DecidableEq, Repr

/-- The writable tables' slots (R51). -/
inductive Slot where
  | cl
  | ll
  | d
  deriving DecidableEq, Repr

/-- The alphabet size n of a slot (R51). -/
def Slot.size : Slot → Nat
  | .cl => 19
  | .ll => 288
  | .d => 32

/-- The table with no symbol over an alphabet of n symbols. -/
def HuffTable.empty (n : Nat) : HuffTable :=
  { count := List.replicate 15 0, first := List.replicate 15 0, offset := List.replicate 15 0,
    sym := List.replicate n 0, used := 0, minLen := 0, maxLen := 0 }

/-- T_CL, T_LL and T_D (R51). -/
structure Tables where
  cl : HuffTable
  ll : HuffTable
  d : HuffTable
  deriving DecidableEq, Repr

/-- ROW and STG (R52). -/
structure Defilter where
  /-- ROW. -/
  row : Word
  /-- STG, which STATUS.STAGE shows: true in the defilter stage. -/
  stg : Bool
  deriving DecidableEq, Repr

/-- The memories (R53) and the scanline buffer SL_PREV (R52). -/
structure Mems where
  inMem : Memory
  dbuf : Memory
  pix : Memory
  slPrev : Memory
  deriving DecidableEq, Repr

/-- The schedule, what the host and the ports were last answered, and the counters behind the free values. -/
structure Env where
  /-- The pending turns, next first; where none is pending the engine moves (log 2). -/
  inputs : List Turn
  /-- The value the host's last read returned, zero-extended (log 23). -/
  hostData : Word
  /-- The last bit_cursor response's value (R131; log 23). -/
  portValue : Word
  /-- The last bit_cursor response's err (R131; log 23). -/
  portErr : Bool
  /-- The last huffman_decoder response's symbol (R132; log 23, log 26). -/
  portSym : BitVec 9
  /-- The last huffman_decoder response's bitsConsumed (R132; log 23, log 26). -/
  portBits : BitVec 4
  /-- The huffman_decoder port's length vector (R132); an entry beyond the list is 0. -/
  portLens : List (BitVec 4)
  /-- How many free values have been drawn (log 9). -/
  draws : Nat
  /-- How many platform resets have happened (log 20). -/
  epoch : Nat
  deriving DecidableEq, Repr

/-- The whole state of the block. -/
structure State where
  /-- The parameters (R9); nothing changes them. -/
  params : Params
  regs : Regs
  cur : Cursor
  phase : Phase
  err : ErrRegs
  blk : BlockRegs
  hdr : DynHeader
  tok : Token
  tabs : Tables
  defl : Defilter
  mem : Mems
  env : Env
  deriving DecidableEq, Repr

/-- Why the machine stops with a fault. Each is raised by an engine access that the spec says does not exist, cannot
happen from a state that meets the invariant (10_state.md R57), and is safe: the model stops where it knows nothing. -/
inductive Fault where
  /-- The engine reads IN at or above IN_CAP (R80): raised by a cursor read. Safe. -/
  | inAddress
  /-- The engine reads DBUF at or above DBUF_CAP (R80): raised by P_DEFILTER_ROW. Safe. -/
  | dbufAddress
  /-- The engine writes PIX at or above PIX_CAP (R80): raised by P_DEFILTER_ROW. Safe. -/
  | pixAddress
  /-- The engine addresses SL_PREV at or above 3*MAX_WIDTH (R52): raised by the defilter steps. Safe. -/
  | slPrevAddress
  /-- A decode finds its symbol's place outside T.sym (R50): raised by decode. Safe. -/
  | tableIndex
  /-- A decoded symbol is outside its alphabet (R117, R118): raised by P_DYNAMIC and P_TOKENS. Safe. -/
  | symbolOutsideAlphabet
  deriving DecidableEq, Repr

/-- Why the machine refuses to go on. -/
inductive Refusal where
  /-- An instruction without a meaning in this model: raised by a refused arm of exec. Safe. -/
  | notModelled (mnemonic : String)
  /-- A host access at or beyond the size of its space (R93, U22: "refuse"): raised by a host memory turn. Safe. -/
  | hostAddress
  /-- A host write to DBUF or PIX (R306, U23: "refuse"): raised by a host memory turn. Safe. -/
  | hostWriteOutput
  deriving DecidableEq, Repr

/-- The state after reset for given parameters (R56). Registers without a reset value hold zero (log 5, 6, 7). -/
def State.resetWith (p : Params) : State :=
  { params := p
    regs := { defilterEn := true, irqEn := false, inLen := 0, width := 0, height := 0, dbufLen := 0, pixLen := 0,
              blockCount := 0 }
    cur := { byteIx := 0, bitIx := 0 }
    phase := .idle
    err := { code := 0, byte := 0, bit := 0, block := 0, row := 0 }
    blk := { bfinal := false, btype := 0, act := false }
    hdr := { hlit := 0, hdist := 0, hclen := 0, cll := List.replicate 19 0, lens := List.replicate 320 0, nl := 0 }
    tok := { sym := 0, len := 0, dsym := 0, dist := 0 }
    tabs := { cl := HuffTable.empty 19, ll := HuffTable.empty 288, d := HuffTable.empty 32 }
    defl := { row := 0, stg := false }
    mem := { inMem := [], dbuf := [], pix := [], slPrev := [] }
    env := { inputs := [], hostData := 0, portValue := 0, portErr := false, portSym := 0, portBits := 0, portLens := [],
             draws := 0, epoch := 0 } }

/-- The machine right after reset (R56, R350), for the nominal parameters (log 1). -/
def State.reset : State := State.resetWith Params.nominal

end Sys2Proof.Machine
end

