-- ==== Sys2Proof/Machine/Ops.lean ====
section
/-! DEFINITION. The shared operations: how a sub-operation ends, memories, error entry and what leaves it, DBUF appends.
`ErrorEntry` of 60_exceptions.md R330 is this block's exception; CLEAR and START (R332) are its only returns. -/

namespace Sys2Proof.Machine

/-- How a sub-operation ends (R13, R14): with a value, by a raise that has already entered the error state, or at an
access the spec says does not exist. -/
inductive Res (α : Type) where
  | ok (a : α) (s : State)
  | raised (s : State)
  | fault (f : Fault)
  deriving Repr

/-- Sequencing: nothing of a step runs after a raise (R13). -/
def Res.bind {α β : Type} (r : Res α) (f : α → State → Res β) : Res β :=
  match r with
  | .ok a s => f a s
  | .raised s => .raised s
  | .fault e => .fault e

/-- The step a sub-operation amounts to: a raise ends in the state after error entry, which is a next state (R330). -/
def Res.toOutcome {α : Type} (r : Res α) : Host.Outcome State Fault Refusal :=
  match r with
  | .ok _ s => .next s
  | .raised s => .next s
  | .fault f => .fault f

/-! ## Memories -/

/-- The written byte at an address, if there is one. -/
def Memory.read? : Memory → Nat → Option Byte
  | [], _ => none
  | (a, v) :: m, x => if a = x then some v else Memory.read? m x

/-- Writing a byte, in canonical form. -/
def Memory.write : Memory → Nat → Byte → Memory
  | [], x, v => [(x, v)]
  | (a, w) :: m, x, v =>
    if x < a then (x, v) :: (a, w) :: m
    else if x = a then (x, v) :: m
    else (a, w) :: Memory.write m x v

/-- Writing bytes at rising addresses from `x`. -/
def Memory.writeList : Memory → Nat → List Byte → Memory
  | m, _, [] => m
  | m, x, v :: vs => Memory.writeList (Memory.write m x v) (x + 1) vs

/-- A memory of the state. -/
def State.memory (s : State) : MemSpace → Memory
  | .inMem => s.mem.inMem
  | .dbuf => s.mem.dbuf
  | .pix => s.mem.pix
  | .slPrev => s.mem.slPrev

/-- What the byte at an address holds: the written byte, or a free value where nothing has written since reset (log 4). -/
def State.byteAt (s : State) (sp : MemSpace) (a : Nat) : Byte :=
  match Memory.read? (s.memory sp) a with
  | some v => v
  | none => Config.unwrittenByte s.env.epoch sp a

/-- The size of a space in bytes (R80; R52 for SL_PREV). -/
def State.sizeOf (s : State) : MemSpace → Nat
  | .inMem => s.params.inCap
  | .dbuf => s.params.dbufCap
  | .pix => s.params.pixCap
  | .slPrev => 3 * s.params.maxWidth

/-- Replacing a memory of the state. -/
def State.setMemory (s : State) (sp : MemSpace) (m : Memory) : State :=
  match sp with
  | .inMem => { s with mem := { s.mem with inMem := m } }
  | .dbuf => { s with mem := { s.mem with dbuf := m } }
  | .pix => { s with mem := { s.mem with pix := m } }
  | .slPrev => { s with mem := { s.mem with slPrev := m } }

/-! ## The cursor's position (R40) -/

/-- `pos = 8*BI + bi`. -/
def State.pos (s : State) : Nat := 8 * s.cur.byteIx.toNat + s.cur.bitIx.toNat

/-- `SetPos(p)` (40_bit_cursor.md): BI <- p >> 3, bi <- p & 7. -/
def State.setPos (s : State) (p : Nat) : State :=
  { s with cur := { byteIx := BitVec.ofNat 32 (p / 8), bitIx := BitVec.ofNat 3 (p % 8) } }

/-- `phase <- P` (R13). -/
def State.setPhase (s : State) (p : Phase) : State := { s with phase := p }

/-- STATUS.STATE = BUSY (R33): every phase but P_IDLE, P_DONE and P_ERROR. -/
def Phase.busy : Phase → Bool
  | .idle => false
  | .done => false
  | .error => false
  | .header => true
  | .stored => true
  | .dynamic => true
  | .tokens => true
  | .blockEnd => true
  | .defilterStart => true
  | .defilterRow => true

/-! ## Error entry -/

/-- The error codes (R320). -/
def ErrorKind.code : ErrorKind → BitVec 4
  | .outOfData => 1
  | .invalidBlockType => 2
  | .lengthMismatch => 3
  | .invalidCodeLengths => 4
  | .noMatchingCode => 5
  | .invalidDistanceCode => 6
  | .invalidBackReference => 7
  | .invalidLengthCode => 8
  | .outputOverflow => 9
  | .invalidFilterType => 10
  | .imageDataShort => 11
  | .invalidConfig => 12
  | .callerError => 13
  | .aborted => 15

/-- `ErrorEntry(E)` (R330): the six writes; irq follows from the phase (R48). -/
def errorEntry (e : ErrorKind) (s : State) : State :=
  { s with
    err := { code := e.code, byte := s.cur.byteIx, bit := s.cur.bitIx, block := s.regs.blockCount,
             row := if s.defl.stg then s.defl.row else 0 }
    phase := .error }

/-- `raise E` (R13): error entry, and the step ends. -/
def raise {α : Type} (e : ErrorKind) (s : State) : Res α := .raised (errorEntry e s)

/-- The error fields cleared, as START and CLEAR do (R300, R302). -/
def clearErrors (s : State) : State :=
  { s with err := { code := 0, byte := 0, bit := 0, block := 0, row := 0 } }

/-! ## The Output Buffer -/

/-- DBUF_LEN as a number. -/
def State.outLen (s : State) : Nat := s.regs.dbufLen.toNat

/-- MemWrite(DBUF, DBUF_LEN, 1, v); DBUF_LEN <- DBUF_LEN + 1. -/
def pushByte (v : Byte) (s : State) : State :=
  { s with
    mem := { s.mem with dbuf := Memory.write s.mem.dbuf s.outLen v }
    regs := { s.regs with dbufLen := s.regs.dbufLen + 1 } }

/-- `Append(v)` (R240). -/
def append (v : Byte) (s : State) : Res Unit :=
  if s.params.dbufCap ≤ s.outLen then raise .outputOverflow s
  else .ok () (pushByte v s)

/-- The loop of the back-reference copy (R248), one byte at a time so that it reads what it wrote (R103). -/
def copyBytes : Nat → Nat → State → State
  | 0, _, s => s
  | n + 1, dist, s => copyBytes n dist (pushByte (s.byteAt .dbuf (s.outLen - dist)) s)

/-! ## Draws of free values -/

/-- The next free byte (R101). -/
def State.drawByte (s : State) : Byte := Config.freeByte s.env.draws

/-- Counting a draw. -/
def State.drawn (s : State) : State := { s with env := { s.env with draws := s.env.draws + 1 } }

end Sys2Proof.Machine
end

