-- ==== Sys2Proof/Machine/Operands.lean ====
section
/-! DEFINITION. Operands read from the stream: the bit cursor's operations (40_bit_cursor.md), the values the bits are
combined into (20_memory.md R87) and the extra-bit tables (30_encoding.md R124 to R127). -/

namespace Sys2Proof.Machine

/-- `8*IN_LEN`, the end of the stream in bits (R40: `rem = 8*IN_LEN − pos`). -/
def State.streamEnd (s : State) : Nat := 8 * s.regs.inLen.toNat

/-- `StreamBit(k)` (R12, R13): bit k mod 8 of IN[k div 8], counted from the least significant bit. -/
def State.streamBit (s : State) (k : Nat) : Bool := (s.byteAt .inMem (k / 8)).getLsbD (k % 8)

/-- The MSB-first value of n bits from position p (R87): each next bit is shifted in at the low end. -/
def State.msbValue (s : State) (p : Nat) : Nat → Nat
  | 0 => 0
  | n + 1 => 2 * s.msbValue p n + (s.streamBit (p + n)).toNat

/-- The LSB-first value of n bits from position p (R87): bit i of the value is the i-th bit read. -/
def State.lsbValue (s : State) (p : Nat) : Nat → Nat
  | 0 => 0
  | n + 1 => s.lsbValue p n + (s.streamBit (p + n)).toNat * 2 ^ n

/-- The checks of a read or peek of n bits, in the order of R168 and R160: `CallerError`, then `OutOfData`. A byte of IN
that does not exist faults (log 13). -/
def checkRead (n : Nat) (s : State) : Res Unit :=
  if Config.maxReadBits < n then raise .callerError s
  else if s.streamEnd < s.pos + n then raise .outOfData s
  else if 0 < n ∧ 8 * s.params.inCap < s.pos + n then .fault .inAddress
  else .ok () s

/-- `readBitMSB()` (R161). -/
def readBitMSB (s : State) : Res Word :=
  (checkRead 1 s).bind fun _ s => .ok (BitVec.ofNat 32 (s.streamBit s.pos).toNat) (s.setPos (s.pos + 1))

/-- `readBitsMSB(n)` (R162). -/
def readBitsMSB (n : Nat) (s : State) : Res Word :=
  (checkRead n s).bind fun _ s => .ok (BitVec.ofNat 32 (s.msbValue s.pos n)) (s.setPos (s.pos + n))

/-- `peekBitsMSB(n)` (R163): as readBitsMSB without moving the cursor. -/
def peekBitsMSB (n : Nat) (s : State) : Res Word :=
  (checkRead n s).bind fun _ s => .ok (BitVec.ofNat 32 (s.msbValue s.pos n)) s

/-- `readBitsLSB(n)` (R164). -/
def readBitsLSB (n : Nat) (s : State) : Res Word :=
  (checkRead n s).bind fun _ s => .ok (BitVec.ofNat 32 (s.lsbValue s.pos n)) (s.setPos (s.pos + n))

/-- `skipBits(n)` (R165): no limit of 32 bits and no access to IN. -/
def skipBits (n : Nat) (s : State) : Res Unit :=
  if s.streamEnd < s.pos + n then raise .outOfData s else .ok () (s.setPos (s.pos + n))

/-- `alignToByte()` (R166): forward to the next byte boundary, or no move at one. -/
def alignToByte (s : State) : State :=
  if s.cur.bitIx = 0 then s else { s with cur := { byteIx := s.cur.byteIx + 1, bitIx := 0 } }

/-- LENGTH_TABLE[257..285] as (extra bits, base) (R124, R125). -/
def lengthTable : List (Nat × Nat) :=
  [(0, 3), (0, 4), (0, 5), (0, 6), (0, 7), (0, 8), (0, 9), (0, 10),
   (1, 11), (1, 13), (1, 15), (1, 17), (2, 19), (2, 23), (2, 27), (2, 31),
   (3, 35), (3, 43), (3, 51), (3, 59), (4, 67), (4, 83), (4, 99), (4, 115),
   (5, 131), (5, 163), (5, 195), (5, 227), (0, 258)]

/-- DIST_TABLE[0..29] as (extra bits, base) (R126). -/
def distTable : List (Nat × Nat) :=
  [(0, 1), (0, 2), (0, 3), (0, 4), (1, 5), (1, 7), (2, 9), (2, 13),
   (3, 17), (3, 25), (4, 33), (4, 49), (5, 65), (5, 97), (6, 129), (6, 193),
   (7, 257), (7, 385), (8, 513), (8, 769), (9, 1025), (9, 1537), (10, 2049), (10, 3073),
   (11, 4097), (11, 6145), (12, 8193), (12, 12289), (13, 16385), (13, 24577)]

/-- LENGTH_TABLE[sym]. -/
def lengthEntry (sym : Nat) : Nat × Nat := lengthTable.getD (sym - 257) (0, 0)

/-- DIST_TABLE[sym]. -/
def distEntry (sym : Nat) : Nat × Nat := distTable.getD sym (0, 0)

/-- Base plus extra bits read LSB-first (R127). -/
def readExtra (entry : Nat × Nat) (s : State) : Res Nat :=
  (readBitsLSB entry.1 s).bind fun v s => .ok (entry.2 + v.toNat) s

end Sys2Proof.Machine
end

