-- ==== Sys2Proof/Machine/Huffman.lean ====
section
/-! DEFINITION. huffman_decoder (41_huffman_decoder.md): the Kraft check, table construction, the fixed tables and
decoding, and the meanings of its port requests (30_encoding.md R132). -/

namespace Sys2Proof.Machine

/-! ## Construction -/

/-- K of R181: the sum of 2^(15 − length) over the used symbols. -/
def kraftSum : List (BitVec 4) → Nat
  | [] => 0
  | l :: ls => (if l = 0 then 0 else 2 ^ (15 - l.toNat)) + kraftSum ls

/-- The lengths 1..15 a table has entries for (R50). -/
def codeLengths : List Nat := List.range' 1 15

/-- The number of symbols of length L (R182). -/
def countOf (lens : List (BitVec 4)) (L : Nat) : Nat := lens.countP (fun l => l.toNat == L)

/-- count[1..15] (R182). -/
def countsOf (lens : List (BitVec 4)) : List Nat := codeLengths.map (countOf lens)

/-- first[1..15] from the counts: `code <- (code + count[L−1]) << 1` (R182). -/
def firstsFrom (code : Nat) : List Nat → List Nat
  | [] => []
  | c :: cs => code :: firstsFrom (2 * (code + c)) cs

/-- offset[1..15] from the counts: the running sum `idx` (R182). -/
def offsetsFrom (idx : Nat) : List Nat → List Nat
  | [] => []
  | c :: cs => idx :: offsetsFrom (idx + c) cs

/-- The symbols of length L in ascending order, numbering the list from `s`. -/
def symbolsOfLength (L : Nat) : Nat → List (BitVec 4) → List Nat
  | _, [] => []
  | s, l :: ls => if l.toNat = L then s :: symbolsOfLength L (s + 1) ls else symbolsOfLength L (s + 1) ls

/-- All used symbols by ascending length, ties by symbol value (R180, R182). -/
def sortedSymbols (lens : List (BitVec 4)) : List Nat :=
  codeLengths.flatMap (fun L => symbolsOfLength L 0 lens)

/-- The least L with a nonzero count, or 0 (R182). -/
def minLenOf : Nat → List Nat → Nat
  | _, [] => 0
  | L, c :: cs => if 0 < c then L else minLenOf (L + 1) cs

/-- The greatest L with a nonzero count, or 0 (R182). -/
def maxLenOf : Nat → List Nat → Nat
  | _, [] => 0
  | L, c :: cs => if maxLenOf (L + 1) cs = 0 then (if 0 < c then L else 0) else maxLenOf (L + 1) cs

/-- The table R182 writes over `old`: entries of sym at or above `used` are not written and keep what they held. -/
def buildTable (old : HuffTable) (lens : List (BitVec 4)) : HuffTable :=
  let counts := countsOf lens
  let syms := sortedSymbols lens
  { count := counts.map (BitVec.ofNat 9)
    first := (firstsFrom 0 counts).map (BitVec.ofNat 16)
    offset := (offsetsFrom 0 counts).map (BitVec.ofNat 9)
    sym := syms.map (BitVec.ofNat 9) ++ old.sym.drop syms.length
    used := BitVec.ofNat 9 counts.sum
    minLen := BitVec.ofNat 4 (minLenOf 1 counts)
    maxLen := BitVec.ofNat 4 (maxLenOf 1 counts) }

/-- The table in a slot (R51). -/
def Tables.get (t : Tables) : Slot → HuffTable
  | .cl => t.cl
  | .ll => t.ll
  | .d => t.d

/-- Writing a slot. -/
def State.setTable (s : State) (k : Slot) (t : HuffTable) : State :=
  match k with
  | .cl => { s with tabs := { s.tabs with cl := t } }
  | .ll => { s with tabs := { s.tabs with ll := t } }
  | .d => { s with tabs := { s.tabs with d := t } }

/-- A length vector cut or filled with 0 to an alphabet of n symbols (R180). -/
def lengthVector (n : Nat) (lens : List (BitVec 4)) : List (BitVec 4) :=
  (List.range n).map (fun i => lens.getD i 0)

/-- `buildFromLengths(T, lens)` (R182): the Kraft check of R181 first, and nothing is written where it fails. -/
def buildFromLengths (k : Slot) (lens : List (BitVec 4)) (s : State) : Res Unit :=
  if 2 ^ 15 < kraftSum lens then raise .invalidCodeLengths s
  else .ok () (s.setTable k (buildTable (s.tabs.get k) lens))

/-! ## The fixed tables -/

/-- F_LL, the ROM table of R183. -/
def fLL : HuffTable :=
  { count := [0, 0, 0, 0, 0, 0, 24, 152, 112, 0, 0, 0, 0, 0, 0]
    first := [0, 0, 0, 0, 0, 0, 0, 48, 400, 1024, 2048, 4096, 8192, 16384, 32768]
    offset := [0, 0, 0, 0, 0, 0, 0, 24, 176, 288, 288, 288, 288, 288, 288]
    sym := (List.range' 256 24 ++ List.range' 0 144 ++ List.range' 280 8 ++ List.range' 144 112).map (BitVec.ofNat 9)
    used := 288
    minLen := 7
    maxLen := 9 }

/-- F_D, the ROM table of R184. -/
def fD : HuffTable :=
  { count := [0, 0, 0, 0, 32, 0, 0, 0, 0, 0, 0, 0, 0, 0, 0]
    first := [0, 0, 0, 0, 0, 64, 128, 256, 512, 1024, 2048, 4096, 8192, 16384, 32768]
    offset := [0, 0, 0, 0, 0, 32, 32, 32, 32, 32, 32, 32, 32, 32, 32]
    sym := (List.range' 0 32).map (BitVec.ofNat 9)
    used := 32
    minLen := 5
    maxLen := 5 }

/-! ## Decoding -/

/-- An entry of a list kept for the lengths 1..15; there is none for length 0. -/
def atLength {w : Nat} (xs : List (BitVec w)) (L : Nat) : Nat :=
  match L with
  | 0 => 0
  | k + 1 => (xs.getD k 0).toNat

/-- The tries of R185, `k` lengths from L up. -/
def tryLengths (t : HuffTable) : Nat → Nat → State → Res (BitVec 9 × BitVec 4)
  | 0, _, s => raise .noMatchingCode s
  | k + 1, L, s =>
    (peekBitsMSB L s).bind fun v s =>
      if atLength t.first L ≤ v.toNat ∧ v.toNat < atLength t.first L + atLength t.count L then
        match t.sym[atLength t.offset L + (v.toNat - atLength t.first L)]? with
        | none => .fault .tableIndex
        | some sym => (skipBits L s).bind fun _ s => .ok (sym, BitVec.ofNat 4 L) s
      else tryLengths t k (L + 1) s

/-- `decode(T)` (R185): symbol and bitsConsumed. -/
def decodeSymbol (t : HuffTable) (s : State) : Res (BitVec 9 × BitVec 4) :=
  if t.used = 0 then raise .noMatchingCode s
  else tryLengths t (t.maxLen.toNat + 1 - t.minLen.toNat) t.minLen.toNat s

/-! ## Port requests (R132) -/

/-- The table a table id names: 0 T_CL, 1 T_LL, 2 T_D, 3 F_LL, 4 F_D. -/
def State.tableOf (s : State) (tid : BitVec 3) : Option HuffTable :=
  match tid.toNat with
  | 0 => some s.tabs.cl
  | 1 => some s.tabs.ll
  | 2 => some s.tabs.d
  | 3 => some fLL
  | 4 => some fD
  | _ => none

/-- The writable slot a table id names. -/
def slotOf (tid : BitVec 3) : Option Slot :=
  match tid.toNat with
  | 0 => some .cl
  | 1 => some .ll
  | 2 => some .d
  | _ => none

/-- Op 0, buildFixed (R183, R184): selects ROM contents and changes no state; other ids raise CallerError. -/
def execHtBuildFixed (tid : BitVec 3) (s : State) : Host.Outcome State Fault Refusal :=
  (if tid = 3 ∨ tid = 4 then Res.ok () s else raise .callerError s).toOutcome

/-- Op 1, buildFromLengths (R182), with the port's length vector; ids other than 0, 1, 2 raise CallerError. -/
def execHtBuildFromLengths (tid : BitVec 3) (s : State) : Host.Outcome State Fault Refusal :=
  (match slotOf tid with
   | some k => buildFromLengths k (lengthVector k.size s.env.portLens) s
   | none => raise .callerError s).toOutcome

/-- The response of a decode (R132). -/
def respondSymbol (r : BitVec 9 × BitVec 4) (s : State) : State :=
  { s with env := { s.env with portSym := r.1, portBits := r.2 } }

/-- Op 2, decode (R185), answering symbol and bitsConsumed; ids 5..7 raise CallerError. -/
def execHtDecode (tid : BitVec 3) (s : State) : Host.Outcome State Fault Refusal :=
  (match s.tableOf tid with
   | some t => (decodeSymbol t s).bind fun r s => Res.ok () (respondSymbol r s)
   | none => raise .callerError s).toOutcome

/-- Op 3, reserved (R132): CallerError. -/
def execHtReserved3 (_tid : BitVec 3) (s : State) : Host.Outcome State Fault Refusal :=
  (raise (α := Unit) .callerError s).toOutcome

end Sys2Proof.Machine
end

