-- ==== Sys2Proof/Machine/Assembler.lean ====
section
/-! DEFINITION. The stream notation of 30_encoding.md R133 and R134: what bits a line emits and how bits become bytes. It
is used to place an instruction where the engine fetches it, and to write test streams. -/

namespace Sys2Proof.Machine

/-- `BITS n, v`: n bits of v, LSB-first (R133). -/
def lsbBits (n v : Nat) : List Bool := (List.range n).map (fun i => v.testBit i)

/-- `CODE n, v`: n bits of v, MSB-first (R133). -/
def codeBits (n v : Nat) : List Bool := (List.range n).map (fun i => v.testBit (n - 1 - i))

/-- The number whose bits, least significant first, are the list's. -/
def bitsNat : List Bool → Nat
  | [] => 0
  | b :: bs => b.toNat + 2 * bitsNat bs

/-- Bits packed into bytes, stream order, the last byte padded with zero bits (R133). -/
def packBits (bits : List Bool) : List Byte :=
  (List.range ((bits.length + 7) / 8)).map (fun k => BitVec.ofNat 8 (bitsNat ((bits.drop (8 * k)).take 8)))

/-- The length and value of a symbol's code in a table: the canonical code at its place in T.sym (R182). -/
def codeAt (t : HuffTable) (i : Nat) : Nat → Nat → Option (Nat × Nat)
  | 0, _ => none
  | k + 1, L =>
    if atLength t.offset L ≤ i ∧ i < atLength t.offset L + atLength t.count L then
      some (L, atLength t.first L + (i - atLength t.offset L))
    else codeAt t i k (L + 1)

/-- The code of a symbol, as (length, value), if it has one. -/
def codeOf (t : HuffTable) (sym : BitVec 9) : Option (Nat × Nat) :=
  match (t.sym.take t.used.toNat).findIdx? (fun x => x == sym) with
  | some i => codeAt t i 15 1
  | none => none

/-- The bits of a symbol's code (R120), none where it has no code. -/
def symbolBits (t : HuffTable) (sym : BitVec 9) : List Bool :=
  match codeOf t sym with
  | some (n, v) => codeBits n v
  | none => []

/-- The last place in a table of (extra, base) whose base is at most v. -/
def entryFor (v : Nat) : Nat → List (Nat × Nat) → Nat
  | _, [] => 0
  | i, e :: es => if e.2 ≤ v then max i (entryFor v (i + 1) es) else 0

/-- The length symbol whose range holds len, 285 for 258 (R134). -/
def lengthSymbolFor (len : Nat) : Nat := if len = 258 then 285 else 257 + entryFor len 0 (lengthTable.take 28)

/-- The D symbol whose range holds dist (R134). -/
def distSymbolFor (dist : Nat) : Nat := entryFor dist 0 distTable

/-- Lines and pseudo-lines (R133, R134). -/
inductive Line where
  | bits (n v : Nat)
  | code (n v : Nat)
  | hdr (f t : Nat)
  | pad
  | u16 (v : Nat)
  | byte (v : Nat)
  | ll (s : Nat)
  | ds (s : Nat)
  | cl (s : Nat)
  | xb (n v : Nat)
  | lit (b : Nat)
  | eob
  | backRef (len dist : Nat)
  | stored (f : Nat) (bs : List Byte)
  | fixed (f : Nat)
  | dynamic (f hlit hdist hclen : Nat)
  | cllens (ls : List Nat)
  deriving DecidableEq, Repr

/-- What the assembler carries from line to line: the bits so far and the current tables. In a dynamic block the tables
follow from the lengths the CL lines have given so far. DESIGN CHOICE (log 28): a line that names no selection, a raw HDR
among them, leaves the tables as they are. -/
structure Asm where
  bits : List Bool
  fixedBlock : Bool
  hlit : Nat
  clLens : List (BitVec 4)
  lens : List (BitVec 4)
  pending : Nat
  deriving DecidableEq, Repr

/-- Before the first line. DESIGN CHOICE (log 28): the fixed tables are the current ones, since R133 and R134 name none
before a FIXED or DYNAMIC line. -/
def Asm.start : Asm := { bits := [], fixedBlock := true, hlit := 0, clLens := [], lens := [], pending := 0 }

/-- Adding bits. -/
def Asm.emit (a : Asm) (bs : List Bool) : Asm := { a with bits := a.bits ++ bs }

/-- The current LL table. -/
def Asm.llTable (a : Asm) : HuffTable :=
  if a.fixedBlock then fLL else buildTable (HuffTable.empty 288) (lengthVector 288 (a.lens.take a.hlit))

/-- The current D table. -/
def Asm.dTable (a : Asm) : HuffTable :=
  if a.fixedBlock then fD else buildTable (HuffTable.empty 32) (lengthVector 32 (a.lens.drop a.hlit))

/-- The current CL table. -/
def Asm.clTable (a : Asm) : HuffTable := buildTable (HuffTable.empty 19) (lengthVector 19 a.clLens)

/-- CL lengths as transmitted, put at their symbols (R116). -/
def placeClLens (order : List Nat) (ls : List Nat) (acc : List (BitVec 4)) : List (BitVec 4) :=
  match order, ls with
  | o :: os, l :: ls => placeClLens os ls (acc.set o (BitVec.ofNat 4 l))
  | _, _ => acc

/-- The lengths a repeat symbol's extra value stands for (R117). -/
def repeatedLens (a : Asm) (v : Nat) : List (BitVec 4) :=
  match a.pending with
  | 16 => List.replicate (v + 3) (a.lens.getLastD 0)
  | 17 => List.replicate (v + 3) 0
  | 18 => List.replicate (v + 11) 0
  | _ => []

/-- `MATCH len, dist` (R134). -/
def matchBits (a : Asm) (len dist : Nat) : List Bool :=
  let s := lengthSymbolFor len
  let d := distSymbolFor dist
  symbolBits a.llTable (BitVec.ofNat 9 s) ++ lsbBits (lengthEntry s).1 (len - (lengthEntry s).2) ++
    symbolBits a.dTable (BitVec.ofNat 9 d) ++ lsbBits (distEntry d).1 (dist - (distEntry d).2)

/-- Zero bits up to the next byte boundary. -/
def padBits (n : Nat) : List Bool := List.replicate ((8 - n % 8) % 8) false

/-- One line. DESIGN CHOICE (log 28): FIXED and DYNAMIC alone change which tables are current; HDR and STORED do not. -/
def Asm.line (a : Asm) : Line → Asm
  | .bits n v => a.emit (lsbBits n v)
  | .code n v => a.emit (codeBits n v)
  | .hdr f t => a.emit (lsbBits 1 f ++ lsbBits 2 t)
  | .pad => a.emit (padBits a.bits.length)
  | .u16 v => a.emit (lsbBits 16 v)
  | .byte v => a.emit (lsbBits 8 v)
  | .ll s => a.emit (symbolBits a.llTable (BitVec.ofNat 9 s))
  | .ds s => a.emit (symbolBits a.dTable (BitVec.ofNat 9 s))
  | .cl s =>
    let a' := a.emit (symbolBits a.clTable (BitVec.ofNat 9 s))
    if s ≤ 15 then { a' with lens := a.lens ++ [BitVec.ofNat 4 s], pending := 0 } else { a' with pending := s }
  | .xb n v => { a.emit (lsbBits n v) with lens := a.lens ++ repeatedLens a v, pending := 0 }
  | .lit b => a.emit (symbolBits a.llTable (BitVec.ofNat 9 b))
  | .eob => a.emit (symbolBits a.llTable 256)
  | .backRef len dist => a.emit (matchBits a len dist)
  | .stored f bs =>
    let h := a.bits ++ lsbBits 1 f ++ lsbBits 2 0
    { a with bits := h ++ padBits h.length ++ lsbBits 16 bs.length ++ lsbBits 16 (bs.length ^^^ 0xFFFF) ++
        bs.flatMap (fun b => lsbBits 8 b.toNat) }
  | .fixed f => { a.emit (lsbBits 1 f ++ lsbBits 2 1) with fixedBlock := true }
  | .dynamic f hlit hdist hclen =>
    { a.emit (lsbBits 1 f ++ lsbBits 2 2 ++ lsbBits 5 (hlit - 257) ++ lsbBits 5 (hdist - 1) ++ lsbBits 4 (hclen - 4)) with
      fixedBlock := false, hlit := hlit, clLens := [], lens := [], pending := 0 }
  | .cllens ls =>
    { a.emit (ls.flatMap (fun l => lsbBits 3 l)) with
      clLens := placeClLens [16, 17, 18, 0, 8, 7, 9, 6, 10, 5, 11, 4, 12, 3, 13, 2, 14, 1, 15] ls (List.replicate 19 0) }

/-- The bits of a listing. -/
def assembleBits (ls : List Line) : List Bool := (ls.foldl Asm.line Asm.start).bits

/-- The bytes of a listing (R133). -/
def assemble (ls : List Line) : List Byte := packBits (assembleBits ls)

end Sys2Proof.Machine
end

