-- ==== Sys2Proof/Machine/BitCursor.lean ====
section
/-! DEFINITION. The meanings of the bit_cursor port requests (30_encoding.md R131, 40_bit_cursor.md). A response is
value and err; the value is a free word where the spec gives the operation no result (log 12). -/

namespace Sys2Proof.Machine

/-- A response that carries a result. -/
def respondValue (v : Word) (s : State) : State :=
  { s with env := { s.env with portValue := v, portErr := false } }

/-- A response whose value the spec leaves open. -/
def respondFree (err : Bool) (s : State) : State :=
  { s with env := { s.env with portValue := Config.freeWord s.env.draws, portErr := err, draws := s.env.draws + 1 } }

/-- Answering a request that returns a value. -/
def answer (r : Res Word) : Res Unit :=
  match r with
  | .ok v s => .ok () (respondValue v s)
  | .raised s => .raised (respondFree true s)
  | .fault f => .fault f

/-- Answering a request that returns nothing. -/
def answerUnit (r : Res Unit) : Res Unit :=
  match r with
  | .ok _ s => .ok () (respondFree false s)
  | .raised s => .raised (respondFree true s)
  | .fault f => .fault f

/-- Op 0, readBitMSB (R161). -/
def execBcReadBitMsb (_n : BitVec 6) (s : State) : Host.Outcome State Fault Refusal :=
  (answer (readBitMSB s)).toOutcome

/-- Op 1, readBitsMSB (R162). -/
def execBcReadBitsMsb (n : BitVec 6) (s : State) : Host.Outcome State Fault Refusal :=
  (answer (readBitsMSB n.toNat s)).toOutcome

/-- Op 2, peekBitsMSB (R163). -/
def execBcPeekBitsMsb (n : BitVec 6) (s : State) : Host.Outcome State Fault Refusal :=
  (answer (peekBitsMSB n.toNat s)).toOutcome

/-- Op 3, readBitsLSB (R164). -/
def execBcReadBitsLsb (n : BitVec 6) (s : State) : Host.Outcome State Fault Refusal :=
  (answer (readBitsLSB n.toNat s)).toOutcome

/-- Op 4, skipBits (R165). -/
def execBcSkipBits (n : BitVec 6) (s : State) : Host.Outcome State Fault Refusal :=
  (answerUnit (skipBits n.toNat s)).toOutcome

/-- Op 5, alignToByte (R166). -/
def execBcAlignToByte (_n : BitVec 6) (s : State) : Host.Outcome State Fault Refusal :=
  (answerUnit (.ok () (alignToByte s))).toOutcome

/-- Ops 6 and 7, reserved (R168): CallerError. -/
def execBcReserved67 (_op : BitVec 3) (_n : BitVec 6) (s : State) : Host.Outcome State Fault Refusal :=
  (answerUnit (raise .callerError s)).toOutcome

end Sys2Proof.Machine
end

