-- ==== Sys2Proof/Machine/Dynamic.lean ====
section
/-! DEFINITION. CL symbols and the P_DYNAMIC step (42_deflate_blocks.md R206 to R213). A CL symbol executes inside the
P_DYNAMIC step that decodes it (log 16). -/

namespace Sys2Proof.Machine

/-- LENS[start + j] <- v for the next c entries. -/
def fillLens (v : BitVec 4) : Nat → Nat → List (BitVec 4) → List (BitVec 4)
  | 0, _, ls => ls
  | c + 1, start, ls => fillLens v c (start + 1) (ls.set start v)

/-- c entries of length v from NL on, and NL moved past them (R208, R209). -/
def pushLengths (v : BitVec 4) (c : Nat) (s : State) : State :=
  { s with hdr := { s.hdr with
      lens := fillLens v c s.hdr.nl.toNat s.hdr.lens
      nl := BitVec.ofNat 9 (s.hdr.nl.toNat + c) } }

/-- HLIT + HDIST, the number of code lengths (R115). -/
def State.lengthCount (s : State) : Nat := s.hdr.hlit.toNat + s.hdr.hdist.toNat

/-- `Repeat(v, c)` (R209): a run past HLIT + HDIST raises and fills nothing. -/
def repeatLength (v : BitVec 4) (c : Nat) (s : State) : Res Unit :=
  if s.lengthCount < s.hdr.nl.toNat + c then raise .invalidCodeLengths s
  else .ok () (pushLengths v c s)

/-- CL symbols 0..15 (R208). -/
def clLength (len : BitVec 4) (s : State) : Res Unit := .ok () (pushLengths len 1 s)

/-- CL symbol 16 (R210): the extra bits first, then the two checks. -/
def clRepeatPrev (s : State) : Res Unit :=
  (readBitsLSB 2 s).bind fun e s =>
    if s.hdr.nl = 0 then raise .invalidCodeLengths s
    else repeatLength (s.hdr.lens.getD (s.hdr.nl.toNat - 1) 0) (e.toNat + 3) s

/-- CL symbol 17 (R211). -/
def clRepeatZeroShort (s : State) : Res Unit :=
  (readBitsLSB 3 s).bind fun e s => repeatLength 0 (e.toNat + 3) s

/-- CL symbol 18 (R212). -/
def clRepeatZeroLong (s : State) : Res Unit :=
  (readBitsLSB 7 s).bind fun e s => repeatLength 0 (e.toNat + 11) s

/-- CL symbol 0..15 (R208). -/
def execClLen015 (len : BitVec 4) (s : State) : Host.Outcome State Fault Refusal := (clLength len s).toOutcome

/-- CL symbol 16 (R210). -/
def execClRepeatPrev16 (s : State) : Host.Outcome State Fault Refusal := (clRepeatPrev s).toOutcome

/-- CL symbol 17 (R211). -/
def execClRepeatZero17 (s : State) : Host.Outcome State Fault Refusal := (clRepeatZeroShort s).toOutcome

/-- CL symbol 18 (R212). -/
def execClRepeatZero18 (s : State) : Host.Outcome State Fault Refusal := (clRepeatZeroLong s).toOutcome

/-- A decoded CL symbol, dispatched as R208 says. Symbols above 18 are none of T_CL's (log 14). -/
def clSymbol (sym : BitVec 9) (s : State) : Res Unit :=
  if sym.toNat ≤ 15 then clLength (sym.setWidth 4) s
  else if sym.toNat = 16 then clRepeatPrev s
  else if sym.toNat = 17 then clRepeatZeroShort s
  else if sym.toNat = 18 then clRepeatZeroLong s
  else .fault .symbolOutsideAlphabet

/-- Part 1 (R206): the three counts. -/
def readCounts (s : State) : Res Unit :=
  (readBitsLSB 5 s).bind fun a s =>
    (readBitsLSB 5 { s with hdr := { s.hdr with hlit := BitVec.ofNat 9 (a.toNat + 257) } }).bind fun b s =>
      (readBitsLSB 4 { s with hdr := { s.hdr with hdist := BitVec.ofNat 6 (b.toNat + 1) } }).bind fun c s =>
        .ok () { s with hdr := { s.hdr with hclen := BitVec.ofNat 5 (c.toNat + 4) } }

/-- CLORD (R116). -/
def clOrder : List Nat := [16, 17, 18, 0, 8, 7, 9, 6, 10, 5, 11, 4, 12, 3, 13, 2, 14, 1, 15]

/-- CLL[CLORD[i]] <- readBitsLSB(3) for the next k places from i (R207). -/
def readClLengths : Nat → Nat → State → Res Unit
  | 0, _, s => .ok () s
  | k + 1, i, s =>
    (readBitsLSB 3 s).bind fun v s =>
      readClLengths k (i + 1) { s with hdr := { s.hdr with cll := s.hdr.cll.set (clOrder.getD i 0) (v.setWidth 3) } }

/-- Part 2 (R207): the code-length alphabet. -/
def readClTable (s : State) : Res Unit :=
  (readClLengths s.hdr.hclen.toNat 0 { s with hdr := { s.hdr with cll := List.replicate 19 0 } }).bind fun _ s =>
    buildFromLengths .cl (s.hdr.cll.map (fun l => l.setWidth 4)) s

/-- The loop of part 3 (R208), at most k symbols. Every symbol fills at least one length, so k = HLIT + HDIST from NL = 0
is enough (log 21). -/
def clLoop : Nat → State → Res Unit
  | 0, s => .ok () s
  | k + 1, s =>
    if s.hdr.nl.toNat < s.lengthCount then
      (decodeSymbol s.tabs.cl s).bind fun r s => (clSymbol r.1 s).bind fun _ s => clLoop k s
    else .ok () s

/-- Part 3 (R208): the code-length sequence. -/
def readSequence (s : State) : Res Unit :=
  clLoop s.lengthCount { s with hdr := { s.hdr with nl := 0 } }

/-- LLL (R213): the LL lengths, 0 from HLIT on. -/
def llLengths (s : State) : List (BitVec 4) :=
  (List.range 288).map (fun i => if i < s.hdr.hlit.toNat then s.hdr.lens.getD i 0 else 0)

/-- DL (R213): the D lengths, 0 from HDIST on. -/
def dLengths (s : State) : List (BitVec 4) :=
  (List.range 32).map (fun i => if i < s.hdr.hdist.toNat then s.hdr.lens.getD (s.hdr.hlit.toNat + i) 0 else 0)

/-- Part 4 (R213): split and build, T_LL before T_D. -/
def buildTables (s : State) : Res Unit :=
  (buildFromLengths .ll (llLengths s) s).bind fun _ s =>
    (buildFromLengths .d (dLengths s) s).bind fun _ s =>
      .ok () { s with blk := { s.blk with act := true }, phase := .tokens }

/-- The whole P_DYNAMIC step (R206 to R213). -/
def dynamicBody (s : State) : Res Unit :=
  (readCounts s).bind fun _ s =>
    (readClTable s).bind fun _ s =>
      (readSequence s).bind fun _ s => buildTables s

end Sys2Proof.Machine
end

