-- ==== Sys2Proof/Machine/Blocks.lean ====
section
/-! DEFINITION. Block types (42_deflate_blocks.md R203 to R206) and the end of a block (R214). STORED and DYNAMIC take two
atomic steps, the dispatch that ends P_HEADER and the body in the phase it names; `phase` says which is next (log 15). -/

namespace Sys2Proof.Machine

/-- The copy loop of R204: n bytes, each read as R167 says and appended. -/
def storedCopy : Nat → State → Res Unit
  | 0, s => .ok () s
  | n + 1, s => (readBitsLSB 8 s).bind fun b s => storedCopy n (pushByte (b.setWidth 8) s)

/-- The checks and the copy of R204 once LEN and NLEN are read. -/
def storedData (len nlen : Word) (s : State) : Res Unit :=
  if (len ^^^ 0xFFFF) ≠ nlen then raise .lengthMismatch s
  else if s.streamEnd < s.pos + 8 * len.toNat then raise .outOfData s
  else if s.params.dbufCap < s.outLen + len.toNat then raise .outputOverflow s
  else (storedCopy len.toNat s).bind fun _ s => .ok () (s.setPhase .blockEnd)

/-- The P_STORED step (R204). -/
def storedBody (s : State) : Res Unit :=
  (readBitsLSB 16 (alignToByte s)).bind fun len s =>
    (readBitsLSB 16 s).bind fun nlen s => storedData len nlen s

/-- BTYPE 0: the body in P_STORED (R204), else the dispatch (R203). -/
def execBtypeStored (s : State) : Host.Outcome State Fault Refusal :=
  if s.phase = .stored then (storedBody s).toOutcome else .next (s.setPhase .stored)

/-- BTYPE 1 (R203, R205): the fixed tables and the token loop. -/
def execBtypeFixed (s : State) : Host.Outcome State Fault Refusal :=
  .next { s with blk := { s.blk with act := false }, phase := .tokens }

/-- BTYPE 2: the body in P_DYNAMIC (R206 to R213), else the dispatch (R203). -/
def execBtypeDynamic (s : State) : Host.Outcome State Fault Refusal :=
  if s.phase = .dynamic then (dynamicBody s).toOutcome else .next (s.setPhase .dynamic)

/-- BTYPE 3 (R203): InvalidBlockType. -/
def execBtypeReserved (s : State) : Host.Outcome State Fault Refusal :=
  (raise (α := Unit) .invalidBlockType s).toOutcome

/-- The P_BLOCK_END step (R214). -/
def blockEndStep (s : State) : State :=
  { s with
    regs := { s.regs with blockCount := s.regs.blockCount + 1 }
    phase := if s.blk.bfinal = false then .header else if s.regs.defilterEn = true then .defilterStart else .done }

end Sys2Proof.Machine
end

