-- ==== Sys2Proof/Machine/Defilter.lean ====
section
/-! DEFINITION. png_defilter_pipeline (44_png_defilter.md R270 to R279): the predictors, the row step each filter type
runs, and the start of the stage. -/

namespace Sys2Proof.Machine

/-- None (R272). -/
def predNone (_a _b _c : Byte) : Byte := 0

/-- Sub (R273). -/
def predSub (a _b _c : Byte) : Byte := a

/-- Up (R274). -/
def predUp (_a b _c : Byte) : Byte := b

/-- Average (R275): the sum is exact before halving. -/
def predAverage (a b _c : Byte) : Byte := BitVec.ofNat 8 ((a.toNat + b.toNat) / 2)

/-- Paeth (R276): exact signed arithmetic, ties in the order a, b, c. -/
def predPaeth (a b c : Byte) : Byte :=
  let p : Int := (a.toNat : Int) + (b.toNat : Int) - (c.toNat : Int)
  let pa := (p - (a.toNat : Int)).natAbs
  let pb := (p - (b.toNat : Int)).natAbs
  let pc := (p - (c.toNat : Int)).natAbs
  if pa ≤ pb ∧ pa ≤ pc then a else if pb ≤ pc then b else c

/-- W3 = 3*WIDTH, the bytes of a row (R271). -/
def State.rowBytes (s : State) : Nat := 3 * s.regs.width.toNat

/-- base, where row ROW starts in DBUF (R271, R90). -/
def State.rowBase (s : State) : Nat := s.defl.row.toNat * (1 + s.rowBytes)

/-- CUR[0..n-1] (R271): each byte is (x + Pred) mod 256 (R277), missing neighbours being 0. -/
def reconRow (pred : Byte → Byte → Byte → Byte) (s : State) (base : Nat) : Nat → List Byte
  | 0 => []
  | i + 1 =>
    let cur := reconRow pred s base i
    let x := s.byteAt .dbuf (base + 1 + i)
    let a := if 3 ≤ i then cur.getD (i - 3) 0 else 0
    let b := s.byteAt .slPrev i
    let c := if 3 ≤ i then s.byteAt .slPrev (i - 3) else 0
    cur ++ [x + pred a b c]

/-- The writes that end the row step (R271). -/
def storeRow (cur : List Byte) (s : State) : State :=
  { s with
    mem := { s.mem with
      pix := Memory.writeList s.mem.pix s.regs.pixLen.toNat cur
      slPrev := Memory.writeList s.mem.slPrev 0 cur }
    regs := { s.regs with pixLen := BitVec.ofNat 32 (s.regs.pixLen.toNat + s.rowBytes) }
    defl := { s.defl with row := s.defl.row + 1 }
    phase := if s.defl.row + 1 = s.regs.height then .done else s.phase }

/-- The P_DEFILTER_ROW step once the filter byte is read (R271). Bytes that do not exist fault (log 13). -/
def defilterRow (pred : Byte → Byte → Byte → Byte) (s : State) : Res Unit :=
  if 0 < s.rowBytes ∧ s.params.dbufCap < s.rowBase + 1 + s.rowBytes then .fault .dbufAddress
  else if 3 * s.params.maxWidth < s.rowBytes then .fault .slPrevAddress
  else if 0 < s.rowBytes ∧ s.params.pixCap < s.regs.pixLen.toNat + s.rowBytes then .fault .pixAddress
  else .ok () (storeRow (reconRow pred s s.rowBase s.rowBytes) s)

/-- Filter 0, None (R272). -/
def execFilterNone (s : State) : Host.Outcome State Fault Refusal := (defilterRow predNone s).toOutcome

/-- Filter 1, Sub (R273). -/
def execFilterSub (s : State) : Host.Outcome State Fault Refusal := (defilterRow predSub s).toOutcome

/-- Filter 2, Up (R274). -/
def execFilterUp (s : State) : Host.Outcome State Fault Refusal := (defilterRow predUp s).toOutcome

/-- Filter 3, Average (R275). -/
def execFilterAverage (s : State) : Host.Outcome State Fault Refusal := (defilterRow predAverage s).toOutcome

/-- Filter 4, Paeth (R276). -/
def execFilterPaeth (s : State) : Host.Outcome State Fault Refusal := (defilterRow predPaeth s).toOutcome

/-- A filter byte without a filter (R278). -/
def invalidFilter (s : State) : Res Unit := raise .invalidFilterType s

/-- Filter byte 5 (R278). -/
def execFilterInvalid5 (s : State) : Host.Outcome State Fault Refusal := (invalidFilter s).toOutcome

/-- Filter bytes 6 and 7 (R278). -/
def execFilterInvalid67 (_ft : BitVec 8) (s : State) : Host.Outcome State Fault Refusal := (invalidFilter s).toOutcome

/-- Filter bytes 8..15 (R278). -/
def execFilterInvalid815 (_ft : BitVec 8) (s : State) : Host.Outcome State Fault Refusal := (invalidFilter s).toOutcome

/-- Filter bytes 16..31 (R278). -/
def execFilterInvalid1631 (_ft : BitVec 8) (s : State) : Host.Outcome State Fault Refusal := (invalidFilter s).toOutcome

/-- Filter bytes 32..63 (R278). -/
def execFilterInvalid3263 (_ft : BitVec 8) (s : State) : Host.Outcome State Fault Refusal := (invalidFilter s).toOutcome

/-- Filter bytes 64..127 (R278). -/
def execFilterInvalid64127 (_ft : BitVec 8) (s : State) : Host.Outcome State Fault Refusal := (invalidFilter s).toOutcome

/-- Filter bytes 128..255 (R278). -/
def execFilterInvalid128255 (_ft : BitVec 8) (s : State) : Host.Outcome State Fault Refusal := (invalidFilter s).toOutcome

/-- need (R270): the bytes of the filtered image. -/
def State.imageNeed (s : State) : Nat := s.regs.height.toNat * (1 + s.rowBytes)

/-- The writes of R270 after its check: SL_PREV[0..3*WIDTH-1] and ROW to 0. -/
def beginRows (s : State) : State :=
  { s with
    mem := { s.mem with slPrev := Memory.writeList s.mem.slPrev 0 (List.replicate s.rowBytes 0) }
    defl := { s.defl with row := 0 }
    phase := .defilterRow }

/-- The P_DEFILTER_START step (R270). -/
def defilterStart (s : State) : Res Unit :=
  let s := { s with defl := { s.defl with stg := true } }
  if s.outLen < s.imageNeed then raise .imageDataShort s
  else if 3 * s.params.maxWidth < s.rowBytes then .fault .slPrevAddress
  else .ok () (beginRows s)

end Sys2Proof.Machine
end

