-- ==== Sys2Proof/Machine/Flags.lean ====
section
/-! DEFINITION. The status fields and the register values the host sees (10_state.md R30 to R44, R48). The block has no
condition flags (R54); STATUS, CONFIG and irq are all there is. -/

namespace Sys2Proof.Machine

/-- STATUS.STATE (R33): 0 IDLE, 1 BUSY, 2 DONE, 3 ERROR, a function of `phase`. -/
def State.stateCode (s : State) : BitVec 2 :=
  match s.phase with
  | .idle => 0
  | .done => 2
  | .error => 3
  | .header => 1
  | .stored => 1
  | .dynamic => 1
  | .tokens => 1
  | .blockEnd => 1
  | .defilterStart => 1
  | .defilterRow => 1

/-- The run has ended: STATE is DONE or ERROR. -/
def Phase.ended : Phase → Bool
  | .done => true
  | .error => true
  | .idle => false
  | .header => false
  | .stored => false
  | .dynamic => false
  | .tokens => false
  | .blockEnd => false
  | .defilterStart => false
  | .defilterRow => false

/-- The `irq` output (R48): a level, here computed whenever it is looked at (log 19). -/
def State.irq (s : State) : Bool := s.regs.irqEn && s.phase.ended

/-- CONFIG (R32): IRQ_EN in bit 1, DEFILTER_EN in bit 0, the rest 0. -/
def State.configWord (s : State) : Word :=
  0#30 ++ BitVec.ofBool s.regs.irqEn ++ BitVec.ofBool s.regs.defilterEn

/-- STATUS (R33): ERR_CODE in bits 7:4, IRQ bit 3, STAGE bit 2, STATE bits 1:0, the rest 0. -/
def State.statusWord (s : State) : Word :=
  0#24 ++ s.err.code ++ BitVec.ofBool s.irq ++ BitVec.ofBool s.defl.stg ++ s.stateCode

/-- What an aligned 32-bit read of a byte offset returns (R30, R304); CTRL and reserved offsets read 0 (R31, R44). -/
def State.regWord (s : State) (offset : Nat) : Word :=
  match offset with
  | 0x04 => s.configWord
  | 0x08 => s.statusWord
  | 0x0C => s.regs.inLen
  | 0x10 => s.regs.width
  | 0x14 => s.regs.height
  | 0x18 => s.regs.dbufLen
  | 0x1C => s.regs.pixLen
  | 0x20 => s.cur.byteIx
  | 0x24 => s.cur.bitIx.setWidth 32
  | 0x28 => s.regs.blockCount
  | 0x2C => s.err.byte
  | 0x30 => s.err.bit.setWidth 32
  | 0x34 => s.err.block
  | 0x38 => s.err.row
  | _ => 0

/-- Where a host sees REG as bytes: byte offset 4k + j shows bits 8j+7:8j of register k (R89, little-endian). -/
def State.regByte (s : State) (offset : Nat) : Byte :=
  (s.regWord (4 * (offset / 4))).extractLsb' (8 * (offset % 4)) 8

/-- An access that acts at all: 32 bits wide and 4-byte aligned (R92). -/
def regAccess (offset width : Nat) : Bool := decide (width = 32) && decide (offset % 4 = 0)

end Sys2Proof.Machine
end

