-- ==== Sys2Proof/Machine/HostPort.lean ====
section
/-! DEFINITION. The host's side: the commands written to CTRL (45_host_commands.md R300 to R303), register and memory
accesses (R304 to R306), reset (70_reset_and_hazards.md R350) and the start-up sequence (R353, R354). -/

namespace Sys2Proof.Machine

/-! ## Commands -/

/-- What START writes before its checks (R300, R352). -/
def startState (s : State) : State :=
  { clearErrors s with
    cur := { byteIx := 0, bitIx := 0 }
    regs := { s.regs with dbufLen := 0, pixLen := 0, blockCount := 0 }
    defl := { row := 0, stg := false } }

/-- The geometry START refuses (R300); the product is exact. -/
def badGeometry (s : State) : Bool :=
  decide (s.regs.width = 0) || decide (s.regs.height = 0) || decide (s.params.maxWidth < s.regs.width.toNat) ||
    decide (s.params.pixCap < 3 * s.regs.width.toNat * s.regs.height.toNat)

/-- START (R300). -/
def startCommand (s : State) : Res Unit :=
  if s.phase.busy = true then .ok () s
  else if s.params.inCap < s.regs.inLen.toNat then raise .invalidConfig (startState s)
  else if s.regs.defilterEn = true ∧ badGeometry s = true then raise .invalidConfig (startState s)
  else .ok () ((startState s).setPhase .header)

/-- CTRL.START (R300). -/
def execCtrlStart (_w : BitVec 32) (s : State) : Host.Outcome State Fault Refusal := (startCommand s).toOutcome

/-- CTRL.ABORT (R301). -/
def execCtrlAbort (_w : BitVec 32) (s : State) : Host.Outcome State Fault Refusal :=
  (if s.phase.busy = true then raise .aborted s else Res.ok () s).toOutcome

/-- CTRL.CLEAR (R302). -/
def execCtrlClear (_w : BitVec 32) (s : State) : Host.Outcome State Fault Refusal :=
  if s.phase.ended = true then .next ((clearErrors s).setPhase .idle) else .next s

/-- A CTRL write without a command bit (R303). -/
def execCtrlNone (_w : BitVec 32) (s : State) : Host.Outcome State Fault Refusal := .next s

/-! ## Register access -/

/-- What the host reads is kept for it to look at (log 23). -/
def State.deliver (s : State) (v : Word) : State := { s with env := { s.env with hostData := v } }

/-- A register read (R304); an access that is not 32 bits wide or not aligned returns 0 (R92). -/
def hostRegRead (offset width : Nat) (s : State) : State :=
  s.deliver (if regAccess offset width = true then s.regWord offset else 0)

/-- A write to a register that only stores (R305, R96): CONFIG, IN_LEN, WIDTH and HEIGHT while not BUSY, nothing else. -/
def hostRegStore (offset : Nat) (v : Word) (s : State) : State :=
  if s.phase.busy = true then s
  else
    match offset with
    | 0x04 => { s with regs := { s.regs with defilterEn := v.getLsbD 0, irqEn := v.getLsbD 1 } }
    | 0x0C => { s with regs := { s.regs with inLen := v } }
    | 0x10 => { s with regs := { s.regs with width := v } }
    | 0x14 => { s with regs := { s.regs with height := v } }
    | _ => s

/-! ## Memory access -/

/-- The space of a host memory. -/
def HostMem.space : HostMem → MemSpace
  | .inMem => .inMem
  | .dbuf => .dbuf
  | .pix => .pix

/-- Whether IN, DBUF and PIX are the host's: while STATE = BUSY the engine owns them (R100). The change of STATE is the
only ordering point there is (R102): no fence orders the host's accesses, this test of STATE does. -/
def State.hostOwns (s : State) : Bool := !s.phase.busy

/-- The bytes a host read gets as written: all of IN, DBUF below DBUF_LEN, PIX below PIX_LEN, and none before the change
of STATE that ends BUSY (R101, R102; for IN while BUSY log 10). -/
def hostReadable (mem : HostMem) (addr : Nat) (s : State) : Bool :=
  s.hostOwns &&
    match mem with
    | .inMem => true
    | .dbuf => decide (addr < s.regs.dbufLen.toNat)
    | .pix => decide (addr < s.regs.pixLen.toNat)

/-- A host read of one byte (R93, R101, R306): unspecified bytes are drawn. -/
def hostMemRead (mem : HostMem) (addr : Nat) (s : State) : Host.Outcome State Fault Refusal :=
  if s.sizeOf mem.space ≤ addr then .refused .hostAddress
  else if hostReadable mem addr s = true then .next (s.deliver ((s.byteAt mem.space addr).setWidth 32))
  else .next ((s.deliver (s.drawByte.setWidth 32)).drawn)

/-- A host write of one byte (R93, R306): IN only, and ignored while BUSY. -/
def hostMemWrite (mem : HostMem) (addr : Nat) (v : Byte) (s : State) : Host.Outcome State Fault Refusal :=
  match mem with
  | .inMem =>
    if s.params.inCap ≤ addr then .refused .hostAddress
    else if s.hostOwns = false then .next s
    else .next (s.setMemory .inMem (Memory.write s.mem.inMem addr v))
  | .dbuf => .refused .hostWriteOutput
  | .pix => .refused .hostWriteOutput

/-! ## Reset -/

/-- The reset event (R350): every piece of state at its value of R56, what is unspecified there (R351) open anew; the
schedule and the counters behind the free values are the model's own and go on (log 20). -/
def resetEvent (s : State) : State :=
  { State.resetWith s.params with
    env := { (State.resetWith s.params).env with
      inputs := s.env.inputs, draws := s.env.draws, epoch := s.env.epoch + 1 } }

/-! ## The host's start-up sequence -/

/-- Bytes the host strips before it loads (R354): 2, or 6 where FLG.FDICT (bit 5) is set. -/
def zlibSkip (z : List Byte) : Nat := if (z.getD 1 0).getLsbD 5 then 6 else 2

/-- Writes of IN from address a on. -/
def loadTurns : Nat → List Byte → List Turn
  | _, [] => []
  | a, v :: vs => .memWrite .inMem a v :: loadTurns (a + 1) vs

/-- Steps 4 to 8 of R353 for a stream without its zlib header. -/
def runTurns (stream : List Byte) (width height config : Word) : List Turn :=
  loadTurns 0 stream ++
    [.regWrite 0x0C 32 (BitVec.ofNat 32 stream.length), .regWrite 0x10 32 width, .regWrite 0x14 32 height,
     .regWrite 0x04 32 config, .regWrite 0x00 32 1]

/-- Steps 2 to 8 of R353, for the concatenated IDAT payload. -/
def hostSequence (z : List Byte) (width height config : Word) : List Turn :=
  runTurns (z.drop (zlibSkip z)) width height config

end Sys2Proof.Machine
end

