-- ==== Sys2Proof/Machine/Distance.lean ====
section
/-! DEFINITION. D symbols: distance resolution and the back-reference copy (43_lz77_expander.md R247 to R249). A D symbol
executes inside the P_TOKENS step of the length code before it, with LEN in its register (log 16). -/

namespace Sys2Proof.Machine

/-- DIST as written to its 16-bit register (R47). -/
def State.setDist (s : State) (v : Nat) : State := { s with tok := { s.tok with dist := BitVec.ofNat 16 v } }

/-- The copy of LEN bytes from DIST bytes back (R248); both checks come before the first byte. -/
def copyMatch (s : State) : Res Unit :=
  if s.outLen < s.tok.dist.toNat then raise .invalidBackReference s
  else if s.params.dbufCap < s.outLen + s.tok.len.toNat then raise .outputOverflow s
  else .ok () (copyBytes s.tok.len.toNat s.tok.dist.toNat s)

/-- Distance resolution (R247) and the copy (R248). -/
def distanceSymbol (d : BitVec 5) (s : State) : Res Unit :=
  if 29 < d.toNat then raise .invalidDistanceCode s
  else (readExtra (distEntry d.toNat) s).bind fun v s => copyMatch (s.setDist v)

/-- D symbol 0 (R247). -/
def execD0 (s : State) : Host.Outcome State Fault Refusal := (distanceSymbol 0 s).toOutcome

/-- D symbol 1 (R247). -/
def execD1 (s : State) : Host.Outcome State Fault Refusal := (distanceSymbol 1 s).toOutcome

/-- D symbol 2 (R247). -/
def execD2 (s : State) : Host.Outcome State Fault Refusal := (distanceSymbol 2 s).toOutcome

/-- D symbol 3 (R247). -/
def execD3 (s : State) : Host.Outcome State Fault Refusal := (distanceSymbol 3 s).toOutcome

/-- D symbol 4 (R247). -/
def execD4 (s : State) : Host.Outcome State Fault Refusal := (distanceSymbol 4 s).toOutcome

/-- D symbol 5 (R247). -/
def execD5 (s : State) : Host.Outcome State Fault Refusal := (distanceSymbol 5 s).toOutcome

/-- D symbol 6 (R247). -/
def execD6 (s : State) : Host.Outcome State Fault Refusal := (distanceSymbol 6 s).toOutcome

/-- D symbol 7 (R247). -/
def execD7 (s : State) : Host.Outcome State Fault Refusal := (distanceSymbol 7 s).toOutcome

/-- D symbol 8 (R247). -/
def execD8 (s : State) : Host.Outcome State Fault Refusal := (distanceSymbol 8 s).toOutcome

/-- D symbol 9 (R247). -/
def execD9 (s : State) : Host.Outcome State Fault Refusal := (distanceSymbol 9 s).toOutcome

/-- D symbol 10 (R247). -/
def execD10 (s : State) : Host.Outcome State Fault Refusal := (distanceSymbol 10 s).toOutcome

/-- D symbol 11 (R247). -/
def execD11 (s : State) : Host.Outcome State Fault Refusal := (distanceSymbol 11 s).toOutcome

/-- D symbol 12 (R247). -/
def execD12 (s : State) : Host.Outcome State Fault Refusal := (distanceSymbol 12 s).toOutcome

/-- D symbol 13 (R247). -/
def execD13 (s : State) : Host.Outcome State Fault Refusal := (distanceSymbol 13 s).toOutcome

/-- D symbol 14 (R247). -/
def execD14 (s : State) : Host.Outcome State Fault Refusal := (distanceSymbol 14 s).toOutcome

/-- D symbol 15 (R247). -/
def execD15 (s : State) : Host.Outcome State Fault Refusal := (distanceSymbol 15 s).toOutcome

/-- D symbol 16 (R247). -/
def execD16 (s : State) : Host.Outcome State Fault Refusal := (distanceSymbol 16 s).toOutcome

/-- D symbol 17 (R247). -/
def execD17 (s : State) : Host.Outcome State Fault Refusal := (distanceSymbol 17 s).toOutcome

/-- D symbol 18 (R247). -/
def execD18 (s : State) : Host.Outcome State Fault Refusal := (distanceSymbol 18 s).toOutcome

/-- D symbol 19 (R247). -/
def execD19 (s : State) : Host.Outcome State Fault Refusal := (distanceSymbol 19 s).toOutcome

/-- D symbol 20 (R247). -/
def execD20 (s : State) : Host.Outcome State Fault Refusal := (distanceSymbol 20 s).toOutcome

/-- D symbol 21 (R247). -/
def execD21 (s : State) : Host.Outcome State Fault Refusal := (distanceSymbol 21 s).toOutcome

/-- D symbol 22 (R247). -/
def execD22 (s : State) : Host.Outcome State Fault Refusal := (distanceSymbol 22 s).toOutcome

/-- D symbol 23 (R247). -/
def execD23 (s : State) : Host.Outcome State Fault Refusal := (distanceSymbol 23 s).toOutcome

/-- D symbol 24 (R247). -/
def execD24 (s : State) : Host.Outcome State Fault Refusal := (distanceSymbol 24 s).toOutcome

/-- D symbol 25 (R247). -/
def execD25 (s : State) : Host.Outcome State Fault Refusal := (distanceSymbol 25 s).toOutcome

/-- D symbol 26 (R247). -/
def execD26 (s : State) : Host.Outcome State Fault Refusal := (distanceSymbol 26 s).toOutcome

/-- D symbol 27 (R247). -/
def execD27 (s : State) : Host.Outcome State Fault Refusal := (distanceSymbol 27 s).toOutcome

/-- D symbol 28 (R247). -/
def execD28 (s : State) : Host.Outcome State Fault Refusal := (distanceSymbol 28 s).toOutcome

/-- D symbol 29 (R247). -/
def execD29 (s : State) : Host.Outcome State Fault Refusal := (distanceSymbol 29 s).toOutcome

/-- D symbols 30 and 31 (R247): InvalidDistanceCode. -/
def execDInvalid3031 (sym : BitVec 5) (s : State) : Host.Outcome State Fault Refusal := (distanceSymbol sym s).toOutcome

end Sys2Proof.Machine
end

