-- ==== Sys2Proof/Machine/Tokens.lean ====
section
/-! DEFINITION. LL symbols (43_lz77_expander.md R242 to R246). -/

namespace Sys2Proof.Machine

/-- SYM <- the decoded symbol (R241). -/
def State.setSym (s : State) (v : BitVec 9) : State := { s with tok := { s.tok with sym := v } }

/-- LEN as written to its 9-bit register (R47). -/
def State.setLen (s : State) (v : Nat) : State := { s with tok := { s.tok with len := BitVec.ofNat 9 v } }

/-- DSYM as written to its 5-bit register (R47; log 25). -/
def State.setDsym (s : State) (v : Nat) : State := { s with tok := { s.tok with dsym := BitVec.ofNat 5 v } }

/-- The distance symbol (R246): five bits MSB-first in a fixed block, a code of T_D in a dynamic one. -/
def readDistance (s : State) : Res Unit :=
  if s.blk.act = false then (readBitsMSB 5 s).bind fun v s => .ok () (s.setDsym v.toNat)
  else (decodeSymbol s.tabs.d s).bind fun r s => .ok () (s.setDsym r.1.toNat)

/-- A length code (R244), then its distance symbol (R246) and what that does (R247, R248). -/
def lengthSymbol (sym : Nat) (s : State) : Res Unit :=
  (readExtra (lengthEntry sym) s).bind fun v s =>
    (readDistance (s.setLen v)).bind fun _ s => distanceSymbol s.tok.dsym s

/-- Literal (R242). -/
def execLlLiteral (b : BitVec 8) (s : State) : Host.Outcome State Fault Refusal := (append b s).toOutcome

/-- End of block (R243). -/
def execLlEob (s : State) : Host.Outcome State Fault Refusal := .next (s.setPhase .blockEnd)

/-- Length code 257 (R244). -/
def execLlLen257 (s : State) : Host.Outcome State Fault Refusal := (lengthSymbol 257 s).toOutcome

/-- Length code 258 (R244). -/
def execLlLen258 (s : State) : Host.Outcome State Fault Refusal := (lengthSymbol 258 s).toOutcome

/-- Length code 259 (R244). -/
def execLlLen259 (s : State) : Host.Outcome State Fault Refusal := (lengthSymbol 259 s).toOutcome

/-- Length code 260 (R244). -/
def execLlLen260 (s : State) : Host.Outcome State Fault Refusal := (lengthSymbol 260 s).toOutcome

/-- Length code 261 (R244). -/
def execLlLen261 (s : State) : Host.Outcome State Fault Refusal := (lengthSymbol 261 s).toOutcome

/-- Length code 262 (R244). -/
def execLlLen262 (s : State) : Host.Outcome State Fault Refusal := (lengthSymbol 262 s).toOutcome

/-- Length code 263 (R244). -/
def execLlLen263 (s : State) : Host.Outcome State Fault Refusal := (lengthSymbol 263 s).toOutcome

/-- Length code 264 (R244). -/
def execLlLen264 (s : State) : Host.Outcome State Fault Refusal := (lengthSymbol 264 s).toOutcome

/-- Length code 265 (R244). -/
def execLlLen265 (s : State) : Host.Outcome State Fault Refusal := (lengthSymbol 265 s).toOutcome

/-- Length code 266 (R244). -/
def execLlLen266 (s : State) : Host.Outcome State Fault Refusal := (lengthSymbol 266 s).toOutcome

/-- Length code 267 (R244). -/
def execLlLen267 (s : State) : Host.Outcome State Fault Refusal := (lengthSymbol 267 s).toOutcome

/-- Length code 268 (R244). -/
def execLlLen268 (s : State) : Host.Outcome State Fault Refusal := (lengthSymbol 268 s).toOutcome

/-- Length code 269 (R244). -/
def execLlLen269 (s : State) : Host.Outcome State Fault Refusal := (lengthSymbol 269 s).toOutcome

/-- Length code 270 (R244). -/
def execLlLen270 (s : State) : Host.Outcome State Fault Refusal := (lengthSymbol 270 s).toOutcome

/-- Length code 271 (R244). -/
def execLlLen271 (s : State) : Host.Outcome State Fault Refusal := (lengthSymbol 271 s).toOutcome

/-- Length code 272 (R244). -/
def execLlLen272 (s : State) : Host.Outcome State Fault Refusal := (lengthSymbol 272 s).toOutcome

/-- Length code 273 (R244). -/
def execLlLen273 (s : State) : Host.Outcome State Fault Refusal := (lengthSymbol 273 s).toOutcome

/-- Length code 274 (R244). -/
def execLlLen274 (s : State) : Host.Outcome State Fault Refusal := (lengthSymbol 274 s).toOutcome

/-- Length code 275 (R244). -/
def execLlLen275 (s : State) : Host.Outcome State Fault Refusal := (lengthSymbol 275 s).toOutcome

/-- Length code 276 (R244). -/
def execLlLen276 (s : State) : Host.Outcome State Fault Refusal := (lengthSymbol 276 s).toOutcome

/-- Length code 277 (R244). -/
def execLlLen277 (s : State) : Host.Outcome State Fault Refusal := (lengthSymbol 277 s).toOutcome

/-- Length code 278 (R244). -/
def execLlLen278 (s : State) : Host.Outcome State Fault Refusal := (lengthSymbol 278 s).toOutcome

/-- Length code 279 (R244). -/
def execLlLen279 (s : State) : Host.Outcome State Fault Refusal := (lengthSymbol 279 s).toOutcome

/-- Length code 280 (R244). -/
def execLlLen280 (s : State) : Host.Outcome State Fault Refusal := (lengthSymbol 280 s).toOutcome

/-- Length code 281 (R244). -/
def execLlLen281 (s : State) : Host.Outcome State Fault Refusal := (lengthSymbol 281 s).toOutcome

/-- Length code 282 (R244). -/
def execLlLen282 (s : State) : Host.Outcome State Fault Refusal := (lengthSymbol 282 s).toOutcome

/-- Length code 283 (R244). -/
def execLlLen283 (s : State) : Host.Outcome State Fault Refusal := (lengthSymbol 283 s).toOutcome

/-- Length code 284 (R244). -/
def execLlLen284 (s : State) : Host.Outcome State Fault Refusal := (lengthSymbol 284 s).toOutcome

/-- Length code 285 (R244). -/
def execLlLen285 (s : State) : Host.Outcome State Fault Refusal := (lengthSymbol 285 s).toOutcome

/-- LL symbols 286 and 287 (R245): InvalidLengthCode. -/
def execLlInvalid286287 (_sym : BitVec 9) (s : State) : Host.Outcome State Fault Refusal :=
  (raise (α := Unit) .invalidLengthCode s).toOutcome

end Sys2Proof.Machine
end

