-- ==== Sys2Proof/Machine/Fetch.lean ====
section
/-! DEFINITION. What the next step is: the instruction it runs, with the state it runs it in, or a step that runs none
(42_deflate_blocks.md R200, 20_memory.md R100). Also where an instruction is placed for the next step to fetch it. -/

namespace Sys2Proof.Machine

/-- What the next step runs. -/
inductive Fetched where
  /-- The step is the meaning of this instruction in this state. -/
  | instr (i : Instr) (s : State)
  /-- The step runs no instruction, and this is how it ends. -/
  | over (o : Host.Outcome State Fault Refusal)
  deriving Repr

/-- An instruction that was read, or the error entry its reading ended in. -/
def Fetched.ofRes (r : Res Instr) : Fetched :=
  match r with
  | .ok i s => .instr i s
  | .raised s => .over (.next s)
  | .fault f => .over (.fault f)

/-- The reads of P_HEADER (R202): BFINAL and BTYPE, the element to dispatch on (R203). -/
def fetchHeader (s : State) : Res Instr :=
  (readBitsLSB 1 { s with defl := { s.defl with stg := false } }).bind fun f s =>
    (readBitsLSB 2 s).bind fun t s =>
      .ok (decodeBtype (t.setWidth 2)) { s with blk := { s.blk with bfinal := f.getLsbD 0, btype := t.setWidth 2 } }

/-- The LL table ACT selects (R45, R241). -/
def State.activeLL (s : State) : HuffTable := if s.blk.act = false then fLL else s.tabs.ll

/-- The decode that begins P_TOKENS (R241). Symbols above 287 are none of the alphabet's (log 14). -/
def fetchToken (s : State) : Res Instr :=
  (decodeSymbol s.activeLL s).bind fun r s =>
    match decodeLL r.1 with
    | .ok i => .ok i (s.setSym r.1)
    | .error _ => .fault .symbolOutsideAlphabet

/-- The filter byte that begins P_DEFILTER_ROW (R271). -/
def fetchFilter (s : State) : Res Instr :=
  if s.params.dbufCap ≤ s.rowBase then .fault .dbufAddress
  else .ok (decodeFilter (s.byteAt .dbuf s.rowBase)) s

/-- The engine's step by phase (R200); P_IDLE, P_DONE and P_ERROR have none and stay as they are (log 3). -/
def fetchEngine (s : State) : Fetched :=
  match s.phase with
  | .idle => .over (.next s)
  | .header => .ofRes (fetchHeader s)
  | .stored => .instr .btypeStored s
  | .dynamic => .instr .btypeDynamic s
  | .tokens => .ofRes (fetchToken s)
  | .blockEnd => .over (.next (blockEndStep s))
  | .defilterStart => .over (defilterStart s).toOutcome
  | .defilterRow => .ofRes (fetchFilter s)
  | .done => .over (.next s)
  | .error => .over (.next s)

/-- A turn of the schedule. A request on an internal port reaches its unit only while the block is BUSY: outside a run no
sub-unit asks (log 11). -/
def fetchTurn (t : Turn) (s : State) : Fetched :=
  match t with
  | .engine => fetchEngine s
  | .regRead offset width => .over (.next (hostRegRead offset width s))
  | .regWrite offset width v =>
    if regAccess offset width = false then .over (.next s)
    else if offset = 0 then .instr (decodeCtrl v) s
    else .over (.next (hostRegStore offset v s))
  | .memRead mem addr => .over (hostMemRead mem addr s)
  | .memWrite mem addr v => .over (hostMemWrite mem addr v s)
  | .bcRequest req => if s.phase.busy = true then .instr (decodeBC req) s else .over (.next s)
  | .htRequest req lens =>
    if s.phase.busy = true then .instr (decodeHT req) { s with env := { s.env with portLens := lens } }
    else .over (.next s)
  | .reset => .over (.next (resetEvent s))

/-- The schedule after its first turn. -/
def State.withInputs (s : State) (ts : List Turn) : State := { s with env := { s.env with inputs := ts } }

/-- What the next step is: the first pending turn, or the engine's step where none is pending (log 2). -/
def fetch (s : State) : Fetched :=
  match s.env.inputs with
  | [] => fetchEngine s
  | t :: ts => fetchTurn t (s.withInputs ts)

/-! ## Placing an instruction -/

/-- The stream replaced by these bits and 24 zero bits after them (operands of zeros), the cursor at its start. -/
def placeStream (bits : List Bool) (p : Phase) (s : State) : State :=
  let bytes := packBits (bits ++ List.replicate 24 false)
  { s with
    mem := { s.mem with inMem := Memory.writeList s.mem.inMem 0 bytes }
    regs := { s.regs with inLen := BitVec.ofNat 32 bytes.length }
    cur := { byteIx := 0, bitIx := 0 }
    phase := p
    env := { s.env with inputs := [] } }

/-- A dynamic header in which every CL symbol has the five-bit code equal to itself: HLIT 257, HDIST 1, HCLEN 19, nineteen
CL lengths of 5. -/
def plainClHeader : List Bool :=
  lsbBits 5 0 ++ lsbBits 5 0 ++ lsbBits 4 15 ++ (List.replicate 19 ()).flatMap (fun _ => lsbBits 3 5)

/-- The state whose next step fetches and runs the element. An LL symbol is placed as its fixed code; a D symbol runs
inside the step of a length code, so length code 257 stands before it; a CL symbol runs inside P_DYNAMIC, so a header
stands before it (log 16, log 18). -/
def placeElement (e : Element) (s : State) : State :=
  match e with
  | .btype t => placeStream (lsbBits 1 0 ++ lsbBits 2 t.toNat) .header s
  | .ll sym =>
    let s := placeStream (symbolBits fLL sym) .tokens s
    { s with blk := { s.blk with act := false } }
  | .dist sym =>
    let s := placeStream (symbolBits fLL 257 ++ codeBits 5 sym.toNat) .tokens s
    { s with blk := { s.blk with act := false } }
  | .cl sym => placeStream (plainClHeader ++ codeBits 5 sym.toNat) .dynamic s
  | .filter b =>
    { s with
      mem := { s.mem with dbuf := Memory.write s.mem.dbuf s.rowBase b }
      phase := .defilterRow
      env := { s.env with inputs := [] } }
  | .ctrl w => s.withInputs [.regWrite 0 32 w]
  | .bc req => { s with phase := if s.phase.busy then s.phase else .header, env := { s.env with inputs := [.bcRequest req] } }
  | .ht req =>
    { s with
      phase := if s.phase.busy then s.phase else .header
      env := { s.env with inputs := [.htRequest req s.env.portLens] } }

end Sys2Proof.Machine
end

