-- ==== Sys2Proof/Machine/Dispatch.lean ====
section
/-! DEFINITION. The meaning of every instruction: one arm per constructor, one direct call each. -/

namespace Sys2Proof.Machine

def exec (i : Instr) (s : State) : Host.Outcome State Fault Refusal :=
  match i with
  | .btypeStored => Sys2Proof.Machine.execBtypeStored s
  | .btypeFixed => Sys2Proof.Machine.execBtypeFixed s
  | .btypeDynamic => Sys2Proof.Machine.execBtypeDynamic s
  | .btypeReserved => Sys2Proof.Machine.execBtypeReserved s
  | .llLiteral b => Sys2Proof.Machine.execLlLiteral b s
  | .llEob => Sys2Proof.Machine.execLlEob s
  | .llLen257 => Sys2Proof.Machine.execLlLen257 s
  | .llLen258 => Sys2Proof.Machine.execLlLen258 s
  | .llLen259 => Sys2Proof.Machine.execLlLen259 s
  | .llLen260 => Sys2Proof.Machine.execLlLen260 s
  | .llLen261 => Sys2Proof.Machine.execLlLen261 s
  | .llLen262 => Sys2Proof.Machine.execLlLen262 s
  | .llLen263 => Sys2Proof.Machine.execLlLen263 s
  | .llLen264 => Sys2Proof.Machine.execLlLen264 s
  | .llLen265 => Sys2Proof.Machine.execLlLen265 s
  | .llLen266 => Sys2Proof.Machine.execLlLen266 s
  | .llLen267 => Sys2Proof.Machine.execLlLen267 s
  | .llLen268 => Sys2Proof.Machine.execLlLen268 s
  | .llLen269 => Sys2Proof.Machine.execLlLen269 s
  | .llLen270 => Sys2Proof.Machine.execLlLen270 s
  | .llLen271 => Sys2Proof.Machine.execLlLen271 s
  | .llLen272 => Sys2Proof.Machine.execLlLen272 s
  | .llLen273 => Sys2Proof.Machine.execLlLen273 s
  | .llLen274 => Sys2Proof.Machine.execLlLen274 s
  | .llLen275 => Sys2Proof.Machine.execLlLen275 s
  | .llLen276 => Sys2Proof.Machine.execLlLen276 s
  | .llLen277 => Sys2Proof.Machine.execLlLen277 s
  | .llLen278 => Sys2Proof.Machine.execLlLen278 s
  | .llLen279 => Sys2Proof.Machine.execLlLen279 s
  | .llLen280 => Sys2Proof.Machine.execLlLen280 s
  | .llLen281 => Sys2Proof.Machine.execLlLen281 s
  | .llLen282 => Sys2Proof.Machine.execLlLen282 s
  | .llLen283 => Sys2Proof.Machine.execLlLen283 s
  | .llLen284 => Sys2Proof.Machine.execLlLen284 s
  | .llLen285 => Sys2Proof.Machine.execLlLen285 s
  | .llInvalid286287 sym => Sys2Proof.Machine.execLlInvalid286287 sym s
  | .d0 => Sys2Proof.Machine.execD0 s
  | .d1 => Sys2Proof.Machine.execD1 s
  | .d2 => Sys2Proof.Machine.execD2 s
  | .d3 => Sys2Proof.Machine.execD3 s
  | .d4 => Sys2Proof.Machine.execD4 s
  | .d5 => Sys2Proof.Machine.execD5 s
  | .d6 => Sys2Proof.Machine.execD6 s
  | .d7 => Sys2Proof.Machine.execD7 s
  | .d8 => Sys2Proof.Machine.execD8 s
  | .d9 => Sys2Proof.Machine.execD9 s
  | .d10 => Sys2Proof.Machine.execD10 s
  | .d11 => Sys2Proof.Machine.execD11 s
  | .d12 => Sys2Proof.Machine.execD12 s
  | .d13 => Sys2Proof.Machine.execD13 s
  | .d14 => Sys2Proof.Machine.execD14 s
  | .d15 => Sys2Proof.Machine.execD15 s
  | .d16 => Sys2Proof.Machine.execD16 s
  | .d17 => Sys2Proof.Machine.execD17 s
  | .d18 => Sys2Proof.Machine.execD18 s
  | .d19 => Sys2Proof.Machine.execD19 s
  | .d20 => Sys2Proof.Machine.execD20 s
  | .d21 => Sys2Proof.Machine.execD21 s
  | .d22 => Sys2Proof.Machine.execD22 s
  | .d23 => Sys2Proof.Machine.execD23 s
  | .d24 => Sys2Proof.Machine.execD24 s
  | .d25 => Sys2Proof.Machine.execD25 s
  | .d26 => Sys2Proof.Machine.execD26 s
  | .d27 => Sys2Proof.Machine.execD27 s
  | .d28 => Sys2Proof.Machine.execD28 s
  | .d29 => Sys2Proof.Machine.execD29 s
  | .dInvalid3031 sym => Sys2Proof.Machine.execDInvalid3031 sym s
  | .clLen015 len => Sys2Proof.Machine.execClLen015 len s
  | .clRepeatPrev16 => Sys2Proof.Machine.execClRepeatPrev16 s
  | .clRepeatZero17 => Sys2Proof.Machine.execClRepeatZero17 s
  | .clRepeatZero18 => Sys2Proof.Machine.execClRepeatZero18 s
  | .filterNone => Sys2Proof.Machine.execFilterNone s
  | .filterSub => Sys2Proof.Machine.execFilterSub s
  | .filterUp => Sys2Proof.Machine.execFilterUp s
  | .filterAverage => Sys2Proof.Machine.execFilterAverage s
  | .filterPaeth => Sys2Proof.Machine.execFilterPaeth s
  | .filterInvalid5 => Sys2Proof.Machine.execFilterInvalid5 s
  | .filterInvalid67 ft => Sys2Proof.Machine.execFilterInvalid67 ft s
  | .filterInvalid815 ft => Sys2Proof.Machine.execFilterInvalid815 ft s
  | .filterInvalid1631 ft => Sys2Proof.Machine.execFilterInvalid1631 ft s
  | .filterInvalid3263 ft => Sys2Proof.Machine.execFilterInvalid3263 ft s
  | .filterInvalid64127 ft => Sys2Proof.Machine.execFilterInvalid64127 ft s
  | .filterInvalid128255 ft => Sys2Proof.Machine.execFilterInvalid128255 ft s
  | .ctrlAbort w => Sys2Proof.Machine.execCtrlAbort w s
  | .ctrlClear w => Sys2Proof.Machine.execCtrlClear w s
  | .ctrlStart w => Sys2Proof.Machine.execCtrlStart w s
  | .ctrlNone w => Sys2Proof.Machine.execCtrlNone w s
  | .bcReadBitMsb n => Sys2Proof.Machine.execBcReadBitMsb n s
  | .bcReadBitsMsb n => Sys2Proof.Machine.execBcReadBitsMsb n s
  | .bcPeekBitsMsb n => Sys2Proof.Machine.execBcPeekBitsMsb n s
  | .bcReadBitsLsb n => Sys2Proof.Machine.execBcReadBitsLsb n s
  | .bcSkipBits n => Sys2Proof.Machine.execBcSkipBits n s
  | .bcAlignToByte n => Sys2Proof.Machine.execBcAlignToByte n s
  | .bcReserved67 op n => Sys2Proof.Machine.execBcReserved67 op n s
  | .htBuildFixed tid => Sys2Proof.Machine.execHtBuildFixed tid s
  | .htBuildFromLengths tid => Sys2Proof.Machine.execHtBuildFromLengths tid s
  | .htDecode tid => Sys2Proof.Machine.execHtDecode tid s
  | .htReserved3 tid => Sys2Proof.Machine.execHtReserved3 tid s

end Sys2Proof.Machine
end

