-- ==== Sys2Proof/Machine/Step.lean ====
section
/-! DEFINITION. One step of the machine, and where an instruction is placed for the next step to run it. -/

namespace Sys2Proof.Machine

/-- One step: a host or platform turn, or one atomic engine step (R8, R100, R200). A turn falls between engine steps and
sees all that the steps before it wrote; no fence is among the turns (R102). -/
def step (s : State) : Host.Outcome State Fault Refusal :=
  match fetch s with
  | .instr i s' => exec i s'
  | .over o => o

/-- The state with a table word's instruction placed where the next step fetches it (log 18). -/
def State.withFetchWord (s : State) (nbits w : Nat) : State :=
  match elementOfTableWord nbits w with
  | some e => placeElement e s
  | none => s

end Sys2Proof.Machine
end

