-- ==== Sys2Proof/Safety.lean ====
section
/-! DEFINITION. What a good state is: the invariants of 10_state.md R57 and what they rest on, and the terms in which
statements speak of a run (45_host_commands.md R307). -/

namespace Sys2Proof.Machine

/-- A table's Kraft sum from its counts, as R57(e) writes it, the list starting at length L. -/
def countsKraft : Nat → List (BitVec 9) → Nat
  | _, [] => 0
  | L, c :: cs => c.toNat * 2 ^ (15 - L) + countsKraft (L + 1) cs

/-- A table over n symbols as R50 describes it and R57(e) bounds it. -/
structure HuffTable.Wf (n : Nat) (t : HuffTable) : Prop where
  countLength : t.count.length = 15
  firstLength : t.first.length = 15
  offsetLength : t.offset.length = 15
  symLength : t.sym.length = n
  kraft : countsKraft 1 t.count ≤ 2 ^ 15
  places : ∀ L, L < 15 → (t.offset.getD L 0).toNat + (t.count.getD L 0).toNat ≤ n
  symbols : ∀ x ∈ t.sym, x.toNat < n

/-- The stream fits memory IN, as START checks (R300); then no read inside the stream is outside IN. -/
abbrev FitsIn (s : State) : Prop := s.regs.inLen.toNat ≤ s.params.inCap

/-- The L bits at the cursor are one of the table's codes of length L (30_encoding.md R123, 41_huffman_decoder.md R185). -/
abbrev HuffTable.MatchesAt (t : HuffTable) (s : State) (L : Nat) : Prop :=
  atLength t.first L ≤ s.msbValue s.pos L ∧ s.msbValue s.pos L < atLength t.first L + atLength t.count L

/-- The place in T.sym of the code of length L at the cursor (R185). -/
def HuffTable.placeAt (t : HuffTable) (s : State) (L : Nat) : Nat :=
  atLength t.offset L + (s.msbValue s.pos L - atLength t.first L)

/-- The code at the cursor is one of L bits, the first length that matches, and it names x (R185). -/
structure HuffTable.FirstMatch (t : HuffTable) (s : State) (L : Nat) (x : BitVec 9) : Prop where
  used : t.used ≠ 0
  range : t.minLen.toNat ≤ L ∧ L ≤ t.maxLen.toNat
  fits : s.pos + L ≤ s.streamEnd
  matchesAt : t.MatchesAt s L
  first : ∀ j, j < L → t.minLen.toNat ≤ j → ¬ t.MatchesAt s j
  symbol : t.sym[t.placeAt s L]? = some x

/-- No code of the table stands at the cursor: the table is empty (R187), or no length matches (R185). -/
abbrev HuffTable.FailsAt (t : HuffTable) (s : State) : Prop :=
  t.used = 0 ∨ (s.pos + t.maxLen.toNat ≤ s.streamEnd ∧
    ∀ j, j ≤ t.maxLen.toNat → t.minLen.toNat ≤ j → ¬ t.MatchesAt s j)

/-- The stream ends at a length to be tried, and no shorter one matches (R185). -/
structure HuffTable.EndsAt (t : HuffTable) (s : State) (L : Nat) : Prop where
  used : t.used ≠ 0
  range : t.minLen.toNat ≤ L ∧ L ≤ t.maxLen.toNat
  ends : s.streamEnd < s.pos + L
  before : ∀ j, j < L → t.minLen.toNat ≤ j → s.pos + j ≤ s.streamEnd ∧ ¬ t.MatchesAt s j

/-- A memory in canonical form with no address beyond its space. -/
abbrev MemoryOk (m : Memory) (size : Nat) : Prop := Memory.wf m = true ∧ ∀ c ∈ m, c.1 < size

/-- A phase of the decompression stage, or the one that starts the defilter stage: no row has been made yet. -/
def Phase.beforeRows (p : Phase) : Bool := p.busy && decide (p ≠ .defilterRow)

/-- The invariant of every reachable state (R57, with what its lines rest on). -/
structure Inv (s : State) : Prop where
  /-- R9: the parameters are in their range. -/
  params : s.params.wf = true
  /-- R57(a), stated while BUSY. -/
  cursor : s.phase.busy = true → s.pos ≤ s.streamEnd
  /-- START admits only IN_LEN ≤ IN_CAP (R300). -/
  input : s.phase.busy = true → s.regs.inLen.toNat ≤ s.params.inCap
  /-- R57(b). -/
  output : s.outLen ≤ s.params.dbufCap
  /-- R57(c), without its geometry. -/
  pixels : s.regs.pixLen.toNat ≤ s.params.pixCap
  /-- START admits only a good geometry where the defilter will run (R300). -/
  geometry : s.phase.busy = true → s.regs.defilterEn = true → badGeometry s = false
  /-- The defilter stage is entered only with DEFILTER_EN = 1 (R214). -/
  stage : s.phase = .defilterStart ∨ s.phase = .defilterRow → s.regs.defilterEn = true
  /-- R360: no pixel is written and STAGE is 0 before the rows begin. -/
  beforeRows : s.phase.beforeRows = true → s.regs.pixLen = 0 ∧ s.defl.stg = false
  /-- R57(c) during the rows, with what R270 checked. -/
  rows : s.phase = .defilterRow →
    s.defl.stg = true ∧ s.defl.row.toNat < s.regs.height.toNat ∧
      s.regs.pixLen.toNat = s.defl.row.toNat * s.rowBytes ∧ s.imageNeed ≤ s.outLen
  /-- R57(d). -/
  errCode : s.err.code ≠ 0 ↔ s.phase = .error
  /-- R320: code 14 is never raised. -/
  errKnown : s.err.code ≠ 14
  /-- R57(e) and R50 for T_CL. -/
  tableCl : s.tabs.cl.Wf 19
  /-- R57(e) and R50 for T_LL. -/
  tableLl : s.tabs.ll.Wf 288
  /-- R57(e) and R50 for T_D. -/
  tableD : s.tabs.d.Wf 32
  /-- CLL has nineteen entries (R46). -/
  cllLength : s.hdr.cll.length = 19
  /-- LENS has 320 entries (R46). -/
  lensLength : s.hdr.lens.length = 320
  /-- Every memory is in canonical form and inside its space. -/
  memories : ∀ sp, MemoryOk (s.memory sp) (s.sizeOf sp)

/-- k steps of the machine (Host.Core.run). -/
def runSteps (k : Nat) (s : State) : Host.Outcome State Fault Refusal := Sys2Proof.core.run k s

/-- What a run's result is (R307): STATUS, the lengths, the cursor, the error registers, and the bytes below the lengths. -/
structure SameResult (s t : State) : Prop where
  status : s.statusWord = t.statusWord
  dbufLen : s.regs.dbufLen = t.regs.dbufLen
  pixLen : s.regs.pixLen = t.regs.pixLen
  blockCount : s.regs.blockCount = t.regs.blockCount
  cursor : s.cur = t.cur
  errors : s.err = t.err
  dbuf : ∀ a, a < s.outLen → s.byteAt .dbuf a = t.byteAt .dbuf a
  pix : ∀ a, a < s.regs.pixLen.toNat → s.byteAt .pix a = t.byteAt .pix a

/-- What a run depends on (R352): CONFIG, IN_LEN, WIDTH, HEIGHT, the parameters and IN[0..IN_LEN-1]. -/
structure SameJob (s t : State) : Prop where
  params : s.params = t.params
  defilterEn : s.regs.defilterEn = t.regs.defilterEn
  irqEn : s.regs.irqEn = t.regs.irqEn
  inLen : s.regs.inLen = t.regs.inLen
  width : s.regs.width = t.regs.width
  height : s.regs.height = t.regs.height
  stream : ∀ a, a < s.regs.inLen.toNat → s.byteAt .inMem a = t.byteAt .inMem a

/-- The stream from position p on begins with these bits, all of them before the end. -/
abbrev State.streamHas (s : State) (p : Nat) (bits : List Bool) : Prop :=
  p + bits.length ≤ s.streamEnd ∧ ∀ i, i < bits.length → s.streamBit (p + i) = bits.getD i false

/-- The errors each phase's step can raise (R324). -/
def phaseErrors : Phase → List ErrorKind
  | .idle => []
  | .header => [.outOfData, .invalidBlockType]
  | .stored => [.outOfData, .lengthMismatch, .outputOverflow]
  | .dynamic => [.outOfData, .invalidCodeLengths, .noMatchingCode]
  | .tokens =>
    [.outOfData, .noMatchingCode, .invalidLengthCode, .invalidDistanceCode, .invalidBackReference, .outputOverflow]
  | .blockEnd => []
  | .defilterStart => [.imageDataShort]
  | .defilterRow => [.invalidFilterType]
  | .done => []
  | .error => []

/-- The phases the step of a phase may leave the block in (R200). -/
def phaseNext : Phase → List Phase
  | .idle => [.idle]
  | .header => [.stored, .tokens, .dynamic, .error]
  | .stored => [.blockEnd, .error]
  | .dynamic => [.tokens, .error]
  | .tokens => [.tokens, .blockEnd, .error]
  | .blockEnd => [.header, .defilterStart, .done]
  | .defilterStart => [.defilterRow, .error]
  | .defilterRow => [.defilterRow, .done, .error]
  | .done => [.done]
  | .error => [.error]

/-- A token of a fixed block, for statements about whole blocks (R120): a literal, or a back-reference of a length and a
distance. -/
inductive Tok where
  | lit (b : Byte)
  | backRef (len dist : Nat)
  deriving DecidableEq, Repr

/-- A token the format can write after n bytes of output (R124 to R126, R248). -/
def Tok.okAfter (n : Nat) : Tok → Bool
  | .lit _ => true
  | .backRef len dist => decide (3 ≤ len) && decide (len ≤ 258) && (decide (1 ≤ dist) && decide (dist ≤ 32768) && decide (dist ≤ n))

/-- The output after a back-reference, byte by byte (R248). -/
def extendOutput (dist : Nat) : Nat → List Byte → List Byte
  | 0, out => out
  | n + 1, out => extendOutput dist n (out ++ [out.getD (out.length - dist) 0])

/-- The output of a list of tokens, none where one of them is not allowed. -/
def tokensOutput : List Tok → List Byte → Option (List Byte)
  | [], out => some out
  | t :: ts, out =>
    if Tok.okAfter out.length t = false then none
    else
      match t with
      | .lit b => tokensOutput ts (out ++ [b])
      | .backRef len dist => tokensOutput ts (extendOutput dist len out)

/-- A token as a line of the stream notation (R134). -/
def Tok.line : Tok → Line
  | .lit b => .lit b.toNat
  | .backRef len dist => .backRef len dist

/-! ## Length and distance codes, as 30_encoding.md R122 to R127 list them

The rows stand here a second time, each with its symbol, so that a statement holds the model's tables against them. -/

/-- The length codes as (symbol, extra, base): R124, and R125 for 285. -/
def lengthRows : List (Nat × Nat × Nat) :=
  [(257, 0, 3), (258, 0, 4), (259, 0, 5), (260, 0, 6), (261, 0, 7), (262, 0, 8), (263, 0, 9), (264, 0, 10),
    (265, 1, 11), (266, 1, 13), (267, 1, 15), (268, 1, 17), (269, 2, 19), (270, 2, 23)] ++
  [(271, 2, 27), (272, 2, 31), (273, 3, 35), (274, 3, 43), (275, 3, 51), (276, 3, 59), (277, 4, 67), (278, 4, 83),
    (279, 4, 99), (280, 4, 115), (281, 5, 131), (282, 5, 163), (283, 5, 195), (284, 5, 227), (285, 0, 258)]

/-- The distance codes as (symbol, extra, base) (R126). -/
def distRows : List (Nat × Nat × Nat) :=
  [(0, 0, 1), (1, 0, 2), (2, 0, 3), (3, 0, 4), (4, 1, 5), (5, 1, 7), (6, 2, 9), (7, 2, 13), (8, 3, 17), (9, 3, 25),
    (10, 4, 33), (11, 4, 49), (12, 5, 65), (13, 5, 97), (14, 6, 129)] ++
  [(15, 6, 193), (16, 7, 257), (17, 7, 385), (18, 8, 513), (19, 8, 769), (20, 9, 1025), (21, 9, 1537), (22, 10, 2049),
    (23, 10, 3073), (24, 11, 4097), (25, 11, 6145), (26, 12, 8193), (27, 12, 12289), (28, 13, 16385), (29, 13, 24577)]

/-- A whole distance code of n bits stands at p and names D symbol d (R246): five bits in a fixed block, a code of T_D in
a dynamic one. The D symbols are 0 to 31 (R119). -/
def DistanceCode (s : State) (p d n : Nat) : Prop :=
  p + n ≤ s.streamEnd ∧ d < 32 ∧
    ((s.blk.act = false ∧ n = 5 ∧ d = s.msbValue p 5) ∨
      (s.blk.act = true ∧ ∃ x : BitVec 9, x.toNat = d ∧ s.tabs.d.FirstMatch (s.setPos p) n x))

/-! ## Tables, as 41_huffman_decoder.md R182 describes them -/

/-- How many of the symbols 0..x−1 have length L. -/
def countBelow (lens : List (BitVec 4)) (L x : Nat) : Nat := (lens.take x).countP (fun l => l.toNat == L)

/-- T is what the construction of R182 makes of the lengths over a table `old`, told field by field. -/
structure Canonical (T old : HuffTable) (lens : List (BitVec 4)) : Prop where
  /-- `T.count[L] <- number of s in 0..n-1 with lens[s] = L`. -/
  count : ∀ L, 1 ≤ L → L ≤ 15 → atLength T.count L = countBelow lens L lens.length
  /-- `T.used <- sum of T.count[L]`, the number of symbols with a length. -/
  used : T.used.toNat = lens.countP (fun l => l.toNat != 0)
  /-- `code <- 0` at length 1. -/
  firstOne : atLength T.first 1 = 0
  /-- `code <- (code + T.count[L-1]) << 1`. -/
  firstNext : ∀ L, 1 ≤ L → L < 15 → atLength T.first (L + 1) = 2 * (atLength T.first L + atLength T.count L)
  /-- `idx <- 0` at length 1. -/
  offsetOne : atLength T.offset 1 = 0
  /-- `idx <- idx + T.count[L]`. -/
  offsetNext : ∀ L, 1 ≤ L → L < 15 → atLength T.offset (L + 1) = atLength T.offset L + atLength T.count L
  /-- `T.sym[idx + k] <- s`: at offset[L] + k stands the symbol of length L that has k such symbols below it. -/
  symbols : ∀ L k, 1 ≤ L → L ≤ 15 → k < atLength T.count L → ∃ x : BitVec 9,
    T.sym[atLength T.offset L + k]? = some x ∧ x.toNat < lens.length ∧ (lens.getD x.toNat 0).toNat = L ∧
      countBelow lens L x.toNat = k
  /-- Entries at or above T.used are not written. -/
  rest : ∀ i, T.used.toNat ≤ i → T.sym[i]? = old.sym[i]?
  /-- `T.minLen <- 0; T.maxLen <- 0` for an empty table. -/
  emptyLens : T.used = 0 → T.minLen = 0 ∧ T.maxLen = 0
  /-- `T.minLen <- least L with T.count[L] > 0`. -/
  minLen : T.used ≠ 0 → 1 ≤ T.minLen.toNat ∧ 0 < atLength T.count T.minLen.toNat ∧
    ∀ L, 1 ≤ L → L < T.minLen.toNat → atLength T.count L = 0
  /-- `T.maxLen <- greatest L with T.count[L] > 0`. -/
  maxLen : T.used ≠ 0 → 0 < atLength T.count T.maxLen.toNat ∧
    ∀ L, T.maxLen.toNat < L → L ≤ 15 → atLength T.count L = 0

/-! ## Dynamic headers, as 30_encoding.md R115 to R117 describe them -/

/-- A symbol of the code-length sequence with its extra bits (R117). -/
inductive ClOp where
  /-- A code length. -/
  | len (l : BitVec 4)
  /-- Symbol 16. -/
  | prev (e : BitVec 2)
  /-- Symbol 17. -/
  | zeros (e : BitVec 3)
  /-- Symbol 18. -/
  | zerosLong (e : BitVec 7)
  deriving DecidableEq, Repr

/-- Its CL symbol. -/
def ClOp.symbol : ClOp → BitVec 9
  | .len l => l.setWidth 9
  | .prev _ => 16
  | .zeros _ => 17
  | .zerosLong _ => 18

/-- Its bits in the stream: the symbol's code in the CL table, then its extra bits (R120). -/
def ClOp.bits (T : HuffTable) (op : ClOp) : List Bool :=
  symbolBits T op.symbol ++
    match op with
    | .len _ => []
    | .prev e => lsbBits 2 e.toNat
    | .zeros e => lsbBits 3 e.toNat
    | .zerosLong e => lsbBits 7 e.toNat

/-- The lengths after it, none for a repeat of nothing (R208 to R212). -/
def ClOp.apply (ls : List (BitVec 4)) : ClOp → Option (List (BitVec 4))
  | .len l => some (ls ++ [l])
  | .prev e => if ls = [] then none else some (ls ++ List.replicate (e.toNat + 3) (ls.getLastD 0))
  | .zeros e => some (ls ++ List.replicate (e.toNat + 3) 0)
  | .zerosLong e => some (ls ++ List.replicate (e.toNat + 11) 0)

/-- The lengths a code-length sequence stands for. -/
def expandLens : List ClOp → List (BitVec 4) → Option (List (BitVec 4))
  | [], ls => some ls
  | op :: ops, ls =>
    match op.apply ls with
    | some ls' => expandLens ops ls'
    | none => none

/-- The CL symbols in the order in which their lengths are transmitted, as R116 writes it. -/
def transmitOrder : List Nat := [16, 17, 18, 0, 8, 7, 9, 6, 10, 5, 11, 4, 12, 3, 13, 2, 14, 1, 15]

/-- The CL lengths by CL symbol, from the lengths as transmitted: the place of symbol 0 in R116's order is 3, that of
symbol 1 is 17, and so on; a symbol not reached has length 0. -/
def clVector (cls : List (BitVec 3)) : List (BitVec 4) :=
  [3, 17, 15, 13, 11, 9, 7, 5, 4, 6, 8, 10, 12, 14, 16, 18, 0, 1, 2].map (fun i => (cls.getD i 0).setWidth 4)

/-- A dynamic header, from HLIT to the end of the code-length sequence. -/
structure Header where
  hlit : Nat
  hdist : Nat
  cls : List (BitVec 3)
  ops : List ClOp
  deriving DecidableEq, Repr

/-- The table its CL lengths give. -/
def Header.clTable (h : Header) (old : HuffTable) : HuffTable := buildTable old (clVector h.cls)

/-- Its bits (R115). -/
def Header.bits (h : Header) (old : HuffTable) : List Bool :=
  lsbBits 5 (h.hlit - 257) ++ lsbBits 5 (h.hdist - 1) ++ lsbBits 4 (h.cls.length - 4) ++
    h.cls.flatMap (fun l => lsbBits 3 l.toNat) ++ h.ops.flatMap (fun op => op.bits (h.clTable old))

/-- The header is one the format can write, up to the lengths `lens` of its sequence so far. What R213 makes of them is
not asked here. -/
structure Header.Reads (h : Header) (old : HuffTable) (lens : List (BitVec 4)) : Prop where
  hlit : 257 ≤ h.hlit ∧ h.hlit ≤ 288
  hdist : 1 ≤ h.hdist ∧ h.hdist ≤ 32
  hclen : 4 ≤ h.cls.length ∧ h.cls.length ≤ 19
  clKraft : kraftSum (clVector h.cls) ≤ 2 ^ 15
  codes : ∀ op ∈ h.ops, codeOf (h.clTable old) op.symbol ≠ none
  expand : expandLens h.ops [] = some lens

/-- The header registers once the header is read up to the lengths `lens`, from what they were (R206 to R212): the
counts, CLL by R116's order, the lengths and how many they are, and LENS as before from there on. -/
structure Header.Held (h : Header) (lens : List (BitVec 4)) (old new : DynHeader) : Prop where
  hlit : new.hlit.toNat = h.hlit
  hdist : new.hdist.toNat = h.hdist
  hclen : new.hclen.toNat = h.cls.length
  cllLength : new.cll.length = 19
  cll : ∀ i, i < 19 → new.cll.getD (transmitOrder.getD i 0) 0 = h.cls.getD i 0
  nl : new.nl.toNat = lens.length
  lensLength : new.lens.length = 320
  lens : ∀ i, i < 320 → new.lens.getD i 0 = if i < lens.length then lens.getD i 0 else old.lens.getD i 0

/-- The header registers once the counts and the first n CL lengths at the cursor are read (R206, R207). -/
structure CountsHeld (s : State) (n : Nat) (new : DynHeader) : Prop where
  hlit : new.hlit.toNat = s.lsbValue s.pos 5 + 257
  hdist : new.hdist.toNat = s.lsbValue (s.pos + 5) 5 + 1
  hclen : new.hclen.toNat = s.lsbValue (s.pos + 10) 4 + 4
  cllLength : new.cll.length = 19
  cll : ∀ i, i < 19 → (new.cll.getD (transmitOrder.getD i 0) 0).toNat =
    if i < n then s.lsbValue (s.pos + 14 + 3 * i) 3 else 0
  nl : new.nl = s.hdr.nl
  lens : new.lens = s.hdr.lens

/-! ## Frames -/

/-- The commands that leave the error state (R332): CTRL words that perform CLEAR or START, and the platform's reset. -/
def Turn.leavesError : Turn → Bool
  | .regWrite offset width w => regAccess offset width && decide (offset = 0) && !w.getLsbD 1 && (w.getLsbD 2 || w.getLsbD 0)
  | .reset => true
  | .engine => false
  | .regRead _ _ => false
  | .memRead _ _ => false
  | .memWrite _ _ _ => false
  | .bcRequest _ => false
  | .htRequest _ _ => false

end Sys2Proof.Machine
end

