-- ==== Sys2Proof/Certificates/Slice0/Obligations.lean ====
section
/-! DEFINITION. The statements about the model. Each docstring names the rules of spec/ it says, or the log entry for
what is the model's own. -/

open Sys2Proof Sys2Proof.Machine

/-! ## Encoding -/

/-- Words written out from the encodings of R111, R112, R117 to R119, R128, R130 to R132 decode to their instructions.
-/
def Obligations.DecodedWords : Prop :=
  decodeBytes .btype [0b01] = .ok .btypeFixed ∧ decodeBytes .btype [0b11] = .ok .btypeReserved ∧
  decodeBytes .ll [0x61, 0x00] = .ok (.llLiteral 0x61) ∧ decodeBytes .ll [0x00, 0x01] = .ok .llEob ∧
  decodeBytes .ll [0x09, 0x01] = .ok .llLen265 ∧ decodeBytes .ll [0x1E, 0x01] = .ok (.llInvalid286287 286) ∧
  decodeBytes .ll [0x20, 0x01] = .error .llSymbolAbove287 ∧
  decodeBytes .dist [0x04] = .ok .d4 ∧ decodeBytes .dist [0x1F] = .ok (.dInvalid3031 31) ∧
  decodeBytes .cl [0x08] = .ok (.clLen015 8) ∧ decodeBytes .cl [0x10] = .ok .clRepeatPrev16 ∧
  decodeBytes .cl [0x13] = .error .clSymbolAbove18 ∧
  decodeBytes .filter [0x04] = .ok .filterPaeth ∧ decodeBytes .filter [0x07] = .ok (.filterInvalid67 7) ∧
  decodeBytes .ctrl [0x05, 0x00, 0x00, 0x00] = .ok (.ctrlClear 5) ∧
  decodeBytes .ctrl [0xFF, 0x00, 0x00, 0x00] = .ok (.ctrlAbort 0xFF) ∧
  decodeBytes .bc [0xD0, 0x00] = .ok (.bcReadBitsLsb 16) ∧ decodeBytes .ht [0x14] = .ok (.htDecode 4)

/-- No bit of an encoding is dropped: every well-formed instruction comes back from its element. -/
def Obligations.DecodeEncode : Prop :=
  ∀ i : Instr, i.wf = true → decode (encode i) = .ok i

/-- Every element that decodes is the encoding of what it decodes to, and that is well-formed. -/
def Obligations.EncodeDecode : Prop :=
  ∀ (e : Element) (i : Instr), decode e = .ok i → encode i = e ∧ i.wf = true

/-- The decoder refuses the LL symbols above 287 and the CL symbols above 18, each by name, and nothing else (R117,
R118). -/
def Obligations.DecodeRejects : Prop :=
  ∀ (e : Element) (r : Reject), decode e = .error r ↔
    (∃ s : BitVec 9, e = .ll s ∧ 288 ≤ s.toNat ∧ r = .llSymbolAbove287) ∨
      (∃ s : BitVec 5, e = .cl s ∧ 19 ≤ s.toNat ∧ r = .clSymbolAbove18)

/-- R135: the element of a well-formed instruction matches exactly one row of its space in the opcode table. -/
def Obligations.OneTableRow : Prop :=
  ∀ i : Instr, i.wf = true →
    ∃ r ∈ opcodeRows, (r.space = (encode i).space ∧ r.holds (encode i).rowValue = true) ∧
      ∀ q ∈ opcodeRows, q.space = (encode i).space → q.holds (encode i).rowValue = true → q = r

/-! ## Reset and invariants -/

/-- The reset values of R56 for any parameters, and the reset event of R350 from any state: whatever the block was
doing, the same values, with no error recorded. Registers that R56 leaves unspecified are not spoken of. -/
def Obligations.ResetValues : Prop :=
  (∀ p : Params,
    (State.resetWith p).phase = .idle ∧ (State.resetWith p).configWord = 1 ∧ (State.resetWith p).statusWord = 0 ∧
    (State.resetWith p).regs.inLen = 0 ∧ (State.resetWith p).regs.width = 0 ∧ (State.resetWith p).regs.height = 0 ∧
    (State.resetWith p).regs.dbufLen = 0 ∧ (State.resetWith p).regs.pixLen = 0 ∧ (State.resetWith p).regs.blockCount = 0 ∧
    (State.resetWith p).cur = { byteIx := 0, bitIx := 0 } ∧
    (State.resetWith p).err = { code := 0, byte := 0, bit := 0, block := 0, row := 0 } ∧
    (State.resetWith p).blk = { bfinal := false, btype := 0, act := false } ∧
    (State.resetWith p).defl = { row := 0, stg := false } ∧ (State.resetWith p).irq = false) ∧
  ∀ (s : State) (ts : List Turn), s.env.inputs = .reset :: ts →
    ∃ t, step s = .next t ∧ t.params = s.params ∧ t.phase = .idle ∧ t.regs = (State.resetWith s.params).regs ∧
      t.cur = (State.resetWith s.params).cur ∧ t.err = (State.resetWith s.params).err ∧
      t.blk = (State.resetWith s.params).blk ∧ t.defl = (State.resetWith s.params).defl ∧ t.irq = false ∧ t.env.inputs = ts

/-- The invariant holds at reset, for any parameters in their range. -/
def Obligations.ResetInv : Prop :=
  ∀ p : Params, p.wf = true → Inv (State.resetWith p)

/-- Every step, of the engine, the host or the platform, keeps the invariant: R57, which the spec marks as derived,
and what it rests on. -/
def Obligations.StepKeepsInv : Prop :=
  ∀ s t : State, Inv s → step s = .next t → Inv t

/-- From a good state nothing stops the machine but a host access outside what the host may do (R93): no fault, and no
other refusal. Three of its cases are the model's choices: that a step with no turn pending in P_IDLE, P_DONE or P_ERROR
answers a next state (log 3), that a host read of IN while BUSY completes (log 10), and that a port request is a turn,
which completes outside BUSY too (log 11). -/
def Obligations.NoFault : Prop :=
  ∀ s : State, Inv s → (∀ m a ts, s.env.inputs = .memRead m a :: ts → a < s.sizeOf m.space) →
    (∀ m a v ts, s.env.inputs = .memWrite m a v :: ts → m = .inMem ∧ a < s.params.inCap) →
    ∃ t, step s = .next t

/-- A step runs the decoded instruction: what is fetched, and from where in each phase and on each kind of turn (R100,
R131, R132, R200, R202, R241, R271, R303). In P_TOKENS the LL symbol is decoded with F_LL where ACT is 0 and with T_LL
where ACT is 1 (R45, R241): the first length that matches gives it, and where none does, or the stream ends first, the
step raises with the cursor at the start of the code and nothing else changed (R185, R187, R323(c)). Where no
instruction runs, the other statements say what the step does. -/
def Obligations.StepRuns : Prop :=
  (∀ (s u : State) (i : Instr), fetch s = .instr i u → step s = exec i u) ∧
  (∀ s : State, s.env.inputs = [] → s.phase = .stored → step s = exec .btypeStored s) ∧
  (∀ s : State, s.env.inputs = [] → s.phase = .dynamic → step s = exec .btypeDynamic s) ∧
  (∀ s : State, s.env.inputs = [] → s.phase = .header → FitsIn s → s.pos + 3 ≤ s.streamEnd →
    step s = exec (decodeBtype (BitVec.ofNat 2 (s.lsbValue (s.pos + 1) 2)))
      { s.setPos (s.pos + 3) with
        defl := { s.defl with stg := false }
        blk := { s.blk with bfinal := s.streamBit s.pos, btype := BitVec.ofNat 2 (s.lsbValue (s.pos + 1) 2) } }) ∧
  (∀ (s : State) (T : HuffTable), s.env.inputs = [] → s.phase = .tokens →
    (s.blk.act = false ∧ T = fLL) ∨ (s.blk.act = true ∧ T = s.tabs.ll) →
    (∀ (u : State) (r : BitVec 9 × BitVec 4) (i : Instr), decodeSymbol T s = .ok r u → decode (.ll r.1) = .ok i →
      step s = exec i (u.setSym r.1)) ∧
    (∀ (L : Nat) (x : BitVec 9) (i : Instr), FitsIn s → T.FirstMatch s L x → decode (.ll x) = .ok i →
      step s = exec i { s.setPos (s.pos + L) with tok := { s.tok with sym := x } }) ∧
    (FitsIn s → T.FailsAt s → step s = .next (errorEntry .noMatchingCode s)) ∧
    (∀ L, FitsIn s → T.EndsAt s L → step s = .next (errorEntry .outOfData s))) ∧
  (∀ s : State, s.env.inputs = [] → s.phase = .defilterRow → s.rowBase < s.params.dbufCap →
    step s = exec (decodeFilter (s.byteAt .dbuf s.rowBase)) s) ∧
  (∀ (s : State) (w : Word) (ts : List Turn), s.env.inputs = .regWrite 0 32 w :: ts →
    step s = exec (decodeCtrl w) (s.withInputs ts)) ∧
  (∀ (s : State) (r : BitVec 9) (ts : List Turn), s.phase.busy = true → s.env.inputs = .bcRequest r :: ts →
    step s = exec (decodeBC r) (s.withInputs ts)) ∧
  (∀ (s : State) (r : BitVec 5) (ls : List (BitVec 4)) (ts : List Turn), s.phase.busy = true →
    s.env.inputs = .htRequest r ls :: ts →
    step s = exec (decodeHT r) { s with env := { s.env with inputs := ts, portLens := ls } })

/-! ## Block headers -/

/-- R202 and R203, the whole P_HEADER step: three bits, then the next phase or InvalidBlockType with the cursor after
them; OutOfData where one or three bits are not left, and then BFINAL and BTYPE are as before. -/
def Obligations.HeaderStep : Prop :=
  ∀ s : State, s.env.inputs = [] → s.phase = .header → FitsIn s → s.pos ≤ s.streamEnd →
    (s.streamEnd < s.pos + 1 →
      step s = .next (errorEntry .outOfData { s with defl := { s.defl with stg := false } })) ∧
    (s.pos + 1 ≤ s.streamEnd → s.streamEnd < s.pos + 3 →
      step s = .next (errorEntry .outOfData { s.setPos (s.pos + 1) with defl := { s.defl with stg := false } })) ∧
    (s.pos + 3 ≤ s.streamEnd → ∀ u : State,
      u = { s.setPos (s.pos + 3) with
            defl := { s.defl with stg := false }
            blk := { s.blk with bfinal := s.streamBit s.pos, btype := BitVec.ofNat 2 (s.lsbValue (s.pos + 1) 2) } } →
      (s.lsbValue (s.pos + 1) 2 = 0 → step s = .next { u with phase := .stored }) ∧
      (s.lsbValue (s.pos + 1) 2 = 1 → step s = .next { u with blk := { u.blk with act := false }, phase := .tokens }) ∧
      (s.lsbValue (s.pos + 1) 2 = 2 → step s = .next { u with phase := .dynamic }) ∧
      (s.lsbValue (s.pos + 1) 2 = 3 → step s = .next (errorEntry .invalidBlockType u)))

/-- R203 and R205 as the meanings of the four BTYPE values at the end of the header step: the phase, ACT for a fixed
block, or the error; nothing else changes. -/
def Obligations.BlockTypes : Prop :=
  ∀ s : State, s.phase = .header →
    exec .btypeStored s = .next { s with phase := .stored } ∧
    exec .btypeFixed s = .next { s with blk := { s.blk with act := false }, phase := .tokens } ∧
    exec .btypeDynamic s = .next { s with phase := .dynamic } ∧
    exec .btypeReserved s = .next (errorEntry .invalidBlockType s)

/-- R204, the whole P_STORED step, with a the byte the cursor is aligned to, L and N its little-endian fields (R88) and
their bytes copied verbatim; and each error in its order with the cursor where it was found. Only DBUF above the old
DBUF_LEN is written. -/
def Obligations.StoredStep : Prop :=
  ∀ (s : State) (a len nlen : Nat), s.phase = .stored → s.params.wf = true → FitsIn s → s.pos ≤ s.streamEnd →
    a = (s.pos + 7) / 8 →
    len = (s.byteAt .inMem a).toNat + 256 * (s.byteAt .inMem (a + 1)).toNat →
    nlen = (s.byteAt .inMem (a + 2)).toNat + 256 * (s.byteAt .inMem (a + 3)).toNat →
    (s.streamEnd < 8 * (a + 2) → exec .btypeStored s = .next (errorEntry .outOfData (s.setPos (8 * a)))) ∧
    (8 * (a + 2) ≤ s.streamEnd → s.streamEnd < 8 * (a + 4) →
      exec .btypeStored s = .next (errorEntry .outOfData (s.setPos (8 * (a + 2))))) ∧
    (8 * (a + 4) ≤ s.streamEnd → len ^^^ 0xFFFF ≠ nlen →
      exec .btypeStored s = .next (errorEntry .lengthMismatch (s.setPos (8 * (a + 4))))) ∧
    (8 * (a + 4) ≤ s.streamEnd → len ^^^ 0xFFFF = nlen → s.streamEnd < 8 * (a + 4 + len) →
      exec .btypeStored s = .next (errorEntry .outOfData (s.setPos (8 * (a + 4))))) ∧
    (8 * (a + 4 + len) ≤ s.streamEnd → len ^^^ 0xFFFF = nlen → s.params.dbufCap < s.outLen + len →
      exec .btypeStored s = .next (errorEntry .outputOverflow (s.setPos (8 * (a + 4))))) ∧
    (8 * (a + 4 + len) ≤ s.streamEnd → len ^^^ 0xFFFF = nlen → s.outLen + len ≤ s.params.dbufCap →
      ∃ t, exec .btypeStored s = .next t ∧
        t = { s.setPos (8 * (a + 4 + len)) with
              regs := { s.regs with dbufLen := BitVec.ofNat 32 (s.outLen + len) }, mem := t.mem, phase := .blockEnd } ∧
        (∀ i, i < len → t.byteAt .dbuf (s.outLen + i) = s.byteAt .inMem (a + 4 + i)) ∧
        ∀ sp x, ¬(sp = .dbuf ∧ s.outLen ≤ x ∧ x < s.outLen + len) → t.byteAt sp x = s.byteAt sp x)

/-! ## Dynamic headers -/

/-- The whole P_DYNAMIC step (R206 to R213): where the stream holds the bits of a header whose lengths are all there,
the three tables are those its lengths give, ACT is 1, and the cursor stands after the last bit; and where the LL
lengths or the D lengths fail the Kraft check, InvalidCodeLengths with the cursor there, the failed table and those
after it as they were, T_LL built before T_D. The CL lengths are held by R116's order, written out. Instruction:
btypeDynamic. -/
def Obligations.DynamicStep : Prop :=
  ∀ (s : State) (h : Header) (lens ll dl : List (BitVec 4)) (q : Nat), Inv s → s.phase = .dynamic →
    h.Reads s.tabs.cl lens → lens.length = h.hlit + h.hdist → s.streamHas s.pos (h.bits s.tabs.cl) →
    q = s.pos + (h.bits s.tabs.cl).length → ll = lengthVector 288 (lens.take h.hlit) →
    dl = lengthVector 32 (lens.drop h.hlit) →
    (kraftSum ll ≤ 2 ^ 15 → kraftSum dl ≤ 2 ^ 15 → ∃ t, exec .btypeDynamic s = .next t ∧
      t = { s.setPos q with
            hdr := t.hdr
            tabs := { cl := h.clTable s.tabs.cl, ll := buildTable s.tabs.ll ll, d := buildTable s.tabs.d dl }
            blk := { s.blk with act := true }
            phase := .tokens } ∧
      h.Held lens s.hdr t.hdr ∧ ∀ sp a, t.byteAt sp a = s.byteAt sp a) ∧
    (2 ^ 15 < kraftSum ll → ∃ t, exec .btypeDynamic s = .next t ∧
      t = errorEntry .invalidCodeLengths
        { s.setPos q with hdr := t.hdr, tabs := { s.tabs with cl := h.clTable s.tabs.cl } } ∧
      h.Held lens s.hdr t.hdr ∧ ∀ sp a, t.byteAt sp a = s.byteAt sp a) ∧
    (kraftSum ll ≤ 2 ^ 15 → 2 ^ 15 < kraftSum dl → ∃ t, exec .btypeDynamic s = .next t ∧
      t = errorEntry .invalidCodeLengths
        { s.setPos q with
          hdr := t.hdr, tabs := { s.tabs with cl := h.clTable s.tabs.cl, ll := buildTable s.tabs.ll ll } } ∧
      h.Held lens s.hdr t.hdr ∧ ∀ sp a, t.byteAt sp a = s.byteAt sp a)

/-- The other raises of the P_DYNAMIC step, in the order of its reads (R206 to R212). OutOfData in the counts keeps
those already read; in the CL lengths it keeps those before the one that is cut. CL lengths that fail the Kraft check
raise with the tables as they were. In the code-length sequence, after the lengths of any part of it, the next code is
one of T_CL or raises NoMatchingCode (R187) or OutOfData; where what its symbol does raises (ClRepeats), so does the
step. -/
def Obligations.DynamicErrors : Prop :=
  ∀ (s : State) (p hc : Nat), Inv s → s.phase = .dynamic → p = s.pos + 14 → hc = s.lsbValue (s.pos + 10) 4 + 4 →
    (s.streamEnd < s.pos + 5 → exec .btypeDynamic s = .next (errorEntry .outOfData s)) ∧
    (s.pos + 5 ≤ s.streamEnd → s.streamEnd < s.pos + 10 → exec .btypeDynamic s = .next (errorEntry .outOfData
      { s.setPos (s.pos + 5) with hdr := { s.hdr with hlit := BitVec.ofNat 9 (s.lsbValue s.pos 5 + 257) } })) ∧
    (s.pos + 10 ≤ s.streamEnd → s.streamEnd < s.pos + 14 → exec .btypeDynamic s = .next (errorEntry .outOfData
      { s.setPos (s.pos + 10) with hdr := { s.hdr with
          hlit := BitVec.ofNat 9 (s.lsbValue s.pos 5 + 257)
          hdist := BitVec.ofNat 6 (s.lsbValue (s.pos + 5) 5 + 1) } })) ∧
    (∀ i, i < hc → p + 3 * i ≤ s.streamEnd → s.streamEnd < p + 3 * (i + 1) → ∃ t, exec .btypeDynamic s = .next t ∧
      t = errorEntry .outOfData { s.setPos (p + 3 * i) with hdr := t.hdr } ∧ CountsHeld s i t.hdr) ∧
    (p + 3 * hc ≤ s.streamEnd →
      2 ^ 15 < kraftSum (clVector ((List.range hc).map (fun i => BitVec.ofNat 3 (s.lsbValue (p + 3 * i) 3)))) →
      ∃ t, exec .btypeDynamic s = .next t ∧
        t = errorEntry .invalidCodeLengths { s.setPos (p + 3 * hc) with hdr := t.hdr } ∧ CountsHeld s hc t.hdr) ∧
    ∀ (h : Header) (lens : List (BitVec 4)), h.Reads s.tabs.cl lens → lens.length < h.hlit + h.hdist →
      s.streamHas s.pos (h.bits s.tabs.cl) →
      ∃ u, u = { s.setPos (s.pos + (h.bits s.tabs.cl).length) with
                 hdr := u.hdr, tabs := { s.tabs with cl := h.clTable s.tabs.cl } } ∧
        h.Held lens s.hdr u.hdr ∧
        (u.tabs.cl.FailsAt u → exec .btypeDynamic s = .next (errorEntry .noMatchingCode u)) ∧
        (∀ L, u.tabs.cl.EndsAt u L → exec .btypeDynamic s = .next (errorEntry .outOfData u)) ∧
        ∀ (L : Nat) (x : BitVec 9) (c : BitVec 5) (i : Instr) (t : State), u.tabs.cl.FirstMatch u L x →
          c.toNat = x.toNat → decode (.cl c) = .ok i → exec i (u.setPos (u.pos + L)) = .next t → t.phase = .error →
          exec .btypeDynamic s = .next t

/-- R208 for CL symbols 0..15: one entry of LENS, and NL moved past it. -/
def Obligations.ClLengths : Prop :=
  ∀ (s : State) (l : BitVec 4), s.hdr.lens.length = 320 → s.hdr.nl.toNat < s.lengthCount → s.lengthCount ≤ 320 →
    ∃ t, exec (.clLen015 l) s = .next t ∧ t = { s with hdr := { s.hdr with lens := t.hdr.lens, nl := s.hdr.nl + 1 } } ∧
      t.hdr.lens.length = 320 ∧
      (∀ i, i < 320 → t.hdr.lens.getD i 0 = if i = s.hdr.nl.toNat then l else s.hdr.lens.getD i 0) ∧
      ∀ sp a, t.byteAt sp a = s.byteAt sp a

/-- R209 to R212, the three repeat symbols: `n` extra bits, then the run of c lengths v, or the errors in their order:
OutOfData, no previous length (16 only), a run past HLIT + HDIST, which fills nothing. -/
def Obligations.ClRepeats : Prop :=
  ∀ (s : State) (i : Instr) (n base : Nat) (v : BitVec 4), FitsIn s → s.pos ≤ s.streamEnd → s.hdr.lens.length = 320 →
    s.lengthCount ≤ 320 →
    (i = .clRepeatPrev16 ∧ n = 2 ∧ base = 3 ∧ v = s.hdr.lens.getD (s.hdr.nl.toNat - 1) 0) ∨
      (i = .clRepeatZero17 ∧ n = 3 ∧ base = 3 ∧ v = 0) ∨ (i = .clRepeatZero18 ∧ n = 7 ∧ base = 11 ∧ v = 0) →
    (s.streamEnd < s.pos + n → exec i s = .next (errorEntry .outOfData s)) ∧
    (s.pos + n ≤ s.streamEnd → i = .clRepeatPrev16 → s.hdr.nl = 0 →
      exec i s = .next (errorEntry .invalidCodeLengths (s.setPos (s.pos + n)))) ∧
    (s.pos + n ≤ s.streamEnd → s.lengthCount < s.hdr.nl.toNat + (s.lsbValue s.pos n + base) →
      exec i s = .next (errorEntry .invalidCodeLengths (s.setPos (s.pos + n)))) ∧
    (s.pos + n ≤ s.streamEnd → ¬(i = .clRepeatPrev16 ∧ s.hdr.nl = 0) →
      s.hdr.nl.toNat + (s.lsbValue s.pos n + base) ≤ s.lengthCount →
      ∃ t, exec i s = .next t ∧
        t = { s.setPos (s.pos + n) with
              hdr := { s.hdr with
                lens := t.hdr.lens, nl := BitVec.ofNat 9 (s.hdr.nl.toNat + (s.lsbValue s.pos n + base)) } } ∧
        t.hdr.lens.length = 320 ∧
        (∀ k, k < 320 → t.hdr.lens.getD k 0 =
          if s.hdr.nl.toNat ≤ k ∧ k < s.hdr.nl.toNat + (s.lsbValue s.pos n + base) then v else s.hdr.lens.getD k 0) ∧
        ∀ sp a, t.byteAt sp a = s.byteAt sp a)

/-- R208: "the loop ends exactly at NL = HLIT + HDIST"; the loop's bound in the model (log 21) never cuts it short. -/
def Obligations.SequenceEnds : Prop :=
  ∀ s t : State, s.tabs.cl.Wf 19 → FitsIn s → s.lengthCount ≤ 320 → readSequence s = .ok () t →
    t.hdr.nl.toNat = s.lengthCount ∧ t.lengthCount = s.lengthCount

/-! ## Tokens -/

/-- R242 and R240: a literal is appended to DBUF, or raises OutputOverflow and writes nothing. -/
def Obligations.Literal : Prop :=
  ∀ (s : State) (b : Byte), s.params.wf = true →
    (s.outLen < s.params.dbufCap →
      ∃ t, exec (.llLiteral b) s = .next t ∧
        t = { s with regs := { s.regs with dbufLen := s.regs.dbufLen + 1 }, mem := t.mem } ∧ t.outLen = s.outLen + 1 ∧
        ∀ sp a, t.byteAt sp a = if sp = .dbuf ∧ a = s.outLen then b else s.byteAt sp a) ∧
    (s.params.dbufCap ≤ s.outLen → exec (.llLiteral b) s = .next (errorEntry .outputOverflow s))

/-- R243 and R245: end of block changes the phase alone; LL symbols 286 and 287 raise InvalidLengthCode. -/
def Obligations.EndAndInvalid : Prop :=
  ∀ s : State, exec .llEob s = .next { s with phase := .blockEnd } ∧
    ∀ sym : BitVec 9, (Instr.llInvalid286287 sym).wf = true →
      exec (.llInvalid286287 sym) s = .next (errorEntry .invalidLengthCode s)

/-- The 29 length codes in a fixed block (R244, R246 to R249), with the extra bits and bases of R124 to R126 row by
row: extra bits, five bits MSB-first for the distance symbol, its extra bits, and the copy, byte i of which is byte i
mod DIST of the last DIST bytes. Instructions: llLen257 to llLen285. -/
def Obligations.LengthCodesFixed : Prop :=
  ∀ (s : State) (i : Instr) (sym : BitVec 9) (e b len p d eD bD dist q : Nat),
    decode (.ll sym) = .ok i → (sym.toNat, e, b) ∈ lengthRows → s.params.wf = true → FitsIn s → s.blk.act = false →
    len = b + s.lsbValue s.pos e → p = s.pos + e → d = s.msbValue p 5 → (d, eD, bD) ∈ distRows →
    dist = bD + s.lsbValue (p + 5) eD → q = p + 5 + eD →
    q ≤ s.streamEnd → dist ≤ s.outLen → s.outLen + len ≤ s.params.dbufCap →
    ∃ t, exec i s = .next t ∧
      t = { s.setPos q with
            tok := { s.tok with len := BitVec.ofNat 9 len, dsym := BitVec.ofNat 5 d, dist := BitVec.ofNat 16 dist }
            regs := { s.regs with dbufLen := BitVec.ofNat 32 (s.outLen + len) }
            mem := t.mem } ∧
      (t.tok.len.toNat = len ∧ t.tok.dist.toNat = dist ∧ t.outLen = s.outLen + len) ∧
      (∀ k, k < len → t.byteAt .dbuf (s.outLen + k) = s.byteAt .dbuf (s.outLen - dist + k % dist)) ∧
      ∀ sp a, ¬(sp = .dbuf ∧ s.outLen ≤ a ∧ a < s.outLen + len) → t.byteAt sp a = s.byteAt sp a

/-- The 29 length codes in a dynamic block (R244, R246 to R249), with the rows of R124 to R126: the distance symbol is
the code of T_D at the cursor, of the first length L that matches (R185). Instructions: llLen257 to llLen285. -/
def Obligations.LengthCodesDynamic : Prop :=
  ∀ (s : State) (i : Instr) (sym d : BitVec 9) (e b len p L eD bD dist q : Nat),
    decode (.ll sym) = .ok i → (sym.toNat, e, b) ∈ lengthRows → s.params.wf = true → FitsIn s → s.blk.act = true →
    len = b + s.lsbValue s.pos e → p = s.pos + e → s.tabs.d.FirstMatch (s.setPos p) L d →
    (d.toNat, eD, bD) ∈ distRows → dist = bD + s.lsbValue (p + L) eD → q = p + L + eD →
    q ≤ s.streamEnd → dist ≤ s.outLen → s.outLen + len ≤ s.params.dbufCap →
    ∃ t, exec i s = .next t ∧
      t = { s.setPos q with
            tok := { s.tok with len := BitVec.ofNat 9 len, dsym := d.setWidth 5, dist := BitVec.ofNat 16 dist }
            regs := { s.regs with dbufLen := BitVec.ofNat 32 (s.outLen + len) }
            mem := t.mem } ∧
      (∀ k, k < len → t.byteAt .dbuf (s.outLen + k) = s.byteAt .dbuf (s.outLen - dist + k % dist)) ∧
      ∀ sp a, ¬(sp = .dbuf ∧ s.outLen ≤ a ∧ a < s.outLen + len) → t.byteAt sp a = s.byteAt sp a

/-- The order of a back-reference's errors in a fixed and in a dynamic block (R323(d)), each with the cursor and the
token registers at the failing check; nothing is appended. The distance code is five bits or a code of T_D; an empty T_D
raises NoMatchingCode (R187, R213), as does one without a match. -/
def Obligations.BackReferenceErrors : Prop :=
  ∀ (s u1 : State) (i : Instr) (sym : BitVec 9) (e b len p : Nat),
    decode (.ll sym) = .ok i → (sym.toNat, e, b) ∈ lengthRows → FitsIn s →
    len = b + s.lsbValue s.pos e → p = s.pos + e →
    u1 = { s.setPos p with tok := { s.tok with len := BitVec.ofNat 9 len } } →
    (s.streamEnd < p → exec i s = .next (errorEntry .outOfData s)) ∧
    (p ≤ s.streamEnd → s.blk.act = false → s.streamEnd < p + 5 → exec i s = .next (errorEntry .outOfData u1)) ∧
    (p ≤ s.streamEnd → s.blk.act = true → s.tabs.d.FailsAt (s.setPos p) →
      exec i s = .next (errorEntry .noMatchingCode u1)) ∧
    (∀ L, p ≤ s.streamEnd → s.blk.act = true → s.tabs.d.EndsAt (s.setPos p) L →
      exec i s = .next (errorEntry .outOfData u1)) ∧
    ∀ (u2 : State) (d n : Nat), DistanceCode s p d n →
      u2 = { s.setPos (p + n) with tok := { s.tok with len := BitVec.ofNat 9 len, dsym := BitVec.ofNat 5 d } } →
      (29 < d → exec i s = .next (errorEntry .invalidDistanceCode u2)) ∧
      ∀ (u3 : State) (eD bD dist q : Nat), (d, eD, bD) ∈ distRows → dist = bD + s.lsbValue (p + n) eD → q = p + n + eD →
        u3 = { s.setPos q with
               tok := { s.tok with len := BitVec.ofNat 9 len, dsym := BitVec.ofNat 5 d, dist := BitVec.ofNat 16 dist } } →
        (s.streamEnd < q → exec i s = .next (errorEntry .outOfData u2)) ∧
        (q ≤ s.streamEnd → s.outLen < dist → exec i s = .next (errorEntry .invalidBackReference u3)) ∧
        (q ≤ s.streamEnd → dist ≤ s.outLen → s.params.dbufCap < s.outLen + len →
          exec i s = .next (errorEntry .outputOverflow u3))

/-- R247, R248 and R249 (the last of which the spec marks as derived from R248) as the meaning of a D symbol with LEN in
its register, with the rows of R126: the errors in their order, or the copy, byte k of which is byte k mod DIST of the
last DIST bytes. Instructions: d0 to d29, dInvalid3031. -/
def Obligations.DistanceSymbols : Prop :=
  ∀ (s : State) (d : BitVec 5), s.params.wf = true → FitsIn s → s.pos ≤ s.streamEnd →
    (29 < d.toNat → exec (decodeDist d) s = .next (errorEntry .invalidDistanceCode s)) ∧
    ∀ (u : State) (eD bD dist q : Nat), (d.toNat, eD, bD) ∈ distRows → dist = bD + s.lsbValue s.pos eD →
      q = s.pos + eD → u = { s.setPos q with tok := { s.tok with dist := BitVec.ofNat 16 dist } } →
      (s.streamEnd < q → exec (decodeDist d) s = .next (errorEntry .outOfData s)) ∧
      (q ≤ s.streamEnd → s.outLen < dist → exec (decodeDist d) s = .next (errorEntry .invalidBackReference u)) ∧
      (q ≤ s.streamEnd → dist ≤ s.outLen → s.params.dbufCap < s.outLen + s.tok.len.toNat →
        exec (decodeDist d) s = .next (errorEntry .outputOverflow u)) ∧
      (q ≤ s.streamEnd → dist ≤ s.outLen → s.outLen + s.tok.len.toNat ≤ s.params.dbufCap →
        ∃ t, exec (decodeDist d) s = .next t ∧
          t = { u with
                regs := { s.regs with dbufLen := BitVec.ofNat 32 (s.outLen + s.tok.len.toNat) }, mem := t.mem } ∧
          t.tok.dist.toNat = dist ∧
          (∀ k, k < s.tok.len.toNat → t.byteAt .dbuf (s.outLen + k) = s.byteAt .dbuf (s.outLen - dist + k % dist)) ∧
          ∀ sp a, ¬(sp = .dbuf ∧ s.outLen ≤ a ∧ a < s.outLen + s.tok.len.toNat) → t.byteAt sp a = s.byteAt sp a)

/-! ## Huffman tables -/

/-- R182 through the port: a length vector that passes the Kraft check gives the slot a table that is the
construction's field by field; the other slots and all else are as before, the model's record of the last response
among it (log 26). The table ids are R132's: 0 T_CL, 1 T_LL, 2 T_D. Instruction: htBuildFromLengths. -/
def Obligations.BuildTable : Prop :=
  ∀ (s : State) (tid : BitVec 3) (n : Nat) (old : HuffTable) (put : HuffTable → Tables),
    (tid, n, old, put) ∈ [((0 : BitVec 3), 19, s.tabs.cl, fun T => { s.tabs with cl := T }),
      (1, 288, s.tabs.ll, fun T => { s.tabs with ll := T }), (2, 32, s.tabs.d, fun T => { s.tabs with d := T })] →
    kraftSum (lengthVector n s.env.portLens) ≤ 2 ^ 15 →
    ∃ T t, exec (.htBuildFromLengths tid) s = .next t ∧ t = { s with tabs := put T } ∧
      Canonical T old (lengthVector n s.env.portLens) ∧ ∀ sp a, t.byteAt sp a = s.byteAt sp a

/-- R181: a Kraft sum above 1 raises InvalidCodeLengths and writes no field of the table; a table id that names no
writable slot raises CallerError (R132). A raise leaves the model's record of the last response as it was (log 26). -/
def Obligations.BuildFails : Prop :=
  ∀ (s : State) (tid : BitVec 3),
    (∀ n, (tid, n) ∈ [((0 : BitVec 3), 19), (1, 288), (2, 32)] → 2 ^ 15 < kraftSum (lengthVector n s.env.portLens) →
      exec (.htBuildFromLengths tid) s = .next (errorEntry .invalidCodeLengths s)) ∧
    (3 ≤ tid.toNat → exec (.htBuildFromLengths tid) s = .next (errorEntry .callerError s))

/-- R185 through the port: the first length from minLen to maxLen that matches answers its symbol and moves the cursor
by that length; an empty table, no match, and a stream that ends first raise, and the cursor does not move; of the
record of the last response (log 26) nothing is said then. The table ids are R132's: 0 T_CL, 1 T_LL, 2 T_D, 3 F_LL,
4 F_D. Instruction: htDecode. -/
def Obligations.DecodeCode : Prop :=
  ∀ (s : State) (tid : BitVec 3) (T : HuffTable), FitsIn s → s.pos ≤ s.streamEnd →
    (tid, T) ∈ [((0 : BitVec 3), s.tabs.cl), (1, s.tabs.ll), (2, s.tabs.d), (3, fLL), (4, fD)] →
    (T.used = 0 → ∃ t, exec (.htDecode tid) s = .next t ∧ t = { errorEntry .noMatchingCode s with
        env := { s.env with portSym := t.env.portSym, portBits := t.env.portBits } }) ∧
    (∀ (L : Nat) (x : BitVec 9), T.used ≠ 0 → T.minLen.toNat ≤ L → L ≤ T.maxLen.toNat → s.pos + L ≤ s.streamEnd →
      T.MatchesAt s L → (∀ j, T.minLen.toNat ≤ j → j < L → ¬ T.MatchesAt s j) → T.sym[T.placeAt s L]? = some x →
      exec (.htDecode tid) s =
        .next { s.setPos (s.pos + L) with env := { s.env with portSym := x, portBits := BitVec.ofNat 4 L } }) ∧
    (T.used ≠ 0 → T.minLen.toNat ≤ T.maxLen.toNat → s.pos + T.maxLen.toNat ≤ s.streamEnd →
      (∀ j, T.minLen.toNat ≤ j → j ≤ T.maxLen.toNat → ¬ T.MatchesAt s j) →
      ∃ t, exec (.htDecode tid) s = .next t ∧ t = { errorEntry .noMatchingCode s with
        env := { s.env with portSym := t.env.portSym, portBits := t.env.portBits } }) ∧
    (∀ L, T.used ≠ 0 → T.minLen.toNat ≤ L → L ≤ T.maxLen.toNat → s.streamEnd < s.pos + L →
      (∀ j, T.minLen.toNat ≤ j → j < L → s.pos + j ≤ s.streamEnd ∧ ¬ T.MatchesAt s j) →
      ∃ t, exec (.htDecode tid) s = .next t ∧ t = { errorEntry .outOfData s with
        env := { s.env with portSym := t.env.portSym, portBits := t.env.portBits } })

/-- The rest of R132: buildFixed selects ROM contents and changes no state; any other table id there, a table id above
4 for decode, and op 3 raise CallerError. None of these gives a response to record (log 26). Instructions:
htBuildFixed, htReserved3. -/
def Obligations.HuffmanPort : Prop :=
  ∀ (s : State) (tid : BitVec 3),
    (tid.toNat = 3 ∨ tid.toNat = 4 → exec (.htBuildFixed tid) s = .next s) ∧
    (¬(tid.toNat = 3 ∨ tid.toNat = 4) → exec (.htBuildFixed tid) s = .next (errorEntry .callerError s)) ∧
    (5 ≤ tid.toNat → exec (.htDecode tid) s = .next (errorEntry .callerError s)) ∧
    exec (.htReserved3 tid) s = .next (errorEntry .callerError s)

/-- R186, which the spec marks as derived: the first code of each present length decodes to the least symbol of that
length. -/
def Obligations.FirstCodes : Prop :=
  ∀ (k : Slot) (old : HuffTable) (lens : List (BitVec 4)) (s : State) (L : Nat), lens.length = k.size →
    kraftSum lens ≤ 2 ^ 15 → 0 < atLength (buildTable old lens).count L → L ≤ 15 → FitsIn s →
    s.pos + (buildTable old lens).maxLen.toNat ≤ s.streamEnd →
    s.msbValue s.pos L = atLength (buildTable old lens).first L →
    ∃ x, (buildTable old lens).sym[atLength (buildTable old lens).offset L]? = some x ∧
      decodeSymbol (buildTable old lens) s = .ok (x, BitVec.ofNat 4 L) (s.setPos (s.pos + L)) ∧
      (lens.getD x.toNat 0).toNat = L ∧ ∀ y, y < x.toNat → (lens.getD y 0).toNat ≠ L

/-- Every symbol with a length has a code of that length, and the stream's code of a symbol decodes to it, taking just
its own bits (R123, R180 to R186). -/
def Obligations.EverySymbolDecodes : Prop :=
  ∀ (k : Slot) (old : HuffTable) (lens : List (BitVec 4)) (sym : BitVec 9), lens.length = k.size →
    kraftSum lens ≤ 2 ^ 15 → sym.toNat < k.size → (lens.getD sym.toNat 0).toNat ≠ 0 →
    ∃ code, codeOf (buildTable old lens) sym = some ((lens.getD sym.toNat 0).toNat, code) ∧
      ∀ s : State, FitsIn s → s.streamHas s.pos (codeBits (lens.getD sym.toNat 0).toNat code) →
        decodeSymbol (buildTable old lens) s =
          .ok (sym, lens.getD sym.toNat 0) (s.setPos (s.pos + (lens.getD sym.toNat 0).toNat))

/-- R188, which the spec marks as derived: decode(F_D) and readBitsMSB(5) give the same symbol, move the cursor alike
and raise OutOfData alike; neither raises anything else. -/
def Obligations.FixedDistance : Prop :=
  ∀ s : State, FitsIn s → s.pos ≤ s.streamEnd →
    (s.pos + 5 ≤ s.streamEnd → ∃ x : BitVec 9, x.toNat = s.msbValue s.pos 5 ∧
      decodeSymbol fD s = .ok (x, 5) (s.setPos (s.pos + 5)) ∧
      readBitsMSB 5 s = .ok (x.setWidth 32) (s.setPos (s.pos + 5))) ∧
    (s.streamEnd < s.pos + 5 →
      decodeSymbol fD s = .raised (errorEntry .outOfData s) ∧ readBitsMSB 5 s = .raised (errorEntry .outOfData s))

/-- R121, R183 and R184: the ROM tables are what the construction gives for the fixed lengths, and the fixed LL code is
that of R121's four ranges. -/
def Obligations.FixedTables : Prop :=
  fLL = buildTable (HuffTable.empty 288)
    (List.replicate 144 8 ++ List.replicate 112 9 ++ List.replicate 24 7 ++ List.replicate 8 8) ∧
  fD = buildTable (HuffTable.empty 32) (List.replicate 32 5) ∧
  ∀ sym, sym < 288 → codeOf fLL (BitVec.ofNat 9 sym) =
    if sym < 144 then some (8, 0x30 + sym) else if sym < 256 then some (9, 0x190 + (sym - 144))
    else if sym < 280 then some (7, sym - 256) else some (8, 0xC0 + (sym - 280))

/-- F_LL is complete: decoding it never raises NoMatchingCode (R241, which the spec marks as
derived); it answers a symbol or raises OutOfData. -/
def Obligations.FixedCodeComplete : Prop :=
  ∀ s : State, FitsIn s → s.pos ≤ s.streamEnd →
    (∃ x L, decodeSymbol fLL s = .ok (x, L) (s.setPos (s.pos + L.toNat)) ∧ 7 ≤ L.toNat ∧ L.toNat ≤ 9) ∨
      decodeSymbol fLL s = .raised (errorEntry .outOfData s)

/-! ## The bit cursor -/

/-- R87: bit i of an LSB-first value is stream bit p + i, of an MSB-first value of n bits stream bit p + n − 1 − i, and
there are no bits above. -/
def Obligations.BitOrder : Prop :=
  ∀ (s : State) (p n i : Nat),
    (s.lsbValue p n).testBit i = (decide (i < n) && s.streamBit (p + i)) ∧
    (s.msbValue p n).testBit i = (decide (i < n) && s.streamBit (p + (n - 1 - i)))

/-- R161 to R164 through the port: with the bits at hand each read answers its value and moves the cursor by its bits
(a peek does not); without them it raises OutOfData and the cursor stays. readBitMSB reads one bit whatever its n field
holds (R131); for the others n is at most 32 (CallerErrors has the rest). Instructions: bcReadBitMsb, bcReadBitsMsb,
bcPeekBitsMsb, bcReadBitsLsb. The value field of a failed response is a free value (log 12), and nothing is said of
it. -/
def Obligations.CursorReads : Prop :=
  ∀ (s : State) (n : BitVec 6), FitsIn s → s.pos ≤ s.streamEnd →
    (s.pos + 1 ≤ s.streamEnd → exec (.bcReadBitMsb n) s = .next
      { s.setPos (s.pos + 1) with
        env := { s.env with portValue := BitVec.ofNat 32 (s.streamBit s.pos).toNat, portErr := false } }) ∧
    (n.toNat ≤ 32 → s.pos + n.toNat ≤ s.streamEnd →
      exec (.bcReadBitsMsb n) s = .next
        { s.setPos (s.pos + n.toNat) with
          env := { s.env with portValue := BitVec.ofNat 32 (s.msbValue s.pos n.toNat), portErr := false } } ∧
      exec (.bcPeekBitsMsb n) s = .next
        { s with env := { s.env with portValue := BitVec.ofNat 32 (s.msbValue s.pos n.toNat), portErr := false } } ∧
      exec (.bcReadBitsLsb n) s = .next
        { s.setPos (s.pos + n.toNat) with
          env := { s.env with portValue := BitVec.ofNat 32 (s.lsbValue s.pos n.toNat), portErr := false } }) ∧
    (∀ i : Instr, (i = .bcReadBitMsb n ∧ s.streamEnd < s.pos + 1) ∨
        (n.toNat ≤ 32 ∧ (i = .bcReadBitsMsb n ∨ i = .bcPeekBitsMsb n ∨ i = .bcReadBitsLsb n) ∧
          s.streamEnd < s.pos + n.toNat) →
      ∃ t, exec i s = .next t ∧ t.env.portErr = true ∧
        t = { errorEntry .outOfData s with
              env := { s.env with portValue := t.env.portValue, portErr := true, draws := t.env.draws } })

/-- R165 and R166 through the port: skipBits moves the cursor by n, without the limit of 32, or raises OutOfData;
alignToByte moves it forward to the next byte boundary and never raises; that it stays in the stream is an inference the
spec marks as derived (R166). Instructions: bcSkipBits, bcAlignToByte. The value field of the response is a free value
(log 12), and nothing is said of it. -/
def Obligations.CursorMoves : Prop :=
  ∀ (s : State) (n : BitVec 6), s.pos ≤ s.streamEnd →
    (s.pos + n.toNat ≤ s.streamEnd → ∃ t, exec (.bcSkipBits n) s = .next t ∧
      t = { s.setPos (s.pos + n.toNat) with
            env := { s.env with portValue := t.env.portValue, portErr := false, draws := t.env.draws } }) ∧
    (s.streamEnd < s.pos + n.toNat → ∃ t, exec (.bcSkipBits n) s = .next t ∧
      t = { errorEntry .outOfData s with
            env := { s.env with portValue := t.env.portValue, portErr := true, draws := t.env.draws } }) ∧
    ∃ t, exec (.bcAlignToByte n) s = .next t ∧ t.pos = 8 * ((s.pos + 7) / 8) ∧ t.pos ≤ s.streamEnd ∧
      t = { s with
            cur := t.cur
            env := { s.env with portValue := t.env.portValue, portErr := false, draws := t.env.draws } }

/-- R168: a read or peek of more than 32 bits, or op 6 or 7, raises CallerError, before OutOfData, and moves nothing.
Instruction: bcReserved67. -/
def Obligations.CallerErrors : Prop :=
  ∀ (s : State) (n : BitVec 6) (op : BitVec 3) (i : Instr),
    (i = .bcReserved67 op n ∧ i.wf = true) ∨
      (32 < n.toNat ∧ (i = .bcReadBitsMsb n ∨ i = .bcPeekBitsMsb n ∨ i = .bcReadBitsLsb n)) →
    ∃ t, exec i s = .next t ∧
      t = { errorEntry .callerError s with
            env := { s.env with portValue := t.env.portValue, portErr := true, draws := t.env.draws } }

/-- R169, which the spec marks as derived: no cursor operation and no engine step moves the cursor back, and none
moves it past the end of the stream. -/
def Obligations.CursorMonotone : Prop :=
  (∀ (s t : State) (r : BitVec 9), s.pos ≤ s.streamEnd → exec (decodeBC r) s = .next t →
    s.pos ≤ t.pos ∧ t.pos ≤ s.streamEnd) ∧
  ∀ s t : State, Inv s → s.phase.busy = true → s.env.inputs = [] → step s = .next t →
    s.pos ≤ t.pos ∧ t.pos ≤ t.streamEnd

/-! ## The defilter -/

/-- R271 with R272 to R277: the five filters. Every byte of the row is (x + Pred(a, b, c)) mod 256 from the bytes R271
names; the row is appended to PIX and becomes SL_PREV; ROW moves on, and after the last row the run is DONE.
Instructions: filterNone, filterSub, filterUp, filterAverage, filterPaeth. -/
def Obligations.FilterRows : Prop :=
  ∀ (s : State) (i : Instr) (pred : Byte → Byte → Byte → Byte) (W : Nat),
    (i, pred) ∈ [(Instr.filterNone, fun _ _ _ => (0 : Byte)), (.filterSub, fun a _ _ => a), (.filterUp, fun _ b _ => b),
      (.filterAverage, predAverage), (.filterPaeth, predPaeth)] →
    s.params.wf = true → W = 3 * s.regs.width.toNat → s.defl.row.toNat * (1 + W) + 1 + W ≤ s.params.dbufCap →
    W ≤ 3 * s.params.maxWidth → s.regs.pixLen.toNat + W ≤ s.params.pixCap →
    ∃ t, exec i s = .next t ∧
      t = { s with
            regs := { s.regs with pixLen := BitVec.ofNat 32 (s.regs.pixLen.toNat + W) }
            defl := { s.defl with row := s.defl.row + 1 }
            phase := if s.defl.row + 1 = s.regs.height then .done else s.phase
            mem := t.mem } ∧
      (∀ k, k < W → t.byteAt .slPrev k =
        s.byteAt .dbuf (s.defl.row.toNat * (1 + W) + 1 + k) +
          pred (if 3 ≤ k then t.byteAt .slPrev (k - 3) else 0) (s.byteAt .slPrev k)
            (if 3 ≤ k then s.byteAt .slPrev (k - 3) else 0)) ∧
      (∀ k, k < W → t.byteAt .pix (s.regs.pixLen.toNat + k) = t.byteAt .slPrev k) ∧
      ∀ sp a, ¬(sp = .pix ∧ s.regs.pixLen.toNat ≤ a ∧ a < s.regs.pixLen.toNat + W) → ¬(sp = .slPrev ∧ a < W) →
        t.byteAt sp a = s.byteAt sp a

/-- R275 and R276: Average halves the exact sum; Paeth picks the neighbour nearest to a + b − c, in exact arithmetic,
with ties broken in the order a, b, c. -/
def Obligations.Predictors : Prop :=
  ∀ a b c : Byte,
    (predAverage a b c).toNat = (a.toNat + b.toNat) / 2 ∧
    ∀ da db dc : Nat, da = ((b.toNat : Int) - c.toNat).natAbs → db = ((a.toNat : Int) - c.toNat).natAbs →
      dc = ((a.toNat : Int) + b.toNat - 2 * c.toNat).natAbs →
      (da ≤ db → da ≤ dc → predPaeth a b c = a) ∧ (db < da → db ≤ dc → predPaeth a b c = b) ∧
      (dc < da → dc < db → predPaeth a b c = c)

/-- R278: every filter byte from 5 up raises InvalidFilterType with the row not written and ERR_ROW = ROW. Instructions:
filterInvalid5 to filterInvalid128255. -/
def Obligations.InvalidFilters : Prop :=
  ∀ (s : State) (b : Byte), 5 ≤ b.toNat → s.defl.stg = true →
    ∃ t, exec (decodeFilter b) s = .next t ∧ t = errorEntry .invalidFilterType s ∧ t.err.row = s.defl.row ∧
      t.regs.pixLen = s.regs.pixLen ∧ ∀ sp a, t.byteAt sp a = s.byteAt sp a

/-- R279, which the spec marks as derived: where every predictor input is 0, every filter leaves the byte as it is;
here, any one-pixel row over a zero SL_PREV. -/
def Obligations.ZeroNeighbours : Prop :=
  (∀ p ∈ [predNone, predSub, predUp, predAverage, predPaeth], ∀ x : Byte, x + p 0 0 0 = x) ∧
  ∀ (s t : State) (i : Instr), i ∈ [Instr.filterNone, .filterSub, .filterUp, .filterAverage, .filterPaeth] →
    s.params.wf = true → s.regs.width = 1 → (∀ k, k < 3 → s.byteAt .slPrev k = 0) → exec i s = .next t →
    ∀ k, k < 3 → t.byteAt .pix (s.regs.pixLen.toNat + k) = s.byteAt .dbuf (4 * s.defl.row.toNat + 1 + k)

/-- R270, the whole P_DEFILTER_START step: STAGE is 1; too little data raises ImageDataShort; else SL_PREV is zero for
the row's bytes and ROW is 0. -/
def Obligations.DefilterStart : Prop :=
  ∀ s : State, s.env.inputs = [] → s.phase = .defilterStart → 3 * s.regs.width.toNat ≤ 3 * s.params.maxWidth →
    (s.outLen < s.regs.height.toNat * (1 + 3 * s.regs.width.toNat) →
      step s = .next (errorEntry .imageDataShort { s with defl := { s.defl with stg := true } })) ∧
    (s.regs.height.toNat * (1 + 3 * s.regs.width.toNat) ≤ s.outLen →
      ∃ t, step s = .next t ∧ t = { s with defl := { row := 0, stg := true }, mem := t.mem, phase := .defilterRow } ∧
        ∀ sp a, t.byteAt sp a = if sp = .slPrev ∧ a < 3 * s.regs.width.toNat then 0 else s.byteAt sp a)

/-- R214, the P_BLOCK_END step: BLOCK_COUNT + 1 and the next phase; nothing else. -/
def Obligations.BlockEnd : Prop :=
  ∀ s : State, s.env.inputs = [] → s.phase = .blockEnd →
    (s.blk.bfinal = false →
      step s = .next { s with regs := { s.regs with blockCount := s.regs.blockCount + 1 }, phase := .header }) ∧
    (s.blk.bfinal = true → s.regs.defilterEn = true →
      step s = .next { s with regs := { s.regs with blockCount := s.regs.blockCount + 1 }, phase := .defilterStart }) ∧
    (s.blk.bfinal = true → s.regs.defilterEn = false →
      step s = .next { s with regs := { s.regs with blockCount := s.regs.blockCount + 1 }, phase := .done })

/-! ## Host commands and accesses -/

/-- R300: START is ignored while BUSY; else it clears the run's registers, and either begins at P_HEADER or raises
InvalidConfig with the four context registers 0. The product 3*WIDTH*HEIGHT is exact. Instruction: ctrlStart. -/
def Obligations.Start : Prop :=
  ∀ (s u : State) (w : Word),
    u = { s with
          err := { code := 0, byte := 0, bit := 0, block := 0, row := 0 }
          cur := { byteIx := 0, bitIx := 0 }
          regs := { s.regs with dbufLen := 0, pixLen := 0, blockCount := 0 }
          defl := { row := 0, stg := false } } →
    (s.phase.busy = true → exec (.ctrlStart w) s = .next s) ∧
    (s.phase.busy = false → s.regs.inLen.toNat ≤ s.params.inCap →
      (s.regs.defilterEn = true → s.regs.width.toNat ≠ 0 ∧ s.regs.height.toNat ≠ 0 ∧
        s.regs.width.toNat ≤ s.params.maxWidth ∧ 3 * s.regs.width.toNat * s.regs.height.toNat ≤ s.params.pixCap) →
      exec (.ctrlStart w) s = .next { u with phase := .header }) ∧
    (s.phase.busy = false →
      (s.params.inCap < s.regs.inLen.toNat ∨
        (s.regs.defilterEn = true ∧ (s.regs.width.toNat = 0 ∨ s.regs.height.toNat = 0 ∨
          s.params.maxWidth < s.regs.width.toNat ∨ s.params.pixCap < 3 * s.regs.width.toNat * s.regs.height.toNat))) →
      exec (.ctrlStart w) s =
        .next { u with err := { code := 12, byte := 0, bit := 0, block := 0, row := 0 }, phase := .error })

/-- R301 to R303: ABORT raises Aborted while BUSY and is ignored else; CLEAR takes DONE and ERROR to IDLE with the error
fields 0 and is ignored else; a word without a command does nothing. Instructions: ctrlAbort, ctrlClear, ctrlNone. -/
def Obligations.AbortClearNone : Prop :=
  ∀ (s : State) (w : Word),
    (s.phase.busy = true → exec (.ctrlAbort w) s = .next (errorEntry .aborted s)) ∧
    (s.phase.busy = false → exec (.ctrlAbort w) s = .next s) ∧
    (s.phase = .done ∨ s.phase = .error → exec (.ctrlClear w) s =
      .next { s with err := { code := 0, byte := 0, bit := 0, block := 0, row := 0 }, phase := .idle }) ∧
    (¬(s.phase = .done ∨ s.phase = .error) → exec (.ctrlClear w) s = .next s) ∧
    exec (.ctrlNone w) s = .next s

/-- R303: a CTRL write performs at most one command, ABORT before CLEAR before START; one that its state makes ignored
leaves no other bit to be tried. -/
def Obligations.CommandPriority : Prop :=
  ∀ (s u : State) (w : Word) (ts : List Turn), s.env.inputs = .regWrite 0 32 w :: ts → u = s.withInputs ts →
    (w.getLsbD 1 = true → s.phase.busy = true → step s = .next (errorEntry .aborted u)) ∧
    (w.getLsbD 1 = true → s.phase.busy = false → step s = .next u) ∧
    (w.getLsbD 1 = false → w.getLsbD 2 = true → s.phase = .done ∨ s.phase = .error →
      step s = .next { u with err := { code := 0, byte := 0, bit := 0, block := 0, row := 0 }, phase := .idle }) ∧
    (w.getLsbD 1 = false → w.getLsbD 2 = true → ¬(s.phase = .done ∨ s.phase = .error) → step s = .next u) ∧
    (w.getLsbD 1 = false → w.getLsbD 2 = false → w.getLsbD 0 = true → step s = exec (.ctrlStart w) u) ∧
    (w.getLsbD 1 = false → w.getLsbD 2 = false → w.getLsbD 0 = false → step s = .next u)

/-- R304 with R30 to R44 and R92: what a register read returns, at each offset; no read changes any other state. -/
def Obligations.RegisterReads : Prop :=
  ∀ (s : State) (off width : Nat) (ts : List Turn), s.env.inputs = .regRead off width :: ts →
    ∃ t, step s = .next t ∧ t = { s with env := { s.env with inputs := ts, hostData := t.env.hostData } } ∧
      (width ≠ 32 ∨ off % 4 ≠ 0 → t.env.hostData = 0) ∧
      (width = 32 → off = 0x00 → t.env.hostData = 0) ∧
      (width = 32 → off = 0x04 → t.env.hostData.toNat = 2 * s.regs.irqEn.toNat + s.regs.defilterEn.toNat) ∧
      (width = 32 → off = 0x08 → t.env.hostData.toNat =
        16 * s.err.code.toNat + 8 * s.irq.toNat + 4 * s.defl.stg.toNat +
          (if s.phase = .idle then 0 else if s.phase = .done then 2 else if s.phase = .error then 3 else 1)) ∧
      (width = 32 → off = 0x0C → t.env.hostData = s.regs.inLen) ∧
      (width = 32 → off = 0x10 → t.env.hostData = s.regs.width) ∧
      (width = 32 → off = 0x14 → t.env.hostData = s.regs.height) ∧
      (width = 32 → off = 0x18 → t.env.hostData = s.regs.dbufLen) ∧
      (width = 32 → off = 0x1C → t.env.hostData = s.regs.pixLen) ∧
      (width = 32 → off = 0x20 → t.env.hostData = s.cur.byteIx) ∧
      (width = 32 → off = 0x24 → t.env.hostData.toNat = s.cur.bitIx.toNat) ∧
      (width = 32 → off = 0x28 → t.env.hostData = s.regs.blockCount) ∧
      (width = 32 → off = 0x2C → t.env.hostData = s.err.byte) ∧
      (width = 32 → off = 0x30 → t.env.hostData.toNat = s.err.bit.toNat) ∧
      (width = 32 → off = 0x34 → t.env.hostData = s.err.block) ∧
      (width = 32 → off = 0x38 → t.env.hostData = s.err.row) ∧
      (width = 32 → 0x3C ≤ off → t.env.hostData = 0)

/-- R305 with R92: what a register write stores or performs, and every write that is ignored. -/
def Obligations.RegisterWrites : Prop :=
  ∀ (s u : State) (off width : Nat) (v : Word) (ts : List Turn), s.env.inputs = .regWrite off width v :: ts →
    u = s.withInputs ts →
    (width ≠ 32 ∨ off % 4 ≠ 0 → step s = .next u) ∧
    (width = 32 → off = 0x00 → step s = exec (decodeCtrl v) u) ∧
    (width = 32 → off ≠ 0 → s.phase.busy = true → step s = .next u) ∧
    (width = 32 → off = 0x04 → s.phase.busy = false →
      step s = .next { u with regs := { s.regs with defilterEn := v.getLsbD 0, irqEn := v.getLsbD 1 } }) ∧
    (width = 32 → off = 0x0C → s.phase.busy = false → step s = .next { u with regs := { s.regs with inLen := v } }) ∧
    (width = 32 → off = 0x10 → s.phase.busy = false → step s = .next { u with regs := { s.regs with width := v } }) ∧
    (width = 32 → off = 0x14 → s.phase.busy = false → step s = .next { u with regs := { s.regs with height := v } }) ∧
    (width = 32 → off ≠ 0x00 → off ≠ 0x04 → off ≠ 0x0C → off ≠ 0x10 → off ≠ 0x14 → step s = .next u)

/-- R306 with R93 and R101: a byte read of written data, a read whose byte is unspecified (a draw, of which nothing is
said), a write to IN, one that is ignored, and the accesses a model refuses. That a read of IN while BUSY completes too,
with some byte and no other effect, is the model's choice (log 10): R80 lists host reads of IN only while not BUSY. -/
def Obligations.HostMemory : Prop :=
  (∀ (s u : State) (m : HostMem) (a : Nat) (ts : List Turn), s.env.inputs = .memRead m a :: ts → u = s.withInputs ts →
    (s.sizeOf m.space ≤ a → step s = .refused .hostAddress) ∧
    (a < s.sizeOf m.space → ∃ t, step s = .next t ∧
      t = { u with env := { u.env with hostData := t.env.hostData, draws := t.env.draws } } ∧ t.env.hostData.toNat < 256) ∧
    (a < s.sizeOf m.space → s.phase.busy = false →
      (m = .inMem ∨ (m = .dbuf ∧ a < s.regs.dbufLen.toNat) ∨ (m = .pix ∧ a < s.regs.pixLen.toNat)) →
      step s = .next { u with env := { u.env with hostData := (s.byteAt m.space a).setWidth 32 } })) ∧
  ∀ (s u : State) (m : HostMem) (a : Nat) (v : Byte) (ts : List Turn), s.env.inputs = .memWrite m a v :: ts →
    u = s.withInputs ts →
    (m ≠ .inMem → step s = .refused .hostWriteOutput) ∧
    (m = .inMem → s.params.inCap ≤ a → step s = .refused .hostAddress) ∧
    (m = .inMem → a < s.params.inCap → s.phase.busy = true → step s = .next u) ∧
    (m = .inMem → a < s.params.inCap → s.phase.busy = false → ∃ t, step s = .next t ∧ t = { u with mem := t.mem } ∧
      ∀ sp x, t.byteAt sp x = if sp = .inMem ∧ x = a then v else s.byteAt sp x)

/-- R48 and R33: `irq` is IRQ_EN while the run has ended, and STATUS shows it in bit 3. -/
def Obligations.IrqLevel : Prop :=
  ∀ s : State,
    (s.irq = true ↔ s.regs.irqEn = true ∧ (s.phase = .done ∨ s.phase = .error)) ∧
    s.statusWord.getLsbD 3 = s.irq ∧
    (s.statusWord.extractLsb' 0 2 = 2 ↔ s.phase = .done) ∧ (s.statusWord.extractLsb' 0 2 = 3 ↔ s.phase = .error) ∧
    (s.statusWord.extractLsb' 0 2 = 0 ↔ s.phase = .idle)

/-! ## Errors -/

/-- R330: the six writes of error entry, with the codes of R320, and that it keeps everything else: cursor, counters,
flags of the block, tables and every byte. -/
def Obligations.ErrorEntry : Prop :=
  ([ErrorKind.outOfData, .invalidBlockType, .lengthMismatch, .invalidCodeLengths, .noMatchingCode, .invalidDistanceCode,
    .invalidBackReference, .invalidLengthCode, .outputOverflow, .invalidFilterType, .imageDataShort, .invalidConfig,
    .callerError, .aborted].map (fun e => e.code.toNat) = [1, 2, 3, 4, 5, 6, 7, 8, 9, 10, 11, 12, 13, 15]) ∧
  ∀ (e : ErrorKind) (s : State),
    (errorEntry e s).err.code = e.code ∧ (errorEntry e s).err.byte = s.cur.byteIx ∧
    (errorEntry e s).err.bit = s.cur.bitIx ∧ (errorEntry e s).err.block = s.regs.blockCount ∧
    (errorEntry e s).err.row = (if s.defl.stg = true then s.defl.row else 0) ∧ (errorEntry e s).phase = .error ∧
    (errorEntry e s).irq = s.regs.irqEn ∧
    errorEntry e s = { s with err := (errorEntry e s).err, phase := .error } ∧
    ∀ sp a, (errorEntry e s).byteAt sp a = s.byteAt sp a

/-- R324, which the spec marks as derived: the errors each phase's step can raise, and that NoMatchingCode (5) is none
of them in P_TOKENS with ACT = 0; and R330: the context registers are those of the state it ends in. -/
def Obligations.ErrorsByPhase : Prop :=
  ∀ s t : State, Inv s → s.phase.busy = true → s.env.inputs = [] → step s = .next t → t.phase = .error →
    (∃ e ∈ phaseErrors s.phase, t.err.code = e.code) ∧
      (s.phase = .tokens → s.blk.act = false → t.err.code ≠ 5) ∧ t.err.byte = t.cur.byteIx ∧ t.err.bit = t.cur.bitIx ∧
      t.err.block = t.regs.blockCount ∧ t.err.row = (if t.defl.stg = true then t.defl.row else 0)

/-- R200: the phase each phase's step leaves the block in. P_DEFILTER_START never goes to P_DONE: R270 gives it
P_DEFILTER_ROW or the error alone, which is narrower than the table of R200. That a step in P_IDLE, P_DONE or P_ERROR,
which have no engine step, leaves the phase is the model's choice (log 3). -/
def Obligations.PhaseSuccessors : Prop :=
  ∀ s t : State, Inv s → s.env.inputs = [] → step s = .next t → t.phase ∈ phaseNext s.phase

/-- R321 and R332, the latter marked as derived: in P_ERROR no engine step changes anything and ABORT is ignored; only
CLEAR, START or a platform reset leaves it or changes what it recorded. Two of its cases rest on the model's choices:
that a step with no turn pending answers the same state (log 3), and that a port request pending in P_ERROR changes
nothing (log 11). -/
def Obligations.ErrorIsFinal : Prop :=
  ∀ s : State, s.phase = .error →
    (s.env.inputs = [] → step s = .next s) ∧
    (∀ w ts, s.env.inputs = .regWrite 0 32 w :: ts → w.getLsbD 1 = true → step s = .next (s.withInputs ts)) ∧
    ∀ t, (∀ u ts, s.env.inputs = u :: ts → u.leavesError = false) → step s = .next t →
      t.phase = .error ∧ t.err = s.err ∧ t.cur = s.cur ∧ t.regs.blockCount = s.regs.blockCount ∧
        t.regs.dbufLen = s.regs.dbufLen

/-- What no engine step does (R37, R82 to R84, R362, R363): it writes no byte of IN, no byte of DBUF below DBUF_LEN and
no byte of PIX below PIX_LEN, it lowers neither length, and it changes no register that the host sets. -/
def Obligations.EngineFrame : Prop :=
  ∀ s t : State, Inv s → s.env.inputs = [] → step s = .next t →
    t.params = s.params ∧ t.env = s.env ∧ t.mem.inMem = s.mem.inMem ∧
    t.regs.defilterEn = s.regs.defilterEn ∧ t.regs.irqEn = s.regs.irqEn ∧ t.regs.inLen = s.regs.inLen ∧
    t.regs.width = s.regs.width ∧ t.regs.height = s.regs.height ∧
    s.outLen ≤ t.outLen ∧ s.regs.pixLen.toNat ≤ t.regs.pixLen.toNat ∧
    (∀ a, a < s.outLen → t.byteAt .dbuf a = s.byteAt .dbuf a) ∧
    ∀ a, a < s.regs.pixLen.toNat → t.byteAt .pix a = s.byteAt .pix a

/-- R38, which the spec marks as derived: on DONE after the rows PIX_LEN is WIDTH*HEIGHT*3. -/
def Obligations.PixelsAtDone : Prop :=
  ∀ s t : State, Inv s → s.phase = .defilterRow → s.env.inputs = [] → step s = .next t → t.phase = .done →
    t.regs.pixLen.toNat = s.regs.width.toNat * s.regs.height.toNat * 3 ∧ t.err.code = 0

/-! ## Whole runs -/

/-- R216, which the spec marks as derived: every run ends, within 2*8*IN_LEN + HEIGHT + 2 engine steps of its START. -/
def Obligations.RunEnds : Prop :=
  ∀ (s t : State) (w : Word), Inv s → s.phase.busy = false → s.env.inputs = [] → exec (.ctrlStart w) s = .next t →
    ∃ k u, k ≤ 2 * 8 * s.regs.inLen.toNat + s.regs.height.toNat + 2 ∧ runSteps k t = .next u ∧ u.phase.ended = true

/-- R352, which the spec marks as derived, and R82: a run depends only on CONFIG, IN_LEN, WIDTH, HEIGHT, the
parameters and IN[0..IN_LEN-1]. Two blocks that agree on these are alike after every number of steps from START,
whatever ran before in either. -/
def Obligations.RunsAlike : Prop :=
  ∀ (s t s' t' : State) (w : Word) (k : Nat), Inv s → Inv t → s.phase.busy = false → t.phase.busy = false →
    s.env.inputs = [] → t.env.inputs = [] → SameJob s t →
    exec (.ctrlStart w) s = .next s' → exec (.ctrlStart w) t = .next t' →
    ∃ u v, runSteps k s' = .next u ∧ runSteps k t' = .next v ∧ SameResult u v

/-- A fixed block decodes to what its tokens say (R114, R120 to R127, R205, R240 to R249): where the stream holds the
block's bits as R134 writes them, the block ends in P_BLOCK_END after its tokens, with their output in DBUF and the
cursor after the end-of-block code. -/
def Obligations.FixedBlock : Prop :=
  ∀ (s : State) (f : Bool) (toks : List Tok) (out : List Byte), Inv s → s.phase = .header → s.env.inputs = [] →
    s.streamHas s.pos (assembleBits ([.fixed f.toNat] ++ toks.map Tok.line ++ [.eob])) →
    tokensOutput toks ((List.range s.outLen).map (fun a => s.byteAt .dbuf a)) = some out →
    out.length ≤ s.params.dbufCap →
    ∃ t, runSteps (toks.length + 2) s = .next t ∧ t.phase = .blockEnd ∧ t.blk.bfinal = f ∧ t.outLen = out.length ∧
      t.pos = s.pos + (assembleBits ([.fixed f.toNat] ++ toks.map Tok.line ++ [.eob])).length ∧
      ∀ a, a < out.length → t.byteAt .dbuf a = out.getD a 0
end

