-- ==== Sys2Proof/Laws/State.lean ====
section
/-! SUPPORT. What each named update leaves unchanged, and what it writes: one lemma per group of fields and update. -/

-- One theorem at a time: the package as one text is compiled under a limit of memory.
set_option Elab.async false

namespace Sys2Proof.Machine

@[simp] theorem State.setPos_params (s : State) (p : Nat) : (s.setPos p).params = s.params := rfl
@[simp] theorem State.setPos_regs (s : State) (p : Nat) : (s.setPos p).regs = s.regs := rfl
@[simp] theorem State.setPos_phase (s : State) (p : Nat) : (s.setPos p).phase = s.phase := rfl
@[simp] theorem State.setPos_err (s : State) (p : Nat) : (s.setPos p).err = s.err := rfl
@[simp] theorem State.setPos_blk (s : State) (p : Nat) : (s.setPos p).blk = s.blk := rfl
@[simp] theorem State.setPos_hdr (s : State) (p : Nat) : (s.setPos p).hdr = s.hdr := rfl
@[simp] theorem State.setPos_tok (s : State) (p : Nat) : (s.setPos p).tok = s.tok := rfl
@[simp] theorem State.setPos_tabs (s : State) (p : Nat) : (s.setPos p).tabs = s.tabs := rfl
@[simp] theorem State.setPos_defl (s : State) (p : Nat) : (s.setPos p).defl = s.defl := rfl
@[simp] theorem State.setPos_mem (s : State) (p : Nat) : (s.setPos p).mem = s.mem := rfl
@[simp] theorem State.setPos_env (s : State) (p : Nat) : (s.setPos p).env = s.env := rfl

@[simp] theorem State.setPhase_params (s : State) (p : Phase) : (s.setPhase p).params = s.params := rfl
@[simp] theorem State.setPhase_regs (s : State) (p : Phase) : (s.setPhase p).regs = s.regs := rfl
@[simp] theorem State.setPhase_cur (s : State) (p : Phase) : (s.setPhase p).cur = s.cur := rfl
@[simp] theorem State.setPhase_err (s : State) (p : Phase) : (s.setPhase p).err = s.err := rfl
@[simp] theorem State.setPhase_blk (s : State) (p : Phase) : (s.setPhase p).blk = s.blk := rfl
@[simp] theorem State.setPhase_hdr (s : State) (p : Phase) : (s.setPhase p).hdr = s.hdr := rfl
@[simp] theorem State.setPhase_tok (s : State) (p : Phase) : (s.setPhase p).tok = s.tok := rfl
@[simp] theorem State.setPhase_tabs (s : State) (p : Phase) : (s.setPhase p).tabs = s.tabs := rfl
@[simp] theorem State.setPhase_defl (s : State) (p : Phase) : (s.setPhase p).defl = s.defl := rfl
@[simp] theorem State.setPhase_mem (s : State) (p : Phase) : (s.setPhase p).mem = s.mem := rfl
@[simp] theorem State.setPhase_env (s : State) (p : Phase) : (s.setPhase p).env = s.env := rfl

@[simp] theorem errorEntry_params (e : ErrorKind) (s : State) : (errorEntry e s).params = s.params := rfl
@[simp] theorem errorEntry_regs (e : ErrorKind) (s : State) : (errorEntry e s).regs = s.regs := rfl
@[simp] theorem errorEntry_cur (e : ErrorKind) (s : State) : (errorEntry e s).cur = s.cur := rfl
@[simp] theorem errorEntry_blk (e : ErrorKind) (s : State) : (errorEntry e s).blk = s.blk := rfl
@[simp] theorem errorEntry_hdr (e : ErrorKind) (s : State) : (errorEntry e s).hdr = s.hdr := rfl
@[simp] theorem errorEntry_tok (e : ErrorKind) (s : State) : (errorEntry e s).tok = s.tok := rfl
@[simp] theorem errorEntry_tabs (e : ErrorKind) (s : State) : (errorEntry e s).tabs = s.tabs := rfl
@[simp] theorem errorEntry_defl (e : ErrorKind) (s : State) : (errorEntry e s).defl = s.defl := rfl
@[simp] theorem errorEntry_mem (e : ErrorKind) (s : State) : (errorEntry e s).mem = s.mem := rfl
@[simp] theorem errorEntry_env (e : ErrorKind) (s : State) : (errorEntry e s).env = s.env := rfl

@[simp] theorem clearErrors_params (s : State) : (clearErrors s).params = s.params := rfl
@[simp] theorem clearErrors_regs (s : State) : (clearErrors s).regs = s.regs := rfl
@[simp] theorem clearErrors_cur (s : State) : (clearErrors s).cur = s.cur := rfl
@[simp] theorem clearErrors_phase (s : State) : (clearErrors s).phase = s.phase := rfl
@[simp] theorem clearErrors_blk (s : State) : (clearErrors s).blk = s.blk := rfl
@[simp] theorem clearErrors_hdr (s : State) : (clearErrors s).hdr = s.hdr := rfl
@[simp] theorem clearErrors_tok (s : State) : (clearErrors s).tok = s.tok := rfl
@[simp] theorem clearErrors_tabs (s : State) : (clearErrors s).tabs = s.tabs := rfl
@[simp] theorem clearErrors_defl (s : State) : (clearErrors s).defl = s.defl := rfl
@[simp] theorem clearErrors_mem (s : State) : (clearErrors s).mem = s.mem := rfl
@[simp] theorem clearErrors_env (s : State) : (clearErrors s).env = s.env := rfl

@[simp] theorem pushByte_params (v : Byte) (s : State) : (pushByte v s).params = s.params := rfl
@[simp] theorem pushByte_cur (v : Byte) (s : State) : (pushByte v s).cur = s.cur := rfl
@[simp] theorem pushByte_phase (v : Byte) (s : State) : (pushByte v s).phase = s.phase := rfl
@[simp] theorem pushByte_err (v : Byte) (s : State) : (pushByte v s).err = s.err := rfl
@[simp] theorem pushByte_blk (v : Byte) (s : State) : (pushByte v s).blk = s.blk := rfl
@[simp] theorem pushByte_hdr (v : Byte) (s : State) : (pushByte v s).hdr = s.hdr := rfl
@[simp] theorem pushByte_tok (v : Byte) (s : State) : (pushByte v s).tok = s.tok := rfl
@[simp] theorem pushByte_tabs (v : Byte) (s : State) : (pushByte v s).tabs = s.tabs := rfl
@[simp] theorem pushByte_defl (v : Byte) (s : State) : (pushByte v s).defl = s.defl := rfl
@[simp] theorem pushByte_env (v : Byte) (s : State) : (pushByte v s).env = s.env := rfl

@[simp] theorem State.drawn_params (s : State) : s.drawn.params = s.params := rfl
@[simp] theorem State.drawn_regs (s : State) : s.drawn.regs = s.regs := rfl
@[simp] theorem State.drawn_cur (s : State) : s.drawn.cur = s.cur := rfl
@[simp] theorem State.drawn_phase (s : State) : s.drawn.phase = s.phase := rfl
@[simp] theorem State.drawn_err (s : State) : s.drawn.err = s.err := rfl
@[simp] theorem State.drawn_blk (s : State) : s.drawn.blk = s.blk := rfl
@[simp] theorem State.drawn_hdr (s : State) : s.drawn.hdr = s.hdr := rfl
@[simp] theorem State.drawn_tok (s : State) : s.drawn.tok = s.tok := rfl
@[simp] theorem State.drawn_tabs (s : State) : s.drawn.tabs = s.tabs := rfl
@[simp] theorem State.drawn_defl (s : State) : s.drawn.defl = s.defl := rfl
@[simp] theorem State.drawn_mem (s : State) : s.drawn.mem = s.mem := rfl

@[simp] theorem State.setDist_params (s : State) (v : Nat) : (s.setDist v).params = s.params := rfl
@[simp] theorem State.setDist_regs (s : State) (v : Nat) : (s.setDist v).regs = s.regs := rfl
@[simp] theorem State.setDist_cur (s : State) (v : Nat) : (s.setDist v).cur = s.cur := rfl
@[simp] theorem State.setDist_phase (s : State) (v : Nat) : (s.setDist v).phase = s.phase := rfl
@[simp] theorem State.setDist_err (s : State) (v : Nat) : (s.setDist v).err = s.err := rfl
@[simp] theorem State.setDist_blk (s : State) (v : Nat) : (s.setDist v).blk = s.blk := rfl
@[simp] theorem State.setDist_hdr (s : State) (v : Nat) : (s.setDist v).hdr = s.hdr := rfl
@[simp] theorem State.setDist_tabs (s : State) (v : Nat) : (s.setDist v).tabs = s.tabs := rfl
@[simp] theorem State.setDist_defl (s : State) (v : Nat) : (s.setDist v).defl = s.defl := rfl
@[simp] theorem State.setDist_mem (s : State) (v : Nat) : (s.setDist v).mem = s.mem := rfl
@[simp] theorem State.setDist_env (s : State) (v : Nat) : (s.setDist v).env = s.env := rfl

@[simp] theorem State.setSym_params (s : State) (v : BitVec 9) : (s.setSym v).params = s.params := rfl
@[simp] theorem State.setSym_regs (s : State) (v : BitVec 9) : (s.setSym v).regs = s.regs := rfl
@[simp] theorem State.setSym_cur (s : State) (v : BitVec 9) : (s.setSym v).cur = s.cur := rfl
@[simp] theorem State.setSym_phase (s : State) (v : BitVec 9) : (s.setSym v).phase = s.phase := rfl
@[simp] theorem State.setSym_err (s : State) (v : BitVec 9) : (s.setSym v).err = s.err := rfl
@[simp] theorem State.setSym_blk (s : State) (v : BitVec 9) : (s.setSym v).blk = s.blk := rfl
@[simp] theorem State.setSym_hdr (s : State) (v : BitVec 9) : (s.setSym v).hdr = s.hdr := rfl
@[simp] theorem State.setSym_tabs (s : State) (v : BitVec 9) : (s.setSym v).tabs = s.tabs := rfl
@[simp] theorem State.setSym_defl (s : State) (v : BitVec 9) : (s.setSym v).defl = s.defl := rfl
@[simp] theorem State.setSym_mem (s : State) (v : BitVec 9) : (s.setSym v).mem = s.mem := rfl
@[simp] theorem State.setSym_env (s : State) (v : BitVec 9) : (s.setSym v).env = s.env := rfl

@[simp] theorem State.setLen_params (s : State) (v : Nat) : (s.setLen v).params = s.params := rfl
@[simp] theorem State.setLen_regs (s : State) (v : Nat) : (s.setLen v).regs = s.regs := rfl
@[simp] theorem State.setLen_cur (s : State) (v : Nat) : (s.setLen v).cur = s.cur := rfl
@[simp] theorem State.setLen_phase (s : State) (v : Nat) : (s.setLen v).phase = s.phase := rfl
@[simp] theorem State.setLen_err (s : State) (v : Nat) : (s.setLen v).err = s.err := rfl
@[simp] theorem State.setLen_blk (s : State) (v : Nat) : (s.setLen v).blk = s.blk := rfl
@[simp] theorem State.setLen_hdr (s : State) (v : Nat) : (s.setLen v).hdr = s.hdr := rfl
@[simp] theorem State.setLen_tabs (s : State) (v : Nat) : (s.setLen v).tabs = s.tabs := rfl
@[simp] theorem State.setLen_defl (s : State) (v : Nat) : (s.setLen v).defl = s.defl := rfl
@[simp] theorem State.setLen_mem (s : State) (v : Nat) : (s.setLen v).mem = s.mem := rfl
@[simp] theorem State.setLen_env (s : State) (v : Nat) : (s.setLen v).env = s.env := rfl

@[simp] theorem State.setDsym_params (s : State) (v : Nat) : (s.setDsym v).params = s.params := rfl
@[simp] theorem State.setDsym_regs (s : State) (v : Nat) : (s.setDsym v).regs = s.regs := rfl
@[simp] theorem State.setDsym_cur (s : State) (v : Nat) : (s.setDsym v).cur = s.cur := rfl
@[simp] theorem State.setDsym_phase (s : State) (v : Nat) : (s.setDsym v).phase = s.phase := rfl
@[simp] theorem State.setDsym_err (s : State) (v : Nat) : (s.setDsym v).err = s.err := rfl
@[simp] theorem State.setDsym_blk (s : State) (v : Nat) : (s.setDsym v).blk = s.blk := rfl
@[simp] theorem State.setDsym_hdr (s : State) (v : Nat) : (s.setDsym v).hdr = s.hdr := rfl
@[simp] theorem State.setDsym_tabs (s : State) (v : Nat) : (s.setDsym v).tabs = s.tabs := rfl
@[simp] theorem State.setDsym_defl (s : State) (v : Nat) : (s.setDsym v).defl = s.defl := rfl
@[simp] theorem State.setDsym_mem (s : State) (v : Nat) : (s.setDsym v).mem = s.mem := rfl
@[simp] theorem State.setDsym_env (s : State) (v : Nat) : (s.setDsym v).env = s.env := rfl

@[simp] theorem pushLengths_params (v : BitVec 4) (c : Nat) (s : State) : (pushLengths v c s).params = s.params := rfl
@[simp] theorem pushLengths_regs (v : BitVec 4) (c : Nat) (s : State) : (pushLengths v c s).regs = s.regs := rfl
@[simp] theorem pushLengths_cur (v : BitVec 4) (c : Nat) (s : State) : (pushLengths v c s).cur = s.cur := rfl
@[simp] theorem pushLengths_phase (v : BitVec 4) (c : Nat) (s : State) : (pushLengths v c s).phase = s.phase := rfl
@[simp] theorem pushLengths_err (v : BitVec 4) (c : Nat) (s : State) : (pushLengths v c s).err = s.err := rfl
@[simp] theorem pushLengths_blk (v : BitVec 4) (c : Nat) (s : State) : (pushLengths v c s).blk = s.blk := rfl
@[simp] theorem pushLengths_tok (v : BitVec 4) (c : Nat) (s : State) : (pushLengths v c s).tok = s.tok := rfl
@[simp] theorem pushLengths_tabs (v : BitVec 4) (c : Nat) (s : State) : (pushLengths v c s).tabs = s.tabs := rfl
@[simp] theorem pushLengths_defl (v : BitVec 4) (c : Nat) (s : State) : (pushLengths v c s).defl = s.defl := rfl
@[simp] theorem pushLengths_mem (v : BitVec 4) (c : Nat) (s : State) : (pushLengths v c s).mem = s.mem := rfl
@[simp] theorem pushLengths_env (v : BitVec 4) (c : Nat) (s : State) : (pushLengths v c s).env = s.env := rfl

@[simp] theorem State.setTable_params (s : State) (k : Slot) (t : HuffTable) : (s.setTable k t).params = s.params := by cases k <;> rfl
@[simp] theorem State.setTable_regs (s : State) (k : Slot) (t : HuffTable) : (s.setTable k t).regs = s.regs := by cases k <;> rfl
@[simp] theorem State.setTable_cur (s : State) (k : Slot) (t : HuffTable) : (s.setTable k t).cur = s.cur := by cases k <;> rfl
@[simp] theorem State.setTable_phase (s : State) (k : Slot) (t : HuffTable) : (s.setTable k t).phase = s.phase := by cases k <;> rfl
@[simp] theorem State.setTable_err (s : State) (k : Slot) (t : HuffTable) : (s.setTable k t).err = s.err := by cases k <;> rfl
@[simp] theorem State.setTable_blk (s : State) (k : Slot) (t : HuffTable) : (s.setTable k t).blk = s.blk := by cases k <;> rfl
@[simp] theorem State.setTable_hdr (s : State) (k : Slot) (t : HuffTable) : (s.setTable k t).hdr = s.hdr := by cases k <;> rfl
@[simp] theorem State.setTable_tok (s : State) (k : Slot) (t : HuffTable) : (s.setTable k t).tok = s.tok := by cases k <;> rfl
@[simp] theorem State.setTable_defl (s : State) (k : Slot) (t : HuffTable) : (s.setTable k t).defl = s.defl := by cases k <;> rfl
@[simp] theorem State.setTable_mem (s : State) (k : Slot) (t : HuffTable) : (s.setTable k t).mem = s.mem := by cases k <;> rfl
@[simp] theorem State.setTable_env (s : State) (k : Slot) (t : HuffTable) : (s.setTable k t).env = s.env := by cases k <;> rfl

@[simp] theorem State.setMemory_params (s : State) (sp : MemSpace) (m : Memory) : (s.setMemory sp m).params = s.params := by cases sp <;> rfl
@[simp] theorem State.setMemory_regs (s : State) (sp : MemSpace) (m : Memory) : (s.setMemory sp m).regs = s.regs := by cases sp <;> rfl
@[simp] theorem State.setMemory_cur (s : State) (sp : MemSpace) (m : Memory) : (s.setMemory sp m).cur = s.cur := by cases sp <;> rfl
@[simp] theorem State.setMemory_phase (s : State) (sp : MemSpace) (m : Memory) : (s.setMemory sp m).phase = s.phase := by cases sp <;> rfl
@[simp] theorem State.setMemory_err (s : State) (sp : MemSpace) (m : Memory) : (s.setMemory sp m).err = s.err := by cases sp <;> rfl
@[simp] theorem State.setMemory_blk (s : State) (sp : MemSpace) (m : Memory) : (s.setMemory sp m).blk = s.blk := by cases sp <;> rfl
@[simp] theorem State.setMemory_hdr (s : State) (sp : MemSpace) (m : Memory) : (s.setMemory sp m).hdr = s.hdr := by cases sp <;> rfl
@[simp] theorem State.setMemory_tok (s : State) (sp : MemSpace) (m : Memory) : (s.setMemory sp m).tok = s.tok := by cases sp <;> rfl
@[simp] theorem State.setMemory_tabs (s : State) (sp : MemSpace) (m : Memory) : (s.setMemory sp m).tabs = s.tabs := by cases sp <;> rfl
@[simp] theorem State.setMemory_defl (s : State) (sp : MemSpace) (m : Memory) : (s.setMemory sp m).defl = s.defl := by cases sp <;> rfl
@[simp] theorem State.setMemory_env (s : State) (sp : MemSpace) (m : Memory) : (s.setMemory sp m).env = s.env := by cases sp <;> rfl

@[simp] theorem respondValue_params (v : Word) (s : State) : (respondValue v s).params = s.params := rfl
@[simp] theorem respondValue_regs (v : Word) (s : State) : (respondValue v s).regs = s.regs := rfl
@[simp] theorem respondValue_cur (v : Word) (s : State) : (respondValue v s).cur = s.cur := rfl
@[simp] theorem respondValue_phase (v : Word) (s : State) : (respondValue v s).phase = s.phase := rfl
@[simp] theorem respondValue_err (v : Word) (s : State) : (respondValue v s).err = s.err := rfl
@[simp] theorem respondValue_blk (v : Word) (s : State) : (respondValue v s).blk = s.blk := rfl
@[simp] theorem respondValue_hdr (v : Word) (s : State) : (respondValue v s).hdr = s.hdr := rfl
@[simp] theorem respondValue_tok (v : Word) (s : State) : (respondValue v s).tok = s.tok := rfl
@[simp] theorem respondValue_tabs (v : Word) (s : State) : (respondValue v s).tabs = s.tabs := rfl
@[simp] theorem respondValue_defl (v : Word) (s : State) : (respondValue v s).defl = s.defl := rfl
@[simp] theorem respondValue_mem (v : Word) (s : State) : (respondValue v s).mem = s.mem := rfl

@[simp] theorem respondFree_params (err : Bool) (s : State) : (respondFree err s).params = s.params := rfl
@[simp] theorem respondFree_regs (err : Bool) (s : State) : (respondFree err s).regs = s.regs := rfl
@[simp] theorem respondFree_cur (err : Bool) (s : State) : (respondFree err s).cur = s.cur := rfl
@[simp] theorem respondFree_phase (err : Bool) (s : State) : (respondFree err s).phase = s.phase := rfl
@[simp] theorem respondFree_err (err : Bool) (s : State) : (respondFree err s).err = s.err := rfl
@[simp] theorem respondFree_blk (err : Bool) (s : State) : (respondFree err s).blk = s.blk := rfl
@[simp] theorem respondFree_hdr (err : Bool) (s : State) : (respondFree err s).hdr = s.hdr := rfl
@[simp] theorem respondFree_tok (err : Bool) (s : State) : (respondFree err s).tok = s.tok := rfl
@[simp] theorem respondFree_tabs (err : Bool) (s : State) : (respondFree err s).tabs = s.tabs := rfl
@[simp] theorem respondFree_defl (err : Bool) (s : State) : (respondFree err s).defl = s.defl := rfl
@[simp] theorem respondFree_mem (err : Bool) (s : State) : (respondFree err s).mem = s.mem := rfl

@[simp] theorem respondSymbol_params (r : BitVec 9 × BitVec 4) (s : State) : (respondSymbol r s).params = s.params := rfl
@[simp] theorem respondSymbol_regs (r : BitVec 9 × BitVec 4) (s : State) : (respondSymbol r s).regs = s.regs := rfl
@[simp] theorem respondSymbol_cur (r : BitVec 9 × BitVec 4) (s : State) : (respondSymbol r s).cur = s.cur := rfl
@[simp] theorem respondSymbol_phase (r : BitVec 9 × BitVec 4) (s : State) : (respondSymbol r s).phase = s.phase := rfl
@[simp] theorem respondSymbol_err (r : BitVec 9 × BitVec 4) (s : State) : (respondSymbol r s).err = s.err := rfl
@[simp] theorem respondSymbol_blk (r : BitVec 9 × BitVec 4) (s : State) : (respondSymbol r s).blk = s.blk := rfl
@[simp] theorem respondSymbol_hdr (r : BitVec 9 × BitVec 4) (s : State) : (respondSymbol r s).hdr = s.hdr := rfl
@[simp] theorem respondSymbol_tok (r : BitVec 9 × BitVec 4) (s : State) : (respondSymbol r s).tok = s.tok := rfl
@[simp] theorem respondSymbol_tabs (r : BitVec 9 × BitVec 4) (s : State) : (respondSymbol r s).tabs = s.tabs := rfl
@[simp] theorem respondSymbol_defl (r : BitVec 9 × BitVec 4) (s : State) : (respondSymbol r s).defl = s.defl := rfl
@[simp] theorem respondSymbol_mem (r : BitVec 9 × BitVec 4) (s : State) : (respondSymbol r s).mem = s.mem := rfl

@[simp] theorem State.deliver_params (s : State) (v : Word) : (s.deliver v).params = s.params := rfl
@[simp] theorem State.deliver_regs (s : State) (v : Word) : (s.deliver v).regs = s.regs := rfl
@[simp] theorem State.deliver_cur (s : State) (v : Word) : (s.deliver v).cur = s.cur := rfl
@[simp] theorem State.deliver_phase (s : State) (v : Word) : (s.deliver v).phase = s.phase := rfl
@[simp] theorem State.deliver_err (s : State) (v : Word) : (s.deliver v).err = s.err := rfl
@[simp] theorem State.deliver_blk (s : State) (v : Word) : (s.deliver v).blk = s.blk := rfl
@[simp] theorem State.deliver_hdr (s : State) (v : Word) : (s.deliver v).hdr = s.hdr := rfl
@[simp] theorem State.deliver_tok (s : State) (v : Word) : (s.deliver v).tok = s.tok := rfl
@[simp] theorem State.deliver_tabs (s : State) (v : Word) : (s.deliver v).tabs = s.tabs := rfl
@[simp] theorem State.deliver_defl (s : State) (v : Word) : (s.deliver v).defl = s.defl := rfl
@[simp] theorem State.deliver_mem (s : State) (v : Word) : (s.deliver v).mem = s.mem := rfl

@[simp] theorem State.withInputs_params (s : State) (ts : List Turn) : (s.withInputs ts).params = s.params := rfl
@[simp] theorem State.withInputs_regs (s : State) (ts : List Turn) : (s.withInputs ts).regs = s.regs := rfl
@[simp] theorem State.withInputs_cur (s : State) (ts : List Turn) : (s.withInputs ts).cur = s.cur := rfl
@[simp] theorem State.withInputs_phase (s : State) (ts : List Turn) : (s.withInputs ts).phase = s.phase := rfl
@[simp] theorem State.withInputs_err (s : State) (ts : List Turn) : (s.withInputs ts).err = s.err := rfl
@[simp] theorem State.withInputs_blk (s : State) (ts : List Turn) : (s.withInputs ts).blk = s.blk := rfl
@[simp] theorem State.withInputs_hdr (s : State) (ts : List Turn) : (s.withInputs ts).hdr = s.hdr := rfl
@[simp] theorem State.withInputs_tok (s : State) (ts : List Turn) : (s.withInputs ts).tok = s.tok := rfl
@[simp] theorem State.withInputs_tabs (s : State) (ts : List Turn) : (s.withInputs ts).tabs = s.tabs := rfl
@[simp] theorem State.withInputs_defl (s : State) (ts : List Turn) : (s.withInputs ts).defl = s.defl := rfl
@[simp] theorem State.withInputs_mem (s : State) (ts : List Turn) : (s.withInputs ts).mem = s.mem := rfl

@[simp] theorem storeRow_params (cur : List Byte) (s : State) : (storeRow cur s).params = s.params := rfl
@[simp] theorem storeRow_cur (cur : List Byte) (s : State) : (storeRow cur s).cur = s.cur := rfl
@[simp] theorem storeRow_err (cur : List Byte) (s : State) : (storeRow cur s).err = s.err := rfl
@[simp] theorem storeRow_blk (cur : List Byte) (s : State) : (storeRow cur s).blk = s.blk := rfl
@[simp] theorem storeRow_hdr (cur : List Byte) (s : State) : (storeRow cur s).hdr = s.hdr := rfl
@[simp] theorem storeRow_tok (cur : List Byte) (s : State) : (storeRow cur s).tok = s.tok := rfl
@[simp] theorem storeRow_tabs (cur : List Byte) (s : State) : (storeRow cur s).tabs = s.tabs := rfl
@[simp] theorem storeRow_env (cur : List Byte) (s : State) : (storeRow cur s).env = s.env := rfl

@[simp] theorem beginRows_params (s : State) : (beginRows s).params = s.params := rfl
@[simp] theorem beginRows_regs (s : State) : (beginRows s).regs = s.regs := rfl
@[simp] theorem beginRows_cur (s : State) : (beginRows s).cur = s.cur := rfl
@[simp] theorem beginRows_err (s : State) : (beginRows s).err = s.err := rfl
@[simp] theorem beginRows_blk (s : State) : (beginRows s).blk = s.blk := rfl
@[simp] theorem beginRows_hdr (s : State) : (beginRows s).hdr = s.hdr := rfl
@[simp] theorem beginRows_tok (s : State) : (beginRows s).tok = s.tok := rfl
@[simp] theorem beginRows_tabs (s : State) : (beginRows s).tabs = s.tabs := rfl
@[simp] theorem beginRows_env (s : State) : (beginRows s).env = s.env := rfl

@[simp] theorem alignToByte_params (s : State) : (alignToByte s).params = s.params := by unfold alignToByte; split <;> rfl
@[simp] theorem alignToByte_regs (s : State) : (alignToByte s).regs = s.regs := by unfold alignToByte; split <;> rfl
@[simp] theorem alignToByte_phase (s : State) : (alignToByte s).phase = s.phase := by unfold alignToByte; split <;> rfl
@[simp] theorem alignToByte_err (s : State) : (alignToByte s).err = s.err := by unfold alignToByte; split <;> rfl
@[simp] theorem alignToByte_blk (s : State) : (alignToByte s).blk = s.blk := by unfold alignToByte; split <;> rfl
@[simp] theorem alignToByte_hdr (s : State) : (alignToByte s).hdr = s.hdr := by unfold alignToByte; split <;> rfl
@[simp] theorem alignToByte_tok (s : State) : (alignToByte s).tok = s.tok := by unfold alignToByte; split <;> rfl
@[simp] theorem alignToByte_tabs (s : State) : (alignToByte s).tabs = s.tabs := by unfold alignToByte; split <;> rfl
@[simp] theorem alignToByte_defl (s : State) : (alignToByte s).defl = s.defl := by unfold alignToByte; split <;> rfl
@[simp] theorem alignToByte_mem (s : State) : (alignToByte s).mem = s.mem := by unfold alignToByte; split <;> rfl
@[simp] theorem alignToByte_env (s : State) : (alignToByte s).env = s.env := by unfold alignToByte; split <;> rfl

@[simp] theorem startState_params (s : State) : (startState s).params = s.params := rfl
@[simp] theorem startState_phase (s : State) : (startState s).phase = s.phase := rfl
@[simp] theorem startState_blk (s : State) : (startState s).blk = s.blk := rfl
@[simp] theorem startState_hdr (s : State) : (startState s).hdr = s.hdr := rfl
@[simp] theorem startState_tok (s : State) : (startState s).tok = s.tok := rfl
@[simp] theorem startState_tabs (s : State) : (startState s).tabs = s.tabs := rfl
@[simp] theorem startState_mem (s : State) : (startState s).mem = s.mem := rfl
@[simp] theorem startState_env (s : State) : (startState s).env = s.env := rfl

@[simp] theorem blockEndStep_params (s : State) : (blockEndStep s).params = s.params := rfl
@[simp] theorem blockEndStep_cur (s : State) : (blockEndStep s).cur = s.cur := rfl
@[simp] theorem blockEndStep_err (s : State) : (blockEndStep s).err = s.err := rfl
@[simp] theorem blockEndStep_blk (s : State) : (blockEndStep s).blk = s.blk := rfl
@[simp] theorem blockEndStep_hdr (s : State) : (blockEndStep s).hdr = s.hdr := rfl
@[simp] theorem blockEndStep_tok (s : State) : (blockEndStep s).tok = s.tok := rfl
@[simp] theorem blockEndStep_tabs (s : State) : (blockEndStep s).tabs = s.tabs := rfl
@[simp] theorem blockEndStep_defl (s : State) : (blockEndStep s).defl = s.defl := rfl
@[simp] theorem blockEndStep_mem (s : State) : (blockEndStep s).mem = s.mem := rfl
@[simp] theorem blockEndStep_env (s : State) : (blockEndStep s).env = s.env := rfl

@[simp] theorem State.setPhase_phase (s : State) (p : Phase) : (s.setPhase p).phase = p := rfl
@[simp] theorem errorEntry_phase (e : ErrorKind) (s : State) : (errorEntry e s).phase = .error := rfl
@[simp] theorem errorEntry_code (e : ErrorKind) (s : State) : (errorEntry e s).err.code = e.code := rfl
@[simp] theorem errorEntry_byte (e : ErrorKind) (s : State) : (errorEntry e s).err.byte = s.cur.byteIx := rfl
@[simp] theorem errorEntry_bit (e : ErrorKind) (s : State) : (errorEntry e s).err.bit = s.cur.bitIx := rfl
@[simp] theorem errorEntry_block (e : ErrorKind) (s : State) : (errorEntry e s).err.block = s.regs.blockCount := rfl
@[simp] theorem errorEntry_row (e : ErrorKind) (s : State) : (errorEntry e s).err.row = if s.defl.stg then s.defl.row else 0 := rfl
@[simp] theorem clearErrors_err (s : State) : (clearErrors s).err = { code := 0, byte := 0, bit := 0, block := 0, row := 0 } := rfl
@[simp] theorem pushByte_dbuf (v : Byte) (s : State) : (pushByte v s).mem.dbuf = Memory.write s.mem.dbuf s.outLen v := rfl
@[simp] theorem pushByte_dbufLen (v : Byte) (s : State) : (pushByte v s).regs.dbufLen = s.regs.dbufLen + 1 := rfl
@[simp] theorem State.setDist_dist (s : State) (v : Nat) : (s.setDist v).tok.dist = BitVec.ofNat 16 v := rfl
@[simp] theorem State.setLen_len (s : State) (v : Nat) : (s.setLen v).tok.len = BitVec.ofNat 9 v := rfl
@[simp] theorem State.setSym_sym (s : State) (v : BitVec 9) : (s.setSym v).tok.sym = v := rfl
@[simp] theorem State.setDsym_dsym (s : State) (v : Nat) : (s.setDsym v).tok.dsym = BitVec.ofNat 5 v := rfl
@[simp] theorem pushLengths_lens (v : BitVec 4) (c : Nat) (s : State) : (pushLengths v c s).hdr.lens = fillLens v c s.hdr.nl.toNat s.hdr.lens := rfl
@[simp] theorem pushLengths_nl (v : BitVec 4) (c : Nat) (s : State) : (pushLengths v c s).hdr.nl = BitVec.ofNat 9 (s.hdr.nl.toNat + c) := rfl
@[simp] theorem pushLengths_hlit (v : BitVec 4) (c : Nat) (s : State) : (pushLengths v c s).hdr.hlit = s.hdr.hlit := rfl
@[simp] theorem pushLengths_hdist (v : BitVec 4) (c : Nat) (s : State) : (pushLengths v c s).hdr.hdist = s.hdr.hdist := rfl
@[simp] theorem State.deliver_hostData (s : State) (v : Word) : (s.deliver v).env.hostData = v := rfl
@[simp] theorem State.withInputs_inputs (s : State) (ts : List Turn) : (s.withInputs ts).env.inputs = ts := rfl
@[simp] theorem respondValue_portValue (v : Word) (s : State) : (respondValue v s).env.portValue = v := rfl
@[simp] theorem respondSymbol_portSym (r : BitVec 9 × BitVec 4) (s : State) : (respondSymbol r s).env.portSym = r.1 := rfl
@[simp] theorem respondSymbol_portBits (r : BitVec 9 × BitVec 4) (s : State) : (respondSymbol r s).env.portBits = r.2 := rfl

@[simp] theorem setTable_get_same (s : State) (k : Slot) (t : HuffTable) : (s.setTable k t).tabs.get k = t := by
  cases k <;> rfl

theorem setTable_get_other (s : State) (k j : Slot) (t : HuffTable) (h : j ≠ k) :
    (s.setTable k t).tabs.get j = s.tabs.get j := by
  cases k <;> cases j <;> first | rfl | exact absurd rfl h

@[simp] theorem setMemory_memory_same (s : State) (sp : MemSpace) (m : Memory) : (s.setMemory sp m).memory sp = m := by
  cases sp <;> rfl

theorem setMemory_memory_other (s : State) (sp q : MemSpace) (m : Memory) (h : q ≠ sp) :
    (s.setMemory sp m).memory q = s.memory q := by
  cases sp <;> cases q <;> first | rfl | exact absurd rfl h

/-! ## The state after reset, group by group -/

@[simp] theorem resetWith_params (p : Params) : (State.resetWith p).params = p := rfl
@[simp] theorem resetWith_regs (p : Params) : (State.resetWith p).regs =
    { defilterEn := true, irqEn := false, inLen := 0, width := 0, height := 0, dbufLen := 0, pixLen := 0, blockCount := 0 } :=
  rfl
@[simp] theorem resetWith_cur (p : Params) : (State.resetWith p).cur = { byteIx := 0, bitIx := 0 } := rfl
@[simp] theorem resetWith_phase (p : Params) : (State.resetWith p).phase = .idle := rfl
@[simp] theorem resetWith_err (p : Params) :
    (State.resetWith p).err = { code := 0, byte := 0, bit := 0, block := 0, row := 0 } := rfl
@[simp] theorem resetWith_blk (p : Params) : (State.resetWith p).blk = { bfinal := false, btype := 0, act := false } := rfl
@[simp] theorem resetWith_cllLength (p : Params) : (State.resetWith p).hdr.cll.length = 19 := List.length_replicate
@[simp] theorem resetWith_lensLength (p : Params) : (State.resetWith p).hdr.lens.length = 320 := List.length_replicate
@[simp] theorem resetWith_tabs (p : Params) :
    (State.resetWith p).tabs = { cl := HuffTable.empty 19, ll := HuffTable.empty 288, d := HuffTable.empty 32 } := rfl
@[simp] theorem resetWith_defl (p : Params) : (State.resetWith p).defl = { row := 0, stg := false } := rfl
@[simp] theorem resetWith_memory (p : Params) (sp : MemSpace) : (State.resetWith p).memory sp = [] := by cases sp <;> rfl
@[simp] theorem resetWith_inputs (p : Params) : (State.resetWith p).env.inputs = [] := rfl

end Sys2Proof.Machine
end

