-- ==== Sys2Proof/Laws/Memory.lean ====
section
/-! SUPPORT. Memory: read after write, and that every operation keeps the canonical form. -/

-- One theorem at a time: the package as one text is compiled under a limit of memory.
set_option Elab.async false

namespace Sys2Proof.Machine

@[simp] theorem read?_write_same (m : Memory) (a : Nat) (v : Byte) : Memory.read? (Memory.write m a v) a = some v := by
  induction m with
  | nil => simp [Memory.write, Memory.read?]
  | cons c m ih =>
    obtain ⟨b, w⟩ := c
    simp only [Memory.write]
    split
    · simp [Memory.read?]
    · split
      · simp [Memory.read?]
      · have : b ≠ a := by omega
        simp [Memory.read?, this, ih]

theorem read?_write_other (m : Memory) (a x : Nat) (v : Byte) (h : x ≠ a) :
    Memory.read? (Memory.write m a v) x = Memory.read? m x := by
  induction m with
  | nil => simp [Memory.write, Memory.read?, Ne.symm h]
  | cons c m ih =>
    obtain ⟨b, w⟩ := c
    simp only [Memory.write]
    split
    · simp [Memory.read?, Ne.symm h]
    · split
      · rename_i h2
        subst h2
        simp [Memory.read?, Ne.symm h]
      · simp only [Memory.read?, ih]

theorem read?_write (m : Memory) (a x : Nat) (v : Byte) :
    Memory.read? (Memory.write m a v) x = if x = a then some v else Memory.read? m x := by
  split
  · rename_i h; subst h; simp
  · rename_i h; exact read?_write_other m a x v h

/-- What an address reads after a run of bytes is written from `a` on. -/
theorem read?_writeList (vs : List Byte) : ∀ (m : Memory) (a x : Nat),
    Memory.read? (Memory.writeList m a vs) x =
      if a ≤ x ∧ x < a + vs.length then some (vs.getD (x - a) 0) else Memory.read? m x := by
  induction vs with
  | nil =>
    intro m a x
    have : ¬(a ≤ x ∧ x < a + ([] : List Byte).length) := by simp only [List.length_nil]; omega
    rw [if_neg this]
    rfl
  | cons v vs ih =>
    intro m a x
    simp only [Memory.writeList, ih, List.length_cons]
    by_cases h1 : x = a
    · subst h1
      rw [if_neg (by omega), if_pos (by omega)]
      simp
    · by_cases h2 : a + 1 ≤ x ∧ x < a + 1 + vs.length
      · rw [if_pos h2, if_pos (by omega)]
        obtain ⟨k, rfl⟩ : ∃ k, x = a + 1 + k := ⟨x - (a + 1), by omega⟩
        have e1 : a + 1 + k - (a + 1) = k := by omega
        have e2 : a + 1 + k - a = k + 1 := by omega
        rw [e1, e2]
        simp
      · rw [if_neg h2, if_neg (by omega), read?_write_other _ _ _ _ h1]

/-- The canonical form, as a statement about the head. -/
theorem wf_cons (c : Host.Cell) (m : Memory) :
    Memory.wf (c :: m) = true ↔ (∀ d ∈ m, c.1 < d.1) ∧ Memory.wf m = true := by
  induction m generalizing c with
  | nil => simp [Memory.wf]
  | cons d m ih =>
    simp only [Memory.wf, Bool.and_eq_true, decide_eq_true_eq, List.mem_cons, forall_eq_or_imp]
    constructor
    · rintro ⟨h1, h2⟩
      exact ⟨⟨h1, fun e he => Nat.lt_trans h1 (((ih d).mp h2).1 e he)⟩, h2⟩
    · rintro ⟨⟨h1, _⟩, h2⟩
      exact ⟨h1, h2⟩

theorem mem_write (m : Memory) (a : Nat) (v : Byte) (d : Host.Cell) (h : d ∈ Memory.write m a v) :
    d = (a, v) ∨ d ∈ m := by
  induction m with
  | nil => simpa [Memory.write] using h
  | cons c m ih =>
    obtain ⟨b, w⟩ := c
    simp only [Memory.write] at h
    split at h
    · simpa using h
    · split at h
      · rcases List.mem_cons.mp h with h | h
        · exact .inl h
        · exact .inr (List.mem_cons_of_mem _ h)
      · rcases List.mem_cons.mp h with h | h
        · exact .inr (h ▸ List.mem_cons_self)
        · rcases ih h with h | h
          · exact .inl h
          · exact .inr (List.mem_cons_of_mem _ h)

/-- Writing keeps the canonical form. -/
theorem wf_write (m : Memory) (a : Nat) (v : Byte) (h : Memory.wf m = true) : Memory.wf (Memory.write m a v) = true := by
  induction m with
  | nil => rfl
  | cons c m ih =>
    obtain ⟨b, w⟩ := c
    have hc := (wf_cons (b, w) m).mp h
    simp only [Memory.write]
    split
    · rename_i h1
      refine (wf_cons _ _).mpr ⟨?_, h⟩
      intro d hd
      rcases List.mem_cons.mp hd with hd | hd
      · subst hd; exact h1
      · exact Nat.lt_trans h1 (hc.1 d hd)
    · split
      · rename_i h1 h2
        subst h2
        exact (wf_cons _ _).mpr ⟨hc.1, hc.2⟩
      · rename_i h1 h2
        refine (wf_cons _ _).mpr ⟨?_, ih hc.2⟩
        intro d hd
        rcases mem_write m a v d hd with hd | hd
        · subst hd; simp only; omega
        · exact hc.1 d hd

/-- Writing a run of bytes keeps the canonical form. -/
theorem wf_writeList (vs : List Byte) : ∀ (m : Memory) (a : Nat), Memory.wf m = true →
    Memory.wf (Memory.writeList m a vs) = true := by
  induction vs with
  | nil => intro m a h; exact h
  | cons v vs ih => intro m a h; exact ih _ _ (wf_write m a v h)

/-- Writing inside a space keeps a memory inside it. -/
theorem memoryOk_write {m : Memory} {n a : Nat} (v : Byte) (h : MemoryOk m n) (ha : a < n) :
    MemoryOk (Memory.write m a v) n := by
  refine ⟨wf_write m a v h.1, ?_⟩
  intro c hc
  rcases mem_write m a v c hc with hc | hc
  · subst hc; exact ha
  · exact h.2 c hc

theorem memoryOk_writeList (vs : List Byte) : ∀ {m : Memory} {n a : Nat}, MemoryOk m n → a + vs.length ≤ n →
    MemoryOk (Memory.writeList m a vs) n := by
  induction vs with
  | nil => intro m n a h _; exact h
  | cons v vs ih =>
    intro m n a h hl
    simp only [List.length_cons] at hl
    exact ih (memoryOk_write v h (by omega)) (by omega)

/-- What the bytes are after a byte is pushed. -/
theorem byteAt_pushByte (v : Byte) (s : State) (sp : MemSpace) (a : Nat) :
    (pushByte v s).byteAt sp a = if sp = .dbuf ∧ a = s.outLen then v else s.byteAt sp a := by
  cases sp
  case dbuf =>
    by_cases h : a = s.outLen <;> simp [State.byteAt, pushByte, State.memory, read?_write, h]
  all_goals simp [State.byteAt, pushByte, State.memory]

end Sys2Proof.Machine
end

