-- ==== Sys2Proof/Laws/Reads.lean ====
section
/-! SUPPORT. What is read after an update that does not write it: bytes, stream bits, values of bits and lengths. -/

-- One theorem at a time: the package as one text is compiled under a limit of memory.
set_option Elab.async false

namespace Sys2Proof.Machine

/-- A byte depends on its memory and on the reset it follows. -/
theorem byteAt_congr {s t : State} (hm : s.mem = t.mem) (he : s.env.epoch = t.env.epoch) (sp : MemSpace) (a : Nat) :
    s.byteAt sp a = t.byteAt sp a := by
  unfold State.byteAt State.memory
  rw [hm, he]

theorem streamBit_congr {s t : State} (hm : s.mem = t.mem) (he : s.env.epoch = t.env.epoch) (k : Nat) :
    s.streamBit k = t.streamBit k := by
  unfold State.streamBit
  rw [byteAt_congr hm he]

/-- An LSB-first value depends on its bits. -/
theorem lsbValue_ext {s t : State} {p q : Nat} : ∀ n, (∀ i, i < n → s.streamBit (p + i) = t.streamBit (q + i)) →
    s.lsbValue p n = t.lsbValue q n := by
  intro n
  induction n with
  | zero => intro _; rfl
  | succ n ih =>
    intro h
    simp only [State.lsbValue, ih (fun i hi => h i (by omega)), h n (by omega)]

/-- An MSB-first value depends on its bits. -/
theorem msbValue_ext {s t : State} {p q : Nat} : ∀ n, (∀ i, i < n → s.streamBit (p + i) = t.streamBit (q + i)) →
    s.msbValue p n = t.msbValue q n := by
  intro n
  induction n with
  | zero => intro _; rfl
  | succ n ih =>
    intro h
    simp only [State.msbValue, ih (fun i hi => h i (by omega)), h n (by omega)]

theorem lsbValue_congr {s t : State} (hm : s.mem = t.mem) (he : s.env.epoch = t.env.epoch) (p n : Nat) :
    s.lsbValue p n = t.lsbValue p n := lsbValue_ext n (fun i _ => streamBit_congr hm he (p + i))

theorem msbValue_congr {s t : State} (hm : s.mem = t.mem) (he : s.env.epoch = t.env.epoch) (p n : Nat) :
    s.msbValue p n = t.msbValue p n := msbValue_ext n (fun i _ => streamBit_congr hm he (p + i))

/-- An n-bit value is below 2^n. -/
theorem lsbValue_lt (s : State) (p : Nat) : ∀ n, s.lsbValue p n < 2 ^ n := by
  intro n
  induction n with
  | zero => simp [State.lsbValue]
  | succ n ih =>
    have hb : (s.streamBit (p + n)).toNat ≤ 1 := Bool.toNat_le _
    have := Nat.mul_le_mul_right (2 ^ n) hb
    simp only [State.lsbValue, Nat.pow_succ]
    omega

theorem msbValue_lt (s : State) (p : Nat) : ∀ n, s.msbValue p n < 2 ^ n := by
  intro n
  induction n with
  | zero => simp [State.msbValue]
  | succ n ih =>
    have hb : (s.streamBit (p + n)).toNat ≤ 1 := Bool.toNat_le _
    simp only [State.msbValue, Nat.pow_succ]
    omega

@[simp] theorem State.setPos_byteAt (s : State) (p : Nat) (sp : MemSpace) (a : Nat) : (s.setPos p).byteAt sp a = s.byteAt sp a := rfl
@[simp] theorem State.setPos_sizeOf (s : State) (p : Nat) (sp : MemSpace) : (s.setPos p).sizeOf sp = s.sizeOf sp := rfl
@[simp] theorem State.setPos_memory (s : State) (p : Nat) (sp : MemSpace) : (s.setPos p).memory sp = s.memory sp := rfl
@[simp] theorem State.setPos_streamEnd (s : State) (p : Nat) : (s.setPos p).streamEnd = s.streamEnd := rfl
@[simp] theorem State.setPos_streamBit (s : State) (p : Nat) (k : Nat) : (s.setPos p).streamBit k = s.streamBit k := rfl
@[simp] theorem State.setPos_lsbValue (s : State) (p : Nat) (q n : Nat) : (s.setPos p).lsbValue q n = s.lsbValue q n := lsbValue_congr (s := (s.setPos p)) (t := s) rfl rfl q n
@[simp] theorem State.setPos_msbValue (s : State) (p : Nat) (q n : Nat) : (s.setPos p).msbValue q n = s.msbValue q n := msbValue_congr (s := (s.setPos p)) (t := s) rfl rfl q n
@[simp] theorem State.setPos_outLen (s : State) (p : Nat) : (s.setPos p).outLen = s.outLen := rfl
@[simp] theorem State.setPos_lengthCount (s : State) (p : Nat) : (s.setPos p).lengthCount = s.lengthCount := rfl

@[simp] theorem State.setPhase_byteAt (s : State) (p : Phase) (sp : MemSpace) (a : Nat) : (s.setPhase p).byteAt sp a = s.byteAt sp a := rfl
@[simp] theorem State.setPhase_sizeOf (s : State) (p : Phase) (sp : MemSpace) : (s.setPhase p).sizeOf sp = s.sizeOf sp := rfl
@[simp] theorem State.setPhase_memory (s : State) (p : Phase) (sp : MemSpace) : (s.setPhase p).memory sp = s.memory sp := rfl
@[simp] theorem State.setPhase_streamEnd (s : State) (p : Phase) : (s.setPhase p).streamEnd = s.streamEnd := rfl
@[simp] theorem State.setPhase_streamBit (s : State) (p : Phase) (k : Nat) : (s.setPhase p).streamBit k = s.streamBit k := rfl
@[simp] theorem State.setPhase_lsbValue (s : State) (p : Phase) (q n : Nat) : (s.setPhase p).lsbValue q n = s.lsbValue q n := lsbValue_congr (s := (s.setPhase p)) (t := s) rfl rfl q n
@[simp] theorem State.setPhase_msbValue (s : State) (p : Phase) (q n : Nat) : (s.setPhase p).msbValue q n = s.msbValue q n := msbValue_congr (s := (s.setPhase p)) (t := s) rfl rfl q n
@[simp] theorem State.setPhase_outLen (s : State) (p : Phase) : (s.setPhase p).outLen = s.outLen := rfl
@[simp] theorem State.setPhase_pos (s : State) (p : Phase) : (s.setPhase p).pos = s.pos := rfl
@[simp] theorem State.setPhase_lengthCount (s : State) (p : Phase) : (s.setPhase p).lengthCount = s.lengthCount := rfl

@[simp] theorem errorEntry_byteAt (e : ErrorKind) (s : State) (sp : MemSpace) (a : Nat) : (errorEntry e s).byteAt sp a = s.byteAt sp a := rfl
@[simp] theorem errorEntry_sizeOf (e : ErrorKind) (s : State) (sp : MemSpace) : (errorEntry e s).sizeOf sp = s.sizeOf sp := rfl
@[simp] theorem errorEntry_memory (e : ErrorKind) (s : State) (sp : MemSpace) : (errorEntry e s).memory sp = s.memory sp := rfl
@[simp] theorem errorEntry_streamEnd (e : ErrorKind) (s : State) : (errorEntry e s).streamEnd = s.streamEnd := rfl
@[simp] theorem errorEntry_streamBit (e : ErrorKind) (s : State) (k : Nat) : (errorEntry e s).streamBit k = s.streamBit k := rfl
@[simp] theorem errorEntry_lsbValue (e : ErrorKind) (s : State) (q n : Nat) : (errorEntry e s).lsbValue q n = s.lsbValue q n := lsbValue_congr (s := (errorEntry e s)) (t := s) rfl rfl q n
@[simp] theorem errorEntry_msbValue (e : ErrorKind) (s : State) (q n : Nat) : (errorEntry e s).msbValue q n = s.msbValue q n := msbValue_congr (s := (errorEntry e s)) (t := s) rfl rfl q n
@[simp] theorem errorEntry_outLen (e : ErrorKind) (s : State) : (errorEntry e s).outLen = s.outLen := rfl
@[simp] theorem errorEntry_pos (e : ErrorKind) (s : State) : (errorEntry e s).pos = s.pos := rfl
@[simp] theorem errorEntry_lengthCount (e : ErrorKind) (s : State) : (errorEntry e s).lengthCount = s.lengthCount := rfl

@[simp] theorem clearErrors_byteAt (s : State) (sp : MemSpace) (a : Nat) : (clearErrors s).byteAt sp a = s.byteAt sp a := rfl
@[simp] theorem clearErrors_sizeOf (s : State) (sp : MemSpace) : (clearErrors s).sizeOf sp = s.sizeOf sp := rfl
@[simp] theorem clearErrors_memory (s : State) (sp : MemSpace) : (clearErrors s).memory sp = s.memory sp := rfl
@[simp] theorem clearErrors_streamEnd (s : State) : (clearErrors s).streamEnd = s.streamEnd := rfl
@[simp] theorem clearErrors_streamBit (s : State) (k : Nat) : (clearErrors s).streamBit k = s.streamBit k := rfl
@[simp] theorem clearErrors_lsbValue (s : State) (q n : Nat) : (clearErrors s).lsbValue q n = s.lsbValue q n := lsbValue_congr (s := (clearErrors s)) (t := s) rfl rfl q n
@[simp] theorem clearErrors_msbValue (s : State) (q n : Nat) : (clearErrors s).msbValue q n = s.msbValue q n := msbValue_congr (s := (clearErrors s)) (t := s) rfl rfl q n
@[simp] theorem clearErrors_outLen (s : State) : (clearErrors s).outLen = s.outLen := rfl
@[simp] theorem clearErrors_pos (s : State) : (clearErrors s).pos = s.pos := rfl
@[simp] theorem clearErrors_lengthCount (s : State) : (clearErrors s).lengthCount = s.lengthCount := rfl

@[simp] theorem State.setDist_byteAt (s : State) (v : Nat) (sp : MemSpace) (a : Nat) : (s.setDist v).byteAt sp a = s.byteAt sp a := rfl
@[simp] theorem State.setDist_sizeOf (s : State) (v : Nat) (sp : MemSpace) : (s.setDist v).sizeOf sp = s.sizeOf sp := rfl
@[simp] theorem State.setDist_memory (s : State) (v : Nat) (sp : MemSpace) : (s.setDist v).memory sp = s.memory sp := rfl
@[simp] theorem State.setDist_streamEnd (s : State) (v : Nat) : (s.setDist v).streamEnd = s.streamEnd := rfl
@[simp] theorem State.setDist_streamBit (s : State) (v : Nat) (k : Nat) : (s.setDist v).streamBit k = s.streamBit k := rfl
@[simp] theorem State.setDist_lsbValue (s : State) (v : Nat) (q n : Nat) : (s.setDist v).lsbValue q n = s.lsbValue q n := lsbValue_congr (s := (s.setDist v)) (t := s) rfl rfl q n
@[simp] theorem State.setDist_msbValue (s : State) (v : Nat) (q n : Nat) : (s.setDist v).msbValue q n = s.msbValue q n := msbValue_congr (s := (s.setDist v)) (t := s) rfl rfl q n
@[simp] theorem State.setDist_outLen (s : State) (v : Nat) : (s.setDist v).outLen = s.outLen := rfl
@[simp] theorem State.setDist_pos (s : State) (v : Nat) : (s.setDist v).pos = s.pos := rfl
@[simp] theorem State.setDist_lengthCount (s : State) (v : Nat) : (s.setDist v).lengthCount = s.lengthCount := rfl

@[simp] theorem State.setLen_byteAt (s : State) (v : Nat) (sp : MemSpace) (a : Nat) : (s.setLen v).byteAt sp a = s.byteAt sp a := rfl
@[simp] theorem State.setLen_sizeOf (s : State) (v : Nat) (sp : MemSpace) : (s.setLen v).sizeOf sp = s.sizeOf sp := rfl
@[simp] theorem State.setLen_memory (s : State) (v : Nat) (sp : MemSpace) : (s.setLen v).memory sp = s.memory sp := rfl
@[simp] theorem State.setLen_streamEnd (s : State) (v : Nat) : (s.setLen v).streamEnd = s.streamEnd := rfl
@[simp] theorem State.setLen_streamBit (s : State) (v : Nat) (k : Nat) : (s.setLen v).streamBit k = s.streamBit k := rfl
@[simp] theorem State.setLen_lsbValue (s : State) (v : Nat) (q n : Nat) : (s.setLen v).lsbValue q n = s.lsbValue q n := lsbValue_congr (s := (s.setLen v)) (t := s) rfl rfl q n
@[simp] theorem State.setLen_msbValue (s : State) (v : Nat) (q n : Nat) : (s.setLen v).msbValue q n = s.msbValue q n := msbValue_congr (s := (s.setLen v)) (t := s) rfl rfl q n
@[simp] theorem State.setLen_outLen (s : State) (v : Nat) : (s.setLen v).outLen = s.outLen := rfl
@[simp] theorem State.setLen_pos (s : State) (v : Nat) : (s.setLen v).pos = s.pos := rfl
@[simp] theorem State.setLen_lengthCount (s : State) (v : Nat) : (s.setLen v).lengthCount = s.lengthCount := rfl

@[simp] theorem State.setSym_byteAt (s : State) (v : BitVec 9) (sp : MemSpace) (a : Nat) : (s.setSym v).byteAt sp a = s.byteAt sp a := rfl
@[simp] theorem State.setSym_sizeOf (s : State) (v : BitVec 9) (sp : MemSpace) : (s.setSym v).sizeOf sp = s.sizeOf sp := rfl
@[simp] theorem State.setSym_memory (s : State) (v : BitVec 9) (sp : MemSpace) : (s.setSym v).memory sp = s.memory sp := rfl
@[simp] theorem State.setSym_streamEnd (s : State) (v : BitVec 9) : (s.setSym v).streamEnd = s.streamEnd := rfl
@[simp] theorem State.setSym_streamBit (s : State) (v : BitVec 9) (k : Nat) : (s.setSym v).streamBit k = s.streamBit k := rfl
@[simp] theorem State.setSym_lsbValue (s : State) (v : BitVec 9) (q n : Nat) : (s.setSym v).lsbValue q n = s.lsbValue q n := lsbValue_congr (s := (s.setSym v)) (t := s) rfl rfl q n
@[simp] theorem State.setSym_msbValue (s : State) (v : BitVec 9) (q n : Nat) : (s.setSym v).msbValue q n = s.msbValue q n := msbValue_congr (s := (s.setSym v)) (t := s) rfl rfl q n
@[simp] theorem State.setSym_outLen (s : State) (v : BitVec 9) : (s.setSym v).outLen = s.outLen := rfl
@[simp] theorem State.setSym_pos (s : State) (v : BitVec 9) : (s.setSym v).pos = s.pos := rfl
@[simp] theorem State.setSym_lengthCount (s : State) (v : BitVec 9) : (s.setSym v).lengthCount = s.lengthCount := rfl

@[simp] theorem State.setDsym_byteAt (s : State) (v : Nat) (sp : MemSpace) (a : Nat) : (s.setDsym v).byteAt sp a = s.byteAt sp a := rfl
@[simp] theorem State.setDsym_sizeOf (s : State) (v : Nat) (sp : MemSpace) : (s.setDsym v).sizeOf sp = s.sizeOf sp := rfl
@[simp] theorem State.setDsym_memory (s : State) (v : Nat) (sp : MemSpace) : (s.setDsym v).memory sp = s.memory sp := rfl
@[simp] theorem State.setDsym_streamEnd (s : State) (v : Nat) : (s.setDsym v).streamEnd = s.streamEnd := rfl
@[simp] theorem State.setDsym_streamBit (s : State) (v : Nat) (k : Nat) : (s.setDsym v).streamBit k = s.streamBit k := rfl
@[simp] theorem State.setDsym_lsbValue (s : State) (v : Nat) (q n : Nat) : (s.setDsym v).lsbValue q n = s.lsbValue q n := lsbValue_congr (s := (s.setDsym v)) (t := s) rfl rfl q n
@[simp] theorem State.setDsym_msbValue (s : State) (v : Nat) (q n : Nat) : (s.setDsym v).msbValue q n = s.msbValue q n := msbValue_congr (s := (s.setDsym v)) (t := s) rfl rfl q n
@[simp] theorem State.setDsym_outLen (s : State) (v : Nat) : (s.setDsym v).outLen = s.outLen := rfl
@[simp] theorem State.setDsym_pos (s : State) (v : Nat) : (s.setDsym v).pos = s.pos := rfl
@[simp] theorem State.setDsym_lengthCount (s : State) (v : Nat) : (s.setDsym v).lengthCount = s.lengthCount := rfl

@[simp] theorem pushLengths_byteAt (v : BitVec 4) (c : Nat) (s : State) (sp : MemSpace) (a : Nat) : (pushLengths v c s).byteAt sp a = s.byteAt sp a := rfl
@[simp] theorem pushLengths_sizeOf (v : BitVec 4) (c : Nat) (s : State) (sp : MemSpace) : (pushLengths v c s).sizeOf sp = s.sizeOf sp := rfl
@[simp] theorem pushLengths_memory (v : BitVec 4) (c : Nat) (s : State) (sp : MemSpace) : (pushLengths v c s).memory sp = s.memory sp := rfl
@[simp] theorem pushLengths_streamEnd (v : BitVec 4) (c : Nat) (s : State) : (pushLengths v c s).streamEnd = s.streamEnd := rfl
@[simp] theorem pushLengths_streamBit (v : BitVec 4) (c : Nat) (s : State) (k : Nat) : (pushLengths v c s).streamBit k = s.streamBit k := rfl
@[simp] theorem pushLengths_lsbValue (v : BitVec 4) (c : Nat) (s : State) (q n : Nat) : (pushLengths v c s).lsbValue q n = s.lsbValue q n := lsbValue_congr (s := (pushLengths v c s)) (t := s) rfl rfl q n
@[simp] theorem pushLengths_msbValue (v : BitVec 4) (c : Nat) (s : State) (q n : Nat) : (pushLengths v c s).msbValue q n = s.msbValue q n := msbValue_congr (s := (pushLengths v c s)) (t := s) rfl rfl q n
@[simp] theorem pushLengths_outLen (v : BitVec 4) (c : Nat) (s : State) : (pushLengths v c s).outLen = s.outLen := rfl
@[simp] theorem pushLengths_pos (v : BitVec 4) (c : Nat) (s : State) : (pushLengths v c s).pos = s.pos := rfl
@[simp] theorem pushLengths_lengthCount (v : BitVec 4) (c : Nat) (s : State) : (pushLengths v c s).lengthCount = s.lengthCount := rfl

@[simp] theorem State.withInputs_byteAt (s : State) (ts : List Turn) (sp : MemSpace) (a : Nat) : (s.withInputs ts).byteAt sp a = s.byteAt sp a := rfl
@[simp] theorem State.withInputs_sizeOf (s : State) (ts : List Turn) (sp : MemSpace) : (s.withInputs ts).sizeOf sp = s.sizeOf sp := rfl
@[simp] theorem State.withInputs_memory (s : State) (ts : List Turn) (sp : MemSpace) : (s.withInputs ts).memory sp = s.memory sp := rfl
@[simp] theorem State.withInputs_streamEnd (s : State) (ts : List Turn) : (s.withInputs ts).streamEnd = s.streamEnd := rfl
@[simp] theorem State.withInputs_streamBit (s : State) (ts : List Turn) (k : Nat) : (s.withInputs ts).streamBit k = s.streamBit k := rfl
@[simp] theorem State.withInputs_lsbValue (s : State) (ts : List Turn) (q n : Nat) : (s.withInputs ts).lsbValue q n = s.lsbValue q n := lsbValue_congr (s := (s.withInputs ts)) (t := s) rfl rfl q n
@[simp] theorem State.withInputs_msbValue (s : State) (ts : List Turn) (q n : Nat) : (s.withInputs ts).msbValue q n = s.msbValue q n := msbValue_congr (s := (s.withInputs ts)) (t := s) rfl rfl q n
@[simp] theorem State.withInputs_outLen (s : State) (ts : List Turn) : (s.withInputs ts).outLen = s.outLen := rfl
@[simp] theorem State.withInputs_pos (s : State) (ts : List Turn) : (s.withInputs ts).pos = s.pos := rfl
@[simp] theorem State.withInputs_lengthCount (s : State) (ts : List Turn) : (s.withInputs ts).lengthCount = s.lengthCount := rfl

@[simp] theorem State.deliver_byteAt (s : State) (v : Word) (sp : MemSpace) (a : Nat) : (s.deliver v).byteAt sp a = s.byteAt sp a := rfl
@[simp] theorem State.deliver_sizeOf (s : State) (v : Word) (sp : MemSpace) : (s.deliver v).sizeOf sp = s.sizeOf sp := rfl
@[simp] theorem State.deliver_memory (s : State) (v : Word) (sp : MemSpace) : (s.deliver v).memory sp = s.memory sp := rfl
@[simp] theorem State.deliver_streamEnd (s : State) (v : Word) : (s.deliver v).streamEnd = s.streamEnd := rfl
@[simp] theorem State.deliver_streamBit (s : State) (v : Word) (k : Nat) : (s.deliver v).streamBit k = s.streamBit k := rfl
@[simp] theorem State.deliver_lsbValue (s : State) (v : Word) (q n : Nat) : (s.deliver v).lsbValue q n = s.lsbValue q n := lsbValue_congr (s := (s.deliver v)) (t := s) rfl rfl q n
@[simp] theorem State.deliver_msbValue (s : State) (v : Word) (q n : Nat) : (s.deliver v).msbValue q n = s.msbValue q n := msbValue_congr (s := (s.deliver v)) (t := s) rfl rfl q n
@[simp] theorem State.deliver_outLen (s : State) (v : Word) : (s.deliver v).outLen = s.outLen := rfl
@[simp] theorem State.deliver_pos (s : State) (v : Word) : (s.deliver v).pos = s.pos := rfl
@[simp] theorem State.deliver_lengthCount (s : State) (v : Word) : (s.deliver v).lengthCount = s.lengthCount := rfl

@[simp] theorem State.drawn_byteAt (s : State) (sp : MemSpace) (a : Nat) : s.drawn.byteAt sp a = s.byteAt sp a := rfl
@[simp] theorem State.drawn_sizeOf (s : State) (sp : MemSpace) : s.drawn.sizeOf sp = s.sizeOf sp := rfl
@[simp] theorem State.drawn_memory (s : State) (sp : MemSpace) : s.drawn.memory sp = s.memory sp := rfl
@[simp] theorem State.drawn_streamEnd (s : State) : s.drawn.streamEnd = s.streamEnd := rfl
@[simp] theorem State.drawn_streamBit (s : State) (k : Nat) : s.drawn.streamBit k = s.streamBit k := rfl
@[simp] theorem State.drawn_lsbValue (s : State) (q n : Nat) : s.drawn.lsbValue q n = s.lsbValue q n := lsbValue_congr (s := s.drawn) (t := s) rfl rfl q n
@[simp] theorem State.drawn_msbValue (s : State) (q n : Nat) : s.drawn.msbValue q n = s.msbValue q n := msbValue_congr (s := s.drawn) (t := s) rfl rfl q n
@[simp] theorem State.drawn_outLen (s : State) : s.drawn.outLen = s.outLen := rfl
@[simp] theorem State.drawn_pos (s : State) : s.drawn.pos = s.pos := rfl
@[simp] theorem State.drawn_lengthCount (s : State) : s.drawn.lengthCount = s.lengthCount := rfl

@[simp] theorem respondValue_byteAt (v : Word) (s : State) (sp : MemSpace) (a : Nat) : (respondValue v s).byteAt sp a = s.byteAt sp a := rfl
@[simp] theorem respondValue_sizeOf (v : Word) (s : State) (sp : MemSpace) : (respondValue v s).sizeOf sp = s.sizeOf sp := rfl
@[simp] theorem respondValue_memory (v : Word) (s : State) (sp : MemSpace) : (respondValue v s).memory sp = s.memory sp := rfl
@[simp] theorem respondValue_streamEnd (v : Word) (s : State) : (respondValue v s).streamEnd = s.streamEnd := rfl
@[simp] theorem respondValue_streamBit (v : Word) (s : State) (k : Nat) : (respondValue v s).streamBit k = s.streamBit k := rfl
@[simp] theorem respondValue_lsbValue (v : Word) (s : State) (q n : Nat) : (respondValue v s).lsbValue q n = s.lsbValue q n := lsbValue_congr (s := (respondValue v s)) (t := s) rfl rfl q n
@[simp] theorem respondValue_msbValue (v : Word) (s : State) (q n : Nat) : (respondValue v s).msbValue q n = s.msbValue q n := msbValue_congr (s := (respondValue v s)) (t := s) rfl rfl q n
@[simp] theorem respondValue_outLen (v : Word) (s : State) : (respondValue v s).outLen = s.outLen := rfl
@[simp] theorem respondValue_pos (v : Word) (s : State) : (respondValue v s).pos = s.pos := rfl
@[simp] theorem respondValue_lengthCount (v : Word) (s : State) : (respondValue v s).lengthCount = s.lengthCount := rfl

@[simp] theorem respondFree_byteAt (b : Bool) (s : State) (sp : MemSpace) (a : Nat) : (respondFree b s).byteAt sp a = s.byteAt sp a := rfl
@[simp] theorem respondFree_sizeOf (b : Bool) (s : State) (sp : MemSpace) : (respondFree b s).sizeOf sp = s.sizeOf sp := rfl
@[simp] theorem respondFree_memory (b : Bool) (s : State) (sp : MemSpace) : (respondFree b s).memory sp = s.memory sp := rfl
@[simp] theorem respondFree_streamEnd (b : Bool) (s : State) : (respondFree b s).streamEnd = s.streamEnd := rfl
@[simp] theorem respondFree_streamBit (b : Bool) (s : State) (k : Nat) : (respondFree b s).streamBit k = s.streamBit k := rfl
@[simp] theorem respondFree_lsbValue (b : Bool) (s : State) (q n : Nat) : (respondFree b s).lsbValue q n = s.lsbValue q n := lsbValue_congr (s := (respondFree b s)) (t := s) rfl rfl q n
@[simp] theorem respondFree_msbValue (b : Bool) (s : State) (q n : Nat) : (respondFree b s).msbValue q n = s.msbValue q n := msbValue_congr (s := (respondFree b s)) (t := s) rfl rfl q n
@[simp] theorem respondFree_outLen (b : Bool) (s : State) : (respondFree b s).outLen = s.outLen := rfl
@[simp] theorem respondFree_pos (b : Bool) (s : State) : (respondFree b s).pos = s.pos := rfl
@[simp] theorem respondFree_lengthCount (b : Bool) (s : State) : (respondFree b s).lengthCount = s.lengthCount := rfl

@[simp] theorem respondSymbol_byteAt (r : BitVec 9 × BitVec 4) (s : State) (sp : MemSpace) (a : Nat) : (respondSymbol r s).byteAt sp a = s.byteAt sp a := rfl
@[simp] theorem respondSymbol_sizeOf (r : BitVec 9 × BitVec 4) (s : State) (sp : MemSpace) : (respondSymbol r s).sizeOf sp = s.sizeOf sp := rfl
@[simp] theorem respondSymbol_memory (r : BitVec 9 × BitVec 4) (s : State) (sp : MemSpace) : (respondSymbol r s).memory sp = s.memory sp := rfl
@[simp] theorem respondSymbol_streamEnd (r : BitVec 9 × BitVec 4) (s : State) : (respondSymbol r s).streamEnd = s.streamEnd := rfl
@[simp] theorem respondSymbol_streamBit (r : BitVec 9 × BitVec 4) (s : State) (k : Nat) : (respondSymbol r s).streamBit k = s.streamBit k := rfl
@[simp] theorem respondSymbol_lsbValue (r : BitVec 9 × BitVec 4) (s : State) (q n : Nat) : (respondSymbol r s).lsbValue q n = s.lsbValue q n := lsbValue_congr (s := (respondSymbol r s)) (t := s) rfl rfl q n
@[simp] theorem respondSymbol_msbValue (r : BitVec 9 × BitVec 4) (s : State) (q n : Nat) : (respondSymbol r s).msbValue q n = s.msbValue q n := msbValue_congr (s := (respondSymbol r s)) (t := s) rfl rfl q n
@[simp] theorem respondSymbol_outLen (r : BitVec 9 × BitVec 4) (s : State) : (respondSymbol r s).outLen = s.outLen := rfl
@[simp] theorem respondSymbol_pos (r : BitVec 9 × BitVec 4) (s : State) : (respondSymbol r s).pos = s.pos := rfl
@[simp] theorem respondSymbol_lengthCount (r : BitVec 9 × BitVec 4) (s : State) : (respondSymbol r s).lengthCount = s.lengthCount := rfl

end Sys2Proof.Machine
end

