-- ==== Sys2Proof/Laws/Sat.lean ====
section
/-! SUPPORT. How to speak of everything a sub-operation can do: `Res.Sat P Q F r` says that a value and its state meet
`P`, that a raise is an error entry of a kind in a state that meet `Q`, and that a fault meets `F`. -/

-- One theorem at a time: the package as one text is compiled under a limit of memory.
set_option Elab.async false

namespace Sys2Proof.Machine

inductive Res.Sat {α : Type} (P : α → State → Prop) (Q : ErrorKind → State → Prop) (F : Fault → Prop) : Res α → Prop where
  | ok {a : α} {s : State} (h : P a s) : Res.Sat P Q F (.ok a s)
  | raised {e : ErrorKind} {s : State} (h : Q e s) : Res.Sat P Q F (.raised (errorEntry e s))
  | fault {f : Fault} (h : F f) : Res.Sat P Q F (.fault f)

section
variable {α β : Type} {P : α → State → Prop} {Q : ErrorKind → State → Prop} {F : Fault → Prop}

theorem sat_raise {e : ErrorKind} {s : State} (h : Q e s) : Res.Sat P Q F (raise e s : Res α) := .raised h

theorem sat_bind {r : Res α} {f : α → State → Res β} {P : β → State → Prop}
    (h : Res.Sat (fun a s => Res.Sat P Q F (f a s)) Q F r) : Res.Sat P Q F (r.bind f) := by
  cases h with
  | ok h => exact h
  | raised h => exact .raised h
  | fault h => exact .fault h

theorem sat_mono {r : Res α} {P' : α → State → Prop} {Q' : ErrorKind → State → Prop} {F' : Fault → Prop}
    (h : Res.Sat P Q F r) (hP : ∀ a s, P a s → P' a s) (hQ : ∀ e s, Q e s → Q' e s) (hF : ∀ f, F f → F' f) :
    Res.Sat P' Q' F' r := by
  cases h with
  | ok h => exact .ok (hP _ _ h)
  | raised h => exact .raised (hQ _ _ h)
  | fault h => exact .fault (hF _ h)

theorem sat_ok_elim {a : α} {s : State} (h : Res.Sat P Q F (.ok a s)) : P a s := by
  cases h with
  | ok h => exact h

theorem sat_raised_elim {t : State} (h : Res.Sat P Q F (.raised t : Res α)) : ∃ e s, t = errorEntry e s ∧ Q e s := by
  cases h with
  | raised h => exact ⟨_, _, rfl, h⟩

theorem sat_fault_elim {f : Fault} (h : Res.Sat P Q F (.fault f : Res α)) : F f := by
  cases h with
  | fault h => exact h

end

@[simp] theorem bind_ok {α β : Type} (a : α) (s : State) (f : α → State → Res β) : (Res.ok a s).bind f = f a s := rfl

@[simp] theorem bind_raise {α β : Type} (e : ErrorKind) (s : State) (f : α → State → Res β) :
    (raise e s).bind f = raise e s := rfl

@[simp] theorem toOutcome_ok {α : Type} (a : α) (s : State) : (Res.ok a s).toOutcome = .next s := rfl

@[simp] theorem toOutcome_raise {α : Type} (e : ErrorKind) (s : State) :
    (raise e s : Res α).toOutcome = .next (errorEntry e s) := rfl

/-- A sub-operation that ends with a value after sequencing went through both parts. -/
theorem bind_eq_ok {α β : Type} {r : Res α} {f : α → State → Res β} {b : β} {t : State} :
    r.bind f = .ok b t ↔ ∃ a s, r = .ok a s ∧ f a s = .ok b t := by
  cases r with
  | ok a s => exact ⟨fun h => ⟨a, s, rfl, h⟩, fun ⟨_, _, h1, h2⟩ => by cases h1; exact h2⟩
  | raised u => exact ⟨fun h => by simp [Res.bind] at h, fun ⟨_, _, h1, _⟩ => by cases h1⟩
  | fault e => exact ⟨fun h => by simp [Res.bind] at h, fun ⟨_, _, h1, _⟩ => by cases h1⟩

end Sys2Proof.Machine
end

