-- ==== Sys2Proof/Laws/Cursor.lean ====
section
/-! SUPPORT. The bit cursor: where it stands after a move, and everything each of its operations can do. -/

-- One theorem at a time: the package as one text is compiled under a limit of memory.
set_option Elab.async false

namespace Sys2Proof.Machine

/-- The stream's end is a 35-bit number. -/
theorem streamEnd_lt (s : State) : s.streamEnd < 2 ^ 35 := by
  have := s.regs.inLen.isLt
  unfold State.streamEnd
  omega

theorem pos_lt (s : State) : s.pos < 2 ^ 35 := by
  have h1 := s.cur.byteIx.isLt
  have h2 := s.cur.bitIx.isLt
  unfold State.pos
  omega

/-- SetPos(p) sets the position to p. -/
theorem pos_setPos (s : State) {p : Nat} (h : p < 2 ^ 35) : (s.setPos p).pos = p := by
  simp only [State.pos, State.setPos, BitVec.toNat_ofNat]
  rw [Nat.mod_eq_of_lt (by omega), Nat.mod_eq_of_lt (by omega)]
  omega

theorem pos_setPos_end {s t : State} {p : Nat} (h : p ≤ t.streamEnd) : (s.setPos p).pos = p :=
  pos_setPos s (Nat.lt_of_le_of_lt h (streamEnd_lt t))

/-- The cursor is its position. -/
@[simp] theorem setPos_pos (s : State) : s.setPos s.pos = s := by
  have h1 := s.cur.byteIx.isLt
  have h2 := s.cur.bitIx.isLt
  have e1 : (8 * s.cur.byteIx.toNat + s.cur.bitIx.toNat) / 8 = s.cur.byteIx.toNat := by omega
  have e2 : (8 * s.cur.byteIx.toNat + s.cur.bitIx.toNat) % 8 = s.cur.bitIx.toNat := by omega
  simp only [State.setPos, State.pos, e1, e2, BitVec.ofNat_toNat, BitVec.setWidth_eq]

@[simp] theorem setPos_setPos (s : State) (p q : Nat) : (s.setPos p).setPos q = s.setPos q := rfl

theorem checkRead_eq {n : Nat} {s : State} (hf : FitsIn s) (hn : n ≤ 32) (h : s.pos + n ≤ s.streamEnd) :
    checkRead n s = .ok () s := by
  have h1 : ¬ Config.maxReadBits < n := Nat.not_lt.mpr hn
  have h2 : ¬ s.streamEnd < s.pos + n := by omega
  have h3 : ¬ (0 < n ∧ 8 * s.params.inCap < s.pos + n) := by
    unfold FitsIn at hf
    unfold State.streamEnd at h
    omega
  simp only [checkRead, if_neg h1, if_neg h2, if_neg h3]

theorem checkRead_end {n : Nat} {s : State} (hn : n ≤ 32) (h : s.streamEnd < s.pos + n) :
    checkRead n s = raise .outOfData s := by
  have h1 : ¬ Config.maxReadBits < n := Nat.not_lt.mpr hn
  simp only [checkRead, if_neg h1, if_pos h]

theorem checkRead_wide {n : Nat} {s : State} (hn : 32 < n) : checkRead n s = raise .callerError s := by
  have h1 : Config.maxReadBits < n := hn
  simp only [checkRead, if_pos h1]

section
variable {n : Nat} {s : State}

/-! ## A read that has its bits -/

theorem readBitsLSB_eq (hf : FitsIn s) (hn : n ≤ 32) (h : s.pos + n ≤ s.streamEnd) :
    readBitsLSB n s = .ok (BitVec.ofNat 32 (s.lsbValue s.pos n)) (s.setPos (s.pos + n)) := by
  simp only [readBitsLSB, checkRead_eq hf hn h, bind_ok]

theorem readBitsMSB_eq (hf : FitsIn s) (hn : n ≤ 32) (h : s.pos + n ≤ s.streamEnd) :
    readBitsMSB n s = .ok (BitVec.ofNat 32 (s.msbValue s.pos n)) (s.setPos (s.pos + n)) := by
  simp only [readBitsMSB, checkRead_eq hf hn h, bind_ok]

theorem peekBitsMSB_eq (hf : FitsIn s) (hn : n ≤ 32) (h : s.pos + n ≤ s.streamEnd) :
    peekBitsMSB n s = .ok (BitVec.ofNat 32 (s.msbValue s.pos n)) s := by
  simp only [peekBitsMSB, checkRead_eq hf hn h, bind_ok]

theorem readBitMSB_eq (hf : FitsIn s) (h : s.pos + 1 ≤ s.streamEnd) :
    readBitMSB s = .ok (BitVec.ofNat 32 (s.streamBit s.pos).toNat) (s.setPos (s.pos + 1)) := by
  simp only [readBitMSB, checkRead_eq hf (by omega) h, bind_ok]

/-! ## A read that has not -/

theorem readBitsLSB_end (hn : n ≤ 32) (h : s.streamEnd < s.pos + n) : readBitsLSB n s = raise .outOfData s := by
  simp only [readBitsLSB, checkRead_end hn h, bind_raise]

theorem readBitsMSB_end (hn : n ≤ 32) (h : s.streamEnd < s.pos + n) : readBitsMSB n s = raise .outOfData s := by
  simp only [readBitsMSB, checkRead_end hn h, bind_raise]

theorem peekBitsMSB_end (hn : n ≤ 32) (h : s.streamEnd < s.pos + n) : peekBitsMSB n s = raise .outOfData s := by
  simp only [peekBitsMSB, checkRead_end hn h, bind_raise]

/-! ## Everything an operation can do, in a state whose stream fits IN -/

variable {P : Word → State → Prop} {Q : ErrorKind → State → Prop} {F : Fault → Prop}

theorem readBitsLSB_sat (hf : FitsIn s) (hn : n ≤ 32)
    (hP : s.pos + n ≤ s.streamEnd → P (BitVec.ofNat 32 (s.lsbValue s.pos n)) (s.setPos (s.pos + n)))
    (hQ : Q .outOfData s) : Res.Sat P Q F (readBitsLSB n s) := by
  by_cases h : s.pos + n ≤ s.streamEnd
  · rw [readBitsLSB_eq hf hn h]; exact .ok (hP h)
  · rw [readBitsLSB_end hn (by omega)]; exact sat_raise hQ

theorem readBitsMSB_sat (hf : FitsIn s) (hn : n ≤ 32)
    (hP : s.pos + n ≤ s.streamEnd → P (BitVec.ofNat 32 (s.msbValue s.pos n)) (s.setPos (s.pos + n)))
    (hQ : Q .outOfData s) : Res.Sat P Q F (readBitsMSB n s) := by
  by_cases h : s.pos + n ≤ s.streamEnd
  · rw [readBitsMSB_eq hf hn h]; exact .ok (hP h)
  · rw [readBitsMSB_end hn (by omega)]; exact sat_raise hQ

theorem peekBitsMSB_sat (hf : FitsIn s) (hn : n ≤ 32)
    (hP : s.pos + n ≤ s.streamEnd → P (BitVec.ofNat 32 (s.msbValue s.pos n)) s)
    (hQ : Q .outOfData s) : Res.Sat P Q F (peekBitsMSB n s) := by
  by_cases h : s.pos + n ≤ s.streamEnd
  · rw [peekBitsMSB_eq hf hn h]; exact .ok (hP h)
  · rw [peekBitsMSB_end hn (by omega)]; exact sat_raise hQ

theorem skipBits_sat {P : Unit → State → Prop} (hP : s.pos + n ≤ s.streamEnd → P () (s.setPos (s.pos + n)))
    (hQ : Q .outOfData s) : Res.Sat P Q F (skipBits n s) := by
  unfold skipBits
  split
  · exact sat_raise hQ
  · exact .ok (hP (by omega))

end

/-- A value of at most 32 bits is the word's value. -/
theorem lsbWord (s : State) (p : Nat) {n : Nat} (hn : n ≤ 32) :
    (BitVec.ofNat 32 (s.lsbValue p n)).toNat = s.lsbValue p n := by
  have h1 := lsbValue_lt s p n
  have h2 : 2 ^ n ≤ 2 ^ 32 := Nat.pow_le_pow_right (by omega) hn
  simp only [BitVec.toNat_ofNat]
  exact Nat.mod_eq_of_lt (by omega)

theorem msbWord (s : State) (p : Nat) {n : Nat} (hn : n ≤ 32) :
    (BitVec.ofNat 32 (s.msbValue p n)).toNat = s.msbValue p n := by
  have h1 := msbValue_lt s p n
  have h2 : 2 ^ n ≤ 2 ^ 32 := Nat.pow_le_pow_right (by omega) hn
  simp only [BitVec.toNat_ofNat]
  exact Nat.mod_eq_of_lt (by omega)

/-! ## Alignment -/

/-- Where the cursor stands after alignToByte (R166). -/
theorem alignToByte_eq (s : State) : alignToByte s = s.setPos (8 * ((s.pos + 7) / 8)) := by
  have h1 := s.cur.byteIx.isLt
  have h2 := s.cur.bitIx.isLt
  unfold alignToByte
  split
  · rename_i h0
    have : 8 * ((s.pos + 7) / 8) = s.pos := by
      have hb : s.cur.bitIx.toNat = 0 := by rw [h0]; rfl
      unfold State.pos
      omega
    rw [this, setPos_pos]
  · rename_i h0
    have hb : s.cur.bitIx.toNat ≠ 0 := fun hb => h0 (BitVec.eq_of_toNat_eq hb)
    have e1 : 8 * ((s.pos + 7) / 8) / 8 = s.cur.byteIx.toNat + 1 := by unfold State.pos; omega
    have e2 : 8 * ((s.pos + 7) / 8) % 8 = 0 := by omega
    simp only [State.setPos, e1, e2]
    congr 2

/-- A byte-aligned LSB-first value is little-endian (R88). -/
theorem lsbValue_byte (s : State) (a : Nat) : s.lsbValue (8 * a) 8 = (s.byteAt .inMem a).toNat := by
  have key : ∀ i, i < 8 → s.streamBit (8 * a + i) = (s.byteAt .inMem a).getLsbD i := by
    intro i hi
    have e1 : (8 * a + i) / 8 = a := by omega
    have e2 : (8 * a + i) % 8 = i := by omega
    simp only [State.streamBit, e1, e2]
  simp only [State.lsbValue, key _ (show 0 < 8 by omega), key _ (show 1 < 8 by omega), key _ (show 2 < 8 by omega),
    key _ (show 3 < 8 by omega), key _ (show 4 < 8 by omega), key _ (show 5 < 8 by omega), key _ (show 6 < 8 by omega),
    key _ (show 7 < 8 by omega)]
  generalize s.byteAt .inMem a = b
  revert b
  decide +kernel

/-- An LSB-first value of m + n bits. -/
theorem lsbValue_add (s : State) (p m : Nat) : ∀ n, s.lsbValue p (m + n) = s.lsbValue p m + s.lsbValue (p + m) n * 2 ^ m := by
  intro n
  induction n with
  | zero => simp [State.lsbValue]
  | succ n ih =>
    have e : p + (m + n) = p + m + n := by omega
    rw [← Nat.add_assoc]
    simp only [State.lsbValue, ih, e, Nat.add_mul, Nat.pow_add]
    rw [Nat.mul_assoc, Nat.mul_comm (2 ^ n) (2 ^ m), Nat.add_assoc]

/-- R88: two bytes at a byte boundary. -/
theorem lsbValue_bytes2 (s : State) (a : Nat) :
    s.lsbValue (8 * a) 16 = (s.byteAt .inMem a).toNat + 256 * (s.byteAt .inMem (a + 1)).toNat := by
  have e : 8 * a + 8 = 8 * (a + 1) := by omega
  show s.lsbValue (8 * a) (8 + 8) = _
  rw [lsbValue_add, e, lsbValue_byte, lsbValue_byte]
  omega

end Sys2Proof.Machine
end

