-- ==== Sys2Proof/Laws/Decode.lean ====
section
/-! SUPPORT. Decoding a symbol (41_huffman_decoder.md R185): the result in each case, and everything decode can do. -/

-- One theorem at a time: the package as one text is compiled under a limit of memory.
set_option Elab.async false

namespace Sys2Proof.Machine

section
variable {t : HuffTable} {s : State}

/-- One length that does not match. -/
theorem tryLengths_skip (hf : FitsIn s) {k L : Nat} (hL : L ≤ 32) (he : s.pos + L ≤ s.streamEnd)
    (hm : ¬ t.MatchesAt s L) : tryLengths t (k + 1) L s = tryLengths t k (L + 1) s := by
  simp only [tryLengths, peekBitsMSB_eq hf hL he, bind_ok, msbWord s s.pos hL]
  exact if_neg hm

/-- The length that matches. -/
theorem tryLengths_hit (hf : FitsIn s) {k L : Nat} (hL : L ≤ 32) (he : s.pos + L ≤ s.streamEnd)
    (hm : t.MatchesAt s L) {x : BitVec 9} (hx : t.sym[t.placeAt s L]? = some x) :
    tryLengths t (k + 1) L s = .ok (x, BitVec.ofNat 4 L) (s.setPos (s.pos + L)) := by
  have h2 : ¬ s.streamEnd < s.pos + L := by omega
  unfold HuffTable.MatchesAt at hm
  unfold HuffTable.placeAt at hx
  simp only [tryLengths, peekBitsMSB_eq hf hL he, bind_ok, msbWord s s.pos hL, if_pos hm, hx, skipBits, if_neg h2]

theorem tryLengths_end {k L : Nat} (hL : L ≤ 32) (he : s.streamEnd < s.pos + L) :
    tryLengths t (k + 1) L s = raise .outOfData s := by
  simp only [tryLengths, peekBitsMSB_end hL he, bind_raise]

/-- The first matching length decides. -/
theorem tryLengths_first (hf : FitsIn s) {M : Nat} (hM : M ≤ 32) (he : s.pos + M ≤ s.streamEnd) (hm : t.MatchesAt s M)
    {x : BitVec 9} (hx : t.sym[t.placeAt s M]? = some x) :
    ∀ k L, L ≤ M → M < L + k → (∀ j, L ≤ j → j < M → ¬ t.MatchesAt s j) →
      tryLengths t k L s = .ok (x, BitVec.ofNat 4 M) (s.setPos (s.pos + M)) := by
  intro k
  induction k with
  | zero => intro L h1 h2 _; omega
  | succ k ih =>
    intro L h1 h2 h3
    by_cases h : L = M
    · subst h; exact tryLengths_hit hf hM he hm hx
    · rw [tryLengths_skip hf (by omega) (by omega) (h3 L (by omega) (by omega))]
      exact ih (L + 1) (by omega) (by omega) (fun j hj1 hj2 => h3 j (by omega) hj2)

/-- No length matches. -/
theorem tryLengths_none (hf : FitsIn s) : ∀ k L, L + k ≤ 33 → (∀ j, L ≤ j → j < L + k → s.pos + j ≤ s.streamEnd) →
    (∀ j, L ≤ j → j < L + k → ¬ t.MatchesAt s j) → tryLengths t k L s = raise .noMatchingCode s := by
  intro k
  induction k with
  | zero => intro L _ _ _; rfl
  | succ k ih =>
    intro L h1 h2 h3
    rw [tryLengths_skip hf (by omega) (h2 L (by omega) (by omega)) (h3 L (by omega) (by omega))]
    exact ih (L + 1) (by omega) (fun j a b => h2 j (by omega) (by omega)) (fun j a b => h3 j (by omega) (by omega))

/-- The stream ends before any length that matches. -/
theorem tryLengths_short (hf : FitsIn s) {M : Nat} (hM : M ≤ 32) (he : s.streamEnd < s.pos + M) :
    ∀ k L, L ≤ M → M < L + k → (∀ j, L ≤ j → j < M → s.pos + j ≤ s.streamEnd ∧ ¬ t.MatchesAt s j) →
      tryLengths t k L s = raise .outOfData s := by
  intro k
  induction k with
  | zero => intro L h1 h2 _; omega
  | succ k ih =>
    intro L h1 h2 h3
    by_cases h : L = M
    · subst h; exact tryLengths_end hM he
    · have := h3 L (by omega) (by omega)
      rw [tryLengths_skip hf (by omega) this.1 this.2]
      exact ih (L + 1) (by omega) (by omega) (fun j a b => h3 j (by omega) b)

/-- decode answers the first matching length's symbol. -/
theorem decodeSymbol_eq (hf : FitsIn s) (hu : t.used ≠ 0) {M : Nat} (h1 : t.minLen.toNat ≤ M) (h2 : M ≤ t.maxLen.toNat)
    (he : s.pos + M ≤ s.streamEnd) (hm : t.MatchesAt s M) (hs : ∀ j, t.minLen.toNat ≤ j → j < M → ¬ t.MatchesAt s j)
    {x : BitVec 9} (hx : t.sym[t.placeAt s M]? = some x) :
    decodeSymbol t s = .ok (x, BitVec.ofNat 4 M) (s.setPos (s.pos + M)) := by
  have := t.maxLen.isLt
  simp only [decodeSymbol, if_neg hu]
  exact tryLengths_first hf (by omega) he hm hx _ _ h1 (by omega) hs

theorem decodeSymbol_empty (hu : t.used = 0) : decodeSymbol t s = raise .noMatchingCode s := by
  simp only [decodeSymbol, if_pos hu]

theorem decodeSymbol_none (hf : FitsIn s) (he : s.pos + t.maxLen.toNat ≤ s.streamEnd)
    (hs : ∀ j, t.minLen.toNat ≤ j → j ≤ t.maxLen.toNat → ¬ t.MatchesAt s j) :
    decodeSymbol t s = raise .noMatchingCode s := by
  have := t.maxLen.isLt
  by_cases hu : t.used = 0
  · exact decodeSymbol_empty hu
  · simp only [decodeSymbol, if_neg hu]
    by_cases h : t.minLen.toNat ≤ t.maxLen.toNat
    · exact tryLengths_none hf _ _ (by omega) (fun j a b => by omega) (fun j a b => hs j a (by omega))
    · have : t.maxLen.toNat + 1 - t.minLen.toNat = 0 := by omega
      rw [this]; rfl

theorem decodeSymbol_short (hf : FitsIn s) (hu : t.used ≠ 0) {M : Nat} (h1 : t.minLen.toNat ≤ M)
    (h2 : M ≤ t.maxLen.toNat) (he : s.streamEnd < s.pos + M)
    (hs : ∀ j, t.minLen.toNat ≤ j → j < M → s.pos + j ≤ s.streamEnd ∧ ¬ t.MatchesAt s j) :
    decodeSymbol t s = raise .outOfData s := by
  have := t.maxLen.isLt
  simp only [decodeSymbol, if_neg hu]
  exact tryLengths_short hf (by omega) he _ _ h1 (by omega) hs

/-! The three cases by their names in Safety.lean. -/

theorem HuffTable.FirstMatch.decode {L : Nat} {x : BitVec 9} (h : t.FirstMatch s L x) (hf : FitsIn s) :
    decodeSymbol t s = .ok (x, BitVec.ofNat 4 L) (s.setPos (s.pos + L)) :=
  decodeSymbol_eq hf h.used h.range.1 h.range.2 h.fits h.matchesAt (fun j a b => h.first j b a) h.symbol

theorem HuffTable.FailsAt.decode (h : t.FailsAt s) (hf : FitsIn s) : decodeSymbol t s = raise .noMatchingCode s := by
  rcases h with h | h
  · exact decodeSymbol_empty h
  · exact decodeSymbol_none hf h.1 (fun j a b => h.2 j b a)

theorem HuffTable.EndsAt.decode {L : Nat} (h : t.EndsAt s L) (hf : FitsIn s) : decodeSymbol t s = raise .outOfData s :=
  decodeSymbol_short hf h.used h.range.1 h.range.2 h.ends (fun j a b => h.before j b a)

/-- A code of length 0 never matches. -/
theorem not_matchesAt_zero : ¬ t.MatchesAt s 0 := by
  simp [HuffTable.MatchesAt, atLength]

/-- In a well-formed table a matching code has a place in T.sym. -/
theorem place_lt {n : Nat} (hw : t.Wf n) {L : Nat} (hL : L ≤ 15) (hm : t.MatchesAt s L) : t.placeAt s L < t.sym.length := by
  rw [hw.symLength]
  cases L with
  | zero => exact absurd hm not_matchesAt_zero
  | succ k =>
    have := hw.places k (by omega)
    unfold HuffTable.MatchesAt at hm
    unfold HuffTable.placeAt
    simp only [atLength] at hm ⊢
    omega

/-- What a successful decode answers: the symbol of the first matching length, and the cursor moved by that length. -/
structure Decoded (t : HuffTable) (s : State) (r : BitVec 9 × BitVec 4) (s' : State) : Prop where
  lenPos : 1 ≤ r.2.toNat
  lenMin : t.minLen.toNat ≤ r.2.toNat
  lenMax : r.2.toNat ≤ t.maxLen.toNat
  fits : s.pos + r.2.toNat ≤ s.streamEnd
  hit : t.MatchesAt s r.2.toNat
  shorter : ∀ j, t.minLen.toNat ≤ j → j < r.2.toNat → ¬ t.MatchesAt s j
  symbol : t.sym[t.placeAt s r.2.toNat]? = some r.1
  next : s' = s.setPos (s.pos + r.2.toNat)

variable {P : BitVec 9 × BitVec 4 → State → Prop} {Q : ErrorKind → State → Prop} {F : Fault → Prop}

theorem tryLengths_sat {n : Nat} (hw : t.Wf n) (hf : FitsIn s) (hP : ∀ r s', Decoded t s r s' → P r s')
    (hQ1 : Q .noMatchingCode s) (hQ2 : Q .outOfData s) :
    ∀ k L, t.minLen.toNat ≤ L → L + k = t.maxLen.toNat + 1 ∨ k = 0 →
      (∀ j, t.minLen.toNat ≤ j → j < L → ¬ t.MatchesAt s j) → Res.Sat P Q F (tryLengths t k L s) := by
  have hmax := t.maxLen.isLt
  intro k
  induction k with
  | zero => intro L _ _ _; exact sat_raise hQ1
  | succ k ih =>
    intro L h1 h2 h3
    have hL : L ≤ 15 := by omega
    by_cases he : s.pos + L ≤ s.streamEnd
    · by_cases hm : t.MatchesAt s L
      · have hp := place_lt hw hL hm
        rw [tryLengths_hit hf (by omega) he hm (List.getElem?_eq_getElem hp)]
        have e : (BitVec.ofNat 4 L).toNat = L := by simp only [BitVec.toNat_ofNat]; omega
        have h0 : L ≠ 0 := fun h0 => by subst h0; exact not_matchesAt_zero hm
        exact .ok (hP _ _ ⟨by simp only [e]; omega, by simp only [e]; omega, by simp only [e]; omega, by simp only [e]; omega,
          by simp only [e]; exact hm, by simp only [e]; exact h3, by simp only [e]; exact List.getElem?_eq_getElem hp,
          by simp only [e]⟩)
      · rw [tryLengths_skip hf (by omega) he hm]
        refine ih (L + 1) (by omega) (by omega) ?_
        intro j a b
        by_cases hj : j = L
        · subst hj; exact hm
        · exact h3 j a (by omega)
    · rw [tryLengths_end (by omega) (by omega)]
      exact sat_raise hQ2

/-- Everything decode can do with a well-formed table. -/
theorem decodeSymbol_sat {n : Nat} (hw : t.Wf n) (hf : FitsIn s) (hP : ∀ r s', Decoded t s r s' → P r s')
    (hQ1 : Q .noMatchingCode s) (hQ2 : Q .outOfData s) : Res.Sat P Q F (decodeSymbol t s) := by
  unfold decodeSymbol
  split
  · exact sat_raise hQ1
  · refine tryLengths_sat hw hf hP hQ1 hQ2 _ _ (Nat.le_refl _) (by omega) ?_
    intro j a b
    omega

end

theorem Decoded.symbol_mem {t : HuffTable} {s s' : State} {r : BitVec 9 × BitVec 4} (h : Decoded t s r s') : r.1 ∈ t.sym :=
  List.mem_of_getElem? h.symbol

end Sys2Proof.Machine
end

