-- ==== Sys2Proof/Laws/Build.lean ====
section
/-! SUPPORT. Table construction (41_huffman_decoder.md R180 to R182): the counts, the first codes, the offsets and the
sorted symbols of a built table, and that it is well-formed where the Kraft check passes. -/

-- One theorem at a time: the package as one text is compiled under a limit of memory.
set_option Elab.async false

namespace Sys2Proof.Machine

/-! ## Counts -/

@[simp] theorem countsOf_length (lens : List (BitVec 4)) : (countsOf lens).length = 15 := by
  simp [countsOf, codeLengths]

theorem countsOf_getD (lens : List (BitVec 4)) {k : Nat} (h : k < 15) :
    (countsOf lens).getD k 0 = countOf lens (k + 1) := by
  have h' : k < codeLengths.length := by simp [codeLengths]; omega
  simp only [countsOf, List.getD_eq_getElem?_getD, List.getElem?_map, List.getElem?_eq_getElem h', Option.map_some,
    Option.getD_some]
  congr 1
  simp [codeLengths]
  omega

/-- The first k of a list of numbers, added up. -/
def sumTo (cs : List Nat) (k : Nat) : Nat := (cs.take k).sum

@[simp] theorem sumTo_zero (cs : List Nat) : sumTo cs 0 = 0 := by simp [sumTo]

theorem sumTo_cons (c : Nat) (cs : List Nat) (k : Nat) : sumTo (c :: cs) (k + 1) = c + sumTo cs k := by
  simp [sumTo]

theorem sumTo_succ (cs : List Nat) : ∀ k, sumTo cs (k + 1) = sumTo cs k + cs.getD k 0 := by
  induction cs with
  | nil => intro k; simp [sumTo]
  | cons c cs ih =>
    intro k
    cases k with
    | zero => simp [sumTo]
    | succ k => rw [sumTo_cons, sumTo_cons, ih]; simp; omega

theorem sumTo_le_sum (cs : List Nat) (k : Nat) : sumTo cs k ≤ cs.sum := by
  induction cs generalizing k with
  | nil => simp [sumTo]
  | cons c cs ih =>
    cases k with
    | zero => simp
    | succ k => rw [sumTo_cons, List.sum_cons]; have := ih k; omega

/-- Σ of c_j * 2^(14 − j), the Kraft sum of counts that begin at length 1. -/
def kraftTo (cs : List Nat) : Nat → Nat
  | 0 => 0
  | k + 1 => kraftTo cs k + cs.getD k 0 * 2 ^ (14 - k)

theorem kraftTo_mono (cs : List Nat) {j k : Nat} (h : j ≤ k) : kraftTo cs j ≤ kraftTo cs k := by
  induction h with
  | refl => exact Nat.le_refl _
  | step _ ih => exact Nat.le_trans ih (Nat.le_add_right _ _)

theorem countOf_cons (l : BitVec 4) (ls : List (BitVec 4)) (L : Nat) :
    countOf (l :: ls) L = countOf ls L + (if l.toNat = L then 1 else 0) := by
  simp [countOf, List.countP_cons]

/-- The two ways of writing the Kraft sum agree. -/
theorem kraftTo_counts (lens : List (BitVec 4)) : kraftTo (countsOf lens) 15 = kraftSum lens := by
  have key : ∀ k, k ≤ 15 → kraftTo (countsOf lens) k =
      lens.foldr (fun l a => (if l.toNat = 0 then 0 else if l.toNat ≤ k then 2 ^ (15 - l.toNat) else 0) + a) 0 := by
    intro k hk
    induction k with
    | zero =>
      show 0 = _
      clear hk
      induction lens with
      | nil => rfl
      | cons l ls ih =>
        simp only [List.foldr_cons, ← ih]
        split
        · rfl
        · split
          · omega
          · rfl
    | succ k ih =>
      simp only [kraftTo, ih (by omega), countsOf_getD lens (show k < 15 by omega)]
      clear ih
      induction lens with
      | nil => simp [countOf]
      | cons l ls ih =>
        simp only [List.foldr_cons, ← ih, countOf_cons, Nat.add_mul]
        have e : 14 - k = 15 - (k + 1) := by omega
        by_cases h1 : l.toNat = 0
        · rw [if_pos h1, if_pos h1, if_neg (by omega)]; omega
        · rw [if_neg h1, if_neg h1]
          by_cases h2 : l.toNat = k + 1
          · rw [if_neg (by omega), if_pos h2, if_pos (by omega), h2, e]; omega
          · rw [if_neg h2]
            by_cases h3 : l.toNat ≤ k
            · rw [if_pos h3, if_pos (by omega)]; omega
            · rw [if_neg h3, if_neg (by omega)]; omega
  rw [key 15 (by omega)]
  clear key
  induction lens with
  | nil => rfl
  | cons l ls ih =>
    simp only [List.foldr_cons, ih, kraftSum]
    congr 1
    have := l.isLt
    by_cases h : l = 0
    · rw [if_pos h, if_pos (by rw [h]; rfl)]
    · have h0 : l.toNat ≠ 0 := fun h0 => h (BitVec.eq_of_toNat_eq h0)
      rw [if_neg h, if_neg h0, if_pos (by omega)]

/-- No more codes than symbols. -/
theorem sum_countsOf_le (lens : List (BitVec 4)) : (countsOf lens).sum ≤ lens.length := by
  have key : ∀ k, k ≤ 15 → sumTo (countsOf lens) k ≤ lens.countP (fun l => decide (1 ≤ l.toNat ∧ l.toNat ≤ k)) := by
    intro k hk
    induction k with
    | zero => simp
    | succ k ih =>
      rw [sumTo_succ, countsOf_getD lens (by omega)]
      have := ih (by omega)
      have e : lens.countP (fun l => decide (1 ≤ l.toNat ∧ l.toNat ≤ k + 1)) =
          lens.countP (fun l => decide (1 ≤ l.toNat ∧ l.toNat ≤ k)) + countOf lens (k + 1) := by
        clear this ih
        induction lens with
        | nil => rfl
        | cons l ls ih =>
          simp only [List.countP_cons, ih, countOf_cons, decide_eq_true_eq]
          by_cases h1 : l.toNat = k + 1
          · rw [if_pos (by omega), if_pos h1, if_neg (by omega)]; omega
          · rw [if_neg h1]
            by_cases h2 : 1 ≤ l.toNat ∧ l.toNat ≤ k
            · rw [if_pos h2, if_pos (by omega)]; omega
            · rw [if_neg h2, if_neg (by omega)]; omega
      omega
  have h1 := key 15 (Nat.le_refl _)
  have h2 : sumTo (countsOf lens) 15 = (countsOf lens).sum := by
    rw [sumTo, List.take_of_length_le (by simp)]
  have h3 := List.countP_le_length (p := fun l : BitVec 4 => decide (1 ≤ l.toNat ∧ l.toNat ≤ 15)) (l := lens)
  omega

/-! ## First codes -/

@[simp] theorem firstsFrom_length (cs : List Nat) : ∀ code, (firstsFrom code cs).length = cs.length := by
  induction cs with
  | nil => intro _; rfl
  | cons c cs ih => intro code; simp [firstsFrom, ih]

theorem firstsFrom_zero (code c : Nat) (cs : List Nat) : (firstsFrom code (c :: cs)).getD 0 0 = code := rfl

/-- `code <- (code + count[L−1]) << 1` (R182). -/
theorem firstsFrom_succ (cs : List Nat) : ∀ code k, k + 1 < cs.length →
    (firstsFrom code cs).getD (k + 1) 0 = 2 * ((firstsFrom code cs).getD k 0 + cs.getD k 0) := by
  induction cs with
  | nil => intro _ k h; simp at h
  | cons c cs ih =>
    intro code k h
    simp only [List.length_cons] at h
    cases k with
    | zero =>
      cases cs with
      | nil => simp at h
      | cons d ds => simp [firstsFrom]
    | succ k =>
      simp only [firstsFrom, List.getD_cons_succ]
      exact ih _ k (by omega)

/-- A first code is its Kraft partial sum. -/
theorem first_kraft (cs : List Nat) (hl : cs.length = 15) : ∀ k, k < 15 →
    (firstsFrom 0 cs).getD k 0 * 2 ^ (14 - k) = kraftTo cs k := by
  intro k
  induction k with
  | zero =>
    intro _
    cases cs with
    | nil => simp at hl
    | cons c cs => simp [firstsFrom, kraftTo]
  | succ k ih =>
    intro h
    rw [firstsFrom_succ cs 0 k (by omega), kraftTo, ← ih (by omega)]
    have e : 2 ^ (14 - k) = 2 * 2 ^ (14 - (k + 1)) := by
      rw [← Nat.pow_succ']
      congr 1
      omega
    rw [e, Nat.mul_comm 2 (_ + _), Nat.mul_assoc, ← Nat.add_mul]

/-- first + count ≤ 2^L where the Kraft check passes. -/
theorem first_add_count_le (cs : List Nat) (hl : cs.length = 15) (hk : kraftTo cs 15 ≤ 2 ^ 15) {k : Nat} (h : k < 15) :
    (firstsFrom 0 cs).getD k 0 + cs.getD k 0 ≤ 2 ^ (k + 1) := by
  have h1 := first_kraft cs hl k h
  have h2 := kraftTo_mono cs (show k + 1 ≤ 15 by omega)
  rw [kraftTo, ← h1, ← Nat.add_mul] at h2
  have e : 2 ^ 15 = 2 ^ (k + 1) * 2 ^ (14 - k) := by
    rw [← Nat.pow_add]
    congr 1
    omega
  exact Nat.le_of_mul_le_mul_right (by omega) (Nat.pow_pos (n := 14 - k) (show 0 < 2 by omega))

/-- Between two lengths the first code grows past every shorter code. -/
theorem first_step (cs : List Nat) (code : Nat) {j : Nat} : ∀ d, j + 1 + d < cs.length →
    ((firstsFrom code cs).getD j 0 + cs.getD j 0) * 2 ^ (d + 1) ≤ (firstsFrom code cs).getD (j + 1 + d) 0 := by
  intro d
  induction d with
  | zero => intro h; rw [Nat.add_zero, firstsFrom_succ cs code j (by omega)]; omega
  | succ d ih =>
    intro h
    have h1 := ih (by omega)
    have h2 := firstsFrom_succ cs code (j + 1 + d) (by omega)
    rw [← Nat.add_assoc, h2, Nat.pow_succ, ← Nat.mul_assoc]
    omega

/-! ## Offsets -/

@[simp] theorem offsetsFrom_length (cs : List Nat) : ∀ idx, (offsetsFrom idx cs).length = cs.length := by
  induction cs with
  | nil => intro _; rfl
  | cons c cs ih => intro idx; simp [offsetsFrom, ih]

theorem offsetsFrom_getD (cs : List Nat) : ∀ idx k, k < cs.length → (offsetsFrom idx cs).getD k 0 = idx + sumTo cs k := by
  induction cs with
  | nil => intro _ k h; simp at h
  | cons c cs ih =>
    intro idx k h
    cases k with
    | zero => simp [offsetsFrom]
    | succ k =>
      simp only [List.length_cons] at h
      simp only [offsetsFrom, List.getD_cons_succ, sumTo_cons]
      rw [ih _ k (by omega)]
      omega

/-! ## Symbols -/

@[simp] theorem symbolsOfLength_length (L : Nat) (lens : List (BitVec 4)) : ∀ s,
    (symbolsOfLength L s lens).length = countOf lens L := by
  induction lens with
  | nil => intro _; rfl
  | cons l ls ih =>
    intro s
    simp only [symbolsOfLength, countOf_cons]
    split <;> simp [ih]

/-- The symbols of a length are those whose length it is. -/
theorem mem_symbolsOfLength (L : Nat) (lens : List (BitVec 4)) : ∀ s x,
    x ∈ symbolsOfLength L s lens ↔ s ≤ x ∧ x < s + lens.length ∧ (lens.getD (x - s) 0).toNat = L := by
  induction lens with
  | nil => intro s x; simp [symbolsOfLength]; omega
  | cons l ls ih =>
    intro s x
    have hsucc : s < x → (l :: ls).getD (x - s) 0 = ls.getD (x - (s + 1)) 0 := by
      intro h
      have : x - s = (x - (s + 1)) + 1 := by omega
      rw [this, List.getD_cons_succ]
    have hzero : x = s → (l :: ls).getD (x - s) 0 = l := by
      intro h
      rw [h, Nat.sub_self]
      rfl
    simp only [symbolsOfLength, List.length_cons]
    by_cases hl : l.toNat = L
    · rw [if_pos hl, List.mem_cons, ih]
      constructor
      · rintro (h | ⟨h1, h2, h3⟩)
        · rw [hzero h]; exact ⟨by omega, by omega, hl⟩
        · rw [hsucc (by omega)]; exact ⟨by omega, by omega, h3⟩
      · rintro ⟨h1, h2, h3⟩
        by_cases hx : x = s
        · exact .inl hx
        · rw [hsucc (by omega)] at h3; exact .inr ⟨by omega, by omega, h3⟩
    · rw [if_neg hl, ih]
      constructor
      · rintro ⟨h1, h2, h3⟩
        rw [hsucc (by omega)]; exact ⟨by omega, by omega, h3⟩
      · rintro ⟨h1, h2, h3⟩
        by_cases hx : x = s
        · rw [hzero hx] at h3; exact absurd h3 hl
        · rw [hsucc (by omega)] at h3; exact ⟨by omega, by omega, h3⟩

/-- The symbols of a length stand in ascending order. -/
theorem symbolsOfLength_sorted (L : Nat) (lens : List (BitVec 4)) : ∀ s,
    (symbolsOfLength L s lens).Pairwise (· < ·) := by
  induction lens with
  | nil => intro _; exact .nil
  | cons l ls ih =>
    intro s
    simp only [symbolsOfLength]
    split
    · refine .cons ?_ (ih (s + 1))
      intro x hx
      have := (mem_symbolsOfLength L ls (s + 1) x).mp hx
      omega
    · exact ih (s + 1)

/-- A place in a concatenation. -/
theorem flatMap_place {α : Type} (f : α → List Nat) (xs : List α) : ∀ k i (hk : k < xs.length), i < (f xs[k]).length →
    (xs.flatMap f)[sumTo (xs.map (fun x => (f x).length)) k + i]? = (f xs[k])[i]? := by
  induction xs with
  | nil => intro k i hk; simp at hk
  | cons x xs ih =>
    intro k i hk hi
    cases k with
    | zero =>
      simp only [List.getElem_cons_zero] at hi
      simp [List.getElem?_append_left hi]
    | succ k =>
      simp only [List.getElem_cons_succ] at hi ⊢
      rw [List.flatMap_cons, List.map_cons, sumTo_cons, List.getElem?_append_right (by omega)]
      have e : (f x).length + sumTo (xs.map (fun x => (f x).length)) k + i - (f x).length =
          sumTo (xs.map (fun x => (f x).length)) k + i := by omega
      rw [e]
      exact ih k i (by simpa using hk) hi

theorem sortedSymbols_length (lens : List (BitVec 4)) : (sortedSymbols lens).length = (countsOf lens).sum := by
  simp [sortedSymbols, countsOf, List.length_flatMap]

/-- The i-th symbol of length L stands at offset[L] + i. -/
theorem sortedSymbols_place (lens : List (BitVec 4)) {k i : Nat} (hk : k < 15) (hi : i < countOf lens (k + 1)) :
    (sortedSymbols lens)[sumTo (countsOf lens) k + i]? = (symbolsOfLength (k + 1) 0 lens)[i]? := by
  have hk' : k < codeLengths.length := by simp [codeLengths]; omega
  have e : codeLengths[k] = k + 1 := by simp [codeLengths]; omega
  have h := flatMap_place (fun L => symbolsOfLength L 0 lens) codeLengths k i hk' (by rw [e]; simpa using hi)
  simp only [symbolsOfLength_length, e] at h
  exact h

/-- Every sorted symbol is a symbol of the alphabet with a length. -/
theorem mem_sortedSymbols (lens : List (BitVec 4)) (x : Nat) :
    x ∈ sortedSymbols lens ↔ x < lens.length ∧ 1 ≤ (lens.getD x 0).toNat := by
  simp only [sortedSymbols, List.mem_flatMap, mem_symbolsOfLength, codeLengths, List.mem_range'_1]
  constructor
  · rintro ⟨L, h1, h2, h3, h4⟩
    simp only [Nat.sub_zero] at h4
    omega
  · rintro ⟨h1, h2⟩
    have := (lens.getD x 0).isLt
    exact ⟨(lens.getD x 0).toNat, by omega, by omega, by omega, by simp⟩

/-! ## The built table -/

theorem getD_map_ofNat {w : Nat} (xs : List Nat) (k : Nat) :
    ((xs.map (BitVec.ofNat w)).getD k 0).toNat = xs.getD k 0 % 2 ^ w := by
  rw [List.getD_eq_getElem?_getD, List.getD_eq_getElem?_getD, List.getElem?_map]
  cases xs[k]? <;> simp

section
variable {old : HuffTable} {lens : List (BitVec 4)} {n : Nat}

theorem build_count (hl : lens.length ≤ 320) {k : Nat} (hk : k < 15) :
    ((buildTable old lens).count.getD k 0).toNat = countOf lens (k + 1) := by
  simp only [buildTable, getD_map_ofNat, countsOf_getD lens hk]
  have h1 := sum_countsOf_le lens
  have h2 := sumTo_le_sum (countsOf lens) (k + 1)
  rw [sumTo_succ, countsOf_getD lens hk] at h2
  exact Nat.mod_eq_of_lt (by omega)

theorem build_offset (hl : lens.length ≤ 320) {k : Nat} (hk : k < 15) :
    ((buildTable old lens).offset.getD k 0).toNat = sumTo (countsOf lens) k := by
  simp only [buildTable, getD_map_ofNat]
  rw [offsetsFrom_getD _ _ _ (by simpa using hk), Nat.zero_add]
  have h1 := sum_countsOf_le lens
  have h2 := sumTo_le_sum (countsOf lens) k
  exact Nat.mod_eq_of_lt (by omega)

theorem build_first (hK : kraftSum lens ≤ 2 ^ 15) {k : Nat} (hk : k < 15) :
    ((buildTable old lens).first.getD k 0).toNat = (firstsFrom 0 (countsOf lens)).getD k 0 := by
  simp only [buildTable, getD_map_ofNat]
  have h1 := first_add_count_le (countsOf lens) (by simp) (by rw [kraftTo_counts]; exact hK) hk
  have h2 : 2 ^ (k + 1) ≤ 2 ^ 15 := Nat.pow_le_pow_right (by omega) (by omega)
  exact Nat.mod_eq_of_lt (by omega)

theorem build_used (hl : lens.length ≤ 320) : (buildTable old lens).used.toNat = (countsOf lens).sum := by
  have h1 := sum_countsOf_le lens
  simp only [buildTable, BitVec.toNat_ofNat]
  exact Nat.mod_eq_of_lt (by omega)

/-- The places below `used` hold the sorted symbols. -/
theorem build_sym_lt {i : Nat} (hi : i < (countsOf lens).sum) :
    (buildTable old lens).sym[i]? = (sortedSymbols lens)[i]?.map (BitVec.ofNat 9) := by
  simp only [buildTable]
  rw [List.getElem?_append_left (by simpa [sortedSymbols_length] using hi), List.getElem?_map]

/-- The places from `used` on keep what they held. -/
theorem build_sym_ge {i : Nat} (hi : (countsOf lens).sum ≤ i) : (buildTable old lens).sym[i]? = old.sym[i]? := by
  simp only [buildTable]
  rw [List.getElem?_append_right (by simpa [sortedSymbols_length] using hi)]
  simp only [List.length_map, sortedSymbols_length, List.getElem?_drop, Nat.add_sub_cancel' hi]

end

/-- A list of counts seen as numbers. -/
theorem countsKraft_kraftTo (cs : List (BitVec 9)) (hl : cs.length = 15) :
    countsKraft 1 cs = kraftTo (cs.map BitVec.toNat) 15 := by
  have key : ∀ k, k ≤ 15 → countsKraft 1 cs = kraftTo (cs.map BitVec.toNat) k + countsKraft (k + 1) (cs.drop k) := by
    intro k
    induction k with
    | zero => intro _; simp [kraftTo]
    | succ k ih =>
      intro hk
      have hk' : k < cs.length := by omega
      rw [ih (by omega), List.drop_eq_getElem_cons hk', countsKraft, kraftTo, ← Nat.add_assoc]
      have e1 : (cs.map BitVec.toNat).getD k 0 = cs[k].toNat := by
        rw [List.getD_eq_getElem?_getD, List.getElem?_map, List.getElem?_eq_getElem hk']
        rfl
      have e2 : 15 - (k + 1) = 14 - k := by omega
      rw [e1, e2]
  rw [key 15 (Nat.le_refl _), List.drop_of_length_le (by omega)]
  rfl

/-- A built table is well-formed where the Kraft check passes. -/
theorem buildTable_wf {old : HuffTable} {lens : List (BitVec 4)} {n : Nat} (hn : n ≤ 320) (hlen : lens.length = n)
    (ho : old.Wf n) (hK : kraftSum lens ≤ 2 ^ 15) : (buildTable old lens).Wf n := by
  have hsum := sum_countsOf_le lens
  refine ⟨?_, ?_, ?_, ?_, ?_, ?_, ?_⟩
  · simp [buildTable]
  · simp [buildTable]
  · simp [buildTable]
  · simp only [buildTable, List.length_append, List.length_map, List.length_drop, sortedSymbols_length, ho.symLength]
    omega
  · have hm : ((buildTable old lens).count.map BitVec.toNat) = countsOf lens := by
      apply List.ext_getElem?
      intro k
      by_cases hk : k < 15
      · have h := build_count (old := old) (lens := lens) (by omega) hk
        have hl1 : k < (buildTable old lens).count.length := by simp [buildTable]; omega
        have hl2 : k < (countsOf lens).length := by simp; omega
        rw [List.getElem?_map, List.getElem?_eq_getElem hl1, List.getElem?_eq_getElem hl2]
        rw [List.getD_eq_getElem?_getD, List.getElem?_eq_getElem hl1, Option.getD_some, ← countsOf_getD lens hk,
          List.getD_eq_getElem?_getD, List.getElem?_eq_getElem hl2, Option.getD_some] at h
        simp [h]
      · rw [List.getElem?_eq_none (by simp [buildTable]; omega), List.getElem?_eq_none (by simp; omega)]
    rw [countsKraft_kraftTo _ (by simp [buildTable]), hm, kraftTo_counts]
    exact hK
  · intro k hk
    rw [build_offset (by omega) hk, build_count (by omega) hk, ← countsOf_getD lens hk, ← sumTo_succ]
    have := sumTo_le_sum (countsOf lens) (k + 1)
    omega
  · intro x hx
    simp only [buildTable, List.mem_append, List.mem_map] at hx
    rcases hx with ⟨y, hy, rfl⟩ | hx
    · have := (mem_sortedSymbols lens y).mp hy
      simp only [BitVec.toNat_ofNat]
      have := Nat.mod_le y (2 ^ 9)
      omega
    · exact ho.symbols x (List.mem_of_mem_drop hx)

/-- The empty table is well-formed. -/
theorem empty_wf {n : Nat} (hn : 0 < n) : (HuffTable.empty n).Wf n := by
  refine ⟨rfl, rfl, rfl, by simp [HuffTable.empty], by simp [HuffTable.empty, countsKraft], ?_, ?_⟩
  · intro L hL
    have e : (List.replicate 15 (0 : BitVec 9)).getD L 0 = 0 := by
      rw [List.getD_eq_getElem?_getD, List.getElem?_replicate]
      split <;> rfl
    simp only [HuffTable.empty, e]
    exact Nat.zero_le _
  · intro x hx
    simp only [HuffTable.empty] at hx
    rw [List.eq_of_mem_replicate hx]
    simpa using hn

theorem fLL_wf : fLL.Wf 288 := by
  refine ⟨rfl, rfl, rfl, by decide +kernel, by decide +kernel, by decide +kernel, by decide +kernel⟩

theorem fD_wf : fD.Wf 32 := by
  refine ⟨rfl, rfl, rfl, by decide +kernel, by decide +kernel, by decide +kernel, by decide +kernel⟩

/-- Everything buildFromLengths can do. -/
theorem buildFromLengths_sat {k : Slot} {lens : List (BitVec 4)} {s : State} {P : Unit → State → Prop}
    {Q : ErrorKind → State → Prop} {F : Fault → Prop}
    (hP : kraftSum lens ≤ 2 ^ 15 → P () (s.setTable k (buildTable (s.tabs.get k) lens)))
    (hQ : Q .invalidCodeLengths s) : Res.Sat P Q F (buildFromLengths k lens s) := by
  unfold buildFromLengths
  split
  · exact sat_raise hQ
  · exact .ok (hP (by omega))

@[simp] theorem lengthVector_length (n : Nat) (lens : List (BitVec 4)) : (lengthVector n lens).length = n := by
  simp [lengthVector]

end Sys2Proof.Machine
end

