-- ==== Sys2Proof/Laws/Canonical.lean ====
section
/-! SUPPORT. Canonical codes (41_huffman_decoder.md R182, R186): in a built table at most one length matches, and the
code of a symbol decodes to that symbol. -/

-- One theorem at a time: the package as one text is compiled under a limit of memory.
set_option Elab.async false

namespace Sys2Proof.Machine

/-! ## Values of bit strings -/

/-- An MSB-first value of m + n bits. -/
theorem msbValue_add (s : State) (p m : Nat) : ∀ n, s.msbValue p (m + n) = s.msbValue p m * 2 ^ n + s.msbValue (p + m) n := by
  intro n
  induction n with
  | zero => simp [State.msbValue]
  | succ n ih =>
    have e : p + (m + n) = p + m + n := by omega
    rw [← Nat.add_assoc]
    simp only [State.msbValue, ih, e, Nat.pow_succ, Nat.mul_add]
    rw [← Nat.mul_assoc, Nat.mul_comm 2 (s.msbValue p m), Nat.mul_assoc, Nat.mul_comm 2 (2 ^ n)]
    omega

theorem codeBits_getD (n v : Nat) {i : Nat} (h : i < n) : (codeBits n v).getD i false = v.testBit (n - 1 - i) := by
  rw [List.getD_eq_getElem?_getD, codeBits, List.getElem?_map, List.getElem?_range h]
  rfl

@[simp] theorem codeBits_length (n v : Nat) : (codeBits n v).length = n := by simp [codeBits]

theorem lsbBits_getD (n v : Nat) {i : Nat} (h : i < n) : (lsbBits n v).getD i false = v.testBit i := by
  rw [List.getD_eq_getElem?_getD, lsbBits, List.getElem?_map, List.getElem?_range h]
  rfl

@[simp] theorem lsbBits_length (n v : Nat) : (lsbBits n v).length = n := by simp [lsbBits]

/-- The top bit of a number and the rest. -/
theorem toNat_testBit_add (v n : Nat) : v % 2 ^ (n + 1) = (v.testBit n).toNat * 2 ^ n + v % 2 ^ n := by
  have h1 : (v.testBit n).toNat = v / 2 ^ n % 2 := by
    rw [Nat.testBit_eq_decide_div_mod_eq]
    rcases Nat.mod_two_eq_zero_or_one (v / 2 ^ n) with h | h <;> simp [h]
  rw [Nat.pow_succ, Nat.mod_mul, h1, Nat.mul_comm (2 ^ n)]
  omega

/-- The stream holds the MSB-first string of a value. -/
theorem msbValue_codeBits (s : State) (p v : Nat) : ∀ n, (∀ i, i < n → s.streamBit (p + i) = v.testBit (n - 1 - i)) →
    s.msbValue p n = v % 2 ^ n := by
  intro n
  induction n generalizing p with
  | zero => intro _; simp [State.msbValue, Nat.mod_one]
  | succ n ih =>
    intro h
    have h0 := h 0 (by omega)
    have e : n + 1 = 1 + n := by omega
    rw [e, msbValue_add, ih (p + 1) (fun i hi => ?_)]
    · rw [← e, toNat_testBit_add]
      simp only [State.msbValue, Nat.add_zero, Nat.add_sub_cancel, Nat.sub_zero] at h0 ⊢
      rw [h0, Nat.mul_zero, Nat.zero_add]
    · have := h (i + 1) (by omega)
      have e2 : p + (i + 1) = p + 1 + i := by omega
      have e3 : n + 1 - 1 - (i + 1) = n - 1 - i := by omega
      rw [e2, e3] at this
      exact this

/-- The stream holds the LSB-first string of a value. -/
theorem lsbValue_lsbBits (s : State) (p v : Nat) : ∀ n, (∀ i, i < n → s.streamBit (p + i) = v.testBit i) →
    s.lsbValue p n = v % 2 ^ n := by
  intro n
  induction n with
  | zero => intro _; simp [State.lsbValue, Nat.mod_one]
  | succ n ih =>
    intro h
    rw [toNat_testBit_add, State.lsbValue, ih (fun i hi => h i (by omega)), h n (by omega)]
    omega

theorem streamHas_append {s : State} {p : Nat} {xs ys : List Bool} (h : s.streamHas p (xs ++ ys)) :
    s.streamHas p xs ∧ s.streamHas (p + xs.length) ys := by
  obtain ⟨h1, h2⟩ := h
  rw [List.length_append] at h1 h2
  refine ⟨⟨by omega, fun i hi => ?_⟩, by omega, fun i hi => ?_⟩
  · rw [h2 i (by omega), List.getD_eq_getElem?_getD, List.getElem?_append_left hi, ← List.getD_eq_getElem?_getD]
  · have e : p + xs.length + i = p + (xs.length + i) := by omega
    rw [e, h2 (xs.length + i) (by omega), List.getD_eq_getElem?_getD, List.getElem?_append_right (by omega),
      Nat.add_sub_cancel_left, ← List.getD_eq_getElem?_getD]

theorem streamHas_code {s : State} {p n v : Nat} (h : s.streamHas p (codeBits n v)) (hv : v < 2 ^ n) :
    p + n ≤ s.streamEnd ∧ s.msbValue p n = v := by
  obtain ⟨h1, h2⟩ := h
  rw [codeBits_length] at h1 h2
  refine ⟨h1, ?_⟩
  rw [msbValue_codeBits s p v n (fun i hi => by rw [h2 i hi, codeBits_getD n v hi]), Nat.mod_eq_of_lt hv]

theorem streamHas_lsb {s : State} {p n v : Nat} (h : s.streamHas p (lsbBits n v)) (hv : v < 2 ^ n) :
    p + n ≤ s.streamEnd ∧ s.lsbValue p n = v := by
  obtain ⟨h1, h2⟩ := h
  rw [lsbBits_length] at h1 h2
  refine ⟨h1, ?_⟩
  rw [lsbValue_lsbBits s p v n (fun i hi => by rw [h2 i hi, lsbBits_getD n v hi]), Nat.mod_eq_of_lt hv]

/-! ## Built tables -/

/-- The table that the construction gives for some lengths, whatever it was built over. -/
structure Built (t : HuffTable) (lens : List (BitVec 4)) : Prop where
  size : lens.length ≤ 320
  kraft : kraftSum lens ≤ 2 ^ 15
  eq : ∃ old, t = buildTable old lens

section
variable {t : HuffTable} {lens : List (BitVec 4)} {s : State}

theorem Built.count (h : Built t lens) {k : Nat} (hk : k < 15) : atLength t.count (k + 1) = (countsOf lens).getD k 0 := by
  obtain ⟨old, rfl⟩ := h.eq
  rw [countsOf_getD lens hk]
  exact build_count h.size hk

theorem Built.first (h : Built t lens) {k : Nat} (hk : k < 15) :
    atLength t.first (k + 1) = (firstsFrom 0 (countsOf lens)).getD k 0 := by
  obtain ⟨old, rfl⟩ := h.eq
  exact build_first h.kraft hk

theorem Built.offset (h : Built t lens) {k : Nat} (hk : k < 15) : atLength t.offset (k + 1) = sumTo (countsOf lens) k := by
  obtain ⟨old, rfl⟩ := h.eq
  exact build_offset h.size hk

/-- A length that matches is the only one: the code is a prefix code. -/
theorem Built.unique (h : Built t lens) {M j : Nat} (hM : M ≤ 15) (hm : t.MatchesAt s M) (hj : j < M) :
    ¬ t.MatchesAt s j := by
  cases j with
  | zero => exact not_matchesAt_zero
  | succ j =>
    obtain ⟨d, rfl⟩ : ∃ d, M = j + 1 + d + 1 := ⟨M - (j + 2), by omega⟩
    intro hm'
    unfold HuffTable.MatchesAt at hm hm'
    rw [h.first (by omega), h.count (by omega)] at hm hm'
    have h1 := first_step (countsOf lens) 0 (j := j) d (by simp; omega)
    have h2 := msbValue_add s s.pos (j + 1) (d + 1)
    have h3 := msbValue_lt s (s.pos + (j + 1)) (d + 1)
    have e : j + 1 + (d + 1) = j + 1 + d + 1 := by omega
    rw [e] at h2
    have h4 := Nat.mul_le_mul_right (2 ^ (d + 1)) (Nat.succ_le_of_lt hm'.2)
    rw [Nat.succ_mul] at h4
    omega

theorem minLenOf_le (cs : List Nat) : ∀ L k, k < cs.length → 0 < cs.getD k 0 → minLenOf L cs ≤ L + k := by
  induction cs with
  | nil => intro _ k h; simp at h
  | cons c cs ih =>
    intro L k hk hp
    simp only [minLenOf]
    split
    · omega
    · cases k with
      | zero => simp at hp; omega
      | succ k =>
        have := ih (L + 1) k (by simpa using hk) (by simpa using hp)
        omega

theorem maxLenOf_ge (cs : List Nat) : ∀ L k, 1 ≤ L → k < cs.length → 0 < cs.getD k 0 → L + k ≤ maxLenOf L cs := by
  induction cs with
  | nil => intro _ k _ h; simp at h
  | cons c cs ih =>
    intro L k hL hk hp
    cases k with
    | zero =>
      simp only [maxLenOf]
      have hp' : 0 < c := by simpa using hp
      split
      · omega
      · rename_i hne
        have key : ∀ (cs : List Nat) L, maxLenOf L cs ≠ 0 → L ≤ maxLenOf L cs := by
          intro cs
          induction cs with
          | nil => intro L h; simp [maxLenOf] at h
          | cons c cs ih =>
            intro L h
            simp only [maxLenOf] at h ⊢
            split
            · split
              · exact Nat.le_refl _
              · rename_i h1 h2; rw [if_pos h1, if_neg h2] at h; exact absurd rfl h
            · rename_i h1
              have := ih (L + 1) h1
              omega
        have := key cs (L + 1) hne
        omega
    | succ k =>
      have := ih (L + 1) k (by omega) (by simpa using hk) (by simpa using hp)
      simp only [maxLenOf]
      rw [if_neg (by omega)]
      omega

theorem minLenOf_le_16 (cs : List Nat) : ∀ L, minLenOf L cs ≤ L + cs.length := by
  induction cs with
  | nil => intro L; simp [minLenOf]
  | cons c cs ih =>
    intro L
    simp only [minLenOf, List.length_cons]
    split
    · omega
    · have := ih (L + 1); omega

theorem maxLenOf_lt (cs : List Nat) : ∀ L, 1 ≤ L → maxLenOf L cs < L + cs.length := by
  induction cs with
  | nil => intro L h; simp [maxLenOf]; omega
  | cons c cs ih =>
    intro L h
    simp only [maxLenOf, List.length_cons]
    have := ih (L + 1) (by omega)
    split
    · split <;> omega
    · omega

theorem Built.maxLen (h : Built t lens) : t.maxLen.toNat = maxLenOf 1 (countsOf lens) := by
  obtain ⟨old, rfl⟩ := h.eq
  have := maxLenOf_lt (countsOf lens) 1 (by omega)
  simp only [countsOf_length] at this
  simp only [buildTable, BitVec.toNat_ofNat]
  omega

theorem Built.minLen_le (h : Built t lens) : t.minLen.toNat ≤ minLenOf 1 (countsOf lens) := by
  obtain ⟨old, rfl⟩ := h.eq
  simp only [buildTable, BitVec.toNat_ofNat]
  exact Nat.mod_le _ _

theorem Built.used (h : Built t lens) : t.used.toNat = (countsOf lens).sum := by
  obtain ⟨old, rfl⟩ := h.eq
  exact build_used h.size

/-- A length with a code lies between minLen and maxLen, and then the table is not empty. -/
theorem Built.range (h : Built t lens) {L : Nat} (hL : L ≤ 15) (hp : 0 < atLength t.count L) :
    t.used ≠ 0 ∧ t.minLen.toNat ≤ L ∧ L ≤ t.maxLen.toNat := by
  cases L with
  | zero => simp [atLength] at hp
  | succ k =>
    rw [h.count (by omega)] at hp
    refine ⟨?_, ?_, ?_⟩
    · intro hu
      have h1 := h.used
      rw [hu] at h1
      have h2 := sumTo_le_sum (countsOf lens) (k + 1)
      rw [sumTo_succ] at h2
      have h3 : (0 : BitVec 9).toNat = 0 := rfl
      omega
    · have h1 := h.minLen_le
      have h2 := minLenOf_le (countsOf lens) 1 k (by simp; omega) hp
      omega
    · rw [h.maxLen]
      have := maxLenOf_ge (countsOf lens) 1 k (by omega) (by simp; omega) hp
      omega

/-- Decoding a code of a built table: at length L, the code's value picks the place. -/
theorem Built.decode (h : Built t lens) (hf : FitsIn s) {L : Nat} (hL : L ≤ 15) (he : s.pos + L ≤ s.streamEnd)
    (hm : t.MatchesAt s L) {x : BitVec 9} (hx : t.sym[t.placeAt s L]? = some x) :
    decodeSymbol t s = .ok (x, BitVec.ofNat 4 L) (s.setPos (s.pos + L)) := by
  have hp : 0 < atLength t.count L := by
    unfold HuffTable.MatchesAt at hm
    omega
  obtain ⟨hu, h1, h2⟩ := h.range hL hp
  exact decodeSymbol_eq hf hu h1 h2 he hm (fun j _ hj => h.unique hL hm hj) hx

theorem codeAt_spec (i : Nat) : ∀ k L {n v : Nat}, codeAt t i k L = some (n, v) →
    L ≤ n ∧ n < L + k ∧ atLength t.offset n ≤ i ∧ i < atLength t.offset n + atLength t.count n ∧
      v = atLength t.first n + (i - atLength t.offset n) := by
  intro k
  induction k with
  | zero => intro L n v h; simp [codeAt] at h
  | succ k ih =>
    intro L n v h
    simp only [codeAt] at h
    split at h
    · rename_i hc
      simp only [Option.some.injEq, Prod.mk.injEq] at h
      obtain ⟨rfl, rfl⟩ := h
      exact ⟨by omega, by omega, hc.1, hc.2, rfl⟩
    · have := ih (L + 1) h
      exact ⟨by omega, by omega, this.2.2⟩

/-- What a symbol's code is: a place in T.sym that holds the symbol, and the code of that place. -/
theorem codeOf_spec {sym : BitVec 9} {n v : Nat} (h : codeOf t sym = some (n, v)) :
    ∃ i, t.sym[i]? = some sym ∧ 1 ≤ n ∧ n ≤ 15 ∧ atLength t.offset n ≤ i ∧
      i < atLength t.offset n + atLength t.count n ∧ v = atLength t.first n + (i - atLength t.offset n) := by
  unfold codeOf at h
  split at h
  · rename_i i hi
    obtain ⟨h1, h2, h3, h4, h5⟩ := codeAt_spec i 15 1 h
    refine ⟨i, ?_, h1, by omega, h3, h4, h5⟩
    rw [List.findIdx?_eq_some_iff_getElem] at hi
    obtain ⟨hlt, heq, _⟩ := hi
    rw [List.getElem_take] at heq
    have hlt' : i < t.sym.length := by
      rw [List.length_take] at hlt
      omega
    rw [List.getElem?_eq_getElem hlt', eq_of_beq heq]
  · exact absurd h (by simp)

theorem Built.first_add_count (h : Built t lens) {L : Nat} (h0 : 1 ≤ L) (hL : L ≤ 15) :
    atLength t.first L + atLength t.count L ≤ 2 ^ L := by
  obtain ⟨k, rfl⟩ : ∃ k, L = k + 1 := ⟨L - 1, by omega⟩
  rw [h.first (by omega), h.count (by omega)]
  exact first_add_count_le _ (by simp) (by rw [kraftTo_counts]; exact h.kraft) (by omega)

/-- A symbol's code decodes to the symbol (R186 for every symbol). -/
theorem Built.decode_codeOf (h : Built t lens) (hf : FitsIn s) {sym : BitVec 9} {n v : Nat} (hc : codeOf t sym = some (n, v))
    (he : s.pos + n ≤ s.streamEnd) (hv : s.msbValue s.pos n = v) :
    decodeSymbol t s = .ok (sym, BitVec.ofNat 4 n) (s.setPos (s.pos + n)) := by
  obtain ⟨i, h1, h2, h3, h4, h5, h6⟩ := codeOf_spec hc
  have hm : t.MatchesAt s n := by
    unfold HuffTable.MatchesAt
    omega
  refine h.decode hf h3 he hm ?_
  have e : t.placeAt s n = i := by
    unfold HuffTable.placeAt
    omega
  rw [e, h1]

/-- The same where the stream holds the symbol's bits. -/
theorem Built.decode_symbolBits (h : Built t lens) (hf : FitsIn s) {sym : BitVec 9} (hc : codeOf t sym ≠ none)
    (hs : s.streamHas s.pos (symbolBits t sym)) :
    decodeSymbol t s =
      .ok (sym, BitVec.ofNat 4 (symbolBits t sym).length) (s.setPos (s.pos + (symbolBits t sym).length)) := by
  unfold symbolBits at hs ⊢
  split
  · rename_i n v hcode
    rw [hcode] at hs
    simp only [codeBits_length]
    obtain ⟨i, h1, h2, h3, h4, h5, h6⟩ := codeOf_spec hcode
    have hlt : v < 2 ^ n := by
      have := h.first_add_count h2 h3
      omega
    obtain ⟨he, hv⟩ := streamHas_code hs hlt
    exact h.decode_codeOf hf hcode he hv
  · rename_i hcode
    exact absurd hcode hc

end

/-- The lengths of the fixed LL code (R183). -/
def fixedLlLengths : List (BitVec 4) :=
  List.replicate 144 8 ++ List.replicate 112 9 ++ List.replicate 24 7 ++ List.replicate 8 8

theorem fLL_eq : fLL = buildTable (HuffTable.empty 288) fixedLlLengths := by decide +kernel

theorem fD_eq : fD = buildTable (HuffTable.empty 32) (List.replicate 32 5) := by decide +kernel

theorem fLL_built : Built fLL fixedLlLengths := ⟨by decide +kernel, by decide +kernel, _, fLL_eq⟩

theorem fD_built : Built fD (List.replicate 32 5) := ⟨by decide +kernel, by decide +kernel, _, fD_eq⟩

end Sys2Proof.Machine
end

