-- ==== Sys2Proof/Laws/Output.lean ====
section
/-! SUPPORT. The Output Buffer: appends, the back-reference copy (43_lz77_expander.md R240, R248, R249) and the stored
copy (42_deflate_blocks.md R204). -/

-- One theorem at a time: the package as one text is compiled under a limit of memory.
set_option Elab.async false

namespace Sys2Proof.Machine

theorem outLen_pushByte (v : Byte) (s : State) (h : s.outLen + 1 < 2 ^ 32) : (pushByte v s).outLen = s.outLen + 1 := by
  unfold State.outLen at h ⊢
  simp only [pushByte_dbufLen, BitVec.toNat_add]
  exact Nat.mod_eq_of_lt (by simpa using h)

@[simp] theorem pushByte_streamEnd (v : Byte) (s : State) : (pushByte v s).streamEnd = s.streamEnd := rfl
@[simp] theorem pushByte_pos (v : Byte) (s : State) : (pushByte v s).pos = s.pos := rfl
@[simp] theorem pushByte_sizeOf (v : Byte) (s : State) (sp : MemSpace) : (pushByte v s).sizeOf sp = s.sizeOf sp := rfl
@[simp] theorem pushByte_lengthCount (v : Byte) (s : State) : (pushByte v s).lengthCount = s.lengthCount := rfl

/-- `Append(v)` where there is room. -/
theorem append_eq (v : Byte) {s : State} (h : s.outLen < s.params.dbufCap) : append v s = .ok () (pushByte v s) := by
  simp only [append, if_neg (show ¬ s.params.dbufCap ≤ s.outLen by omega)]

theorem append_full (v : Byte) {s : State} (h : s.params.dbufCap ≤ s.outLen) : append v s = raise .outputOverflow s := by
  simp only [append, if_pos h]

/-- What appending bytes changes, whatever the bytes are: DBUF and its length. -/
structure Appends (s : State) (n : Nat) (t : State) : Prop where
  frame : t = { s with regs := { s.regs with dbufLen := t.regs.dbufLen }, mem := { s.mem with dbuf := t.mem.dbuf } }
  length : t.outLen = s.outLen + n
  old : ∀ sp a, ¬(sp = .dbuf ∧ s.outLen ≤ a ∧ a < s.outLen + n) → t.byteAt sp a = s.byteAt sp a
  ok : s.outLen + n ≤ s.params.dbufCap → MemoryOk s.mem.dbuf s.params.dbufCap → MemoryOk t.mem.dbuf s.params.dbufCap

theorem Appends.refl (s : State) : Appends s 0 s := ⟨rfl, rfl, fun _ _ _ => rfl, fun _ h => h⟩

theorem appends_pushByte (v : Byte) (s : State) (h : s.outLen + 1 < 2 ^ 32) : Appends s 1 (pushByte v s) := by
  refine ⟨rfl, outLen_pushByte v s h, ?_, fun h1 h2 => memoryOk_write v h2 (by omega)⟩
  intro sp a hn
  rw [byteAt_pushByte, if_neg]
  rintro ⟨h1, h2⟩
  exact hn ⟨h1, by omega, by omega⟩

theorem Appends.trans {s t u : State} {m n : Nat} (h1 : Appends s m t) (h2 : Appends t n u) : Appends s (m + n) u := by
  have hp : t.params = s.params := by rw [h1.frame]
  refine ⟨?_, by rw [h2.length, h1.length]; omega, ?_, ?_⟩
  · rw [h2.frame, h1.frame]
  · intro sp a hn
    rw [h2.old sp a (fun h => hn ⟨h.1, by have := h1.length; omega, by have := h1.length; omega⟩),
      h1.old sp a (fun h => hn ⟨h.1, by omega, by omega⟩)]
  · intro h3 h4
    have h5 := h2.ok
    rw [hp, h1.length] at h5
    exact h5 (by omega) (h1.ok (by omega) h4)

/-- The copy appends n bytes, and each is the byte R249 says. -/
theorem copyBytes_spec (dist : Nat) : ∀ n (s : State), s.outLen + n < 2 ^ 32 → 1 ≤ dist → dist ≤ s.outLen →
    Appends s n (copyBytes n dist s) ∧
      ∀ i, i < n → (copyBytes n dist s).byteAt .dbuf (s.outLen + i) = s.byteAt .dbuf (s.outLen - dist + i % dist) := by
  intro n
  induction n with
  | zero => intro s _ _ _; exact ⟨Appends.refl s, fun i hi => by omega⟩
  | succ n ih =>
    intro s h1 h2 h3
    have hl := outLen_pushByte (s.byteAt .dbuf (s.outLen - dist)) s (by omega)
    have ha := appends_pushByte (s.byteAt .dbuf (s.outLen - dist)) s (by omega)
    obtain ⟨iha, ihb⟩ := ih (pushByte (s.byteAt .dbuf (s.outLen - dist)) s) (by omega) h2 (by omega)
    refine ⟨?_, ?_⟩
    · have := ha.trans iha
      rw [Nat.add_comm 1 n] at this
      exact this
    · intro i hi
      simp only [copyBytes]
      cases i with
      | zero =>
        rw [iha.old _ _ (by rintro ⟨_, h, _⟩; omega), byteAt_pushByte, if_pos ⟨rfl, rfl⟩]
        simp
      | succ i =>
        have e : s.outLen + (i + 1) = (pushByte (s.byteAt .dbuf (s.outLen - dist)) s).outLen + i := by omega
        rw [e, ihb i (by omega), byteAt_pushByte, hl]
        have hmod : (i + 1) % dist = if i % dist + 1 = dist then 0 else i % dist + 1 := by
          rw [Nat.add_mod]
          have hlt := Nat.mod_lt i (show 0 < dist by omega)
          by_cases hd : dist = 1
          · subst hd; simp [Nat.mod_one]
          · rw [Nat.mod_eq_of_lt (show 1 < dist by omega)]
            split
            · rename_i heq; rw [heq, Nat.mod_self]
            · exact Nat.mod_eq_of_lt (by omega)
        have hlt := Nat.mod_lt i (show 0 < dist by omega)
        rw [hmod]
        by_cases hc : i % dist + 1 = dist
        · rw [if_pos hc, if_pos ⟨rfl, by omega⟩]; simp
        · rw [if_neg hc, if_neg (by rintro ⟨_, h⟩; omega)]
          congr 1
          omega

/-- Everything the back-reference copy can do (R248). -/
theorem copyMatch_sat {s : State} {P : Unit → State → Prop} {Q : ErrorKind → State → Prop} {F : Fault → Prop}
    (hP : s.tok.dist.toNat ≤ s.outLen → s.outLen + s.tok.len.toNat ≤ s.params.dbufCap →
      P () (copyBytes s.tok.len.toNat s.tok.dist.toNat s))
    (hQ1 : Q .invalidBackReference s) (hQ2 : Q .outputOverflow s) : Res.Sat P Q F (copyMatch s) := by
  unfold copyMatch
  split
  · exact sat_raise hQ1
  · split
    · exact sat_raise hQ2
    · exact .ok (hP (by omega) (by omega))

/-- The stored copy, byte by byte (R204, R167): n bytes from byte address a of IN. -/
theorem storedCopy_spec : ∀ n a (s : State), FitsIn s → s.pos = 8 * a → 8 * (a + n) ≤ s.streamEnd →
    s.outLen + n < 2 ^ 32 → ∃ t, storedCopy n s = .ok () (t.setPos (8 * (a + n))) ∧ Appends s n t ∧
      ∀ i, i < n → t.byteAt .dbuf (s.outLen + i) = s.byteAt .inMem (a + i) := by
  intro n
  induction n with
  | zero =>
    intro a s _ hp _ _
    refine ⟨s, ?_, Appends.refl s, fun i hi => by omega⟩
    rw [Nat.add_zero, ← hp, setPos_pos]
    rfl
  | succ n ih =>
    intro a s hf hp he ho
    have e1 : s.pos + 8 = 8 * (a + 1) := by omega
    have hv : (BitVec.ofNat 32 (s.lsbValue (8 * a) 8)).setWidth 8 = s.byteAt .inMem a := by
      rw [lsbValue_byte]
      apply BitVec.eq_of_toNat_eq
      have := (s.byteAt .inMem a).isLt
      simp only [BitVec.toNat_setWidth, BitVec.toNat_ofNat]
      omega
    have hpos : (s.setPos (8 * (a + 1))).pos = 8 * (a + 1) := pos_setPos_end (t := s) (by omega)
    obtain ⟨t, h1, h2, h3⟩ := ih (a + 1) (pushByte (s.byteAt .inMem a) (s.setPos (8 * (a + 1)))) hf hpos
      (by show 8 * (a + 1 + n) ≤ s.streamEnd; omega)
      (by rw [outLen_pushByte _ _ (by simp; omega)]; simp; omega)
    have ha := appends_pushByte (s.byteAt .inMem a) (s.setPos (8 * (a + 1))) (by simp; omega)
    have hat := ha.trans h2
    have hlen : (pushByte (s.byteAt .inMem a) (s.setPos (8 * (a + 1)))).outLen = s.outLen + 1 := ha.length
    refine ⟨t.setPos s.pos, ?_, ?_, ?_⟩
    · have e2 : a + (n + 1) = a + 1 + n := by omega
      simp only [storedCopy, readBitsLSB_eq hf (show 8 ≤ 32 by omega) (show s.pos + 8 ≤ s.streamEnd by omega), bind_ok,
        setPos_setPos]
      rw [e1, hp, hv, e2]
      exact h1
    · refine ⟨?_, ?_, ?_, ?_⟩
      · have hfr := hat.frame
        conv => lhs; rw [hfr]
        simp only [State.setPos]
        have hc := setPos_pos s
        simp only [State.setPos] at hc
        have hc' : ({ byteIx := BitVec.ofNat 32 (s.pos / 8), bitIx := BitVec.ofNat 3 (s.pos % 8) } : Cursor) = s.cur := by
          conv => rhs; rw [← hc]
        rw [hc']
      · have := hat.length
        simpa [Nat.add_comm] using this
      · intro sp b hn
        have := hat.old sp b (by simpa [Nat.add_comm] using hn)
        simpa using this
      · intro h4 h5
        exact hat.ok (by simpa [Nat.add_comm] using h4) h5
    · intro i hi
      cases i with
      | zero =>
        have := h2.old .dbuf s.outLen (by rintro ⟨_, h, _⟩; omega)
        rw [byteAt_pushByte] at this
        simpa using this
      | succ i =>
        have := h3 i (by omega)
        rw [hlen, byteAt_pushByte, if_neg (by rintro ⟨h, _⟩; cases h)] at this
        have e3 : s.outLen + (i + 1) = s.outLen + 1 + i := by omega
        have e4 : a + (i + 1) = a + 1 + i := by omega
        rw [e3, e4]
        simpa using this

end Sys2Proof.Machine
end

