-- ==== Sys2Proof/Laws/Grows.lean ====
section
/-! SUPPORT. What every sub-operation of the decompression phases does to the state, told once: it moves the cursor
forward inside the stream, appends to DBUF, keeps tables well-formed, and leaves the rest alone. -/

-- One theorem at a time: the package as one text is compiled under a limit of memory.
set_option Elab.async false

namespace Sys2Proof.Machine

/-- What the decompression phases rely on. -/
structure Sound (s : State) : Prop where
  params : s.params.wf = true
  fits : FitsIn s
  cursor : s.pos ≤ s.streamEnd
  output : s.outLen ≤ s.params.dbufCap
  tableCl : s.tabs.cl.Wf 19
  tableLl : s.tabs.ll.Wf 288
  tableD : s.tabs.d.Wf 32
  cllLength : s.hdr.cll.length = 19
  lensLength : s.hdr.lens.length = 320

theorem Sound.dbufCap_lt {s : State} (h : Sound s) : s.params.dbufCap < 2 ^ 32 := by
  have := h.params
  simp only [Params.wf, Bool.and_eq_true, decide_eq_true_eq] at this
  omega

/-- From s to t: progress of the decompression stage. -/
structure Grows (s t : State) : Prop where
  params : t.params = s.params
  phase : t.phase = s.phase
  regs : t.regs = { s.regs with dbufLen := t.regs.dbufLen }
  err : t.err = s.err
  defl : t.defl = s.defl
  env : t.env = s.env
  blk : t.blk.bfinal = s.blk.bfinal ∧ t.blk.btype = s.blk.btype
  mem : t.mem = { s.mem with dbuf := t.mem.dbuf }
  cursor : s.pos ≤ t.pos ∧ t.pos ≤ s.streamEnd
  output : s.outLen ≤ t.outLen ∧ t.outLen ≤ s.params.dbufCap
  bytes : ∀ a, a < s.outLen → t.byteAt .dbuf a = s.byteAt .dbuf a
  memory : MemoryOk s.mem.dbuf s.params.dbufCap → MemoryOk t.mem.dbuf s.params.dbufCap
  tableCl : t.tabs.cl.Wf 19
  tableLl : t.tabs.ll.Wf 288
  tableD : t.tabs.d.Wf 32
  cllLength : t.hdr.cll.length = 19
  lensLength : t.hdr.lens.length = 320

theorem Grows.streamEnd {s t : State} (h : Grows s t) : t.streamEnd = s.streamEnd := by
  unfold State.streamEnd
  rw [h.regs]

theorem Grows.refl {s : State} (h : Sound s) : Grows s s :=
  ⟨rfl, rfl, rfl, rfl, rfl, rfl, ⟨rfl, rfl⟩, rfl, ⟨Nat.le_refl _, h.cursor⟩, ⟨Nat.le_refl _, h.output⟩, fun _ _ => rfl,
    fun h => h, h.tableCl, h.tableLl, h.tableD, h.cllLength, h.lensLength⟩

theorem Grows.trans {s t u : State} (h1 : Grows s t) (h2 : Grows t u) : Grows s u := by
  have he := h1.streamEnd
  have hp := h1.params
  refine ⟨h2.params.trans hp, h2.phase.trans h1.phase, ?_, h2.err.trans h1.err, h2.defl.trans h1.defl, h2.env.trans h1.env,
    ⟨h2.blk.1.trans h1.blk.1, h2.blk.2.trans h1.blk.2⟩, ?_, ?_, ?_, ?_, ?_, h2.tableCl, h2.tableLl, h2.tableD, h2.cllLength,
    h2.lensLength⟩
  · rw [h2.regs, h1.regs]
  · rw [h2.mem, h1.mem]
  · have a := h1.cursor; have b := h2.cursor; omega
  · have a := h1.output; have b := h2.output; rw [hp] at b; omega
  · intro a ha
    rw [h2.bytes a (by have := h1.output; omega), h1.bytes a ha]
  · intro h
    have := h2.memory
    rw [hp] at this
    exact this (h1.memory h)

theorem Grows.sound {s t : State} (hs : Sound s) (h : Grows s t) : Sound t := by
  refine ⟨by rw [h.params]; exact hs.params, ?_, ?_, ?_, h.tableCl, h.tableLl, h.tableD, h.cllLength, h.lensLength⟩
  · have := hs.fits
    unfold FitsIn at this ⊢
    rw [h.params, h.regs]
    exact this
  · rw [h.streamEnd]; exact h.cursor.2
  · rw [h.params]; exact h.output.2

/-- The same with the kinds an error may be of. -/
abbrev GrowsRes {α : Type} (s : State) (r : Res α) (kinds : List ErrorKind) : Prop :=
  Res.Sat (fun _ t => Grows s t) (fun e t => Grows s t ∧ e ∈ kinds) (fun _ => False) r

/-- A sub-operation that, where it ends with a value, has also changed the phase to `p`. -/
abbrev EndsRes {α : Type} (s : State) (p : Phase) (r : Res α) (kinds : List ErrorKind) : Prop :=
  Res.Sat (fun _ t => Grows s (t.setPhase s.phase) ∧ t.phase = p) (fun e t => Grows s t ∧ e ∈ kinds) (fun _ => False) r

theorem EndsRes.of_grows {α : Type} {s t : State} {p : Phase} {r : Res α} {ks ks' : List ErrorKind} (h : Grows s t)
    (hr : EndsRes t p r ks) (hk : ∀ e ∈ ks, e ∈ ks') : EndsRes s p r ks' := by
  refine sat_mono hr ?_ (fun e _ hu => ⟨h.trans hu.1, hk e hu.2⟩) (fun _ h => h)
  rintro _ u ⟨hu, hp⟩
  rw [h.phase] at hu
  exact ⟨h.trans hu, hp⟩

theorem EndsRes.bind {α β : Type} {s : State} {p : Phase} {r : Res α} {f : α → State → Res β} {ks : List ErrorKind}
    (hs : Sound s) (h1 : GrowsRes s r ks) (h2 : ∀ a t, Grows s t → Sound t → EndsRes t p (f a t) ks) :
    EndsRes s p (r.bind f) ks :=
  sat_bind (sat_mono h1 (fun a t ht => EndsRes.of_grows ht (h2 a t ht (ht.sound hs)) (fun _ h => h)) (fun _ _ h => h)
    (fun _ h => h))

theorem GrowsRes.bind {α β : Type} {s : State} {r : Res α} {f : α → State → Res β} {ks : List ErrorKind} (hs : Sound s)
    (h1 : GrowsRes s r ks) (h2 : ∀ a t, Grows s t → Sound t → GrowsRes t (f a t) ks) : GrowsRes s (r.bind f) ks := by
  refine sat_bind (sat_mono h1 ?_ (fun _ _ h => h) (fun _ h => h))
  intro a t ht
  refine sat_mono (h2 a t ht (ht.sound hs)) ?_ ?_ (fun _ h => h)
  · intro _ u hu; exact ht.trans hu
  · rintro e u ⟨hu, he⟩; exact ⟨ht.trans hu, he⟩

theorem GrowsRes.raise {α : Type} {s : State} {e : ErrorKind} {ks : List ErrorKind} (hs : Sound s) (h : e ∈ ks) :
    GrowsRes s (raise e s : Res α) ks := sat_raise ⟨Grows.refl hs, h⟩

theorem GrowsRes.mono {α : Type} {s : State} {r : Res α} {ks ks' : List ErrorKind} (h : GrowsRes s r ks)
    (hk : ∀ e ∈ ks, e ∈ ks') : GrowsRes s r ks' :=
  sat_mono h (fun _ _ h => h) (fun e _ h => ⟨h.1, hk e h.2⟩) (fun _ h => h)

section
variable {s : State}

theorem grows_setPos (hs : Sound s) {p : Nat} (h1 : s.pos ≤ p) (h2 : p ≤ s.streamEnd) : Grows s (s.setPos p) := by
  refine { Grows.refl hs with cursor := ?_ }
  rw [pos_setPos_end h2]
  exact ⟨h1, h2⟩

theorem grows_readBitsLSB (hs : Sound s) {n : Nat} (hn : n ≤ 32) : GrowsRes s (readBitsLSB n s) [.outOfData] :=
  readBitsLSB_sat hs.fits hn (fun h => grows_setPos hs (by omega) h) ⟨Grows.refl hs, by simp⟩

theorem grows_readBitsMSB (hs : Sound s) {n : Nat} (hn : n ≤ 32) : GrowsRes s (readBitsMSB n s) [.outOfData] :=
  readBitsMSB_sat hs.fits hn (fun h => grows_setPos hs (by omega) h) ⟨Grows.refl hs, by simp⟩

theorem grows_decodeSymbol (hs : Sound s) {t : HuffTable} {n : Nat} (hw : t.Wf n) :
    GrowsRes s (decodeSymbol t s) [.outOfData, .noMatchingCode] :=
  decodeSymbol_sat hw hs.fits (fun r s' h => by rw [h.next]; exact grows_setPos hs (by omega) h.fits)
    ⟨Grows.refl hs, by simp⟩ ⟨Grows.refl hs, by simp⟩

theorem grows_appends (hs : Sound s) {n : Nat} {t : State} (h : Appends s n t) (hc : s.outLen + n ≤ s.params.dbufCap) :
    Grows s t := by
  have hl := h.length
  have hf := h.frame
  refine ⟨by rw [hf], by rw [hf], ?_, by rw [hf], by rw [hf], by rw [hf], by rw [hf]; exact ⟨rfl, rfl⟩, by rw [hf], ?_, by omega, ?_,
    h.ok hc, by rw [hf]; exact hs.tableCl, by rw [hf]; exact hs.tableLl, by rw [hf]; exact hs.tableD,
    by rw [hf]; exact hs.cllLength, by rw [hf]; exact hs.lensLength⟩
  · conv => lhs; rw [hf]
  · have : t.pos = s.pos := by rw [hf]; rfl
    rw [this]
    exact ⟨Nat.le_refl _, hs.cursor⟩
  · intro a ha
    exact h.old _ _ (by rintro ⟨_, h1, _⟩; omega)

theorem grows_append (hs : Sound s) (v : Byte) : GrowsRes s (append v s) [.outputOverflow] := by
  by_cases h : s.outLen < s.params.dbufCap
  · rw [append_eq v h]
    have := hs.dbufCap_lt
    exact .ok (grows_appends hs (appends_pushByte v s (by omega)) (by omega))
  · rw [append_full v (by omega)]
    exact GrowsRes.raise hs (by simp)

/-- A state that differs from a sound one in token registers alone. -/
theorem grows_tok (hs : Sound s) (t : Token) : Grows s { s with tok := t } := { Grows.refl hs with }

theorem grows_setTable (hs : Sound s) (k : Slot) {t : HuffTable} (h : t.Wf k.size) : Grows s (s.setTable k t) := by
  cases k with
  | cl => exact { Grows.refl hs with tableCl := h }
  | ll => exact { Grows.refl hs with tableLl := h }
  | d => exact { Grows.refl hs with tableD := h }

theorem Sound.table (hs : Sound s) (k : Slot) : (s.tabs.get k).Wf k.size := by
  cases k with
  | cl => exact hs.tableCl
  | ll => exact hs.tableLl
  | d => exact hs.tableD

theorem grows_build (hs : Sound s) (k : Slot) {lens : List (BitVec 4)} (hl : lens.length = k.size) :
    GrowsRes s (buildFromLengths k lens s) [.invalidCodeLengths] := by
  refine buildFromLengths_sat (fun hK => ?_) ⟨Grows.refl hs, by simp⟩
  have hn : k.size ≤ 320 := by cases k <;> simp [Slot.size]
  exact grows_setTable hs k (buildTable_wf hn hl (hs.table k) hK)

/-! ## Tokens -/

/-- The extra bits of every length code are at most 5. -/
theorem lengthEntry_extra (sym : Nat) : (lengthEntry sym).1 ≤ 32 := by
  have h : ∀ e ∈ lengthTable, e.1 ≤ 32 := by decide
  unfold lengthEntry
  rw [List.getD_eq_getElem?_getD]
  cases hx : lengthTable[sym - 257]? with
  | none => simp
  | some e => exact h e (List.mem_of_getElem? hx)

theorem distEntry_extra (sym : Nat) : (distEntry sym).1 ≤ 32 := by
  have h : ∀ e ∈ distTable, e.1 ≤ 32 := by decide
  unfold distEntry
  rw [List.getD_eq_getElem?_getD]
  cases hx : distTable[sym]? with
  | none => simp
  | some e => exact h e (List.mem_of_getElem? hx)

theorem grows_readExtra (hs : Sound s) {e : Nat × Nat} (he : e.1 ≤ 32) : GrowsRes s (readExtra e s) [.outOfData] :=
  GrowsRes.bind hs (grows_readBitsLSB hs he) (fun _ _ _ ht => .ok (Grows.refl ht))

/-- What one back-reference, once its distance symbol is known, can raise. -/
theorem grows_copyMatch (hs : Sound s) (hd : 1 ≤ s.tok.dist.toNat) :
    GrowsRes s (copyMatch s) [.invalidBackReference, .outputOverflow] := by
  refine copyMatch_sat (fun h1 h2 => ?_) ⟨Grows.refl hs, by simp⟩ ⟨Grows.refl hs, by simp⟩
  have := hs.dbufCap_lt
  exact grows_appends hs (copyBytes_spec _ _ s (by omega) hd h1).1 h2

/-- Every distance is between 1 and 32768 (R126). -/
theorem distEntry_range {d : Nat} (hd : d < 30) {v : Nat} (hv : v < 2 ^ (distEntry d).1) :
    1 ≤ (distEntry d).2 ∧ (distEntry d).2 + v ≤ 32768 := by
  have h : ∀ d, d < 30 → 1 ≤ (distEntry d).2 ∧ (distEntry d).2 + (2 ^ (distEntry d).1 - 1) ≤ 32768 := by decide
  have := h d hd
  have hp := Nat.pow_pos (n := (distEntry d).1) (show 0 < 2 by omega)
  omega

/-- Every length is between 3 and 258 (R124, R125). -/
theorem lengthEntry_range {n : Nat} (h1 : 257 ≤ n) (h2 : n ≤ 285) {v : Nat} (hv : v < 2 ^ (lengthEntry n).1) :
    3 ≤ (lengthEntry n).2 ∧ (lengthEntry n).2 + v ≤ 258 := by
  have h : ∀ k, k < 29 → 3 ≤ (lengthEntry (257 + k)).2 ∧ (lengthEntry (257 + k)).2 + (2 ^ (lengthEntry (257 + k)).1 - 1) ≤ 258 := by
    decide
  have := h (n - 257) (by omega)
  have e : 257 + (n - 257) = n := by omega
  rw [e] at this
  have hp := Nat.pow_pos (n := (lengthEntry n).1) (show 0 < 2 by omega)
  omega

theorem readExtra_eq {e : Nat × Nat} (hf : FitsIn s) (he : e.1 ≤ 32) (h : s.pos + e.1 ≤ s.streamEnd) :
    readExtra e s = .ok (e.2 + s.lsbValue s.pos e.1) (s.setPos (s.pos + e.1)) := by
  simp only [readExtra, readBitsLSB_eq hf he h, bind_ok, lsbWord s s.pos he]

theorem readExtra_end {e : Nat × Nat} (he : e.1 ≤ 32) (h : s.streamEnd < s.pos + e.1) :
    readExtra e s = raise .outOfData s := by
  simp only [readExtra, readBitsLSB_end he h, bind_raise]

theorem grows_distanceSymbol (hs : Sound s) (d : BitVec 5) :
    GrowsRes s (distanceSymbol d s) [.outOfData, .invalidDistanceCode, .invalidBackReference, .outputOverflow] := by
  unfold distanceSymbol
  split
  · exact GrowsRes.raise hs (by simp)
  · rename_i hd
    by_cases h : s.pos + (distEntry d.toNat).1 ≤ s.streamEnd
    · rw [readExtra_eq hs.fits (distEntry_extra _) h, bind_ok]
      have hg : Grows s ((s.setPos (s.pos + (distEntry d.toNat).1)).setDist
          ((distEntry d.toNat).2 + s.lsbValue s.pos (distEntry d.toNat).1)) :=
        (grows_setPos hs (by omega) h).trans (grows_tok ((grows_setPos hs (by omega) h).sound hs) _)
      have hr := distEntry_range (by omega) (lsbValue_lt s s.pos (distEntry d.toNat).1)
      refine sat_mono (grows_copyMatch (hg.sound hs) ?_) (fun _ _ h => hg.trans h) ?_ (fun _ h => h)
      · simp only [State.setDist_dist, BitVec.toNat_ofNat]
        omega
      · rintro e t ⟨ht, he⟩
        refine ⟨hg.trans ht, ?_⟩
        simp only [List.mem_cons, List.not_mem_nil, or_false] at he ⊢
        rcases he with he | he <;> simp [he]
    · rw [readExtra_end (distEntry_extra _) (by omega), bind_raise]
      exact GrowsRes.raise hs (by simp)

theorem grows_readDistance (hs : Sound s) : GrowsRes s (readDistance s) [.outOfData, .noMatchingCode] := by
  unfold readDistance
  split
  · exact GrowsRes.bind hs ((grows_readBitsMSB hs (by omega)).mono (by simp)) (fun _ _ _ ht => .ok (grows_tok ht _))
  · exact GrowsRes.bind hs (grows_decodeSymbol hs hs.tableD) (fun _ _ _ ht => .ok (grows_tok ht _))

theorem grows_lengthSymbol (hs : Sound s) (sym : Nat) :
    GrowsRes s (lengthSymbol sym s)
      [.outOfData, .noMatchingCode, .invalidDistanceCode, .invalidBackReference, .outputOverflow] := by
  unfold lengthSymbol
  refine GrowsRes.bind hs ((grows_readExtra hs (lengthEntry_extra sym)).mono (by simp)) (fun v t _ ht => ?_)
  have hg := grows_tok ht { t.tok with len := BitVec.ofNat 9 v }
  have hsound := hg.sound ht
  have h : GrowsRes (t.setLen v) ((readDistance (t.setLen v)).bind fun _ s => distanceSymbol s.tok.dsym s)
      [.outOfData, .noMatchingCode, .invalidDistanceCode, .invalidBackReference, .outputOverflow] :=
    GrowsRes.bind hsound ((grows_readDistance hsound).mono (by simp))
      (fun _ u _ hu => (grows_distanceSymbol hu _).mono (by simp))
  exact sat_mono h (fun _ _ h => hg.trans h) (fun _ _ h => ⟨hg.trans h.1, h.2⟩) (fun _ h => h)

/-! ## The dynamic header -/

@[simp] theorem fillLens_length (v : BitVec 4) : ∀ c start ls, (fillLens v c start ls).length = ls.length := by
  intro c
  induction c with
  | zero => intro _ _; rfl
  | succ c ih => intro start ls; simp [fillLens, ih]

theorem fillLens_getD (v : BitVec 4) : ∀ c start ls i, start + c ≤ ls.length →
    (fillLens v c start ls).getD i 0 = if start ≤ i ∧ i < start + c then v else ls.getD i 0 := by
  intro c
  induction c with
  | zero => intro start ls i _; rw [if_neg (by omega)]; rfl
  | succ c ih =>
    intro start ls i h
    simp only [fillLens]
    rw [ih (start + 1) (ls.set start v) i (by simp; omega)]
    by_cases h1 : i = start
    · subst h1
      rw [if_neg (by omega), if_pos (by omega), List.getD_eq_getElem?_getD, List.getElem?_set_self (by omega)]
      rfl
    · by_cases h2 : start + 1 ≤ i ∧ i < start + 1 + c
      · rw [if_pos h2, if_pos (by omega)]
      · rw [if_neg h2, if_neg (by omega), List.getD_eq_getElem?_getD, List.getElem?_set_ne (by omega),
          ← List.getD_eq_getElem?_getD]

theorem grows_pushLengths (hs : Sound s) (v : BitVec 4) (c : Nat) : Grows s (pushLengths v c s) :=
  { Grows.refl hs with lensLength := by simp [hs.lensLength] }

theorem grows_repeatLength (hs : Sound s) (v : BitVec 4) (c : Nat) :
    GrowsRes s (repeatLength v c s) [.outOfData, .invalidCodeLengths] := by
  unfold repeatLength
  split
  · exact GrowsRes.raise hs (by simp)
  · exact .ok (grows_pushLengths hs v c)

theorem grows_clSymbol (hs : Sound s) (sym : BitVec 9) (h : sym.toNat < 19) :
    GrowsRes s (clSymbol sym s) [.outOfData, .invalidCodeLengths] := by
  unfold clSymbol
  split
  · exact .ok (grows_pushLengths hs _ _)
  · split
    · refine GrowsRes.bind hs ((grows_readBitsLSB hs (by omega)).mono (by simp)) (fun e t _ ht => ?_)
      split
      · exact GrowsRes.raise ht (by simp)
      · exact grows_repeatLength ht _ _
    · split
      · exact GrowsRes.bind hs ((grows_readBitsLSB hs (by omega)).mono (by simp)) (fun e t _ ht => grows_repeatLength ht _ _)
      · split
        · exact GrowsRes.bind hs ((grows_readBitsLSB hs (by omega)).mono (by simp)) (fun e t _ ht => grows_repeatLength ht _ _)
        · omega

theorem grows_hdr (hs : Sound s) (h : DynHeader) (h1 : h.cll.length = 19) (h2 : h.lens.length = 320) :
    Grows s { s with hdr := h } := { Grows.refl hs with cllLength := h1, lensLength := h2 }

theorem grows_readCounts (hs : Sound s) : GrowsRes s (readCounts s) [.outOfData] := by
  refine GrowsRes.bind hs (grows_readBitsLSB hs (by omega)) (fun a t _ ht => ?_)
  have hg := grows_hdr ht { t.hdr with hlit := BitVec.ofNat 9 (a.toNat + 257) } ht.cllLength ht.lensLength
  refine sat_mono (GrowsRes.bind (hg.sound ht) (grows_readBitsLSB (hg.sound ht) (n := 5) (by omega))
    (ks := [.outOfData]) (fun b u _ hu => ?_)) (fun _ _ h => hg.trans h) (fun _ _ h => ⟨hg.trans h.1, h.2⟩) (fun _ h => h)
  have hg2 := grows_hdr hu { u.hdr with hdist := BitVec.ofNat 6 (b.toNat + 1) } hu.cllLength hu.lensLength
  refine sat_mono (GrowsRes.bind (hg2.sound hu) (grows_readBitsLSB (hg2.sound hu) (n := 4) (by omega))
    (ks := [.outOfData]) (fun c w _ hw => ?_)) (fun _ _ h => hg2.trans h) (fun _ _ h => ⟨hg2.trans h.1, h.2⟩) (fun _ h => h)
  exact .ok (grows_hdr hw _ hw.cllLength hw.lensLength)

theorem grows_readClLengths : ∀ k i (s : State), Sound s → GrowsRes s (readClLengths k i s) [.outOfData] := by
  intro k
  induction k with
  | zero => intro i s hs; exact .ok (Grows.refl hs)
  | succ k ih =>
    intro i s hs
    refine GrowsRes.bind hs (grows_readBitsLSB hs (by omega)) (fun v t _ ht => ?_)
    have hg := grows_hdr ht { t.hdr with cll := t.hdr.cll.set (clOrder.getD i 0) (v.setWidth 3) }
      (by simp [ht.cllLength]) ht.lensLength
    exact sat_mono (ih (i + 1) _ (hg.sound ht)) (fun _ _ h => hg.trans h) (fun _ _ h => ⟨hg.trans h.1, h.2⟩) (fun _ h => h)

theorem grows_readClTable (hs : Sound s) : GrowsRes s (readClTable s) [.outOfData, .invalidCodeLengths] := by
  have hg := grows_hdr hs { s.hdr with cll := List.replicate 19 0 } (by simp) hs.lensLength
  refine sat_mono (GrowsRes.bind (hg.sound hs) ((grows_readClLengths s.hdr.hclen.toNat 0 _ (hg.sound hs)).mono
    (ks' := [.outOfData, .invalidCodeLengths]) (by simp)) (fun _ t _ ht => ?_))
    (fun _ _ h => hg.trans h) (fun _ _ h => ⟨hg.trans h.1, h.2⟩) (fun _ h => h)
  exact (grows_build ht .cl (by simp [ht.cllLength, Slot.size])).mono (by simp)

theorem grows_clLoop : ∀ k (s : State), Sound s →
    GrowsRes s (clLoop k s) [.outOfData, .invalidCodeLengths, .noMatchingCode] := by
  intro k
  induction k with
  | zero => intro s hs; exact .ok (Grows.refl hs)
  | succ k ih =>
    intro s hs
    simp only [clLoop]
    split
    · have hd : Res.Sat (fun r t => Grows s t ∧ r.1.toNat < 19)
          (fun e t => Grows s t ∧ e ∈ [.outOfData, .invalidCodeLengths, .noMatchingCode]) (fun _ => False)
          (decodeSymbol s.tabs.cl s) :=
        decodeSymbol_sat hs.tableCl hs.fits
          (fun r s' h => ⟨by rw [h.next]; exact grows_setPos hs (by omega) h.fits, hs.tableCl.symbols _ h.symbol_mem⟩)
          ⟨Grows.refl hs, by simp⟩ ⟨Grows.refl hs, by simp⟩
      refine sat_bind (sat_mono hd ?_ (fun _ _ h => h) (fun _ h => h))
      rintro r t ⟨ht, hr⟩
      have hst := ht.sound hs
      refine sat_mono (GrowsRes.bind hst ((grows_clSymbol hst r.1 hr).mono
        (ks' := [.outOfData, .invalidCodeLengths, .noMatchingCode]) (by simp)) (fun _ u _ hu => ih u hu))
        (fun _ _ h => ht.trans h) (fun _ _ h => ⟨ht.trans h.1, h.2⟩) (fun _ h => h)
    · exact .ok (Grows.refl hs)

theorem grows_readSequence (hs : Sound s) :
    GrowsRes s (readSequence s) [.outOfData, .invalidCodeLengths, .noMatchingCode] := by
  have hg := grows_hdr hs { s.hdr with nl := 0 } hs.cllLength hs.lensLength
  exact sat_mono (grows_clLoop s.lengthCount _ (hg.sound hs)) (fun _ _ h => hg.trans h) (fun _ _ h => ⟨hg.trans h.1, h.2⟩)
    (fun _ h => h)

theorem llLengths_length (s : State) : (llLengths s).length = Slot.ll.size := by
  rw [llLengths, List.length_map, List.length_range]; rfl

theorem dLengths_length (s : State) : (dLengths s).length = Slot.d.size := by
  rw [dLengths, List.length_map, List.length_range]; rfl

theorem grows_buildTables (hs : Sound s) : EndsRes s .tokens (buildTables s) [.invalidCodeLengths] := by
  unfold buildTables
  refine EndsRes.bind hs (grows_build hs .ll (llLengths_length s)) (fun _ t _ ht => ?_)
  refine EndsRes.bind ht (grows_build ht .d (dLengths_length t)) (fun _ u _ hu => ?_)
  exact .ok ⟨{ Grows.refl hu with }, rfl⟩

/-- Everything the P_DYNAMIC step can do to the state, and the errors of R324. -/
theorem grows_dynamicBody (hs : Sound s) :
    EndsRes s .tokens (dynamicBody s) [.outOfData, .invalidCodeLengths, .noMatchingCode] := by
  unfold dynamicBody
  refine EndsRes.bind hs ((grows_readCounts hs).mono (by simp)) (fun _ t _ ht => ?_)
  refine EndsRes.bind ht ((grows_readClTable ht).mono (by simp)) (fun _ u _ hu => ?_)
  exact EndsRes.bind hu (grows_readSequence hu)
    (fun _ w _ hw => EndsRes.of_grows (Grows.refl hw) (grows_buildTables hw) (by simp))

/-! ## The stored block -/

theorem grows_alignToByte (hs : Sound s) : Grows s (alignToByte s) := by
  rw [alignToByte_eq]
  have := hs.cursor
  exact grows_setPos hs (by omega) (by unfold State.streamEnd at this ⊢; omega)

/-- The cursor stands at a byte boundary where bi is 0. -/
theorem pos_aligned (p : Nat) (h : p % 8 = 0) : p = 8 * (p / 8) := by omega

theorem grows_storedData (hs : Sound s) (ha : s.pos % 8 = 0) (len nlen : Word) :
    EndsRes s .blockEnd (storedData len nlen s) [.outOfData, .lengthMismatch, .outputOverflow] := by
  unfold storedData
  split
  · exact sat_raise ⟨Grows.refl hs, by simp⟩
  · split
    · exact sat_raise ⟨Grows.refl hs, by simp⟩
    · split
      · exact sat_raise ⟨Grows.refl hs, by simp⟩
      · have hcap := hs.dbufCap_lt
        obtain ⟨t, h1, h2, _⟩ := storedCopy_spec len.toNat (s.pos / 8) s hs.fits (pos_aligned _ ha) (by omega) (by omega)
        rw [h1, bind_ok]
        have hg := grows_appends hs h2 (by omega)
        have hst := hg.sound hs
        have hpt : t.pos = s.pos := by rw [h2.frame]; rfl
        have hg2 := grows_setPos hst (p := 8 * (s.pos / 8 + len.toNat)) (by omega) (by rw [hg.streamEnd]; omega)
        have hgg := hg.trans hg2
        refine .ok ⟨?_, rfl⟩
        have hph : ((t.setPos (8 * (s.pos / 8 + len.toNat))).setPhase .blockEnd).setPhase s.phase =
            t.setPos (8 * (s.pos / 8 + len.toNat)) := by
          rw [← hgg.phase]; rfl
        rw [hph]
        exact hgg

/-- Everything the P_STORED step can do to the state, and the errors of R324. -/
theorem grows_storedBody (hs : Sound s) :
    EndsRes s .blockEnd (storedBody s) [.outOfData, .lengthMismatch, .outputOverflow] := by
  have hg := grows_alignToByte hs
  have ha := hg.sound hs
  have h8 : (alignToByte s).pos % 8 = 0 := by
    have hc := hs.cursor
    rw [alignToByte_eq, pos_setPos_end (t := s) (by unfold State.streamEnd at hc ⊢; omega)]
    omega
  unfold storedBody
  by_cases h1 : (alignToByte s).pos + 16 ≤ (alignToByte s).streamEnd
  · rw [readBitsLSB_eq ha.fits (by omega) h1, bind_ok]
    have hg1 := grows_setPos ha (by omega) h1
    have hs1 := hg1.sound ha
    have hp1 : ((alignToByte s).setPos ((alignToByte s).pos + 16)).pos = (alignToByte s).pos + 16 := pos_setPos_end h1
    by_cases h2 : (alignToByte s).pos + 32 ≤ (alignToByte s).streamEnd
    · rw [readBitsLSB_eq hs1.fits (by omega) (by rw [hp1]; simp; omega), bind_ok]
      have h2' : ((alignToByte s).setPos ((alignToByte s).pos + 16)).pos + 16 ≤ (alignToByte s).streamEnd := by omega
      have hg2 := grows_setPos hs1 (by omega) h2'
      have hp2 : (((alignToByte s).setPos ((alignToByte s).pos + 16)).setPos
          (((alignToByte s).setPos ((alignToByte s).pos + 16)).pos + 16)).pos = (alignToByte s).pos + 32 := by
        rw [pos_setPos_end h2']; omega
      exact EndsRes.of_grows (hg.trans (hg1.trans hg2)) (grows_storedData (hg2.sound hs1) (by omega) _ _) (fun _ h => h)
    · rw [readBitsLSB_end (by omega) (by rw [hp1]; simp; omega), bind_raise]
      exact sat_raise ⟨hg.trans hg1, by simp⟩
  · rw [readBitsLSB_end (by omega) (by omega), bind_raise]
    exact sat_raise ⟨hg, by simp⟩

end

end Sys2Proof.Machine
end

