-- ==== Sys2Proof/Laws/Rows.lean ====
section
/-! SUPPORT. The defilter steps (44_png_defilter.md R270, R271): the bytes of a row and where they are written. -/

-- One theorem at a time: the package as one text is compiled under a limit of memory.
set_option Elab.async false

namespace Sys2Proof.Machine

section
variable (pred : Byte → Byte → Byte → Byte) (s : State) (base : Nat)

@[simp] theorem reconRow_length : ∀ n, (reconRow pred s base n).length = n := by
  intro n
  induction n with
  | zero => rfl
  | succ n ih => simp [reconRow, ih]

/-- A longer row begins with the shorter one. -/
theorem reconRow_getD_succ {n i : Nat} (h : i < n) :
    (reconRow pred s base (n + 1)).getD i 0 = (reconRow pred s base n).getD i 0 := by
  simp only [reconRow, List.getD_eq_getElem?_getD]
  rw [List.getElem?_append_left (by simpa using h)]

theorem reconRow_getD {n m i : Nat} (h : i < n) (hm : n ≤ m) :
    (reconRow pred s base m).getD i 0 = (reconRow pred s base n).getD i 0 := by
  induction hm with
  | refl => rfl
  | step hm ih => rw [reconRow_getD_succ pred s base (Nat.lt_of_lt_of_le h hm), ih]

/-- Each byte of a row, from the bytes R271 names. -/
theorem reconRow_byte {n i : Nat} (h : i < n) :
    (reconRow pred s base n).getD i 0 =
      s.byteAt .dbuf (base + 1 + i) +
        pred (if 3 ≤ i then (reconRow pred s base n).getD (i - 3) 0 else 0) (s.byteAt .slPrev i)
          (if 3 ≤ i then s.byteAt .slPrev (i - 3) else 0) := by
  rw [reconRow_getD pred s base (show i < i + 1 by omega) h]
  have e : (if 3 ≤ i then (reconRow pred s base n).getD (i - 3) 0 else 0) =
      (if 3 ≤ i then (reconRow pred s base i).getD (i - 3) 0 else 0) := by
    split
    · exact reconRow_getD pred s base (by omega) (by omega)
    · rfl
  rw [e]
  conv => lhs; rw [reconRow, List.getD_eq_getElem?_getD, List.getElem?_append_right (by simp)]
  simp

end

theorem memory_storeRow (cur : List Byte) (s : State) (sp : MemSpace) :
    (storeRow cur s).memory sp =
      if sp = .pix then Memory.writeList s.mem.pix s.regs.pixLen.toNat cur
      else if sp = .slPrev then Memory.writeList s.mem.slPrev 0 cur else s.memory sp := by
  cases sp <;> rfl

/-- Every byte after a row is stored. -/
theorem byteAt_storeRow (cur : List Byte) (s : State) (sp : MemSpace) (a : Nat) :
    (storeRow cur s).byteAt sp a =
      if sp = .pix ∧ s.regs.pixLen.toNat ≤ a ∧ a < s.regs.pixLen.toNat + cur.length then
        cur.getD (a - s.regs.pixLen.toNat) 0
      else if sp = .slPrev ∧ a < cur.length then cur.getD a 0 else s.byteAt sp a := by
  have he : (storeRow cur s).env = s.env := rfl
  simp only [State.byteAt, memory_storeRow, he]
  cases sp
  case pix =>
    simp only [if_true, read?_writeList, true_and, reduceCtorEq, false_and, if_false]
    by_cases h : s.regs.pixLen.toNat ≤ a ∧ a < s.regs.pixLen.toNat + cur.length
    · simp only [if_pos h]
    · simp only [if_neg h]; rfl
  case slPrev =>
    simp only [if_true, read?_writeList, true_and, reduceCtorEq, false_and, if_false, Nat.zero_le, Nat.zero_add, Nat.sub_zero]
    by_cases h : a < cur.length
    · simp only [if_pos h]
    · simp only [if_neg h]; rfl
  all_goals simp

theorem defilterRow_eq (pred : Byte → Byte → Byte → Byte) {s : State}
    (h1 : s.rowBase + 1 + s.rowBytes ≤ s.params.dbufCap) (h2 : s.rowBytes ≤ 3 * s.params.maxWidth)
    (h3 : s.regs.pixLen.toNat + s.rowBytes ≤ s.params.pixCap) :
    defilterRow pred s = .ok () (storeRow (reconRow pred s s.rowBase s.rowBytes) s) := by
  simp only [defilterRow]
  rw [if_neg (by omega), if_neg (by omega), if_neg (by omega)]

theorem memory_beginRows (s : State) (sp : MemSpace) :
    (beginRows s).memory sp =
      if sp = .slPrev then Memory.writeList s.mem.slPrev 0 (List.replicate s.rowBytes 0) else s.memory sp := by
  cases sp <;> rfl

/-- Every byte after the rows are begun. -/
theorem byteAt_beginRows (s : State) (sp : MemSpace) (a : Nat) :
    (beginRows s).byteAt sp a = if sp = .slPrev ∧ a < s.rowBytes then 0 else s.byteAt sp a := by
  have he : (beginRows s).env = s.env := rfl
  simp only [State.byteAt, memory_beginRows, he]
  cases sp
  case slPrev =>
    simp only [if_true, read?_writeList, true_and, List.length_replicate, Nat.zero_le, Nat.zero_add, Nat.sub_zero]
    by_cases h : a < s.rowBytes
    · simp only [if_pos h, List.getD_eq_getElem?_getD, List.getElem?_replicate]
      rfl
    · simp only [if_neg h]; rfl
  all_goals simp

/-- The geometry START accepts, as numbers (R300). -/
theorem badGeometry_false {s : State} : badGeometry s = false ↔
    s.regs.width ≠ 0 ∧ s.regs.height ≠ 0 ∧ s.regs.width.toNat ≤ s.params.maxWidth ∧
      3 * s.regs.width.toNat * s.regs.height.toNat ≤ s.params.pixCap := by
  simp [badGeometry, and_assoc]

end Sys2Proof.Machine
end

