-- ==== Sys2Proof/Laws/Header.lean ====
section
/-! SUPPORT. The order of the CL lengths (30_encoding.md R116), and the reads that begin the block steps: the three header bits (42_deflate_blocks.md R202) and the stored
block's two fields (R204). -/

-- One theorem at a time: the package as one text is compiled under a limit of memory.
set_option Elab.async false

namespace Sys2Proof.Machine

/-- The model's CLORD is R116's order, and clVector its inverse. -/
theorem clOrder_eq : clOrder = transmitOrder := rfl

theorem clVector_transmitOrder (cls : List (BitVec 3)) {i : Nat} (h : i < 19) :
    (clVector cls).getD (transmitOrder.getD i 0) 0 = (cls.getD i 0).setWidth 4 := by
  have : i = 0 ∨ i = 1 ∨ i = 2 ∨ i = 3 ∨ i = 4 ∨ i = 5 ∨ i = 6 ∨ i = 7 ∨ i = 8 ∨ i = 9 ∨ i = 10 ∨ i = 11 ∨ i = 12 ∨ i = 13 ∨
      i = 14 ∨ i = 15 ∨ i = 16 ∨ i = 17 ∨ i = 18 := by omega
  rcases this with h | h | h | h | h | h | h | h | h | h | h | h | h | h | h | h | h | h | h <;> subst h <;> rfl

/-- The header's three bits at hand. -/
theorem fetchHeader_eq {s : State} (hf : FitsIn s) (h : s.pos + 3 ≤ s.streamEnd) :
    fetchHeader s = .ok (decodeBtype (BitVec.ofNat 2 (s.lsbValue (s.pos + 1) 2)))
      { s.setPos (s.pos + 3) with
        defl := { s.defl with stg := false }
        blk := { s.blk with bfinal := s.streamBit s.pos, btype := BitVec.ofNat 2 (s.lsbValue (s.pos + 1) 2) } } := by
  unfold fetchHeader
  let s0 : State := { s with defl := { s.defl with stg := false } }
  have h0 : FitsIn s0 := hf
  have e1 := readBitsLSB_eq (s := s0) (n := 1) h0 (by omega) (show s.pos + 1 ≤ s.streamEnd by omega)
  have e0 : s0.pos = s.pos := rfl
  rw [e0] at e1
  rw [e1, bind_ok]
  have hp : (s0.setPos (s.pos + 1)).pos = s.pos + 1 := pos_setPos_end (t := s) (by omega)
  have e2 := readBitsLSB_eq (s := s0.setPos (s.pos + 1)) (n := 2) h0 (by omega) (by rw [hp]; show s.pos + 1 + 2 ≤ s.streamEnd; omega)
  rw [hp] at e2
  rw [e2, bind_ok]
  have l1 : s0.lsbValue s.pos 1 = s.lsbValue s.pos 1 := lsbValue_congr rfl rfl _ _
  have l2 : (s0.setPos (s.pos + 1)).lsbValue (s.pos+1) 2 = s.lsbValue (s.pos+1) 2 := lsbValue_congr rfl rfl _ _
  rw [l1, l2]
  have v1 : (BitVec.ofNat 32 (s.lsbValue s.pos 1)).getLsbD 0 = s.streamBit s.pos := by
    simp only [State.lsbValue]; cases s.streamBit (s.pos + 0) <;> simp_all
  have v2 : (BitVec.ofNat 32 (s.lsbValue (s.pos+1) 2)).setWidth 2 = BitVec.ofNat 2 (s.lsbValue (s.pos+1) 2) := by
    apply BitVec.eq_of_toNat_eq; simp only [BitVec.toNat_setWidth, BitVec.toNat_ofNat]; omega
  rw [v1, v2]
  rfl

/-- The header's bits not all at hand: how far the reads go. -/
theorem fetchHeader_end1 {s : State} (h : s.streamEnd < s.pos + 1) :
    fetchHeader s = raise .outOfData { s with defl := { s.defl with stg := false } } := by
  unfold fetchHeader
  have e := readBitsLSB_end (s := { s with defl := { s.defl with stg := false } }) (n := 1) (by omega)
    (show s.streamEnd < s.pos + 1 from h)
  rw [e, bind_raise]

theorem fetchHeader_end3 {s : State} (hf : FitsIn s) (h : s.pos + 1 ≤ s.streamEnd) (h' : s.streamEnd < s.pos + 3) :
    fetchHeader s = raise .outOfData { s.setPos (s.pos + 1) with defl := { s.defl with stg := false } } := by
  let s0 : State := { s with defl := { s.defl with stg := false } }
  have e1 := readBitsLSB_eq (s := s0) (n := 1) hf (by omega) (show s.pos + 1 ≤ s.streamEnd by omega)
  have hp : (s0.setPos (s.pos + 1)).pos = s.pos + 1 := pos_setPos_end (t := s) (by omega)
  have e2 := readBitsLSB_end (s := s0.setPos (s.pos + 1)) (n := 2) (by omega)
    (by rw [hp]; show s.streamEnd < s.pos + 1 + 2; omega)
  unfold fetchHeader
  rw [e1, bind_ok]
  show (readBitsLSB 2 (s0.setPos (s.pos + 1))).bind _ = _
  rw [e2, bind_raise]
  rfl

/-- LEN and NLEN at hand, a being the byte the cursor is aligned to. -/
theorem storedBody_eq {s : State} {a : Nat} (hf : FitsIn s) (ha : a = (s.pos + 7)/8) (h : 8*(a+4) ≤ s.streamEnd) :
   storedBody s = storedData (BitVec.ofNat 32 (s.lsbValue (8*a) 16)) (BitVec.ofNat 32 (s.lsbValue (8*(a+2)) 16)) (s.setPos (8*(a+4))) := by
  unfold storedBody
  rw [alignToByte_eq, ← ha]
  have hpa : (s.setPos (8*a)).pos = 8*a := pos_setPos_end (t := s) (by omega)
  rw [readBitsLSB_eq (s := s.setPos (8*a)) hf (by omega) (by rw [hpa]; show _ ≤ s.streamEnd; omega), bind_ok, hpa]
  have e : 8 * a + 16 = 8 * (a+2) := by omega
  simp only [setPos_setPos, e]
  have hpb : (s.setPos (8*(a+2))).pos = 8*(a+2) := pos_setPos_end (t := s) (by omega)
  rw [readBitsLSB_eq (s := s.setPos (8*(a+2))) hf (by omega) (by rw [hpb]; show _ ≤ s.streamEnd; omega), bind_ok, hpb]
  have e : 8 * (a+2) + 16 = 8 * (a+4) := by omega
  simp only [setPos_setPos, e, State.setPos_lsbValue]

/-- The check of R204 on words is the check on numbers. -/
theorem xor_word {l n : Nat} (h1 : l < 65536) (h2 : n < 65536) : ((BitVec.ofNat 32 l ^^^ 0xFFFF) ≠ BitVec.ofNat 32 n) ↔ l ^^^ 0xFFFF ≠ n := by
  have hx : l ^^^ 0xFFFF < 2^16 := Nat.xor_lt_two_pow (by omega) (by omega)
  have e : BitVec.ofNat 32 l ^^^ 0xFFFF = BitVec.ofNat 32 (l ^^^ 0xFFFF) := by
    apply BitVec.eq_of_toNat_eq
    simp only [BitVec.toNat_xor, BitVec.toNat_ofNat]
    rw [Nat.mod_eq_of_lt (by omega), Nat.mod_eq_of_lt (show l ^^^ 0xFFFF < 2^32 by omega)]
    rfl
  rw [e]
  constructor
  · intro h h'; exact h (by rw [h'])
  · intro h h'; apply h
    have := congrArg BitVec.toNat h'
    simp only [BitVec.toNat_ofNat] at this
    omega

end Sys2Proof.Machine
end

