-- ==== Sys2Proof/Laws/Tokens.lean ====
section
/-! SUPPORT. Back-references: the rows of the extra-bit tables (30_encoding.md R124 to R126), the copy that succeeds
(43_lz77_expander.md R248, R249), and the meanings of the D symbols and length codes as one operation over the symbol
(R244, R247). -/

-- One theorem at a time: the package as one text is compiled under a limit of memory.
set_option Elab.async false

namespace Sys2Proof.Machine

/-- A row of R124 or R125 is the model's entry for its symbol. -/
theorem lengthRows_entry {n e b : Nat} (h : (n, e, b) ∈ lengthRows) : 257 ≤ n ∧ n ≤ 285 ∧ lengthEntry n = (e, b) := by
  have : ∀ r ∈ lengthRows, 257 ≤ r.1 ∧ r.1 ≤ 285 ∧ lengthEntry r.1 = r.2 := by decide
  exact this _ h

/-- A row of R126 is the model's entry for its symbol. -/
theorem distRows_entry {n e b : Nat} (h : (n, e, b) ∈ distRows) : n ≤ 29 ∧ distEntry n = (e, b) := by
  have : ∀ r ∈ distRows, r.1 ≤ 29 ∧ distEntry r.1 = r.2 := by decide
  exact this _ h

/-- No length code and no distance code is without its row. -/
theorem rows_all : lengthRows.map (fun r => r.1) = List.range' 257 29 ∧ distRows.map (fun r => r.1) = List.range' 0 30 := by
  decide

/-- Appending, as the fields it writes. -/
theorem Appends.frame' {s t : State} {n : Nat} (h : Appends s n t) (hn : s.outLen + n < 2 ^ 32) :
    t = { s with regs := { s.regs with dbufLen := BitVec.ofNat 32 (s.outLen + n) }, mem := t.mem } := by
  have hf := h.frame
  have hm := congrArg State.mem hf
  have hlen : t.regs.dbufLen = BitVec.ofNat 32 (s.outLen + n) := by
    apply BitVec.eq_of_toNat_eq
    have := h.length
    unfold State.outLen at this hn ⊢
    rw [this, BitVec.toNat_ofNat, Nat.mod_eq_of_lt hn]
  conv => lhs; rw [hf]
  rw [hlen, hm]

/-- The copy that succeeds. -/
theorem copyMatch_done {s : State} (hw : s.params.dbufCap < 2^32) (h0 : 1 ≤ s.tok.dist.toNat) (h1 : s.tok.dist.toNat ≤ s.outLen) (h2 : s.outLen + s.tok.len.toNat ≤ s.params.dbufCap) :
  ∃ t, copyMatch s = .ok () t ∧ t = { s with regs := { s.regs with dbufLen := BitVec.ofNat 32 (s.outLen + s.tok.len.toNat) }, mem := t.mem } ∧ t.outLen = s.outLen + s.tok.len.toNat ∧
   (∀ k, k < s.tok.len.toNat → t.byteAt .dbuf (s.outLen + k) = s.byteAt .dbuf (s.outLen - s.tok.dist.toNat + k % s.tok.dist.toNat)) ∧
   ∀ sp a, ¬(sp = .dbuf ∧ s.outLen ≤ a ∧ a < s.outLen + s.tok.len.toNat) → t.byteAt sp a = s.byteAt sp a := by
  obtain ⟨ha, hb⟩ := copyBytes_spec s.tok.dist.toNat s.tok.len.toNat s (by omega) h0 h1
  refine ⟨_, ?_, ?_, ha.length, hb, ha.old⟩
  · unfold copyMatch; rw [if_neg (by omega), if_neg (by omega)]
  · exact ha.frame' (by omega)

/-- A D symbol with its extra bits at hand. -/
theorem distanceSymbol_eq {s : State} {d : BitVec 5} {eD bD : Nat} (hf : FitsIn s) (hd : d.toNat ≤ 29) (he : distEntry d.toNat = (eD, bD)) (h : s.pos + eD ≤ s.streamEnd) :
   distanceSymbol d s = copyMatch ((s.setPos (s.pos + eD)).setDist (bD + s.lsbValue s.pos eD)) := by
  unfold distanceSymbol
  rw [if_neg (by omega), he, readExtra_eq hf (by have := distEntry_extra d.toNat; rw [he] at this; exact this) h, bind_ok]

/-- What the decoder's D symbols mean, in one equation. -/
theorem exec_dist (d : BitVec 5) (s : State) : exec (decodeDist d) s = (distanceSymbol d s).toOutcome := by
  have : ∀ d : BitVec 5, d = 0 ∨ d = 1 ∨ d = 2 ∨ d = 3 ∨ d = 4 ∨ d = 5 ∨ d = 6 ∨ d = 7 ∨ d = 8 ∨ d = 9 ∨ d = 10 ∨ d = 11 ∨ d = 12 ∨ d = 13 ∨ d = 14 ∨ d = 15 ∨ d = 16 ∨ d = 17 ∨ d = 18 ∨ d = 19 ∨ d = 20 ∨ d = 21 ∨ d = 22 ∨ d = 23 ∨ d = 24 ∨ d = 25 ∨ d = 26 ∨ d = 27 ∨ d = 28 ∨ d = 29 ∨ d = 30 ∨ d = 31 := by decide
  rcases this d with h | h | h | h | h | h | h | h | h | h | h | h | h | h | h | h | h | h | h | h | h | h | h | h | h | h | h | h | h | h | h | h <;> subst h <;> rfl

/-- What the decoder's length codes mean, in one equation. -/
theorem exec_length {sym : BitVec 9} {i : Instr} (hd : decode (.ll sym) = .ok i) (h1 : 257 ≤ sym.toNat)
    (h2 : sym.toNat ≤ 285) (s : State) : exec i s = (lengthSymbol sym.toNat s).toOutcome := by
  have hx : ∃ k, k < 29 ∧ sym = BitVec.ofNat 9 (257 + k) :=
    ⟨sym.toNat - 257, by omega, by apply BitVec.eq_of_toNat_eq; simp only [BitVec.toNat_ofNat]; omega⟩
  obtain ⟨k, hk, rfl⟩ := hx
  have hcases : k = 0 ∨ k = 1 ∨ k = 2 ∨ k = 3 ∨ k = 4 ∨ k = 5 ∨ k = 6 ∨ k = 7 ∨ k = 8 ∨ k = 9 ∨ k = 10 ∨ k = 11 ∨
      k = 12 ∨ k = 13 ∨ k = 14 ∨ k = 15 ∨ k = 16 ∨ k = 17 ∨ k = 18 ∨ k = 19 ∨ k = 20 ∨ k = 21 ∨ k = 22 ∨ k = 23 ∨
      k = 24 ∨ k = 25 ∨ k = 26 ∨ k = 27 ∨ k = 28 := by omega
  rcases hcases with h | h | h | h | h | h | h | h | h | h | h | h | h | h | h | h | h | h | h | h | h | h | h | h | h |
    h | h | h | h <;> subst h <;> cases hd <;> rfl

end Sys2Proof.Machine
end

