-- ==== Sys2Proof/Laws/Phases.lean ====
section
/-! SUPPORT. What the steps of the decompression phases can do (42_deflate_blocks.md R200, 60_exceptions.md R324), what a
step is on each kind of turn, and the ordering point between host and engine (20_memory.md R100, R102). -/

-- One theorem at a time: the package as one text is compiled under a limit of memory.
set_option Elab.async false

namespace Sys2Proof.Machine

/-- A step that takes a next state: one that meets `P`, or an error entry of a kind and in a state that meet `Q`. -/
def Ends (P : State → Prop) (Q : ErrorKind → State → Prop) (o : Host.Outcome State Fault Refusal) : Prop :=
  ∃ t, o = .next t ∧ (P t ∨ ∃ e u, t = errorEntry e u ∧ Q e u)

theorem ends_next {P : State → Prop} {Q : ErrorKind → State → Prop} {t : State} (h : P t) : Ends P Q (.next t) :=
  ⟨t, rfl, .inl h⟩

theorem ends_error {P : State → Prop} {Q : ErrorKind → State → Prop} {e : ErrorKind} {u : State} (h : Q e u) :
    Ends P Q (.next (errorEntry e u)) := ⟨_, rfl, .inr ⟨e, u, rfl, h⟩⟩

theorem ends_of_sat {α : Type} {P : α → State → Prop} {P' : State → Prop} {Q Q' : ErrorKind → State → Prop}
    {r : Res α} (h : Res.Sat P Q (fun _ => False) r) (hP : ∀ a t, P a t → P' t) (hQ : ∀ e u, Q e u → Q' e u) :
    Ends P' Q' r.toOutcome := by
  cases h with
  | ok h => exact ends_next (hP _ _ h)
  | raised h => exact ends_error (hQ _ _ h)
  | fault h => exact h.elim

/-! ## Turns -/

/-- The engine's step (R200), whatever turns are pending. -/
def engineStep (s : State) : Host.Outcome State Fault Refusal :=
  match fetchEngine s with
  | .instr i u => exec i u
  | .over o => o

/-- What a step does with what is fetched. -/
def ran (x : Fetched) : Host.Outcome State Fault Refusal :=
  match x with
  | .instr i u => exec i u
  | .over o => o

theorem step_of_fetch {s : State} {x : Fetched} (h : fetch s = x) : step s = ran x := by
  subst h
  rfl

/-- Without a pending turn the engine moves. -/
theorem step_engine {s : State} (h : s.env.inputs = []) : step s = engineStep s := by
  have hf : fetch s = fetchEngine s := by unfold fetch; rw [h]
  exact step_of_fetch hf

/-- A pending turn is taken in the state without it. -/
theorem step_turn {s : State} {t : Turn} {ts : List Turn} (h : s.env.inputs = t :: ts) :
    step s = match fetchTurn t (s.withInputs ts) with
      | .instr i u => exec i u
      | .over o => o := by
  have hf : fetch s = fetchTurn t (s.withInputs ts) := by unfold fetch; rw [h]
  exact step_of_fetch hf

theorem step_engineTurn {s : State} {ts : List Turn} (h : s.env.inputs = .engine :: ts) :
    step s = engineStep (s.withInputs ts) := by
  exact step_turn h

/-- The command of a CTRL word, from its three command bits (R303). -/
theorem decodeCtrl_bits (w : Word) :
    decodeCtrl w = if w.getLsbD 1 = true then .ctrlAbort w else if w.getLsbD 2 = true then .ctrlClear w
      else if w.getLsbD 0 = true then .ctrlStart w else .ctrlNone w := by
  have h : ∀ (m v : Nat), m < 8 → rowMatches m v w.toNat = rowMatches m v (w.toNat % 8) := by
    intro m v hm
    have e : w.toNat &&& m = w.toNat % 8 &&& m := by
      apply Nat.eq_of_testBit_eq
      intro i
      have h8 : (8 : Nat) = 2 ^ 3 := rfl
      rw [Nat.testBit_and, Nat.testBit_and, h8, Nat.testBit_mod_two_pow]
      by_cases hi : i < 3
      · simp [hi]
      · have : m.testBit i = false := Nat.testBit_lt_two_pow (Nat.lt_of_lt_of_le hm (by
          have := Nat.pow_le_pow_right (n := 2) (by omega) (show 3 ≤ i by omega); omega))
        simp [this]
    simp only [rowMatches, e]
  have hb : ∀ i, i < 3 → w.getLsbD i = (w.toNat % 8).testBit i := by
    intro i hi
    have h8 : (8 : Nat) = 2 ^ 3 := rfl
    rw [h8, Nat.testBit_mod_two_pow, BitVec.getLsbD]
    simp [hi]
  unfold decodeCtrl
  rw [h 2 2 (by omega), h 6 4 (by omega), h 7 1 (by omega), hb 0 (by omega), hb 1 (by omega), hb 2 (by omega)]
  have hlt := Nat.mod_lt w.toNat (show 8 > 0 by omega)
  generalize w.toNat % 8 = x at hlt
  have : x = 0 ∨ x = 1 ∨ x = 2 ∨ x = 3 ∨ x = 4 ∨ x = 5 ∨ x = 6 ∨ x = 7 := by omega
  rcases this with h | h | h | h | h | h | h | h <;> subst h <;> rfl

/-! ## P_TOKENS -/

/-- The four shapes of an LL symbol (R118). -/
theorem decodeLL_cases {sym : BitVec 9} {i : Instr} (h : decodeLL sym = .ok i) :
    (∃ b, i = .llLiteral b) ∨ i = .llEob ∨ (257 ≤ sym.toNat ∧ sym.toNat ≤ 285) ∨ ∃ x, i = .llInvalid286287 x := by
  unfold decodeLL at h
  split at h
  · cases h; exact .inl ⟨_, rfl⟩
  · split at h <;> first
      | (cases h; exact .inr (.inl rfl))
      | (cases h; exact .inr (.inr (.inr ⟨_, rfl⟩)))
      | (exact .inr (.inr (.inl (by omega))))
      | cases h

theorem decodeLL_ok {sym : BitVec 9} (h : sym.toNat < 288) : ∃ i, decodeLL sym = .ok i := by
  have key : ∀ x : BitVec 9, x.toNat < 288 → decodeLL x ≠ .error .llSymbolAbove287 ∧ decodeLL x ≠ .error .clSymbolAbove18 ∧
      decodeLL x ≠ .error .valueTooWide := by
    decide +kernel
  have h3 := key sym h
  cases hd : decodeLL sym with
  | ok i => exact ⟨i, rfl⟩
  | error r =>
    rw [hd] at h3
    cases r
    · exact absurd rfl h3.1
    · exact absurd rfl h3.2.1
    · exact absurd rfl h3.2.2

/-- Everything an LL symbol's meaning can do. -/
theorem exec_token {s : State} (hs : Sound s) {sym : BitVec 9} {i : Instr} (h : decodeLL sym = .ok i) :
    Ends (fun t => Grows s (t.setPhase s.phase) ∧ (t.phase = s.phase ∨ t.phase = .blockEnd))
      (fun e u => Grows s u ∧ e ∈ phaseErrors .tokens) (exec i s) := by
  rcases decodeLL_cases h with ⟨b, rfl⟩ | rfl | ⟨h1, h2⟩ | ⟨x, rfl⟩
  · refine ends_of_sat (grows_append hs b) (fun _ t ht => ?_) (fun e u hu => ⟨hu.1, ?_⟩)
    · exact ⟨by rw [← ht.phase]; exact ht, .inl ht.phase⟩
    · have := hu.2; simp only [List.mem_singleton] at this; subst this; decide
  · exact ends_next ⟨Grows.refl hs, .inr rfl⟩
  · rw [exec_length h h1 h2]
    refine ends_of_sat (grows_lengthSymbol hs sym.toNat) (fun _ t ht => ?_) (fun e u hu => ⟨hu.1, ?_⟩)
    · exact ⟨by rw [← ht.phase]; exact ht, .inl ht.phase⟩
    · have hsub : ∀ e ∈ [ErrorKind.outOfData, .noMatchingCode, .invalidDistanceCode, .invalidBackReference, .outputOverflow],
          e ∈ phaseErrors .tokens := by decide
      exact hsub e hu.2
  · exact ends_error ⟨Grows.refl hs, by decide⟩

theorem activeLL_wf {s : State} (hs : Sound s) : s.activeLL.Wf 288 := by
  unfold State.activeLL
  split
  · exact fLL_wf
  · exact hs.tableLl

/-- Everything the P_TOKENS step can do: at least one bit is read where no error is raised. -/
theorem engine_tokens {s : State} (hs : Sound s) (hp : s.phase = .tokens) :
    Ends (fun t => Grows s (t.setPhase s.phase) ∧ s.pos < t.pos ∧ (t.phase = .tokens ∨ t.phase = .blockEnd))
      (fun e u => Grows s u ∧ e ∈ phaseErrors .tokens) (engineStep s) := by
  simp only [engineStep, fetchEngine, hp, fetchToken]
  have hd : Res.Sat (fun r u => Decoded s.activeLL s r u) (fun e u => Grows s u ∧ e ∈ phaseErrors .tokens)
      (fun _ => False) (decodeSymbol s.activeLL s) :=
    decodeSymbol_sat (activeLL_wf hs) hs.fits (fun _ _ h => h) ⟨Grows.refl hs, by decide⟩ ⟨Grows.refl hs, by decide⟩
  generalize decodeSymbol s.activeLL s = r at hd
  cases hd with
  | raised h => exact ends_error h
  | fault h => exact h.elim
  | ok h =>
    rename_i a u
    obtain ⟨i, hdec⟩ := decodeLL_ok ((activeLL_wf hs).symbols _ h.symbol_mem)
    simp only [bind_ok, hdec, Fetched.ofRes]
    have hlen := h.lenPos
    have hg0 : Grows s u := by rw [h.next]; exact grows_setPos hs (by omega) h.fits
    have hpos : u.pos = s.pos + a.2.toNat := by rw [h.next]; exact pos_setPos_end h.fits
    have hg : Grows s (u.setSym a.1) := hg0.trans (grows_tok (hg0.sound hs) _)
    have hsu := hg.sound hs
    have hup : (u.setSym a.1).pos = s.pos + a.2.toNat := hpos
    obtain ⟨t, ht, hcase⟩ := exec_token hsu hdec
    refine ⟨t, ht, ?_⟩
    rcases hcase with ⟨hgt, hph⟩ | ⟨e, v, hv, hgv, he⟩
    · refine .inl ⟨?_, ?_, ?_⟩
      · rw [hg.phase] at hgt
        rw [← hp]
        exact hg.trans hgt
      · have := hgt.cursor.1
        have e : (t.setPhase (u.setSym a.1).phase).pos = t.pos := rfl
        omega
      · rw [hg.phase, hp] at hph
        exact hph
    · exact .inr ⟨e, v, hv, hg.trans hgv, he⟩

/-- The table ACT selects (R241), and what the P_TOKENS step fetches. -/
theorem activeLL_of {s : State} {T : HuffTable} (h : (s.blk.act = false ∧ T = fLL) ∨ (s.blk.act = true ∧ T = s.tabs.ll)) :
    s.activeLL = T := by
  rcases h with ⟨h, rfl⟩ | ⟨h, rfl⟩ <;> simp [State.activeLL, h]

theorem fetch_tokens {s : State} (hi : s.env.inputs = []) (hp : s.phase = .tokens) :
    fetch s = .ofRes (fetchToken s) := by
  simp only [fetch, hi, fetchEngine, hp]

/-! ## P_STORED and P_DYNAMIC -/

/-- Everything the P_STORED step can do. -/
theorem engine_stored {s : State} (hs : Sound s) (hp : s.phase = .stored) :
    Ends (fun t => Grows s (t.setPhase s.phase) ∧ t.phase = .blockEnd)
      (fun e u => Grows s u ∧ e ∈ phaseErrors .stored) (engineStep s) := by
  have e : engineStep s = (storedBody s).toOutcome := by
    simp only [engineStep, fetchEngine, hp, exec, execBtypeStored, if_true]
  rw [e]
  refine ends_of_sat (grows_storedBody hs) (fun _ _ h => h) (fun e u hu => ⟨hu.1, ?_⟩)
  have hsub : ∀ e ∈ [ErrorKind.outOfData, .lengthMismatch, .outputOverflow], e ∈ phaseErrors .stored := by decide
  exact hsub e hu.2

/-- Everything the P_DYNAMIC step can do. -/
theorem engine_dynamic {s : State} (hs : Sound s) (hp : s.phase = .dynamic) :
    Ends (fun t => Grows s (t.setPhase s.phase) ∧ t.phase = .tokens)
      (fun e u => Grows s u ∧ e ∈ phaseErrors .dynamic) (engineStep s) := by
  have e : engineStep s = (dynamicBody s).toOutcome := by
    simp only [engineStep, fetchEngine, hp, exec, execBtypeDynamic, if_true]
  rw [e]
  refine ends_of_sat (grows_dynamicBody hs) (fun _ _ h => h) (fun e u hu => ⟨hu.1, ?_⟩)
  have hsub : ∀ e ∈ [ErrorKind.outOfData, .invalidCodeLengths, .noMatchingCode], e ∈ phaseErrors .dynamic := by decide
  exact hsub e hu.2

/-! ## Registers -/

/-- A register store reaches no register but CONFIG, IN_LEN, WIDTH and HEIGHT, and nothing else of the state. -/
theorem hostRegStore_frame (offset : Nat) (v : Word) (s : State) :
    hostRegStore offset v s =
      { s with regs := { s.regs with
          defilterEn := (hostRegStore offset v s).regs.defilterEn, irqEn := (hostRegStore offset v s).regs.irqEn
          inLen := (hostRegStore offset v s).regs.inLen, width := (hostRegStore offset v s).regs.width
          height := (hostRegStore offset v s).regs.height } } := by
  unfold hostRegStore
  split
  · rfl
  · split <;> rfl

/-- While BUSY a register store does nothing. -/
theorem hostRegStore_busy (offset : Nat) (v : Word) {s : State} (h : s.phase.busy = true) : hostRegStore offset v s = s := by
  simp only [hostRegStore, if_pos h]

/-! ## The ordering point of 20_memory.md R100 and R102 -/

/-- The host owns the memories exactly while STATE is not BUSY. -/
@[simp] theorem State.hostOwns_eq (s : State) : s.hostOwns = !s.phase.busy := rfl

/-- After the change of STATE no engine write of the run is left: the engine changes nothing. -/
theorem step_hostOwns {s : State} (h : s.hostOwns = true) (hi : s.env.inputs = []) : step s = .next s := by
  rw [State.hostOwns_eq] at h
  cases hp : s.phase <;> rw [hp] at h <;> first | exact absurd h (by decide) | simp only [step, fetch, hi, fetchEngine, hp]

/-- Before it a host read of a byte inside the space is a draw, -/
theorem hostMemRead_engineOwns {m : HostMem} {a : Nat} {s : State} (h : s.hostOwns = false) (ha : a < s.sizeOf m.space) :
    hostMemRead m a s = .next (s.deliver (s.drawByte.setWidth 32)).drawn := by
  have h1 : ¬ s.sizeOf m.space ≤ a := by omega
  have h2 : hostReadable m a s = false := by simp only [hostReadable, h, Bool.false_and]
  simp only [hostMemRead, if_neg h1, h2, Bool.false_eq_true, if_false]

/-- and after it the byte the run left there, wherever it wrote one. -/
theorem hostMemRead_hostOwns {m : HostMem} {a : Nat} {s : State} (h : s.hostOwns = true) (ha : a < s.sizeOf m.space)
    (hw : m = .inMem ∨ (m = .dbuf ∧ a < s.regs.dbufLen.toNat) ∨ (m = .pix ∧ a < s.regs.pixLen.toNat)) :
    hostMemRead m a s = .next (s.deliver ((s.byteAt m.space a).setWidth 32)) := by
  have h1 : ¬ s.sizeOf m.space ≤ a := by omega
  have h2 : hostReadable m a s = true := by
    rcases hw with rfl | ⟨rfl, hw⟩ | ⟨rfl, hw⟩
    · simp only [hostReadable, h, Bool.true_and]
    · simp only [hostReadable, h, Bool.true_and, decide_eq_true hw]
    · simp only [hostReadable, h, Bool.true_and, decide_eq_true hw]
  simp only [hostMemRead, if_neg h1, h2, if_true]

/-- The invariant gives the decompression phases what they rely on. -/
theorem Inv.sound {s : State} (h : Inv s) (hb : s.phase.busy = true) : Sound s :=
  ⟨h.params, h.input hb, h.cursor hb, h.output, h.tableCl, h.tableLl, h.tableD, h.cllLength, h.lensLength⟩

end Sys2Proof.Machine
end

