-- ==== Sys2Proof/Tests/Slice0.lean ====
section
/-! SUPPORT. Tests. Expected results are taken from spec/95_test_vectors.md (named at each), from the encodings of
spec/30_encoding.md, or worked by hand from the rule named; none is the model's own answer. -/

-- One theorem at a time: the package as one text is compiled under a limit of memory.
set_option Elab.async false

namespace Sys2Proof.Tests

open Sys2Proof Sys2Proof.Machine

/-! ## Small states -/

/-- Small parameters. -/
def par : Params := { inCap := 64, dbufCap := 300, pixCap := 64, maxWidth := 4 }

/-- After reset. -/
def blank : State := State.resetWith par

/-- IN holds the bytes; the block is in a phase with the cursor at a position, the defilter off. -/
def job (bytes : List Byte) (p : Phase) (pos : Nat) : State :=
  State.setPos
    { blank with
      mem := { blank.mem with inMem := Memory.writeList [] 0 bytes }
      regs := { blank.regs with inLen := BitVec.ofNat 32 bytes.length, defilterEn := false }
      phase := p } pos

/-- With bytes in DBUF. -/
def out (bytes : List Byte) (s : State) : State :=
  { s with
    mem := { s.mem with dbuf := Memory.writeList [] 0 bytes }
    regs := { s.regs with dbufLen := BitVec.ofNat 32 bytes.length } }

/-- With DBUF_LEN given, where only the length matters. -/
def filled (n : Nat) (s : State) : State := { s with regs := { s.regs with dbufLen := BitVec.ofNat 32 n } }

/-- With a pending turn. -/
def turn (t : Turn) (s : State) : State := s.withInputs [t]

/-- In P_DEFILTER_ROW at row 0 of a w×h image whose filtered bytes are in DBUF. -/
def image (bytes : List Byte) (w h : Nat) : State :=
  let s := out bytes (job [0] .defilterRow 0)
  { s with
    regs := { s.regs with width := BitVec.ofNat 32 w, height := BitVec.ofNat 32 h, defilterEn := true }
    mem := { s.mem with slPrev := Memory.writeList [] 0 (List.replicate (3 * w) 0) }
    defl := { row := 0, stg := true } }

/-- The outcome is a next state with a property. -/
def nextIs (o : Host.Outcome State Fault Refusal) (f : State → Bool) : Bool :=
  match o with
  | .next t => f t
  | .fault _ => false
  | .refused _ => false

/-- The first bytes of a memory. -/
def bytesOf (s : State) (sp : MemSpace) (n : Nat) : List Byte := (List.range n).map (s.byteAt sp)

/-- In P_ERROR with a code, the context cursor at a place. -/
def failed (t : State) (code byte bit : Nat) : Bool :=
  decide (t.phase = .error ∧ t.err.code.toNat = code ∧ t.err.byte.toNat = byte ∧ t.err.bit.toNat = bit)

theorem next_of {o : Host.Outcome State Fault Refusal} (h : nextIs o (fun _ => true) = true) : ∃ t, o = .next t := by
  cases o with
  | next t => exact ⟨t, rfl⟩
  | fault r => cases h
  | refused r => cases h

/-! ## Well-formedness: an ill-formed term for each check, refused, and one at the edge that is not -/

theorem test_wf_llInvalid286287 : (Instr.llInvalid286287 285).wf = false ∧ (Instr.llInvalid286287 288).wf = false ∧
    (Instr.llInvalid286287 287).wf = true := by decide
theorem test_wf_dInvalid3031 : (Instr.dInvalid3031 29).wf = false ∧ (Instr.dInvalid3031 31).wf = true := by decide
theorem test_wf_filterInvalid67 : (Instr.filterInvalid67 5).wf = false ∧ (Instr.filterInvalid67 8).wf = false ∧
    (Instr.filterInvalid67 7).wf = true := by decide
theorem test_wf_filterInvalid815 : (Instr.filterInvalid815 7).wf = false ∧ (Instr.filterInvalid815 16).wf = false ∧
    (Instr.filterInvalid815 15).wf = true := by decide
theorem test_wf_filterInvalid1631 : (Instr.filterInvalid1631 15).wf = false ∧ (Instr.filterInvalid1631 32).wf = false ∧
    (Instr.filterInvalid1631 31).wf = true := by decide
theorem test_wf_filterInvalid3263 : (Instr.filterInvalid3263 31).wf = false ∧ (Instr.filterInvalid3263 64).wf = false ∧
    (Instr.filterInvalid3263 63).wf = true := by decide
theorem test_wf_filterInvalid64127 : (Instr.filterInvalid64127 63).wf = false ∧ (Instr.filterInvalid64127 128).wf = false ∧
    (Instr.filterInvalid64127 127).wf = true := by decide
theorem test_wf_filterInvalid128255 : (Instr.filterInvalid128255 127).wf = false ∧
    (Instr.filterInvalid128255 255).wf = true := by decide
theorem test_wf_ctrlAbort : (Instr.ctrlAbort 5).wf = false ∧ (Instr.ctrlAbort 7).wf = true := by decide
theorem test_wf_ctrlClear : (Instr.ctrlClear 6).wf = false ∧ (Instr.ctrlClear 5).wf = true := by decide
theorem test_wf_ctrlStart : (Instr.ctrlStart 3).wf = false ∧ (Instr.ctrlStart 5).wf = false ∧
    (Instr.ctrlStart 0xFFFFFFF9).wf = true := by decide
theorem test_wf_ctrlNone : (Instr.ctrlNone 1).wf = false ∧ (Instr.ctrlNone 0xFFFFFFF8).wf = true := by decide
theorem test_wf_bcReserved67 : (Instr.bcReserved67 5 0).wf = false ∧ (Instr.bcReserved67 7 63).wf = true := by decide

/-! ## Decoding: every constructor, from the values of R112, R117, R118, R119, R128, R130, R131, R132 -/

theorem test_decode_btype : ([0b00, 0b01, 0b10, 0b11] : List (BitVec 2)).map decodeBtype =
    [.btypeStored, .btypeFixed, .btypeDynamic, .btypeReserved] := by decide
theorem test_decode_ll_literals : ([0, 0x41, 255] : List (BitVec 9)).map decodeLL =
    [.ok (.llLiteral 0), .ok (.llLiteral 0x41), .ok (.llLiteral 255)] := by decide
theorem test_decode_ll_lengths1 : ([256, 257, 258, 259, 260, 261, 262, 263, 264, 265] : List (BitVec 9)).map decodeLL =
    [.ok .llEob, .ok .llLen257, .ok .llLen258, .ok .llLen259, .ok .llLen260, .ok .llLen261, .ok .llLen262,
     .ok .llLen263, .ok .llLen264, .ok .llLen265] := by decide
theorem test_decode_ll_lengths2 : ([266, 267, 268, 269, 270, 271, 272, 273, 274, 275] : List (BitVec 9)).map decodeLL =
    [.ok .llLen266, .ok .llLen267, .ok .llLen268, .ok .llLen269, .ok .llLen270, .ok .llLen271, .ok .llLen272,
     .ok .llLen273, .ok .llLen274, .ok .llLen275] := by decide
theorem test_decode_ll_lengths3 : ([276, 277, 278, 279, 280, 281, 282, 283, 284, 285] : List (BitVec 9)).map decodeLL =
    [.ok .llLen276, .ok .llLen277, .ok .llLen278, .ok .llLen279, .ok .llLen280, .ok .llLen281, .ok .llLen282,
     .ok .llLen283, .ok .llLen284, .ok .llLen285] := by decide
theorem test_decode_ll_edges : ([286, 287, 288, 511] : List (BitVec 9)).map decodeLL =
    [.ok (.llInvalid286287 286), .ok (.llInvalid286287 287), .error .llSymbolAbove287, .error .llSymbolAbove287] := by decide
theorem test_decode_dist1 : ([0, 1, 2, 3, 4, 5, 6, 7, 8, 9, 10, 11, 12, 13, 14, 15] : List (BitVec 5)).map decodeDist =
    [.d0, .d1, .d2, .d3, .d4, .d5, .d6, .d7, .d8, .d9, .d10, .d11, .d12, .d13, .d14, .d15] := by decide
theorem test_decode_dist2 : ([16, 17, 18, 19, 20, 21, 22, 23, 24, 25, 26, 27, 28, 29, 30, 31] : List (BitVec 5)).map decodeDist =
    [.d16, .d17, .d18, .d19, .d20, .d21, .d22, .d23, .d24, .d25, .d26, .d27, .d28, .d29, .dInvalid3031 30,
     .dInvalid3031 31] := by decide
theorem test_decode_cl : ([0, 15, 16, 17, 18, 19, 31] : List (BitVec 5)).map decodeCL =
    [.ok (.clLen015 0), .ok (.clLen015 15), .ok .clRepeatPrev16, .ok .clRepeatZero17, .ok .clRepeatZero18,
     .error .clSymbolAbove18, .error .clSymbolAbove18] := by decide
theorem test_decode_filter : ([0, 1, 2, 3, 4, 5] : List Byte).map decodeFilter =
    [.filterNone, .filterSub, .filterUp, .filterAverage, .filterPaeth, .filterInvalid5] := by decide
theorem test_decode_filter_invalid : ([6, 7, 8, 15, 16, 31, 32, 63, 64, 127, 128, 255] : List Byte).map decodeFilter =
    [.filterInvalid67 6, .filterInvalid67 7, .filterInvalid815 8, .filterInvalid815 15, .filterInvalid1631 16,
     .filterInvalid1631 31, .filterInvalid3263 32, .filterInvalid3263 63, .filterInvalid64127 64, .filterInvalid64127 127,
     .filterInvalid128255 128, .filterInvalid128255 255] := by decide
theorem test_decode_ctrl : ([0b000, 0b001, 0b100, 0b101, 0b010, 0b111, 0xFFFFFFF8] : List Word).map decodeCtrl =
    [.ctrlNone 0, .ctrlStart 1, .ctrlClear 4, .ctrlClear 5, .ctrlAbort 2, .ctrlAbort 7, .ctrlNone 0xFFFFFFF8] := by decide
theorem test_decode_bc : ([0b000000001, 0b001001000, 0b010000111, 0b011010000, 0b100100001, 0b101000000, 0b110000000, 0b111111111] :
    List (BitVec 9)).map decodeBC = [.bcReadBitMsb 1, .bcReadBitsMsb 8, .bcPeekBitsMsb 7, .bcReadBitsLsb 16, .bcSkipBits 33,
     .bcAlignToByte 0, .bcReserved67 6 0, .bcReserved67 7 63] := by decide
theorem test_decode_ht : ([0b00011, 0b01001, 0b10100, 0b11000] : List (BitVec 5)).map decodeHT =
    [.htBuildFixed 3, .htBuildFromLengths 1, .htDecode 4, .htReserved3 0] := by decide
/-- A value wider than its space is refused by name. -/
theorem test_decode_tooWide : decodeBytes .btype [4] = .error .valueTooWide ∧
    decodeBytes .dist [0, 1] = .error .valueTooWide := by decide

/-! ## The interface on table words -/

theorem test_table_len271 : decodeTableWord 16 271 = some .llLen271 ∧ decodeTableWord 32 1 = some (.ctrlStart 1) ∧
    decodeTableWord 16 29 = some .d29 ∧ decodeTableWord 8 0x63 = some (.filterInvalid64127 0x63) := by decide +kernel
/-- From reset, an LL symbol placed in the stream is what the next step runs: 256 ends the block (R243). -/
theorem test_fetch_eob : nextIs (step (State.reset.withFetchWord 16 256)) (fun t => t.phase == .blockEnd) = true := by
  decide +kernel
theorem test_fetch_start : nextIs (step (State.reset.withFetchWord 32 1)) (fun t => decide (t.phase = .error ∧
    t.err.code = 12)) = true := by decide +kernel

/-! ## bit_cursor: L2.1 on IN = b2 5c -/

/-- The bytes of L2.1. -/
def cursorJob (pos : Nat) : State := job [0xb2, 0x5c] .header pos

/-- A response with a value and the cursor after it. -/
def answered (o : Host.Outcome State Fault Refusal) (v pos : Nat) : Bool :=
  nextIs o (fun t => decide (t.env.portValue.toNat = v ∧ t.env.portErr = false ∧ t.pos = pos))

theorem test_bcReadBitMsb : answered (exec (.bcReadBitMsb 63) (cursorJob 1)) 1 2 = true ∧    -- L2.1.2, n ignored (R131)
    answered (exec (.bcReadBitMsb 0) (cursorJob 1)) 1 2 = true ∧        -- L2.1.2
    nextIs (exec (.bcReadBitMsb 0) (cursorJob 16)) (fun t => failed t 1 2 0 && t.env.portErr) = true := by  -- L2.1.15
  decide +kernel
theorem test_bcReadBitsMsb : answered (exec (.bcReadBitsMsb 8) (cursorJob 4)) 0xD3 12 = true ∧  -- L2.1.6
    nextIs (exec (.bcReadBitsMsb 33) (cursorJob 0)) (fun t => failed t 13 0 0) = true := by      -- L2.1.16
  decide +kernel
theorem test_bcPeekBitsMsb : answered (exec (.bcPeekBitsMsb 16) (cursorJob 0)) 0x4D3A 0 = true ∧  -- L2.1.10
    nextIs (exec (.bcPeekBitsMsb 33) (cursorJob 16)) (fun t => failed t 13 2 0) = true := by      -- L2.1.17
  decide +kernel
theorem test_bcReadBitsLsb : answered (exec (.bcReadBitsLsb 8) (cursorJob 4)) 0xCB 12 = true ∧  -- L2.1.7
    answered (exec (.bcReadBitsLsb 32) (job [1, 2, 3, 4] .header 0)) 0x04030201 32 = true := by  -- L2.1.24
  decide +kernel
theorem test_bcSkipBits : nextIs (exec (.bcSkipBits 16) (cursorJob 0)) (fun t => t.pos == 16) = true ∧  -- L2.1.18
    nextIs (exec (.bcSkipBits 17) (cursorJob 0)) (fun t => failed t 1 0 0) = true := by          -- L2.1.19
  decide +kernel
theorem test_bcAlignToByte : nextIs (exec (.bcAlignToByte 0) (cursorJob 5)) (fun t => t.pos == 8) = true ∧  -- L2.1.21
    nextIs (exec (.bcAlignToByte 0) (cursorJob 16)) (fun t => t.pos == 16) = true := by          -- L2.1.23
  decide +kernel
theorem test_bcReserved67 : nextIs (exec (.bcReserved67 6 0) (cursorJob 3)) (fun t => failed t 13 0 3) = true := by
  decide +kernel

/-! ## huffman_decoder: L2.2 -/

/-- Four lengths over the CL slot's alphabet, in the port's length vector. -/
def tableJob (lens : List (BitVec 4)) (bytes : List Byte) (pos : Nat) : State :=
  let s := job bytes .header pos
  { s with env := { s.env with portLens := lens } }

/-- L2.2.1. -/
theorem test_htBuildFromLengths : nextIs (exec (.htBuildFromLengths 0) (tableJob [2, 1, 3, 3] [0] 0)) (fun t =>
    decide (t.tabs.cl.count.take 3 = [1, 1, 2] ∧ t.tabs.cl.first.take 3 = [0, 2, 6] ∧ t.tabs.cl.offset.take 3 = [0, 1, 2] ∧
      t.tabs.cl.sym.take 4 = [1, 0, 2, 3] ∧ t.tabs.cl.minLen = 1 ∧ t.tabs.cl.maxLen = 3 ∧ t.tabs.cl.used = 4)) = true := by
  decide +kernel
/-- L2.2.2: the slot is as before. -/
theorem test_htBuildFromLengths_kraft : nextIs (exec (.htBuildFromLengths 0) (tableJob [1, 1, 1] [0] 0)) (fun t =>
    failed t 4 0 0 && decide (t.tabs.cl = HuffTable.empty 19)) = true := by decide +kernel

/-- The table of L2.2.12 in T_CL. -/
def decodeJob (bytes : List Byte) (pos : Nat) : State :=
  let s := job bytes .header pos
  { s with tabs := { s.tabs with cl := buildTable (HuffTable.empty 19) (lengthVector 19 [2, 1, 3, 3]) } }

/-- L2.2.12, the first decode: bits 111 are symbol 3. -/
theorem test_htDecode : nextIs (exec (.htDecode 0) (decodeJob [0xd7, 0] 0)) (fun t =>
    decide (t.env.portSym = 3 ∧ t.env.portBits = 3 ∧ t.pos = 3)) = true := by decide +kernel
/-- L2.2.13: two bits remain and no code of length 1 or 2 matches. -/
theorem test_htDecode_end : nextIs (exec (.htDecode 0) (decodeJob [0xff] 6)) (fun t => failed t 1 0 6) = true := by
  decide +kernel
theorem test_htBuildFixed : nextIs (exec (.htBuildFixed 4) (cursorJob 0)) (fun t => t == cursorJob 0) = true ∧
    nextIs (exec (.htBuildFixed 2) (cursorJob 0)) (fun t => failed t 13 0 0) = true := by decide +kernel
theorem test_htReserved3 : nextIs (exec (.htReserved3 0) (cursorJob 9)) (fun t => failed t 13 1 1) = true := by
  decide +kernel

/-! ## Block types: L2.3, P1 -/

/-- P1 step 1. -/
theorem test_btypeStored : nextIs (step (job [0x01, 0x04, 0x00, 0xfb, 0xff, 0x00, 0x0a, 0x14, 0x1e] .header 0)) (fun t =>
    decide (t.phase = .stored ∧ t.pos = 3 ∧ t.blk.bfinal = true)) = true := by decide +kernel
/-- P1 step 2. -/
theorem test_btypeStored_body : nextIs (step (job [0x01, 0x04, 0x00, 0xfb, 0xff, 0x00, 0x0a, 0x14, 0x1e] .stored 3)) (fun t =>
    decide (t.phase = .blockEnd ∧ t.pos = 72 ∧ bytesOf t .dbuf 4 = [0x00, 0x0a, 0x14, 0x1e] ∧ t.outLen = 4)) = true := by
  decide +kernel
/-- L2.6.2. -/
theorem test_btypeFixed : nextIs (step (job [0x4b, 0x04, 0x00] .header 0)) (fun t =>
    decide (t.phase = .tokens ∧ t.pos = 3 ∧ t.blk.act = false)) = true := by decide +kernel
/-- L2.3.2. -/
theorem test_btypeReserved : nextIs (step (job [0x07] .header 0)) (fun t => failed t 2 0 3) = true := by decide +kernel
/-- P3: the header ends at bit 115, and the LL codes are 65 = 00, 66 = 01, 256 = 10, 257 = 11. And L2.3.18: HLIT and HDIST
are read, HCLEN is cut. -/
theorem test_btypeDynamic : nextIs (step (job [0x0d, 0xc1, 0x21, 0x01, 0x00, 0x00, 0x00, 0x80, 0xa0, 0x6d, 0xfa, 0x7f,
      0x4f, 0x57, 0xc0, 0x07] .dynamic 3)) (fun t =>
    decide (t.phase = .tokens ∧ t.pos = 115 ∧ t.blk.act = true) &&
      [65, 66, 256, 257].map (codeOf t.tabs.ll) == [some (2, 0), some (2, 1), some (2, 2), some (2, 3)]) = true ∧
    nextIs (step (job [0x05, 0xc0] .dynamic 3)) (fun t =>
      failed t 1 1 5 && decide (t.hdr.hlit = 257 ∧ t.hdr.hdist = 1)) = true := by decide +kernel
/-- L2.3.21: the header of "Hi" ends at bit 248. And L2.3.19: three CL lengths of 1. -/
theorem test_btypeDynamic_kraft : nextIs (step (job ([0x05, 0xc0, 0x05, 0x00, 0x08, 0x00, 0x00, 0x00, 0x20] ++
      List.replicate 21 0xff ++ [0x53, 0x25, 0x5a, 0x02]) .dynamic 3)) (fun t =>
    decide (t.phase = .tokens ∧ t.pos = 248)) = true ∧
    nextIs (step (job [0x05, 0x00, 0x92, 0x00] .dynamic 3)) (fun t => failed t 4 3 5) = true := by decide +kernel

/-! ## CL symbols (R208 to R212), worked by hand -/

/-- In P_DYNAMIC with HLIT 257, HDIST 1, one length of 9 read. -/
def clJob (bytes : List Byte) : State :=
  let s := job bytes .dynamic 0
  { s with hdr := { s.hdr with hlit := 257, hdist := 1, lens := s.hdr.lens.set 0 9, nl := 1 } }

theorem test_clLen015 : nextIs (exec (.clLen015 7) (clJob [0])) (fun t =>
    decide (t.hdr.nl = 2 ∧ t.hdr.lens.take 3 = [9, 7, 0])) = true := by decide +kernel
/-- Extra bits 11 are 3: six copies of 9 (L2.3.21). -/
theorem test_clRepeatPrev16 : nextIs (exec .clRepeatPrev16 (clJob [0x03])) (fun t =>
    decide (t.hdr.nl = 7 ∧ t.pos = 2 ∧ t.hdr.lens.take 8 = [9, 9, 9, 9, 9, 9, 9, 0])) = true := by decide +kernel
/-- L2.3.22: no previous length. -/
theorem test_clRepeatPrev16_first : nextIs (exec .clRepeatPrev16 { clJob [0] with hdr := { (clJob [0]).hdr with nl := 0 } })
    (fun t => failed t 4 0 2) = true := by decide +kernel
theorem test_clRepeatZero17 : nextIs (exec .clRepeatZero17 (clJob [0x07])) (fun t =>
    decide (t.hdr.nl = 11 ∧ t.pos = 3)) = true := by decide +kernel
theorem test_clRepeatZero18 : nextIs (exec .clRepeatZero18 (clJob [0x7f])) (fun t =>
    decide (t.hdr.nl = 139 ∧ t.pos = 7)) = true := by decide +kernel

/-! ## LL and D symbols: L2.4 -/

/-- In a fixed block's token loop. -/
def tokenJob (bytes outs : List Byte) (pos : Nat) : State := out outs (job bytes .tokens pos)

/-- L1.7: code 0x91 is the literal 0x61. -/
theorem test_llLiteral : nextIs (step (tokenJob [0x4b, 0x04, 0x00] [] 3)) (fun t =>
    decide (t.phase = .tokens ∧ t.pos = 11 ∧ bytesOf t .dbuf 1 = [0x61] ∧ t.outLen = 1)) = true := by decide +kernel
theorem test_llEob : nextIs (step (tokenJob [0x4b, 0x04, 0x00] [0x61] 11)) (fun t =>
    decide (t.phase = .blockEnd ∧ t.pos = 18)) = true := by decide +kernel
/-- L1.4: length 5, distance 2 after "AB". -/
theorem test_llLen259 : nextIs (step (tokenJob [0x73, 0x74, 0x02, 0x43, 0x00] [0x41, 0x42] 19)) (fun t =>
    decide (t.phase = .tokens ∧ t.outLen = 7 ∧ bytesOf t .dbuf 7 = [0x41, 0x42, 0x41, 0x42, 0x41, 0x42, 0x41])) = true := by
  decide +kernel
/-- L2.4.7: LL 265 with extra 1 is length 12. -/
theorem test_llLen265 : nextIs (step (tokenJob [0x73, 0x44, 0x06, 0x00] [0x41] 11)) (fun t =>
    decide (t.outLen = 13 ∧ t.tok.len = 12 ∧ t.tok.dist = 1)) = true := by decide +kernel
/-- L2.4.4 and L2.4.5: LL 285, and LL 284 with extra 31, are both length 258; here the buffer is one byte short. -/
theorem test_llLen285 : nextIs (step (filled 43 (tokenJob [0x8b, 0x1a, 0x05, 0x00] [] 11))) (fun t =>
    failed t 9 3 0 && decide (t.tok.len = 258)) = true := by decide +kernel
theorem test_llLen284 : nextIs (step (filled 43 (tokenJob [0x8b, 0x18, 0xf9, 0x00, 0x00] [] 11))) (fun t =>
    decide (t.err.code = 9 ∧ t.tok.len = 258)) = true := by decide +kernel
/-- L2.4.15 and L2.4.16. -/
theorem test_llInvalid286287 : nextIs (step (tokenJob [0x1b, 0x03] [] 3)) (fun t => failed t 8 1 3) = true ∧
    nextIs (step (tokenJob [0x1b, 0x07] [] 3)) (fun t => failed t 8 1 3) = true := by decide +kernel
/-- L2.4.12: D symbol 4 with extra 1 is distance 6, beyond the output. -/
theorem test_d4 : nextIs (step (tokenJob [0x73, 0x04, 0x92, 0x00] [0x41] 11)) (fun t =>
    failed t 7 3 0 && decide (t.tok.dist = 6)) = true := by decide +kernel
/-- L2.4.13 and L2.4.14. -/
theorem test_dInvalid3031 : nextIs (step (tokenJob [0x73, 0x04, 0x3e] [0x41] 11)) (fun t => failed t 6 2 7) = true ∧
    nextIs (step (tokenJob [0x73, 0x04, 0x7e, 0x00] [0x41] 11)) (fun t => failed t 6 2 7) = true := by decide +kernel
/-- R126: D symbol 29 with 13 extra bits of 1 is distance 32768 (L2.4.18). -/
theorem test_d29 : nextIs (exec .d29 (tokenJob [0xff, 0x1f] [0x41] 0)) (fun t =>
    failed t 7 1 5 && decide (t.tok.dist = 32768)) = true := by decide +kernel

/-! ## The defilter: L2.5 -/

theorem test_filterNone : nextIs (step (image [0, 0x64, 0x64, 0x64] 1 1)) (fun t =>   -- L1.5
    decide (t.phase = .done ∧ bytesOf t .pix 3 = [0x64, 0x64, 0x64])) = true := by decide +kernel
theorem test_filterSub : nextIs (step (image [1, 0x64, 0, 0, 0xc8, 0, 0] 2 1)) (fun t =>   -- L2.5.6
    decide (bytesOf t .pix 6 = [0x64, 0, 0, 0x2c, 0, 0])) = true := by decide +kernel

/-- At row 1, row 0 given as SL_PREV. -/
def secondRow (prev row : List Byte) (w : Nat) : State :=
  let s := image (List.replicate (3 * w + 1) 0 ++ row) w 2
  { s with
    mem := { s.mem with slPrev := Memory.writeList [] 0 prev }
    regs := { s.regs with pixLen := BitVec.ofNat 32 (3 * w) }
    defl := { row := 1, stg := true } }

theorem test_filterUp : nextIs (step (secondRow [0xff, 1, 2] [2, 1, 0xff, 0xfe] 1)) (fun t =>   -- L2.5.7
    decide (t.phase = .done ∧ t.regs.pixLen = 6 ∧ (List.range 3).map (fun k => t.byteAt .pix (3 + k)) = [0, 0, 0])) = true := by
  decide +kernel
theorem test_filterAverage : nextIs (step (secondRow [0xc8, 0, 0, 0xc8, 0, 0] [3, 0, 0, 0, 0, 0, 0] 2)) (fun t =>   -- L2.5.4
    decide ((List.range 6).map (fun k => t.byteAt .pix (6 + k)) = [0x64, 0, 0, 0x96, 0, 0])) = true := by decide +kernel
theorem test_filterPaeth : nextIs (step (secondRow [0x0a, 0x14, 0x1e, 0x0f, 0x19, 0x23] [4, 1, 1, 1, 2, 2, 2] 2)) (fun t =>
    decide ((List.range 6).map (fun k => t.byteAt .pix (6 + k)) = [0x0b, 0x15, 0x1f, 0x11, 0x1b, 0x25])) = true := by   -- L2.5.2
  decide +kernel
/-- L2.5.1a to L2.5.1k. -/
theorem test_paeth : [predPaeth 10 20 5, predPaeth 7 7 0, predPaeth 5 1 3, predPaeth 0 3 1, predPaeth 3 9 9, predPaeth 0 0 0,
    predPaeth 255 0 255, predPaeth 0 255 255, predPaeth 255 255 0, predPaeth 0 0 255, predPaeth 50 200 120] =
    [20, 7, 3, 3, 3, 0, 0, 0, 255, 0, 120] := by decide
/-- L2.5.12. -/
theorem test_filterInvalid67 : nextIs (step (secondRow [0x64, 0x64, 0x64] [7, 1, 2, 3] 1)) (fun t =>
    failed t 10 0 0 && decide (t.err.row = 1 ∧ t.regs.pixLen = 3)) = true := by decide +kernel

/-! ## Host commands: L2.6 -/

/-- A START that runs (L2.6.1), with the defilter off. -/
theorem test_ctrlStart : nextIs (exec (.ctrlStart 1) (job [0x4b, 0x04, 0x00] .idle 5)) (fun t =>
    decide (t.phase = .header ∧ t.pos = 0)) = true ∧
    nextIs (exec (.ctrlStart 1) { job [0x4b] .idle 0 with regs := { blank.regs with inLen := 65 } }) (fun t =>
      failed t 12 0 0) = true := by decide +kernel   -- L2.6.8
/-- L2.6.4 and L2.6.11. -/
theorem test_ctrlAbort : nextIs (exec (.ctrlAbort 2) (job [0x4b, 0x04, 0x00] .tokens 3)) (fun t =>
    failed t 15 0 3 && t.statusWord == 0xF3) = true ∧
    nextIs (step (turn (.regWrite 0 32 0b110) (job [0] .idle 0))) (fun t => t.phase == .idle) = true := by decide +kernel
/-- L2.6.5 and L2.6.10. -/
theorem test_ctrlClear : nextIs (exec (.ctrlClear 4) (errorEntry .aborted (job [0x4b, 0x04, 0x00] .tokens 3))) (fun t =>
    decide (t.phase = .idle ∧ t.statusWord = 0 ∧ t.err.byte = 0 ∧ t.pos = 3)) = true ∧
    nextIs (step (turn (.regWrite 0 32 0b101) (job [0] .done 0))) (fun t => t.phase == .idle) = true := by decide +kernel
/-- R100 to R102: the same read before the change of STATE is a draw, and after it the byte written. -/
theorem test_hostRead_order :
    nextIs (step (turn (.memRead .dbuf 0) (out [0x61] (job [0x03, 0x00] .blockEnd 10)))) (fun t => t.env.draws == 1) = true ∧
    nextIs (step (turn (.memRead .dbuf 0) (out [0x61] (job [0x03, 0x00] .done 10)))) (fun t =>
      decide (t.env.draws = 0 ∧ t.env.hostData = 0x61)) = true := by decide +kernel
/-- L2.6.12: a write to IN_LEN while BUSY is ignored. -/
theorem test_regWrite_busy : nextIs (step (turn (.regWrite 0x0C 32 0) (job [0x4b, 0x04, 0x00] .tokens 3))) (fun t =>
    t.regs.inLen == 3) = true := by decide +kernel
/-- L2.6.16. -/
theorem test_reset : State.reset.statusWord = 0 ∧ State.reset.configWord = 1 ∧ State.reset.regs.blockCount = 0 := by
  decide +kernel

/-! ## The assembler (R134): the listings' bytes -/

/-- L1.4. -/
theorem test_assemble : assemble [.fixed 1, .lit 0x41, .lit 0x42, .backRef 5 2, .eob] = [0x73, 0x74, 0x02, 0x43, 0x00] := by
  decide +kernel

/-! ## Witnesses: concrete states and operands that meet the hypotheses of each statement, clause by clause -/

/-- The invariant's fields that can be decided, for a state with the tables of reset. -/
abbrev Checks (s : State) : Prop :=
  s.params.wf = true ∧ (s.phase.busy = true → s.pos ≤ s.streamEnd) ∧
  (s.phase.busy = true → s.regs.inLen.toNat ≤ s.params.inCap) ∧ s.outLen ≤ s.params.dbufCap ∧
  s.regs.pixLen.toNat ≤ s.params.pixCap ∧
  (s.phase.busy = true → s.regs.defilterEn = true → badGeometry s = false) ∧
  (s.phase = .defilterStart ∨ s.phase = .defilterRow → s.regs.defilterEn = true) ∧
  (s.phase.beforeRows = true → s.regs.pixLen = 0 ∧ s.defl.stg = false) ∧
  (s.phase = .defilterRow → s.defl.stg = true ∧ s.defl.row.toNat < s.regs.height.toNat ∧
    s.regs.pixLen.toNat = s.defl.row.toNat * s.rowBytes ∧ s.imageNeed ≤ s.outLen) ∧
  (s.err.code ≠ 0 ↔ s.phase = .error) ∧ s.err.code ≠ 14 ∧ s.hdr.cll.length = 19 ∧ s.hdr.lens.length = 320 ∧
  MemoryOk s.mem.inMem s.params.inCap ∧ MemoryOk s.mem.dbuf s.params.dbufCap ∧ MemoryOk s.mem.pix s.params.pixCap ∧
  MemoryOk s.mem.slPrev (3 * s.params.maxWidth)

theorem inv_of_checks {s : State} (ht : s.tabs = blank.tabs) (h : Checks s) : Inv s := by
  obtain ⟨a, b, c, d, e, f, g, i, j, k, l, m, n, o, p, q, r⟩ := h
  refine ⟨a, b, c, d, e, f, g, i, j, k, l, ?_, ?_, ?_, m, n, ?_⟩
  · rw [ht]; exact empty_wf (by decide)
  · rw [ht]; exact empty_wf (by decide)
  · rw [ht]; exact empty_wf (by decide)
  · intro sp
    cases sp
    · exact o
    · exact p
    · exact q
    · exact r

/-! ### Encoding and reset -/

theorem test_witness_DecodeEncode : (Instr.llInvalid286287 287).wf = true ∧ (Instr.filterInvalid64127 127).wf = true ∧
    (Instr.ctrlNone 0xFFFFFFF8).wf = true ∧ (Instr.bcReserved67 7 63).wf = true := by decide
theorem test_witness_EncodeDecode : decode (.ll 287) = .ok (.llInvalid286287 287) ∧ decode (.cl 18) = .ok .clRepeatZero18 := by
  decide
/-- Both sides, each at both ends of its range. -/
theorem test_witness_DecodeRejects : decode (.ll 288) = .error .llSymbolAbove287 ∧ decode (.ll 511) = .error .llSymbolAbove287 ∧
    decode (.cl 19) = .error .clSymbolAbove18 ∧ decode (.cl 31) = .error .clSymbolAbove18 := by decide
theorem test_witness_OneTableRow : (Instr.dInvalid3031 31).wf = true ∧ (Instr.ctrlStart 0xFFFFFFF9).wf = true := by decide
theorem test_witness_ResetValues : (turn .reset (job [1] .tokens 3)).env.inputs = Turn.reset :: [] := by decide +kernel
/-- The parameters at both ends of R9's range. -/
theorem test_witness_ResetInv : Params.wf { inCap := 1, dbufCap := 1, pixCap := 1, maxWidth := 1 } = true ∧
    Params.wf { inCap := 4294967295, dbufCap := 4294967295, pixCap := 4294967295, maxWidth := 4294967295 } = true := by
  decide

/-! ### Invariants -/

theorem test_witness_inv_reset : Inv blank := inv_of_checks rfl (by decide +kernel)
theorem test_witness_inv_header : Inv (job [0x01] .header 8) := inv_of_checks rfl (by decide +kernel)
theorem test_witness_inv_stored : Inv (job [0x01, 0x00, 0x00, 0xff, 0xff] .stored 3) := inv_of_checks rfl (by decide +kernel)
theorem test_witness_inv_tokens : Inv (job [0x03, 0x00] .tokens 3) := inv_of_checks rfl (by decide +kernel)
theorem test_witness_inv_blockEnd : Inv (job [0x03, 0x00] .blockEnd 10) := inv_of_checks rfl (by decide +kernel)
/-- The last row of an image. -/
theorem test_witness_inv_defilterRow : Inv (image [0, 1, 2, 3] 1 1) := inv_of_checks rfl (by decide +kernel)
theorem test_witness_inv_error : Inv (errorEntry .outOfData (job [] .header 0)) := inv_of_checks rfl (by decide +kernel)
theorem test_witness_inv_done : Inv (job [0x03, 0x00] .done 10) := inv_of_checks rfl (by decide +kernel)

/-- A good state and its step: a host write. -/
theorem test_witness_StepKeepsInv : Inv (turn (.regWrite 0x0C 32 7) blank) ∧
    ∃ t, step (turn (.regWrite 0x0C 32 7) blank) = .next t :=
  ⟨inv_of_checks rfl (by decide +kernel), next_of (by decide +kernel)⟩

/-- A read of the last byte of IN; the other premise has no case. -/
theorem test_witness_NoFault_read : Inv (turn (.memRead .inMem 63) blank) ∧
    (∀ m a ts, (turn (.memRead .inMem 63) blank).env.inputs = .memRead m a :: ts →
      a < (turn (.memRead .inMem 63) blank).sizeOf m.space) ∧
    ∀ m a v ts, (turn (.memRead .inMem 63) blank).env.inputs = .memWrite m a v :: ts →
      m = .inMem ∧ a < (turn (.memRead .inMem 63) blank).params.inCap := by
  refine ⟨inv_of_checks rfl (by decide +kernel), fun m a ts h => ?_, fun m a v ts h => ?_⟩
  · cases h; decide +kernel
  · cases h
/-- A write of the last byte of IN. -/
theorem test_witness_NoFault_write : Inv (turn (.memWrite .inMem 63 5) blank) ∧
    (∀ m a ts, (turn (.memWrite .inMem 63 5) blank).env.inputs = .memRead m a :: ts →
      a < (turn (.memWrite .inMem 63 5) blank).sizeOf m.space) ∧
    ∀ m a v ts, (turn (.memWrite .inMem 63 5) blank).env.inputs = .memWrite m a v :: ts →
      m = .inMem ∧ a < (turn (.memWrite .inMem 63 5) blank).params.inCap := by
  refine ⟨inv_of_checks rfl (by decide +kernel), fun m a ts h => ?_, fun m a v ts h => ?_⟩
  · cases h
  · cases h; decide +kernel

/-! ### Steps -/

theorem test_witness_StepRuns_fetch : fetch (turn (.regWrite 0 32 1) blank) = .instr (.ctrlStart 1) blank := by rfl
theorem test_witness_StepRuns_engine :
    (job [1] .stored 3).env.inputs = [] ∧ (job [1] .stored 3).phase = .stored ∧
    (job [1] .dynamic 3).env.inputs = [] ∧ (job [1] .dynamic 3).phase = .dynamic ∧
    ((job [1] .header 5).env.inputs = [] ∧ (job [1] .header 5).phase = .header ∧ FitsIn (job [1] .header 5) ∧
      (job [1] .header 5).pos + 3 ≤ (job [1] .header 5).streamEnd) ∧
    ((image [0] 0 1).env.inputs = [] ∧ (image [0] 0 1).phase = .defilterRow ∧
      (image [0] 0 1).rowBase < (image [0] 0 1).params.dbufCap) := by decide +kernel

/-- decode's answer, as a Boolean. -/
def decodesTo (r : Res (BitVec 9 × BitVec 4)) (x : BitVec 9 × BitVec 4) : Bool :=
  match r with
  | .ok y _ => y == x
  | .raised _ => false
  | .fault _ => false

theorem decodes_of {r : Res (BitVec 9 × BitVec 4)} {x : BitVec 9 × BitVec 4} (h : decodesTo r x = true) :
    ∃ u, r = .ok x u := by
  cases r with
  | ok y u => exact ⟨u, by simp only [decodesTo, beq_iff_eq] at h; rw [h]⟩
  | raised u => cases h
  | fault f => cases h

theorem test_witness_StepRuns_token : (job [0, 0] .tokens 9).env.inputs = [] ∧ (job [0, 0] .tokens 9).phase = .tokens ∧
    (job [0, 0] .tokens 9).blk.act = false ∧
    (∃ u, decodeSymbol fLL (job [0, 0] .tokens 9) = .ok (256, 7) u) ∧ fLL.FirstMatch (job [0, 0] .tokens 9) 7 256 ∧
    decode (.ll 256) = .ok .llEob :=
  ⟨by decide +kernel, by decide +kernel, by decide +kernel, decodes_of (by decide +kernel),
    ⟨by decide +kernel, by decide +kernel, by decide +kernel, by decide +kernel, by decide +kernel, by decide +kernel⟩,
    by decide⟩
/-- The fixed table with one bit less than a code. -/
theorem test_witness_StepRuns_cut : (job [0, 0] .tokens 10).env.inputs = [] ∧ (job [0, 0] .tokens 10).phase = .tokens ∧
    (job [0, 0] .tokens 10).blk.act = false ∧ FitsIn (job [0, 0] .tokens 10) ∧ fLL.EndsAt (job [0, 0] .tokens 10) 7 :=
  ⟨by decide +kernel, by decide +kernel, by decide +kernel, by decide +kernel,
    ⟨by decide +kernel, by decide +kernel, by decide +kernel, by decide +kernel⟩⟩

/-- In a dynamic block whose T_LL has codes 0 for 65 and 10 for 256. -/
def dynamicLL (bytes : List Byte) (pos : Nat) : State :=
  let s := job bytes .tokens pos
  { s with
    blk := { s.blk with act := true }
    tabs := { s.tabs with
      ll := buildTable (HuffTable.empty 288) (lengthVector 288 (List.replicate 65 0 ++ [1] ++ List.replicate 190 0 ++ [2])) } }

/-- There T_LL decodes and F_LL does not: R241's selection. Each ends at the stream's last bit. -/
theorem test_llDynamic : nextIs (step (dynamicLL [0x00] 7)) (fun t =>
      decide (t.phase = .tokens ∧ t.pos = 8 ∧ bytesOf t .dbuf 1 = [65])) = true ∧
    nextIs (step (dynamicLL [0xff] 6)) (fun t => failed t 5 0 6 && decide (t.outLen = 0)) = true := by decide +kernel
theorem test_witness_StepRuns_dynamic : (dynamicLL [0x00] 7).env.inputs = [] ∧ (dynamicLL [0x00] 7).phase = .tokens ∧
    (dynamicLL [0x00] 7).blk.act = true ∧ FitsIn (dynamicLL [0x00] 7) ∧
    (dynamicLL [0x00] 7).tabs.ll.FirstMatch (dynamicLL [0x00] 7) 1 65 ∧ decode (.ll 65) = .ok (.llLiteral 65) :=
  ⟨by decide +kernel, by decide +kernel, by decide +kernel, by decide +kernel,
    ⟨by decide +kernel, by decide +kernel, by decide +kernel, by decide +kernel, by decide +kernel, by decide +kernel⟩,
    by decide⟩
/-- No match for 11; one bit left of a longer code; and an empty T_LL at the end of the stream. -/
theorem test_witness_StepRuns_dynamicFails :
    ((dynamicLL [0xff] 6).blk.act = true ∧ FitsIn (dynamicLL [0xff] 6) ∧
      (dynamicLL [0xff] 6).tabs.ll.FailsAt (dynamicLL [0xff] 6)) ∧
    ((dynamicLL [0xff] 7).blk.act = true ∧ FitsIn (dynamicLL [0xff] 7) ∧
      (dynamicLL [0xff] 7).tabs.ll.EndsAt (dynamicLL [0xff] 7) 2) ∧
    ∀ s ∈ [{ job [0] .tokens 8 with blk := { blank.blk with act := true } }],
      s.env.inputs = [] ∧ s.phase = .tokens ∧ FitsIn s ∧ s.tabs.ll.FailsAt s :=
  ⟨⟨by decide +kernel, by decide +kernel, by decide +kernel⟩, ⟨by decide +kernel, by decide +kernel,
    ⟨by decide +kernel, by decide +kernel, by decide +kernel, by decide +kernel⟩⟩, by decide +kernel⟩
theorem test_witness_StepRuns_ports :
    (turn (.regWrite 0 32 1) blank).env.inputs = .regWrite 0 32 1 :: [] ∧
    ((job [1] .header 0).phase.busy = true ∧ (turn (.bcRequest 0xD0) (job [1] .header 0)).env.inputs = .bcRequest 0xD0 :: []) ∧
    ((turn (.htRequest 0x14 []) (job [1] .header 0)).phase.busy = true ∧
      (turn (.htRequest 0x14 []) (job [1] .header 0)).env.inputs = .htRequest 0x14 [] :: []) := by decide +kernel

/-- Bits left: 0, 1, 2, and 3 with each BTYPE. -/
theorem test_witness_HeaderStep :
    (∀ s ∈ [job [] .header 0, job [0] .header 7, job [0] .header 6, job [0x00] .header 5, job [0x40] .header 5,
        job [0x80] .header 5, job [0xC0] .header 5],
      s.env.inputs = [] ∧ s.phase = .header ∧ FitsIn s ∧ s.pos ≤ s.streamEnd) ∧
    (job [] .header 0).streamEnd < (job [] .header 0).pos + 1 ∧
    ((job [0] .header 7).pos + 1 ≤ (job [0] .header 7).streamEnd ∧ (job [0] .header 7).streamEnd < (job [0] .header 7).pos + 3) ∧
    ((job [0] .header 6).pos + 1 ≤ (job [0] .header 6).streamEnd ∧ (job [0] .header 6).streamEnd < (job [0] .header 6).pos + 3) ∧
    (∀ s ∈ [job [0x00] .header 5, job [0x40] .header 5, job [0x80] .header 5, job [0xC0] .header 5],
      s.pos + 3 ≤ s.streamEnd) ∧
    [job [0x00] .header 5, job [0x40] .header 5, job [0x80] .header 5, job [0xC0] .header 5].map
      (fun s => s.lsbValue (s.pos + 1) 2) = [0, 1, 2, 3] := by decide +kernel
theorem test_witness_BlockTypes : (job [0x00] .header 3).phase = .header := by decide +kernel

/-- The premises that all clauses of StoredStep share. -/
abbrev StoredAt (s : State) (a len nlen : Nat) : Prop :=
  s.phase = .stored ∧ s.params.wf = true ∧ FitsIn s ∧ s.pos ≤ s.streamEnd ∧ a = (s.pos + 7) / 8 ∧
    len = (s.byteAt .inMem a).toNat + 256 * (s.byteAt .inMem (a + 1)).toNat ∧
    nlen = (s.byteAt .inMem (a + 2)).toNat + 256 * (s.byteAt .inMem (a + 3)).toNat

/-- Bytes beyond the stream are in IN, so that the two fields have values where the stream ends before them. -/
def shorter (n : Nat) (s : State) : State := { s with regs := { s.regs with inLen := BitVec.ofNat 32 n } }

/-- Ends one byte before LEN ends, before NLEN ends, at NLEN wrong, one byte of data short, one byte of room short, and a
block that just fits. -/
theorem test_witness_StoredStep :
    (StoredAt (shorter 2 (job [1, 1, 0, 0xfe, 0xff] .stored 3)) 1 1 0xfffe ∧
      (shorter 2 (job [1, 1, 0, 0xfe, 0xff] .stored 3)).streamEnd < 8 * (1 + 2)) ∧
    (StoredAt (shorter 4 (job [1, 1, 0, 0xfe, 0xff] .stored 3)) 1 1 0xfffe ∧
      8 * (1 + 2) ≤ (shorter 4 (job [1, 1, 0, 0xfe, 0xff] .stored 3)).streamEnd ∧
      (shorter 4 (job [1, 1, 0, 0xfe, 0xff] .stored 3)).streamEnd < 8 * (1 + 4)) ∧
    (StoredAt (job [1, 1, 0, 0xff, 0xff] .stored 3) 1 1 0xffff ∧
      8 * (1 + 4) ≤ (job [1, 1, 0, 0xff, 0xff] .stored 3).streamEnd ∧ 1 ^^^ 0xFFFF ≠ 0xffff) ∧
    (StoredAt (job [1, 1, 0, 0xfe, 0xff] .stored 3) 1 1 0xfffe ∧
      8 * (1 + 4) ≤ (job [1, 1, 0, 0xfe, 0xff] .stored 3).streamEnd ∧ 1 ^^^ 0xFFFF = 0xfffe ∧
      (job [1, 1, 0, 0xfe, 0xff] .stored 3).streamEnd < 8 * (1 + 4 + 1)) ∧
    (StoredAt (filled 300 (job [1, 1, 0, 0xfe, 0xff, 7] .stored 3)) 1 1 0xfffe ∧
      8 * (1 + 4 + 1) ≤ (filled 300 (job [1, 1, 0, 0xfe, 0xff, 7] .stored 3)).streamEnd ∧
      1 ^^^ 0xFFFF = 0xfffe ∧ par.dbufCap < (filled 300 (job [1, 1, 0, 0xfe, 0xff, 7] .stored 3)).outLen + 1) ∧
    (StoredAt (filled 299 (job [1, 1, 0, 0xfe, 0xff, 7] .stored 3)) 1 1 0xfffe ∧
      8 * (1 + 4 + 1) ≤ (filled 299 (job [1, 1, 0, 0xfe, 0xff, 7] .stored 3)).streamEnd ∧
      1 ^^^ 0xFFFF = 0xfffe ∧
      (filled 299 (job [1, 1, 0, 0xfe, 0xff, 7] .stored 3)).outLen + 1 ≤ par.dbufCap) := by decide +kernel

/-! ### Dynamic headers -/

/-- HLIT 258, HDIST 2, eighteen CL lengths; every kind of CL symbol. -/
def smallHeader : Header :=
  { hlit := 258, hdist := 2, cls := [3, 3, 3, 0, 0, 0, 0, 0, 0, 0, 0, 0, 0, 3, 0, 2, 0, 2]
    ops := [.len 3, .zerosLong 100, .zerosLong 99, .zeros 7, .zeros 6, .zeros 0, .zeros 7, .len 3, .prev 0, .len 1, .len 1] }

/-- The lengths it stands for. -/
def smallLengths : List (BitVec 4) := [3] ++ List.replicate 253 0 ++ [3, 3, 3, 3] ++ [1, 1]

/-- Its bits from the cursor on, in P_DYNAMIC. -/
def headerJob : State := job (packBits ([true, false, true] ++ smallHeader.bits blank.tabs.cl)) .dynamic 3

theorem test_witness_DynamicStep_header : smallHeader.Reads blank.tabs.cl smallLengths :=
  ⟨by decide, by decide, by decide, by decide +kernel, by decide +kernel, by decide +kernel⟩
theorem test_witness_DynamicStep : Inv headerJob ∧ headerJob.phase = .dynamic ∧ smallHeader.Reads headerJob.tabs.cl smallLengths ∧
    smallLengths.length = smallHeader.hlit + smallHeader.hdist ∧
    headerJob.streamHas headerJob.pos (smallHeader.bits headerJob.tabs.cl) ∧
    kraftSum (lengthVector 288 (smallLengths.take smallHeader.hlit)) ≤ 2 ^ 15 ∧
    kraftSum (lengthVector 32 (smallLengths.drop smallHeader.hlit)) = 2 ^ 15 :=
  ⟨inv_of_checks rfl (by decide +kernel), by decide +kernel, test_witness_DynamicStep_header, by decide +kernel,
    by decide +kernel, by decide +kernel, by decide +kernel⟩

/-- The same CL lengths, with three LL lengths of 1; and with three D lengths of 1. -/
def overLL : Header :=
  { smallHeader with hlit := 257, hdist := 1, ops := [.len 1, .len 1, .len 1, .zerosLong 127, .zerosLong 106] }
def overD : Header :=
  { smallHeader with hlit := 257, hdist := 3, ops := [.zerosLong 127, .zerosLong 108, .len 1, .len 1, .len 1] }

def overLens : List (BitVec 4) := [1, 1, 1] ++ List.replicate 255 0
def overDLens : List (BitVec 4) := List.replicate 257 0 ++ [1, 1, 1]

/-- A job at a header. -/
def headerAt (h : Header) : State := job (packBits ([true, false, true] ++ h.bits blank.tabs.cl)) .dynamic 3

theorem test_witness_DynamicStep_overLL : Inv (headerAt overLL) ∧ (headerAt overLL).phase = .dynamic ∧
    overLL.Reads (headerAt overLL).tabs.cl overLens ∧
    (headerAt overLL).streamHas (headerAt overLL).pos (overLL.bits (headerAt overLL).tabs.cl) ∧
    2 ^ 15 < kraftSum (lengthVector 288 (overLens.take 257)) :=
  ⟨inv_of_checks rfl (by decide +kernel), by decide +kernel,
    ⟨by decide, by decide, by decide, by decide +kernel, by decide +kernel, by decide +kernel⟩, by decide +kernel,
    by decide +kernel⟩
theorem test_witness_DynamicStep_overD : Inv (headerAt overD) ∧ (headerAt overD).phase = .dynamic ∧
    overD.Reads (headerAt overD).tabs.cl overDLens ∧
    (headerAt overD).streamHas (headerAt overD).pos (overD.bits (headerAt overD).tabs.cl) ∧
    kraftSum (lengthVector 288 (overDLens.take 257)) ≤ 2 ^ 15 ∧
    2 ^ 15 < kraftSum (lengthVector 32 (overDLens.drop 257)) :=
  ⟨inv_of_checks rfl (by decide +kernel), by decide +kernel,
    ⟨by decide, by decide, by decide, by decide +kernel, by decide +kernel, by decide +kernel⟩, by decide +kernel,
    by decide +kernel, by decide +kernel⟩

/-- The counts cut by one bit each, a CL length cut by one bit (the first and the last), and three CL lengths of 1 that
end with the stream (L2.3.19). -/
theorem test_witness_DynamicErrors_counts :
    (Inv (job [0] .dynamic 4) ∧ (job [0] .dynamic 4).phase = .dynamic ∧ (job [0] .dynamic 4).streamEnd < 4 + 5) ∧
    (Inv (job [0, 0] .dynamic 7) ∧ 7 + 5 ≤ (job [0, 0] .dynamic 7).streamEnd ∧
      (job [0, 0] .dynamic 7).streamEnd < 7 + 10) ∧
    (Inv (job [0, 0] .dynamic 3) ∧ 3 + 10 ≤ (job [0, 0] .dynamic 3).streamEnd ∧
      (job [0, 0] .dynamic 3).streamEnd < 3 + 14) :=
  ⟨⟨inv_of_checks rfl (by decide +kernel), by decide +kernel⟩, ⟨inv_of_checks rfl (by decide +kernel), by decide +kernel⟩,
    inv_of_checks rfl (by decide +kernel), by decide +kernel⟩
theorem test_witness_DynamicErrors_cl :
    (Inv (job [0, 0, 0] .dynamic 8) ∧ 0 < (job [0, 0, 0] .dynamic 8).lsbValue 18 4 + 4 ∧
      22 + 3 * 0 ≤ (job [0, 0, 0] .dynamic 8).streamEnd ∧ (job [0, 0, 0] .dynamic 8).streamEnd < 22 + 3 * (0 + 1)) ∧
    (Inv (job [0, 0, 0, 0] .dynamic 7) ∧ (job [0, 0, 0, 0] .dynamic 7).lsbValue 17 4 + 4 = 3 + 1 ∧
      21 + 3 * 3 ≤ (job [0, 0, 0, 0] .dynamic 7).streamEnd ∧ (job [0, 0, 0, 0] .dynamic 7).streamEnd < 21 + 3 * (3 + 1)) ∧
    (Inv (job [0x05, 0x00, 0x92, 0x00] .dynamic 3) ∧ (job [0x05, 0x00, 0x92, 0x00] .dynamic 3).lsbValue 13 4 + 4 = 4 ∧
      17 + 3 * 4 ≤ (job [0x05, 0x00, 0x92, 0x00] .dynamic 3).streamEnd ∧
      2 ^ 15 < kraftSum (clVector ((List.range 4).map (fun i =>
        BitVec.ofNat 3 ((job [0x05, 0x00, 0x92, 0x00] .dynamic 3).lsbValue (17 + 3 * i) 3))))) :=
  ⟨⟨inv_of_checks rfl (by decide +kernel), by decide +kernel⟩, ⟨inv_of_checks rfl (by decide +kernel), by decide +kernel⟩,
    inv_of_checks rfl (by decide +kernel), by decide +kernel⟩

/-- The header of L2.3.22 with no length read yet, and with an empty T_CL (L2.3.20); one with a single CL code, for 18. -/
def noLengths : Header := { hlit := 257, hdist := 1, cls := [2, 0, 0, 0, 0, 0, 1, 0, 0, 0, 0, 0, 0, 0, 0, 0, 0, 2], ops := [] }
def noCodes : Header := { hlit := 257, hdist := 1, cls := [0, 0, 0, 0], ops := [] }
def zerosOnly : Header := { hlit := 257, hdist := 1, cls := [0, 0, 1, 0], ops := [.zerosLong 127] }

/-- Some part of a header is read and its bits end the stream but for those of `rest`. -/
def headerThen (h : Header) (rest : List Bool) : State :=
  job (packBits ([true, false, true] ++ h.bits blank.tabs.cl ++ rest)) .dynamic 3

/-- The premises of DynamicErrors in the sequence, with the state in which the next code is read. -/
def SequenceAt (h : Header) (lens : List (BitVec 4)) (s u : State) : Prop :=
  Inv s ∧ s.phase = .dynamic ∧ h.Reads s.tabs.cl lens ∧ lens.length < h.hlit + h.hdist ∧
    s.streamHas s.pos (h.bits s.tabs.cl) ∧ h.Held lens s.hdr u.hdr ∧
    u = { s.setPos (s.pos + (h.bits s.tabs.cl).length) with
          hdr := u.hdr, tabs := { s.tabs with cl := h.clTable s.tabs.cl } }

/-- The header registers a header leaves, from reset. -/
def headerRegs (h : Header) (lens : List (BitVec 4)) : DynHeader :=
  { hlit := BitVec.ofNat 9 h.hlit, hdist := BitVec.ofNat 6 h.hdist, hclen := BitVec.ofNat 5 h.cls.length
    cll := [3, 17, 15, 13, 11, 9, 7, 5, 4, 6, 8, 10, 12, 14, 16, 18, 0, 1, 2].map (fun i => h.cls.getD i 0)
    lens := lens ++ List.replicate (320 - lens.length) 0, nl := BitVec.ofNat 9 lens.length }

/-- The state after it. -/
def afterHeader (h : Header) (lens : List (BitVec 4)) (s : State) : State :=
  { s.setPos (s.pos + (h.bits s.tabs.cl).length) with
    hdr := headerRegs h lens, tabs := { s.tabs with cl := h.clTable s.tabs.cl } }

/-- An empty T_CL; no match for the bit 1 after one code; one bit left of a code of two; and symbol 16 first. -/
theorem test_witness_DynamicErrors_noCodes :
    SequenceAt noCodes [] (headerThen noCodes []) (afterHeader noCodes [] (headerThen noCodes [])) ∧
    (afterHeader noCodes [] (headerThen noCodes [])).tabs.cl.FailsAt (afterHeader noCodes [] (headerThen noCodes [])) :=
  ⟨⟨inv_of_checks rfl (by decide +kernel), by decide +kernel,
    ⟨by decide, by decide, by decide, by decide +kernel, by decide +kernel, by decide +kernel⟩, by decide +kernel,
    by decide +kernel, ⟨by decide +kernel, by decide +kernel, by decide +kernel, by decide +kernel, by decide +kernel,
      by decide +kernel, by decide +kernel, by decide +kernel⟩, rfl⟩, by decide +kernel⟩
theorem test_witness_DynamicErrors_noMatch :
    SequenceAt zerosOnly (List.replicate 138 0) (headerThen zerosOnly [true])
      (afterHeader zerosOnly (List.replicate 138 0) (headerThen zerosOnly [true])) ∧
    (afterHeader zerosOnly (List.replicate 138 0) (headerThen zerosOnly [true])).tabs.cl.FailsAt
      (afterHeader zerosOnly (List.replicate 138 0) (headerThen zerosOnly [true])) :=
  ⟨⟨inv_of_checks rfl (by decide +kernel), by decide +kernel,
    ⟨by decide, by decide, by decide, by decide +kernel, by decide +kernel, by decide +kernel⟩, by decide +kernel,
    by decide +kernel, ⟨by decide +kernel, by decide +kernel, by decide +kernel, by decide +kernel, by decide +kernel,
      by decide +kernel, by decide +kernel, by decide +kernel⟩, rfl⟩, by decide +kernel⟩
theorem test_witness_DynamicErrors_ends :
    SequenceAt noLengths [] (headerThen noLengths [true]) (afterHeader noLengths [] (headerThen noLengths [true])) ∧
    (afterHeader noLengths [] (headerThen noLengths [true])).tabs.cl.EndsAt
      (afterHeader noLengths [] (headerThen noLengths [true])) 2 :=
  ⟨⟨inv_of_checks rfl (by decide +kernel), by decide +kernel,
    ⟨by decide, by decide, by decide, by decide +kernel, by decide +kernel, by decide +kernel⟩, by decide +kernel,
    by decide +kernel, ⟨by decide +kernel, by decide +kernel, by decide +kernel, by decide +kernel, by decide +kernel,
      by decide +kernel, by decide +kernel, by decide +kernel⟩, rfl⟩,
    ⟨by decide +kernel, by decide +kernel, by decide +kernel, by decide +kernel⟩⟩
theorem test_witness_DynamicErrors_repeat :
    SequenceAt noLengths [] (headerThen noLengths [true, true, false, false])
      (afterHeader noLengths [] (headerThen noLengths [true, true, false, false])) ∧
    (afterHeader noLengths [] (headerThen noLengths [true, true, false, false])).tabs.cl.FirstMatch
      (afterHeader noLengths [] (headerThen noLengths [true, true, false, false])) 2 16 ∧
    decode (.cl 16) = .ok .clRepeatPrev16 ∧
    nextIs (exec .clRepeatPrev16 ((afterHeader noLengths [] (headerThen noLengths [true, true, false, false])).setPos
      ((afterHeader noLengths [] (headerThen noLengths [true, true, false, false])).pos + 2)))
      (fun t => decide (t.phase = .error)) = true :=
  ⟨⟨inv_of_checks rfl (by decide +kernel), by decide +kernel,
    ⟨by decide, by decide, by decide, by decide +kernel, by decide +kernel, by decide +kernel⟩, by decide +kernel,
    by decide +kernel, ⟨by decide +kernel, by decide +kernel, by decide +kernel, by decide +kernel, by decide +kernel,
      by decide +kernel, by decide +kernel, by decide +kernel⟩, rfl⟩,
    ⟨by decide +kernel, by decide +kernel, by decide +kernel, by decide +kernel, by decide +kernel, by decide +kernel⟩,
    by decide, by decide +kernel⟩

/-- The last length, of the most there can be. -/
theorem test_witness_ClLengths : ∀ s ∈ [{ clJob [0] with hdr := { (clJob [0]).hdr with hlit := 288, hdist := 32, nl := 319 } }],
    s.hdr.lens.length = 320 ∧ s.hdr.nl.toNat < s.lengthCount ∧ s.lengthCount ≤ 320 := by decide +kernel

/-- With `n` lengths read. -/
def clAt (bytes : List Byte) (n : Nat) : State :=
  let s := clJob bytes
  { s with hdr := { s.hdr with nl := BitVec.ofNat 9 n } }

/-- Each symbol one bit short; 16 without a length before it; a run one too long and a run that just fits. -/
theorem test_witness_ClRepeats :
    (∀ s ∈ [clAt [] 1, clAt [0] 0, clAt [0] 256, clAt [0] 255, clAt [0x7f] 121, clAt [0x7f] 120],
      FitsIn s ∧ s.pos ≤ s.streamEnd ∧ s.hdr.lens.length = 320 ∧ s.lengthCount ≤ 320) ∧
    ((clAt [] 1).streamEnd < (clAt [] 1).pos + 2) ∧
    ((clAt [0] 0).pos + 2 ≤ (clAt [0] 0).streamEnd ∧ (clAt [0] 0).hdr.nl = 0) ∧
    ((clAt [0] 256).pos + 3 ≤ (clAt [0] 256).streamEnd ∧
      (clAt [0] 256).lengthCount < (clAt [0] 256).hdr.nl.toNat + ((clAt [0] 256).lsbValue (clAt [0] 256).pos 3 + 3)) ∧
    ((clAt [0] 255).hdr.nl ≠ 0 ∧
      (clAt [0] 255).hdr.nl.toNat + ((clAt [0] 255).lsbValue (clAt [0] 255).pos 2 + 3) ≤ (clAt [0] 255).lengthCount) ∧
    ((clAt [0x7f] 121).pos + 7 ≤ (clAt [0x7f] 121).streamEnd ∧ (clAt [0x7f] 121).lengthCount <
      (clAt [0x7f] 121).hdr.nl.toNat + ((clAt [0x7f] 121).lsbValue (clAt [0x7f] 121).pos 7 + 11)) ∧
    ((clAt [0x7f] 120).hdr.nl.toNat + ((clAt [0x7f] 120).lsbValue (clAt [0x7f] 120).pos 7 + 11) ≤
      (clAt [0x7f] 120).lengthCount) := by decide +kernel

/-- A sub-operation that ends with a value, as a Boolean. -/
def isOk {α : Type} (r : Res α) : Bool :=
  match r with
  | .ok _ _ => true
  | .raised _ => false
  | .fault _ => false

theorem ok_of {r : Res Unit} (h : isOk r = true) : ∃ t, r = .ok () t := by
  cases r with
  | ok a t => exact ⟨t, rfl⟩
  | raised u => cases h
  | fault f => cases h

/-- The sequence of "one length of 1 and all others 0" over two one-bit CL codes: 1 and 18. -/
def sequenceJob : State :=
  let s := job (packBits ([false, true] ++ lsbBits 7 127 ++ [true] ++ lsbBits 7 108)) .dynamic 0
  { s with
    hdr := { s.hdr with hlit := 257, hdist := 1 }
    tabs := { s.tabs with cl := buildTable (HuffTable.empty 19) (lengthVector 19 [0, 1, 0, 0, 0, 0, 0, 0, 0, 0, 0, 0, 0, 0, 0, 0, 0, 0, 1]) } }

theorem test_witness_SequenceEnds : sequenceJob.tabs.cl.Wf 19 ∧ FitsIn sequenceJob ∧ sequenceJob.lengthCount ≤ 320 ∧
    ∃ t, readSequence sequenceJob = .ok () t :=
  ⟨buildTable_wf (by decide) (by decide) (empty_wf (by decide)) (by decide), by decide +kernel, by decide +kernel,
    ok_of (by decide +kernel)⟩

/-! ### Tokens -/

/-- One byte of room, and none. -/
theorem test_witness_Literal : par.wf = true ∧ (filled 299 blank).outLen < par.dbufCap ∧
    par.dbufCap ≤ (filled 300 blank).outLen := by decide +kernel
theorem test_witness_EndAndInvalid : (Instr.llInvalid286287 286).wf = true ∧ (Instr.llInvalid286287 287).wf = true := by decide

/-- The premises of LengthCodesFixed. -/
abbrev FixedAt (s : State) (i : Instr) (sym : BitVec 9) (e b len p d eD bD dist q : Nat) : Prop :=
  decode (.ll sym) = .ok i ∧ (sym.toNat, e, b) ∈ lengthRows ∧ s.params.wf = true ∧ FitsIn s ∧ s.blk.act = false ∧
    len = b + s.lsbValue s.pos e ∧ p = s.pos + e ∧ (d = s.msbValue p 5 ∧ (d, eD, bD) ∈ distRows ∧
    dist = bD + s.lsbValue (p + 5) eD ∧ q = p + 5 + eD ∧ q ≤ s.streamEnd ∧ dist ≤ s.outLen ∧
    s.outLen + len ≤ s.params.dbufCap)

/-- The first and the last code, the distance all of the output and the buffer just filled; and extra bits in both. -/
theorem test_witness_LengthCodesFixed :
    FixedAt (filled 297 (job [0] .tokens 0)) .llLen257 257 0 3 3 0 0 0 1 1 5 ∧
    FixedAt (filled 42 (job [0] .tokens 3)) .llLen285 285 0 258 258 3 0 0 1 1 8 ∧
    FixedAt (filled 6 (job [0x82, 0x04] .tokens 0)) .llLen284 284 5 227 229 5 4 1 5 6 11 := ⟨by decide +kernel, by decide +kernel, by decide +kernel⟩

/-- T_D with two codes of one bit, for D symbols 0 and 29. -/
def dynamicJob (bytes outs : List Byte) (pos : Nat) : State :=
  let s := tokenJob bytes outs pos
  { s with
    blk := { s.blk with act := true }
    tabs := { s.tabs with d := buildTable (HuffTable.empty 32) (lengthVector 32 ([1] ++ List.replicate 3 0 ++ [1])) } }

/-- The premises of LengthCodesDynamic. -/
abbrev DynamicAt (s : State) (i : Instr) (sym d : BitVec 9) (e b len p L eD bD dist q : Nat) : Prop :=
  (decode (.ll sym) = .ok i ∧ (sym.toNat, e, b) ∈ lengthRows ∧ s.params.wf = true ∧ FitsIn s ∧ s.blk.act = true ∧
    len = b + s.lsbValue s.pos e ∧ p = s.pos + e) ∧ s.tabs.d.FirstMatch (s.setPos p) L d ∧
  (d.toNat, eD, bD) ∈ distRows ∧ dist = bD + s.lsbValue (p + L) eD ∧ q = p + L + eD ∧
    q ≤ s.streamEnd ∧ dist ≤ s.outLen ∧ s.outLen + len ≤ s.params.dbufCap

/-- D symbol 0 at the last bit of the stream. -/
theorem test_witness_LengthCodesDynamic :
    DynamicAt (filled 297 (dynamicJob [0] [] 7)) .llLen257 257 0 0 3 3 7 1 0 1 1 8 :=
  ⟨by decide +kernel, ⟨by decide +kernel, by decide +kernel, by decide +kernel, by decide +kernel, by decide +kernel,
    by decide +kernel⟩, by decide +kernel⟩
/-- D symbol 4 with its extra bit. -/
theorem test_witness_LengthCodesDynamic_extra :
    DynamicAt (filled 6 (dynamicJob [0x80, 0x01] [] 7)) .llLen257 257 4 0 3 3 7 1 1 5 6 9 :=
  ⟨by decide +kernel, ⟨by decide +kernel, by decide +kernel, by decide +kernel, by decide +kernel, by decide +kernel,
    by decide +kernel⟩, by decide +kernel⟩

/-- The premises that all clauses of BackReferenceErrors share, but for the names of states. -/
abbrev LengthAt (s : State) (i : Instr) (sym : BitVec 9) (e b len p : Nat) : Prop :=
  decode (.ll sym) = .ok i ∧ (sym.toNat, e, b) ∈ lengthRows ∧ FitsIn s ∧ len = b + s.lsbValue s.pos e ∧ p = s.pos + e

/-- The premises of its clauses about a distance symbol that has a row. -/
abbrev RowAt (s : State) (p d n eD bD dist q : Nat) : Prop :=
  (d, eD, bD) ∈ distRows ∧ dist = bD + s.lsbValue (p + n) eD ∧ q = p + n + eD

/-- Each check failed by the least amount: the length's extra bits, the distance code, its symbol, its extra bits, the
distance and the room. -/
theorem test_witness_BackReferenceErrors_bits :
    (LengthAt (shorter 1 (job [0, 0] .tokens 8)) .llLen265 265 1 11 11 9 ∧
      (shorter 1 (job [0, 0] .tokens 8)).streamEnd < 9) ∧
    (LengthAt (shorter 1 (job [0, 0] .tokens 4)) .llLen257 257 0 3 3 4 ∧
      4 ≤ (shorter 1 (job [0, 0] .tokens 4)).streamEnd ∧ (shorter 1 (job [0, 0] .tokens 4)).blk.act = false ∧
      (shorter 1 (job [0, 0] .tokens 4)).streamEnd < 4 + 5) := by decide +kernel
theorem test_witness_BackReferenceErrors_distance :
    (LengthAt (job [0x0F] .tokens 0) .llLen257 257 0 3 3 0 ∧ DistanceCode (job [0x0F] .tokens 0) 0 30 5 ∧ 29 < 30) ∧
    (LengthAt (shorter 1 (job [0x20, 0] .tokens 3)) .llLen257 257 0 3 3 3 ∧
      DistanceCode (shorter 1 (job [0x20, 0] .tokens 3)) 3 4 5 ∧
      RowAt (shorter 1 (job [0x20, 0] .tokens 3)) 3 4 5 1 5 5 9 ∧ (shorter 1 (job [0x20, 0] .tokens 3)).streamEnd < 9) :=
  ⟨⟨by decide +kernel, ⟨by decide +kernel, by decide, .inl (by decide +kernel)⟩, by decide⟩, by decide +kernel,
    ⟨by decide +kernel, by decide, .inl (by decide +kernel)⟩, by decide +kernel⟩
theorem test_witness_BackReferenceErrors_copy :
    (LengthAt (tokenJob [0] [] 0) .llLen257 257 0 3 3 0 ∧ DistanceCode (tokenJob [0] [] 0) 0 0 5 ∧
      RowAt (tokenJob [0] [] 0) 0 0 5 0 1 1 5 ∧ 5 ≤ (tokenJob [0] [] 0).streamEnd ∧ (tokenJob [0] [] 0).outLen < 1) ∧
    (LengthAt (filled 298 (job [0] .tokens 0)) .llLen257 257 0 3 3 0 ∧ DistanceCode (filled 298 (job [0] .tokens 0)) 0 0 5 ∧
      RowAt (filled 298 (job [0] .tokens 0)) 0 0 5 0 1 1 5 ∧ 5 ≤ (filled 298 (job [0] .tokens 0)).streamEnd ∧
      1 ≤ (filled 298 (job [0] .tokens 0)).outLen ∧ par.dbufCap < (filled 298 (job [0] .tokens 0)).outLen + 3) :=
  ⟨⟨by decide +kernel, ⟨by decide +kernel, by decide, .inl (by decide +kernel)⟩, by decide +kernel⟩, by decide +kernel,
    ⟨by decide +kernel, by decide, .inl (by decide +kernel)⟩, by decide +kernel⟩

/-- T_D with codes 0 for D symbol 29, 10 for 30 and 110 for 31. -/
def distanceJob (bytes outs : List Byte) (pos : Nat) : State :=
  let s := dynamicJob bytes outs pos
  { s with tabs := { s.tabs with
      d := buildTable (HuffTable.empty 32) (lengthVector 32 (List.replicate 29 0 ++ [1, 2, 3])) } }

/-- An empty T_D (R213) at the end of the stream. -/
theorem test_witness_BackReferenceErrors_emptyD :
    ∀ s ∈ [{ job [0] .tokens 8 with blk := { blank.blk with act := true } }],
      LengthAt s .llLen257 257 0 3 3 8 ∧ 8 ≤ s.streamEnd ∧ s.blk.act = true ∧ s.tabs.d.FailsAt (s.setPos 8) := by
  decide +kernel
/-- In a dynamic block: 111 is no code; one bit of a longer code is left; D symbol 31 at the last bit; and the extra bits
of D symbol 29 one bit short. -/
theorem test_witness_BackReferenceErrors_noMatch : LengthAt (distanceJob [0xff] [] 5) .llLen257 257 0 3 3 5 ∧
    5 ≤ (distanceJob [0xff] [] 5).streamEnd ∧ (distanceJob [0xff] [] 5).blk.act = true ∧
    (distanceJob [0xff] [] 5).tabs.d.FailsAt ((distanceJob [0xff] [] 5).setPos 5) := by decide +kernel
theorem test_witness_BackReferenceErrors_codeCut : LengthAt (distanceJob [0xff] [] 7) .llLen257 257 0 3 3 7 ∧
    7 ≤ (distanceJob [0xff] [] 7).streamEnd ∧ (distanceJob [0xff] [] 7).blk.act = true ∧
    (distanceJob [0xff] [] 7).tabs.d.EndsAt ((distanceJob [0xff] [] 7).setPos 7) 2 :=
  ⟨by decide +kernel, by decide +kernel, by decide +kernel,
    ⟨by decide +kernel, by decide +kernel, by decide +kernel, by decide +kernel⟩⟩
theorem test_witness_BackReferenceErrors_dynamicInvalid : LengthAt (distanceJob [0x60] [] 5) .llLen257 257 0 3 3 5 ∧
    DistanceCode (distanceJob [0x60] [] 5) 5 31 3 ∧ 29 < 31 :=
  ⟨by decide +kernel, ⟨by decide +kernel, by decide, .inr ⟨by decide +kernel, 31, by decide,
    ⟨by decide +kernel, by decide +kernel, by decide +kernel, by decide +kernel, by decide +kernel, by decide +kernel⟩⟩⟩,
    by decide⟩
theorem test_witness_BackReferenceErrors_dynamicExtra : LengthAt (shorter 1 (distanceJob [0, 0, 0] [] 3)) .llLen257 257 0 3 3 3 ∧
    DistanceCode (shorter 1 (distanceJob [0, 0, 0] [] 3)) 3 29 1 ∧ RowAt (shorter 1 (distanceJob [0, 0, 0] [] 3)) 3 29 1 13 24577 24577 17 ∧
    (shorter 1 (distanceJob [0, 0, 0] [] 3)).streamEnd < 17 :=
  ⟨by decide +kernel, ⟨by decide +kernel, by decide, .inr ⟨by decide +kernel, 29, by decide,
    ⟨by decide +kernel, by decide +kernel, by decide +kernel, by decide +kernel, by decide +kernel, by decide +kernel⟩⟩⟩,
    by decide +kernel⟩
/-- And the copy's two checks there, with D symbol 0. -/
theorem test_witness_BackReferenceErrors_dynamicCopy : ∀ n ∈ [0, 298],
    LengthAt (filled n (dynamicJob [0] [] 7)) .llLen257 257 0 3 3 7 ∧ DistanceCode (filled n (dynamicJob [0] [] 7)) 7 0 1 ∧
    RowAt (filled n (dynamicJob [0] [] 7)) 7 0 1 0 1 1 8 ∧ 8 ≤ (filled n (dynamicJob [0] [] 7)).streamEnd := by
  intro n hn
  simp only [List.mem_cons, List.not_mem_nil, or_false] at hn
  rcases hn with rfl | rfl <;>
  exact ⟨by decide +kernel, ⟨by decide +kernel, by decide, .inr ⟨by decide +kernel, 0, by decide,
    ⟨by decide +kernel, by decide +kernel, by decide +kernel, by decide +kernel, by decide +kernel, by decide +kernel⟩⟩⟩,
    by decide +kernel, by decide +kernel⟩

/-- LEN in its register. -/
def distJob (bytes outs : List Byte) (pos len : Nat) : State := (tokenJob bytes outs pos).setLen len

/-- The premises that all clauses of DistanceSymbols share, and those of its clauses about a symbol that has a row. -/
abbrev DistAt (s : State) : Prop := s.params.wf = true ∧ FitsIn s ∧ s.pos ≤ s.streamEnd
abbrev DistRowAt (s : State) (d : BitVec 5) (eD bD dist q : Nat) : Prop :=
  DistAt s ∧ (d.toNat, eD, bD) ∈ distRows ∧ dist = bD + s.lsbValue s.pos eD ∧ q = s.pos + eD

theorem test_witness_DistanceSymbols :
    (DistAt (distJob [0] [] 8 3) ∧ 29 < (30 : BitVec 5).toNat) ∧
    (DistRowAt (shorter 1 (distJob [0, 0] [] 8 3)) 4 1 5 5 9 ∧ (shorter 1 (distJob [0, 0] [] 8 3)).streamEnd < 9) ∧
    (DistRowAt (distJob [0xff, 0x1f] [7] 0 3) 29 13 24577 32768 13 ∧ 13 ≤ (distJob [0xff, 0x1f] [7] 0 3).streamEnd ∧
      (distJob [0xff, 0x1f] [7] 0 3).outLen < 32768) ∧
    (DistRowAt (filled 298 (distJob [0] [] 8 3)) 0 0 1 1 8 ∧ 1 ≤ (filled 298 (distJob [0] [] 8 3)).outLen ∧
      par.dbufCap < (filled 298 (distJob [0] [] 8 3)).outLen + (filled 298 (distJob [0] [] 8 3)).tok.len.toNat) ∧
    (DistRowAt (filled 297 (distJob [0] [] 8 3)) 0 0 1 1 8 ∧ 1 ≤ (filled 297 (distJob [0] [] 8 3)).outLen ∧
      (filled 297 (distJob [0] [] 8 3)).outLen + (filled 297 (distJob [0] [] 8 3)).tok.len.toNat ≤
        par.dbufCap) := by decide +kernel

/-! ### Tables -/

/-- A complete vector for each slot. -/
theorem test_witness_BuildTable : kraftSum (lengthVector 19 [1, 1]) = 2 ^ 15 ∧
    kraftSum (lengthVector 288 [1, 2, 2]) ≤ 2 ^ 15 ∧ kraftSum (lengthVector 32 []) ≤ 2 ^ 15 := by decide +kernel
/-- Over by the least amount, in each slot; and the least id that is no slot. -/
theorem test_witness_BuildFails : (∀ n ∈ [19, 288, 32], kraftSum (lengthVector n [1, 1, 15]) = 2 ^ 15 + 1) ∧
    3 ≤ (3 : BitVec 3).toNat := by decide +kernel

/-- An empty table; a code that ends at the last bit (L2.2.14); no match; and the stream's end before a match (L2.2.13). -/
theorem test_witness_DecodeCode :
    (FitsIn (job [0] .header 0) ∧ (job [0] .header 0).pos ≤ (job [0] .header 0).streamEnd ∧
      (job [0] .header 0).tabs.cl.used = 0) ∧
    (FitsIn (decodeJob [0x40] 6) ∧ (decodeJob [0x40] 6).pos + 2 ≤ (decodeJob [0x40] 6).streamEnd ∧
      (decodeJob [0x40] 6).tabs.cl.used ≠ 0 ∧ (decodeJob [0x40] 6).tabs.cl.minLen.toNat ≤ 2 ∧
      2 ≤ (decodeJob [0x40] 6).tabs.cl.maxLen.toNat ∧ (decodeJob [0x40] 6).tabs.cl.MatchesAt (decodeJob [0x40] 6) 2 ∧
      (∀ j, j < 2 → (decodeJob [0x40] 6).tabs.cl.minLen.toNat ≤ j →
        ¬ (decodeJob [0x40] 6).tabs.cl.MatchesAt (decodeJob [0x40] 6) j) ∧
      (decodeJob [0x40] 6).tabs.cl.sym[(decodeJob [0x40] 6).tabs.cl.placeAt (decodeJob [0x40] 6) 2]? = some 0) ∧
    (fLL.used ≠ 0 ∧ fD.used ≠ 0) ∧
    ((decodeJob [0xff] 6).tabs.cl.used ≠ 0 ∧ (decodeJob [0xff] 6).streamEnd < (decodeJob [0xff] 6).pos + 3 ∧
      3 ≤ (decodeJob [0xff] 6).tabs.cl.maxLen.toNat ∧
      ∀ j, j < 3 → (decodeJob [0xff] 6).tabs.cl.minLen.toNat ≤ j → (decodeJob [0xff] 6).pos + j ≤ (decodeJob [0xff] 6).streamEnd ∧
        ¬ (decodeJob [0xff] 6).tabs.cl.MatchesAt (decodeJob [0xff] 6) j) := by decide +kernel

/-- L2.2.15: table [1, 0], bit 1. -/
def oneCode (bytes : List Byte) : State :=
  let s := job bytes .header 0
  { s with tabs := { s.tabs with cl := buildTable (HuffTable.empty 19) (lengthVector 19 [1, 0]) } }

theorem test_witness_DecodeCode_none : FitsIn (oneCode [1]) ∧ (oneCode [1]).tabs.cl.used ≠ 0 ∧
    (oneCode [1]).tabs.cl.minLen.toNat ≤ (oneCode [1]).tabs.cl.maxLen.toNat ∧
    (oneCode [1]).pos + (oneCode [1]).tabs.cl.maxLen.toNat ≤ (oneCode [1]).streamEnd ∧
    ∀ j, j ≤ (oneCode [1]).tabs.cl.maxLen.toNat → (oneCode [1]).tabs.cl.minLen.toNat ≤ j →
      ¬ (oneCode [1]).tabs.cl.MatchesAt (oneCode [1]) j := by
  refine ⟨by decide +kernel, by decide +kernel, by decide +kernel, by decide +kernel, fun j h => ?_⟩
  have h1 : j ≤ 1 := Nat.le_trans h (by decide +kernel)
  have : j = 0 ∨ j = 1 := by omega
  rcases this with rfl | rfl <;> decide +kernel
/-- Table ids at the edges of each clause. -/
theorem test_witness_HuffmanPort : (3 : BitVec 3).toNat = 3 ∧ (4 : BitVec 3).toNat = 4 ∧
    ¬((5 : BitVec 3).toNat = 3 ∨ (5 : BitVec 3).toNat = 4) ∧ ¬((2 : BitVec 3).toNat = 3 ∨ (2 : BitVec 3).toNat = 4) ∧
    5 ≤ (5 : BitVec 3).toNat ∧ 5 ≤ (7 : BitVec 3).toNat := by decide

/-- L1.2 over the CL alphabet: length 3's first code 110, at the last bits of the stream. -/
theorem test_witness_FirstCodes :
    (lengthVector 19 [2, 1, 3, 3]).length = Slot.cl.size ∧ kraftSum (lengthVector 19 [2, 1, 3, 3]) ≤ 2 ^ 15 ∧
    0 < atLength (buildTable (HuffTable.empty 19) (lengthVector 19 [2, 1, 3, 3])).count 3 ∧ FitsIn (decodeJob [0x60] 5) ∧
    (decodeJob [0x60] 5).pos + (buildTable (HuffTable.empty 19) (lengthVector 19 [2, 1, 3, 3])).maxLen.toNat ≤
      (decodeJob [0x60] 5).streamEnd ∧
    (decodeJob [0x60] 5).msbValue (decodeJob [0x60] 5).pos 3 =
      atLength (buildTable (HuffTable.empty 19) (lengthVector 19 [2, 1, 3, 3])).first 3 := by decide +kernel
/-- The same table's last symbol, of code 111 at the last bits of the stream. -/
theorem test_witness_EverySymbolDecodes :
    (lengthVector 19 [2, 1, 3, 3]).length = Slot.cl.size ∧ kraftSum (lengthVector 19 [2, 1, 3, 3]) ≤ 2 ^ 15 ∧
    (3 : BitVec 9).toNat < Slot.cl.size ∧ ((lengthVector 19 [2, 1, 3, 3]).getD (3 : BitVec 9).toNat 0).toNat ≠ 0 ∧
    FitsIn (job [0xe0] .header 5) ∧ (job [0xe0] .header 5).streamHas (job [0xe0] .header 5).pos (codeBits 3 7) := by
  decide +kernel
theorem test_witness_FixedDistance : FitsIn (job [0] .tokens 3) ∧ (job [0] .tokens 3).pos + 5 ≤ (job [0] .tokens 3).streamEnd ∧
    FitsIn (job [0] .tokens 4) ∧ (job [0] .tokens 4).pos ≤ (job [0] .tokens 4).streamEnd ∧
    (job [0] .tokens 4).streamEnd < (job [0] .tokens 4).pos + 5 := by decide +kernel
theorem test_witness_FixedCodeComplete : FitsIn (job [0] .tokens 8) ∧
    (job [0] .tokens 8).pos ≤ (job [0] .tokens 8).streamEnd := by decide +kernel

/-! ### The bit cursor -/

/-- The last bit, for any n field; 32 bits that just fit; and each read one bit short. -/
theorem test_witness_CursorReads : (32 : BitVec 6).toNat ≤ 32 ∧
    (∀ s ∈ [job [0] .header 7, job [0, 0, 0, 0] .header 0, job [0] .header 8, job [0, 0, 0, 0] .header 1],
      FitsIn s ∧ s.pos ≤ s.streamEnd) ∧
    ((job [0] .header 7).pos + 1 ≤ (job [0] .header 7).streamEnd ∧ 32 < (63 : BitVec 6).toNat) ∧
    (job [0, 0, 0, 0] .header 0).pos + (32 : BitVec 6).toNat ≤ (job [0, 0, 0, 0] .header 0).streamEnd ∧
    (job [0] .header 8).streamEnd < (job [0] .header 8).pos + 1 ∧
    (job [0, 0, 0, 0] .header 1).streamEnd < (job [0, 0, 0, 0] .header 1).pos + (32 : BitVec 6).toNat := by decide +kernel
/-- A skip of 63 bits that just fits, one that is one bit too long, and an alignment at the end. -/
theorem test_witness_CursorMoves :
    (job [0, 0, 0, 0, 0, 0, 0, 0] .header 1).pos + (63 : BitVec 6).toNat ≤ (job [0, 0, 0, 0, 0, 0, 0, 0] .header 1).streamEnd ∧
    (job [0, 0, 0, 0, 0, 0, 0, 0] .header 2).pos ≤ (job [0, 0, 0, 0, 0, 0, 0, 0] .header 2).streamEnd ∧
    (job [0, 0, 0, 0, 0, 0, 0, 0] .header 2).streamEnd < (job [0, 0, 0, 0, 0, 0, 0, 0] .header 2).pos + (63 : BitVec 6).toNat := by
  decide +kernel
theorem test_witness_CallerErrors : (Instr.bcReserved67 6 0).wf = true ∧ 32 < (33 : BitVec 6).toNat := by decide
theorem test_witness_CursorMonotone :
    (cursorJob 16).pos ≤ (cursorJob 16).streamEnd ∧ (∃ t, exec (decodeBC 0b101000000) (cursorJob 16) = .next t) ∧
    Inv (job [0x01] .header 8) ∧ (job [0x01] .header 8).phase.busy = true ∧ (job [0x01] .header 8).env.inputs = [] ∧
    ∃ t, step (job [0x01] .header 8) = .next t :=
  ⟨by decide +kernel, next_of (by decide +kernel), test_witness_inv_header, by decide +kernel, by decide +kernel,
    next_of (by decide +kernel)⟩

/-! ### The defilter -/

/-- Every filter over a row as wide as MAX_WIDTH allows, with PIX just filled and DBUF read to its end; and an empty row. -/
theorem test_witness_FilterRows :
    (∀ s ∈ [{ image [] 4 2 with params := { par with dbufCap := 13, pixCap := 12 } }, image [] 0 1], s.params.wf = true ∧
      s.defl.row.toNat * (1 + 3 * s.regs.width.toNat) + 1 + 3 * s.regs.width.toNat ≤ s.params.dbufCap ∧
      3 * s.regs.width.toNat ≤ 3 * s.params.maxWidth ∧
      s.regs.pixLen.toNat + 3 * s.regs.width.toNat ≤ s.params.pixCap) := by decide +kernel
/-- Each answer of Paeth, at its ties (L2.5.1b, L2.5.1d, L2.5.1c). -/
theorem test_witness_Predictors :
    (((7 : Int) - 0).natAbs ≤ ((7 : Int) - 0).natAbs ∧ ((7 : Int) - 0).natAbs ≤ ((7 : Int) + 7 - 2 * 0).natAbs) ∧
    (((0 : Int) - 1).natAbs < ((3 : Int) - 1).natAbs ∧ ((0 : Int) - 1).natAbs ≤ ((0 : Int) + 3 - 2 * 1).natAbs) ∧
    (((5 : Int) + 1 - 2 * 3).natAbs < ((1 : Int) - 3).natAbs ∧ ((5 : Int) + 1 - 2 * 3).natAbs < ((5 : Int) - 3).natAbs) := by
  decide
theorem test_witness_InvalidFilters : 5 ≤ (5 : Byte).toNat ∧ 5 ≤ (255 : Byte).toNat ∧ (image [5] 0 1).defl.stg = true := by
  decide +kernel
theorem test_witness_ZeroNeighbours : (image [0, 100, 100, 100] 1 1).params.wf = true ∧
    (image [0, 100, 100, 100] 1 1).regs.width = 1 ∧ (∀ k, k < 3 → (image [0, 100, 100, 100] 1 1).byteAt .slPrev k = 0) ∧
    ∃ t, exec .filterPaeth (image [0, 100, 100, 100] 1 1) = .next t :=
  ⟨by decide +kernel, by decide +kernel, by decide +kernel, next_of (by decide +kernel)⟩

/-- Before the rows of an image as wide as MAX_WIDTH allows. -/
def startRows (n : Nat) : State := { image (List.replicate n 0) 4 1 with phase := .defilterStart }

/-- One byte too few, and just enough. -/
theorem test_witness_DefilterStart :
    (∀ s ∈ [startRows 12, startRows 13], s.env.inputs = [] ∧ s.phase = .defilterStart ∧
      3 * s.regs.width.toNat ≤ 3 * s.params.maxWidth) ∧
    (startRows 12).outLen < (startRows 12).regs.height.toNat * (1 + 3 * (startRows 12).regs.width.toNat) ∧
    (startRows 13).regs.height.toNat * (1 + 3 * (startRows 13).regs.width.toNat) ≤ (startRows 13).outLen := by decide +kernel

/-- At the end of a block, with BFINAL and DEFILTER_EN given. -/
def endJob (f en : Bool) : State :=
  let s := job [0] .blockEnd 3
  { s with blk := { s.blk with bfinal := f }, regs := { s.regs with defilterEn := en } }

theorem test_witness_BlockEnd : (∀ s ∈ [endJob false true, endJob true true, endJob true false],
    s.env.inputs = [] ∧ s.phase = .blockEnd) ∧ (endJob false true).blk.bfinal = false ∧
    ((endJob true true).blk.bfinal = true ∧ (endJob true true).regs.defilterEn = true) ∧
    ((endJob true false).blk.bfinal = true ∧ (endJob true false).regs.defilterEn = false) := by decide +kernel

/-! ### The host -/

/-- A job ready to start: IN_LEN, WIDTH and HEIGHT given, the defilter on. -/
def ready (inLen w h : Nat) : State :=
  { blank with regs := { blank.regs with
      inLen := BitVec.ofNat 32 inLen, width := BitVec.ofNat 32 w, height := BitVec.ofNat 32 h } }

/-- The premises of START's good case. -/
abbrev Startable (s : State) : Prop :=
  s.phase.busy = false ∧ s.regs.inLen.toNat ≤ s.params.inCap ∧ (s.regs.defilterEn = true → s.regs.width.toNat ≠ 0 ∧
    s.regs.height.toNat ≠ 0 ∧ s.regs.width.toNat ≤ s.params.maxWidth ∧
    3 * s.regs.width.toNat * s.regs.height.toNat ≤ s.params.pixCap)

/-- Everything at its limit; and each check failed by the least amount. -/
theorem test_witness_Start : (job [0] .tokens 0).phase.busy = true ∧ Startable (ready 64 4 5) ∧ Startable (job [0] .idle 0) ∧
    (∀ s ∈ [ready 65 1 1, ready 1 0 1, ready 1 1 0, ready 1 5 1, ready 1 1 22], s.phase.busy = false ∧
      (s.params.inCap < s.regs.inLen.toNat ∨ (s.regs.defilterEn = true ∧ (s.regs.width.toNat = 0 ∨ s.regs.height.toNat = 0 ∨
        s.params.maxWidth < s.regs.width.toNat ∨
        s.params.pixCap < 3 * s.regs.width.toNat * s.regs.height.toNat)))) := by decide +kernel
theorem test_witness_AbortClearNone : (job [0] .tokens 0).phase.busy = true ∧ (job [0] .idle 0).phase.busy = false ∧
    (job [0] .done 0).phase = .done ∧ ¬((job [0] .idle 0).phase = .done ∨ (job [0] .idle 0).phase = .error) := by
  decide +kernel
/-- The command words 0b111 (both ways), 0b101 (both ways), 0b001 and 0xFFFFFFF8. -/
theorem test_witness_CommandPriority :
    (∀ w : Word, (turn (.regWrite 0 32 w) (job [0] .tokens 0)).env.inputs = .regWrite 0 32 w :: []) ∧
    ((0b111 : Word).getLsbD 1 = true ∧ (job [0] .tokens 0).phase.busy = true ∧ (job [0] .done 0).phase.busy = false) ∧
    ((0b101 : Word).getLsbD 1 = false ∧ (0b101 : Word).getLsbD 2 = true ∧ (job [0] .done 0).phase = .done ∧
      ¬((job [0] .idle 0).phase = .done ∨ (job [0] .idle 0).phase = .error)) ∧
    ((0b001 : Word).getLsbD 1 = false ∧ (0b001 : Word).getLsbD 2 = false ∧ (0b001 : Word).getLsbD 0 = true) ∧
    ((0xFFFFFFF8 : Word).getLsbD 1 = false ∧ (0xFFFFFFF8 : Word).getLsbD 2 = false ∧
      (0xFFFFFFF8 : Word).getLsbD 0 = false) :=
  ⟨fun _ => rfl, by decide +kernel, by decide +kernel, by decide, by decide⟩
/-- A read at each offset of R30, at the first reserved one, misaligned, and of the wrong width. -/
theorem test_witness_RegisterReads :
    (∀ off width, (turn (.regRead off width) blank).env.inputs = .regRead off width :: []) ∧
    (∀ off ∈ [0x00, 0x04, 0x08, 0x0C, 0x10, 0x14, 0x18, 0x1C, 0x20, 0x24, 0x28, 0x2C, 0x30, 0x34, 0x38, 0x3C], off % 4 = 0) ∧
    (0x09 % 4 ≠ 0 ∧ (16 : Nat) ≠ 32) := ⟨fun _ _ => rfl, by decide, by decide⟩
theorem test_witness_RegisterWrites :
    (∀ off width v, (turn (.regWrite off width v) blank).env.inputs = .regWrite off width v :: []) ∧
    blank.phase.busy = false ∧ (job [0] .header 0).phase.busy = true ∧ (0x3C ≠ 0x00 ∧ 0x3C ≠ 0x04 ∧ 0x3C ≠ 0x0C ∧ 0x3C ≠ 0x10 ∧ 0x3C ≠ 0x14) ∧
    (0x05 % 4 ≠ 0 ∧ (8 : Nat) ≠ 32) := ⟨fun _ _ _ => rfl, rfl, rfl, by decide, by decide⟩
/-- The last byte of each space, and the first beyond; written bytes up to the last one. -/
theorem test_witness_HostMemory :
    (blank.sizeOf HostMem.inMem.space ≤ 64 ∧ 63 < blank.sizeOf HostMem.inMem.space ∧ blank.phase.busy = false) ∧
    (299 < (filled 300 blank).sizeOf HostMem.dbuf.space ∧
      299 < (filled 300 blank).regs.dbufLen.toNat) ∧
    (HostMem.dbuf ≠ .inMem ∧ blank.params.inCap ≤ 64 ∧ 63 < blank.params.inCap ∧ (job [0] .header 0).phase.busy = true) ∧
    (turn (.memRead .dbuf 299) (filled 300 blank)).env.inputs = .memRead .dbuf 299 :: [] ∧
    (turn (.memWrite .inMem 63 5) blank).env.inputs = .memWrite .inMem 63 5 :: [] := by decide +kernel

/-- A written pixel below PIX_LEN. -/
theorem test_witness_HostMemory_pix : ∀ s ∈ [{ blank with regs := { blank.regs with pixLen := 64 } }],
    63 < s.sizeOf HostMem.pix.space ∧ s.phase.busy = false ∧ 63 < s.regs.pixLen.toNat := by decide +kernel

/-! ### Errors and whole runs -/

/-- A stream that ends in the header (L2.3.1). -/
theorem test_witness_ErrorsByPhase : Inv (job [] .header 0) ∧ (job [] .header 0).phase.busy = true ∧
    (job [] .header 0).env.inputs = [] ∧ ∃ t, step (job [] .header 0) = .next t ∧ t.phase = .error := by
  refine ⟨inv_of_checks rfl (by decide +kernel), by decide +kernel, by decide +kernel, ?_⟩
  obtain ⟨t, ht⟩ := next_of (o := step (job [] .header 0)) (by decide +kernel)
  refine ⟨t, ht, ?_⟩
  have h : nextIs (step (job [] .header 0)) (fun t => decide (t.phase = .error)) = true := by decide +kernel
  rw [ht] at h
  exact of_decide_eq_true h
/-- In P_TOKENS with ACT 0, one bit short of a code. -/
theorem test_witness_ErrorsByPhase_tokens : Inv (job [0, 0] .tokens 10) ∧ (job [0, 0] .tokens 10).phase = .tokens ∧
    (job [0, 0] .tokens 10).blk.act = false ∧ nextIs (step (job [0, 0] .tokens 10)) (fun t => failed t 1 1 2) = true :=
  ⟨inv_of_checks rfl (by decide +kernel), by decide +kernel, by decide +kernel, by decide +kernel⟩
/-- The first step of the defilter, with just enough output. -/
def startJob : State :=
  let s := out [0, 1, 2, 3] (job [0] .defilterStart 0)
  { s with regs := { s.regs with width := 1, height := 1, defilterEn := true } }

/-- One state in each phase. -/
theorem test_witness_PhaseSuccessors :
    (Inv blank ∧ ∃ t, step blank = .next t) ∧
    (Inv (job [0x01] .header 8) ∧ ∃ t, step (job [0x01] .header 8) = .next t) ∧
    (Inv headerJob ∧ ∃ t, step headerJob = .next t) ∧
    (Inv (job [0x01, 0x00, 0x00, 0xff, 0xff] .stored 3) ∧ ∃ t, step (job [0x01, 0x00, 0x00, 0xff, 0xff] .stored 3) = .next t) ∧
    (Inv (job [0x03, 0x00] .tokens 3) ∧ ∃ t, step (job [0x03, 0x00] .tokens 3) = .next t) ∧
    (Inv (job [0x03, 0x00] .blockEnd 10) ∧ ∃ t, step (job [0x03, 0x00] .blockEnd 10) = .next t) ∧
    (Inv startJob ∧ startJob.phase = .defilterStart ∧ ∃ t, step startJob = .next t) ∧
    (Inv (image [0, 1, 2, 3] 1 1) ∧ ∃ t, step (image [0, 1, 2, 3] 1 1) = .next t) ∧
    (Inv (job [0x03, 0x00] .done 10) ∧ ∃ t, step (job [0x03, 0x00] .done 10) = .next t) ∧
    (Inv (errorEntry .outOfData (job [] .header 0)) ∧ ∃ t, step (errorEntry .outOfData (job [] .header 0)) = .next t) :=
  ⟨⟨test_witness_inv_reset, next_of (by decide +kernel)⟩, ⟨test_witness_inv_header, next_of (by decide +kernel)⟩,
    ⟨test_witness_DynamicStep.1, next_of (by decide +kernel)⟩, ⟨test_witness_inv_stored, next_of (by decide +kernel)⟩,
    ⟨test_witness_inv_tokens, next_of (by decide +kernel)⟩, ⟨test_witness_inv_blockEnd, next_of (by decide +kernel)⟩,
    ⟨inv_of_checks rfl (by decide +kernel), by decide +kernel, next_of (by decide +kernel)⟩,
    ⟨test_witness_inv_defilterRow, next_of (by decide +kernel)⟩, ⟨test_witness_inv_done, next_of (by decide +kernel)⟩,
    ⟨test_witness_inv_error, next_of (by decide +kernel)⟩⟩
theorem test_witness_ErrorIsFinal : (errorEntry .outOfData (job [] .header 0)).phase = .error ∧
    (errorEntry .outOfData (job [] .header 0)).env.inputs = [] ∧ (2 : Word).getLsbD 1 = true ∧
    (turn (.regWrite 0 32 2) (errorEntry .outOfData (job [] .header 0))).env.inputs = .regWrite 0 32 2 :: [] ∧
    Turn.leavesError (.regWrite 0x0C 32 5) = false ∧ Turn.leavesError (.regWrite 0 32 0b111) = false ∧
    ∃ t, step (turn (.regWrite 0x0C 32 5) (errorEntry .outOfData (job [] .header 0))) = .next t :=
  ⟨by decide +kernel, by decide +kernel, by decide, by decide +kernel, by decide, by decide, next_of (by decide +kernel)⟩
theorem test_witness_EngineFrame : Inv (job [0x03, 0x00] .tokens 3) ∧ (job [0x03, 0x00] .tokens 3).env.inputs = [] ∧
    ∃ t, step (job [0x03, 0x00] .tokens 3) = .next t :=
  ⟨test_witness_inv_tokens, by decide +kernel, next_of (by decide +kernel)⟩
/-- L1.6's row. -/
theorem test_witness_PixelsAtDone : Inv (image [0, 1, 2, 3] 1 1) ∧ (image [0, 1, 2, 3] 1 1).phase = .defilterRow ∧
    (image [0, 1, 2, 3] 1 1).env.inputs = [] ∧ ∃ t, step (image [0, 1, 2, 3] 1 1) = .next t ∧ t.phase = .done := by
  refine ⟨test_witness_inv_defilterRow, by decide +kernel, by decide +kernel, ?_⟩
  obtain ⟨t, ht⟩ := next_of (o := step (image [0, 1, 2, 3] 1 1)) (by decide +kernel)
  refine ⟨t, ht, ?_⟩
  have h : nextIs (step (image [0, 1, 2, 3] 1 1)) (fun t => decide (t.phase = .done)) = true := by decide +kernel
  rw [ht] at h
  exact of_decide_eq_true h
theorem test_witness_RunEnds : Inv (job [0x03, 0x00] .idle 0) ∧ (job [0x03, 0x00] .idle 0).phase.busy = false ∧
    (job [0x03, 0x00] .idle 0).env.inputs = [] ∧ ∃ t, exec (.ctrlStart 1) (job [0x03, 0x00] .idle 0) = .next t :=
  ⟨inv_of_checks rfl (by decide +kernel), by decide +kernel, by decide +kernel, next_of (by decide +kernel)⟩
/-- The same job after reset and after an earlier run that left output, a cursor and a done state behind. -/
theorem test_witness_RunsAlike : Inv (job [0x03, 0x00] .idle 0) ∧ Inv (out [1, 2, 3] (job [0x03, 0x00] .done 10)) ∧
    (job [0x03, 0x00] .idle 0).phase.busy = false ∧ (out [1, 2, 3] (job [0x03, 0x00] .done 10)).phase.busy = false ∧
    (job [0x03, 0x00] .idle 0).env.inputs = [] ∧ (out [1, 2, 3] (job [0x03, 0x00] .done 10)).env.inputs = [] ∧
    SameJob (job [0x03, 0x00] .idle 0) (out [1, 2, 3] (job [0x03, 0x00] .done 10)) ∧
    (∃ t, exec (.ctrlStart 1) (job [0x03, 0x00] .idle 0) = .next t) ∧
    ∃ t, exec (.ctrlStart 1) (out [1, 2, 3] (job [0x03, 0x00] .done 10)) = .next t :=
  ⟨inv_of_checks rfl (by decide +kernel), inv_of_checks rfl (by decide +kernel), by decide +kernel, by decide +kernel,
    by decide +kernel, by decide +kernel,
    ⟨by decide +kernel, by decide +kernel, by decide +kernel, by decide +kernel, by decide +kernel, by decide +kernel,
      by decide +kernel⟩, next_of (by decide +kernel), next_of (by decide +kernel)⟩

/-- Some output of an earlier block, then the fixed block of the tokens below. -/
def blockJob : State :=
  out [0x41, 0x42] (job (packBits (assembleBits [.fixed 1, .lit 0x43, .backRef 5 3, .eob])) .header 0)

theorem test_witness_FixedBlock : Inv blockJob ∧ blockJob.phase = .header ∧ blockJob.env.inputs = [] ∧
    blockJob.streamHas blockJob.pos
      (assembleBits ([.fixed (true : Bool).toNat] ++ [Tok.lit 0x43, .backRef 5 3].map Tok.line ++ [.eob])) ∧
    tokensOutput [.lit 0x43, .backRef 5 3] ((List.range blockJob.outLen).map (fun a => blockJob.byteAt .dbuf a)) =
      some [0x41, 0x42, 0x43, 0x41, 0x42, 0x43, 0x41, 0x42] ∧
    [0x41, 0x42, 0x43, 0x41, 0x42, 0x43, 0x41, (0x42 : Byte)].length ≤ blockJob.params.dbufCap :=
  ⟨inv_of_checks rfl (by decide +kernel), by decide +kernel, by decide +kernel, by decide +kernel, by decide +kernel,
    by decide +kernel⟩

end Sys2Proof.Tests
end

section
/-! PROOFS. The `irq` level (10_state.md R48) and the fields of STATUS that show it and STATE (R33). -/

namespace Sys2Proof.Machine

theorem Phase.ended_eq_true_iff (p : Phase) : p.ended = true ↔ p = .done ∨ p = .error := by
  cases p <;> simp [Phase.ended]

theorem State.irq_eq_true_iff (s : State) :
    s.irq = true ↔ s.regs.irqEn = true ∧ (s.phase = .done ∨ s.phase = .error) := by
  rw [State.irq, Bool.and_eq_true, Phase.ended_eq_true_iff]

theorem State.statusWord_getLsbD_three (s : State) : s.statusWord.getLsbD 3 = s.irq := by
  simp only [State.statusWord, BitVec.getLsbD_append]
  simp

theorem State.statusWord_extract_state (s : State) : s.statusWord.extractLsb' 0 2 = s.stateCode :=
  BitVec.extractLsb'_append_eq_right

/-- STATE tells IDLE, DONE and ERROR apart from every other phase: all of those share the code 1 (BUSY). -/
theorem State.stateCode_eq_iff (s : State) :
    (s.stateCode = 2 ↔ s.phase = .done) ∧ (s.stateCode = 3 ↔ s.phase = .error) ∧
      (s.stateCode = 0 ↔ s.phase = .idle) := by
  unfold State.stateCode
  cases s.phase <;> decide

/-- Settles O50: R48's two conditions are the conjuncts of `irq`, and STATUS is read field by field (R33). -/
theorem irqLevel : Obligations.IrqLevel := by
  unfold Obligations.IrqLevel
  intro s
  rw [s.statusWord_extract_state]
  exact ⟨s.irq_eq_true_iff, s.statusWord_getLsbD_three, s.stateCode_eq_iff⟩

end Sys2Proof.Machine
end

section
/-! PROOFS. The bits of an assembled value (20_memory.md R87). -/

namespace Sys2Proof.Machine

/-- The bit last read joins an LSB-first value as its top bit; the bits below it stay. -/
theorem State.lsbValue_testBit (s : State) (p n i : Nat) :
    (s.lsbValue p n).testBit i = (decide (i < n) && s.streamBit (p + i)) := by
  induction n with
  | zero => simp [State.lsbValue]
  | succ n ih =>
    rw [State.lsbValue, Nat.add_comm, Nat.mul_comm, Nat.testBit_two_pow_mul_add _ (lsbValue_lt s p n), ih,
      Nat.testBit_bool_toNat]
    rcases Nat.lt_trichotomy i n with hlt | rfl | hgt
    · simp [hlt, Nat.lt_succ_of_lt hlt]
    · simp
    · have hout : ¬ i < n + 1 := by omega
      simp [Nat.not_lt_of_gt hgt, hout, Nat.sub_ne_zero_of_lt hgt]

/-- The bit last read joins an MSB-first value as bit 0; the bits before it move up by one. -/
theorem State.msbValue_testBit (s : State) (p n i : Nat) :
    (s.msbValue p n).testBit i = (decide (i < n) && s.streamBit (p + (n - 1 - i))) := by
  induction n generalizing i with
  | zero => rw [State.msbValue, Nat.zero_testBit, decide_eq_false (Nat.not_lt_zero i), Bool.false_and]
  | succ n ih =>
    have hbit : (s.streamBit (p + n)).toNat < 2 ^ 1 := Bool.toNat_lt _
    rw [State.msbValue, ← Nat.pow_one 2, Nat.testBit_two_pow_mul_add _ hbit, Nat.testBit_bool_toNat, ih]
    cases i with
    | zero => simp
    | succ i =>
      have hpos : n + 1 - 1 - (i + 1) = n - 1 - i := by omega
      rw [hpos]
      simp

/-- Settles O33: R87's two sums, each by induction on the number of bits read. -/
theorem bitOrder : Obligations.BitOrder := by
  unfold Obligations.BitOrder
  exact fun s p n i => ⟨s.lsbValue_testBit p n i, s.msbValue_testBit p n i⟩

end Sys2Proof.Machine
end

section
/-! PROOFS. The reads of the bit cursor through its port (40_bit_cursor.md R161 to R164, R168). -/

namespace Sys2Proof.Machine

/-! ## A request is answered by its operation (R131) -/

theorem exec_bcReadBitMsb (n : BitVec 6) (s : State) :
    exec (.bcReadBitMsb n) s = (answer (readBitMSB s)).toOutcome := rfl

theorem exec_bcReadBitsMsb (n : BitVec 6) (s : State) :
    exec (.bcReadBitsMsb n) s = (answer (readBitsMSB n.toNat s)).toOutcome := rfl

theorem exec_bcPeekBitsMsb (n : BitVec 6) (s : State) :
    exec (.bcPeekBitsMsb n) s = (answer (peekBitsMSB n.toNat s)).toOutcome := rfl

theorem exec_bcReadBitsLsb (n : BitVec 6) (s : State) :
    exec (.bcReadBitsLsb n) s = (answer (readBitsLSB n.toNat s)).toOutcome := rfl

/-- A reserved op raises in every state (R168). -/
theorem exec_bcReserved67 (op : BitVec 3) (n : BitVec 6) (s : State) :
    exec (.bcReserved67 op n) s = .next (respondFree true (errorEntry .callerError s)) := rfl

/-! ## Responses -/

@[simp] theorem answer_ok (v : Word) (s : State) : answer (.ok v s) = .ok () (respondValue v s) := rfl

@[simp] theorem toOutcome_answer_raise (e : ErrorKind) (s : State) :
    (answer (raise e s)).toOutcome = .next (respondFree true (errorEntry e s)) := rfl

theorem respondValue_setPos (v : Word) (s : State) (p : Nat) :
    respondValue v (s.setPos p) =
      { s.setPos p with env := { s.env with portValue := v, portErr := false } } := rfl

/-- A failed response is the error entry and the port's three fields: nothing else changes. -/
theorem respondFree_errorEntry_eq (e : ErrorKind) (s : State) :
    respondFree true (errorEntry e s) =
      { errorEntry e s with
        env := { s.env with
          portValue := (respondFree true (errorEntry e s)).env.portValue
          portErr := true
          draws := (respondFree true (errorEntry e s)).env.draws } } := rfl

/-! ## A read that fails its checks

The checks of R168 and R160 come first, and the same ones in every read: what they raise is what the request raises. -/

section
variable {s : State} {n : BitVec 6} {e : ErrorKind}

theorem exec_bcReadBitMsb_of_checkRead_raise (h : checkRead 1 s = raise e s) :
    exec (.bcReadBitMsb n) s = .next (respondFree true (errorEntry e s)) := by
  rw [exec_bcReadBitMsb, readBitMSB, h, bind_raise, toOutcome_answer_raise]

theorem exec_multiBitRead_of_checkRead_raise {i : Instr}
    (hi : i = .bcReadBitsMsb n ∨ i = .bcPeekBitsMsb n ∨ i = .bcReadBitsLsb n)
    (h : checkRead n.toNat s = raise e s) : exec i s = .next (respondFree true (errorEntry e s)) := by
  obtain rfl | rfl | rfl := hi
  · rw [exec_bcReadBitsMsb, readBitsMSB, h, bind_raise, toOutcome_answer_raise]
  · rw [exec_bcPeekBitsMsb, peekBitsMSB, h, bind_raise, toOutcome_answer_raise]
  · rw [exec_bcReadBitsLsb, readBitsLSB, h, bind_raise, toOutcome_answer_raise]

end

/-- Settles O36: an op without a meaning raises at once, and a read of too many bits fails the first of its checks. -/
theorem callerErrors : Obligations.CallerErrors := by
  unfold Obligations.CallerErrors
  intro s n op i hi
  have hexec : exec i s = .next (respondFree true (errorEntry .callerError s)) := by
    obtain ⟨rfl, -⟩ | ⟨hn, hi⟩ := hi
    · exact exec_bcReserved67 op n s
    · exact exec_multiBitRead_of_checkRead_raise hi (checkRead_wide hn)
  exact ⟨_, hexec, respondFree_errorEntry_eq .callerError s⟩

/-- Settles O34: with the bits at hand the checks pass and the value is answered; without them the second check
raises. -/
theorem cursorReads : Obligations.CursorReads := by
  unfold Obligations.CursorReads
  intro s n hf _
  refine ⟨fun h => ?readBit, fun hn h => ⟨?readMsb, ?peekMsb, ?readLsb⟩, fun i hi => ?noBits⟩
  case readBit => rw [exec_bcReadBitMsb, readBitMSB_eq hf h, answer_ok, toOutcome_ok, respondValue_setPos]
  case readMsb => rw [exec_bcReadBitsMsb, readBitsMSB_eq hf hn h, answer_ok, toOutcome_ok, respondValue_setPos]
  case peekMsb => rw [exec_bcPeekBitsMsb, peekBitsMSB_eq hf hn h, answer_ok, toOutcome_ok, respondValue]
  case readLsb => rw [exec_bcReadBitsLsb, readBitsLSB_eq hf hn h, answer_ok, toOutcome_ok, respondValue_setPos]
  case noBits =>
    have hexec : exec i s = .next (respondFree true (errorEntry .outOfData s)) := by
      obtain ⟨rfl, hend⟩ | ⟨hn, hi, hend⟩ := hi
      · exact exec_bcReadBitMsb_of_checkRead_raise (checkRead_end (by decide) hend)
      · exact exec_multiBitRead_of_checkRead_raise hi (checkRead_end hn hend)
    exact ⟨_, hexec, rfl, respondFree_errorEntry_eq .outOfData s⟩

end Sys2Proof.Machine
end

section
/-! PROOFS. The decode of a code through the Huffman decoder's port (41_huffman_decoder.md R185, 30_encoding.md R132). -/

namespace Sys2Proof.Machine

section
variable {s : State} {tid : BitVec 3} {T : HuffTable}

/-- A request is answered by its operation on the table its id names (R132). -/
theorem exec_htDecode (hT : s.tableOf tid = some T) :
    exec (.htDecode tid) s =
      ((decodeSymbol T s).bind fun r s => Res.ok () (respondSymbol r s)).toOutcome := by
  rw [show exec (.htDecode tid) s = execHtDecode tid s from rfl, execHtDecode, hT]

/-- The table ids of R132. -/
theorem State.tableOf_of_mem
    (h : (tid, T) ∈ [((0 : BitVec 3), s.tabs.cl), (1, s.tabs.ll), (2, s.tabs.d), (3, fLL), (4, fD)]) :
    s.tableOf tid = some T := by
  simp only [List.mem_cons, Prod.mk.injEq, List.not_mem_nil, or_false] at h
  obtain ⟨rfl, rfl⟩ | ⟨rfl, rfl⟩ | ⟨rfl, rfl⟩ | ⟨rfl, rfl⟩ | ⟨rfl, rfl⟩ := h <;> rfl

theorem exec_htDecode_of_ok {r : BitVec 9 × BitVec 4} {u : State} (hT : s.tableOf tid = some T)
    (h : decodeSymbol T s = .ok r u) : exec (.htDecode tid) s = .next (respondSymbol r u) := by
  rw [exec_htDecode hT, h, bind_ok, toOutcome_ok]

/-- A raise is the error entry and nothing else: no response is recorded (log 26). -/
theorem exec_htDecode_of_raise {e : ErrorKind} (hT : s.tableOf tid = some T) (h : decodeSymbol T s = raise e s) :
    exec (.htDecode tid) s = .next (errorEntry e s) := by
  rw [exec_htDecode hT, h, bind_raise, toOutcome_raise]

end

/-- Settles O26: the id names the table, and each clause's premises decide what `decodeSymbol` gives on it. -/
theorem decodeCode : Obligations.DecodeCode := by
  unfold Obligations.DecodeCode
  intro s tid T hf _ hmem
  have hT : s.tableOf tid = some T := State.tableOf_of_mem hmem
  refine ⟨fun hu => ?empty, fun L x hu h1 h2 he hm hfirst hx => ?firstMatch, fun _ _ he hnone => ?noMatch,
    fun L hu h1 h2 he hbefore => ?streamEnds⟩
  case empty => exact ⟨_, exec_htDecode_of_raise hT (decodeSymbol_empty hu), rfl⟩
  case firstMatch => exact exec_htDecode_of_ok hT (decodeSymbol_eq hf hu h1 h2 he hm hfirst hx)
  case noMatch => exact ⟨_, exec_htDecode_of_raise hT (decodeSymbol_none hf he hnone), rfl⟩
  case streamEnds => exact ⟨_, exec_htDecode_of_raise hT (decodeSymbol_short hf hu h1 h2 he hbefore), rfl⟩

end Sys2Proof.Machine
end

section
/-! PROOFS. The P_HEADER and P_BLOCK_END steps (42_deflate_blocks.md R202, R203, R214). -/

namespace Sys2Proof.Machine

section
variable {s : State}

/-! ## The meanings of BTYPE at the end of the header (R203) -/

theorem exec_btypeStored_dispatch (hp : s.phase ≠ .stored) :
    exec .btypeStored s = .next { s with phase := .stored } := by
  rw [show exec .btypeStored s = execBtypeStored s from rfl, execBtypeStored, if_neg hp, State.setPhase]

theorem exec_btypeFixed (s : State) :
    exec .btypeFixed s = .next { s with blk := { s.blk with act := false }, phase := .tokens } := rfl

theorem exec_btypeDynamic_dispatch (hp : s.phase ≠ .dynamic) :
    exec .btypeDynamic s = .next { s with phase := .dynamic } := by
  rw [show exec .btypeDynamic s = execBtypeDynamic s from rfl, execBtypeDynamic, if_neg hp, State.setPhase]

theorem exec_btypeReserved (s : State) : exec .btypeReserved s = .next (errorEntry .invalidBlockType s) := rfl

/-! ## The reads of the header (R202) -/

theorem step_header (hin : s.env.inputs = []) (hp : s.phase = .header) : step s = ran (.ofRes (fetchHeader s)) := by
  refine step_of_fetch ?_
  simp only [fetch, hin, fetchEngine, hp]

theorem step_header_of_fetchHeader_raise {e : ErrorKind} {u : State} (hin : s.env.inputs = [])
    (hp : s.phase = .header) (h : fetchHeader s = raise e u) : step s = .next (errorEntry e u) := by
  rw [step_header hin hp, h]
  rfl

theorem step_header_of_fetchHeader_ok {i : Instr} {u : State} (hin : s.env.inputs = [])
    (hp : s.phase = .header) (h : fetchHeader s = .ok i u) : step s = exec i u := by
  rw [step_header hin hp, h]
  rfl

/-! ## The end of a block (R214) -/

theorem step_blockEnd (hin : s.env.inputs = []) (hp : s.phase = .blockEnd) : step s = .next (blockEndStep s) := by
  refine step_of_fetch (x := .over (.next (blockEndStep s))) ?_
  simp only [fetch, hin, fetchEngine, hp]

end

/-- Settles O12: the header's phase is neither P_STORED nor P_DYNAMIC, so types 0 and 2 dispatch. -/
theorem blockTypes : Obligations.BlockTypes := by
  unfold Obligations.BlockTypes
  intro s hp
  have hst : s.phase ≠ .stored := by rw [hp]; decide
  have hdy : s.phase ≠ .dynamic := by rw [hp]; decide
  exact ⟨exec_btypeStored_dispatch hst, exec_btypeFixed s, exec_btypeDynamic_dispatch hdy, exec_btypeReserved s⟩

/-- Settles O11: the two reads decide between OutOfData and the dispatch, which runs in the header's own phase. -/
theorem headerStep : Obligations.HeaderStep := by
  unfold Obligations.HeaderStep
  intro s hin hp hf _
  refine ⟨fun h1 => ?noBit, fun h1 h3 => ?noType, fun h3 u hu => ?dispatch⟩
  case noBit => exact step_header_of_fetchHeader_raise hin hp (fetchHeader_end1 h1)
  case noType => exact step_header_of_fetchHeader_raise hin hp (fetchHeader_end3 hf h1 h3)
  case dispatch =>
    have hstep : step s = exec (decodeBtype (BitVec.ofNat 2 (s.lsbValue (s.pos + 1) 2))) u := by
      rw [hu]
      exact step_header_of_fetchHeader_ok hin hp (fetchHeader_eq hf h3)
    have hup : u.phase = .header := by
      rw [hu]
      exact hp
    obtain ⟨hstored, hfixed, hdynamic, hreserved⟩ := blockTypes u hup
    rw [hstep]
    refine ⟨fun hv => ?_, fun hv => ?_, fun hv => ?_, fun hv => ?_⟩ <;> rw [hv]
    · exact hstored
    · exact hfixed
    · exact hdynamic
    · exact hreserved

/-- Settles O43: the step is `blockEndStep`, and the premises decide the two tests of its next phase. -/
theorem blockEnd : Obligations.BlockEnd := by
  unfold Obligations.BlockEnd
  intro s hin hp
  rw [step_blockEnd hin hp, blockEndStep]
  refine ⟨fun hlast => ?more, fun hlast hen => ?defilter, fun hlast hen => ?done⟩
  case more => rw [if_pos hlast]
  case defilter => rw [if_neg (by simp [hlast]), if_pos hen]
  case done => rw [if_neg (by simp [hlast]), if_neg (by simp [hen])]

end Sys2Proof.Machine
end

section
/-! PROOFS. The P_STORED step (42_deflate_blocks.md R204). -/

namespace Sys2Proof.Machine

/-- A capacity in its range (R9) fits a register. -/
theorem Params.dbufCap_lt_of_wf {p : Params} (h : p.wf = true) : p.dbufCap < 2 ^ 32 := by
  simp only [Params.wf, Bool.and_eq_true, decide_eq_true_eq] at h
  omega

section
variable {s : State}

theorem exec_btypeStored_body (hp : s.phase = .stored) : exec .btypeStored s = (storedBody s).toOutcome := by
  rw [show exec .btypeStored s = execBtypeStored s from rfl, execBtypeStored, if_pos hp]

/-! ## LEN and NLEN not at hand -/

/-- Alignment never leaves the stream, whose end is a byte boundary. -/
theorem aligned_le_streamEnd (h : s.pos ≤ s.streamEnd) : 8 * ((s.pos + 7) / 8) ≤ s.streamEnd := by
  unfold State.streamEnd at h ⊢
  omega

theorem storedBody_noLen {a : Nat} (hc : s.pos ≤ s.streamEnd) (ha : a = (s.pos + 7) / 8)
    (h : s.streamEnd < 8 * (a + 2)) : storedBody s = raise .outOfData (s.setPos (8 * a)) := by
  have hpos : (s.setPos (8 * a)).pos = 8 * a := pos_setPos_end (t := s) (ha ▸ aligned_le_streamEnd hc)
  have hend : (s.setPos (8 * a)).streamEnd < (s.setPos (8 * a)).pos + 16 := by
    rw [hpos, State.setPos_streamEnd]
    omega
  rw [storedBody, alignToByte_eq, ← ha, readBitsLSB_end (by decide) hend, bind_raise]

theorem storedBody_noNlen {a : Nat} (hf : FitsIn s) (ha : a = (s.pos + 7) / 8) (h : 8 * (a + 2) ≤ s.streamEnd)
    (h' : s.streamEnd < 8 * (a + 4)) : storedBody s = raise .outOfData (s.setPos (8 * (a + 2))) := by
  have hlen : (s.setPos (8 * a)).pos = 8 * a := pos_setPos_end (t := s) (by omega)
  have hnlen : (s.setPos (8 * (a + 2))).pos = 8 * (a + 2) := pos_setPos_end h
  have hnext : 8 * a + 16 = 8 * (a + 2) := by omega
  have hread : (s.setPos (8 * a)).pos + 16 ≤ (s.setPos (8 * a)).streamEnd := by rwa [hlen, hnext]
  have hend : (s.setPos (8 * (a + 2))).streamEnd < (s.setPos (8 * (a + 2))).pos + 16 := by
    rw [hnlen, State.setPos_streamEnd]
    omega
  rw [storedBody, alignToByte_eq, ← ha, readBitsLSB_eq (s := s.setPos (8 * a)) hf (by decide) hread, bind_ok,
    setPos_setPos, hlen, hnext, readBitsLSB_end (by decide) hend, bind_raise]

/-! ## The checks of R204 in their order -/

section
variable {len nlen : Word}

theorem storedData_mismatch (h : len ^^^ 0xFFFF ≠ nlen) : storedData len nlen s = raise .lengthMismatch s := by
  rw [storedData, if_pos h]

theorem storedData_short (h : len ^^^ 0xFFFF = nlen) (hend : s.streamEnd < s.pos + 8 * len.toNat) :
    storedData len nlen s = raise .outOfData s := by
  rw [storedData, if_neg (not_not_intro h), if_pos hend]

theorem storedData_full (h : len ^^^ 0xFFFF = nlen) (hend : s.pos + 8 * len.toNat ≤ s.streamEnd)
    (hcap : s.params.dbufCap < s.outLen + len.toNat) : storedData len nlen s = raise .outputOverflow s := by
  rw [storedData, if_neg (not_not_intro h), if_neg (Nat.not_lt.mpr hend), if_pos hcap]

theorem storedData_copy (h : len ^^^ 0xFFFF = nlen) (hend : s.pos + 8 * len.toNat ≤ s.streamEnd)
    (hcap : s.outLen + len.toNat ≤ s.params.dbufCap) :
    storedData len nlen s = (storedCopy len.toNat s).bind fun _ s => .ok () (s.setPhase .blockEnd) := by
  rw [storedData, if_neg (not_not_intro h), if_neg (Nat.not_lt.mpr hend), if_neg (Nat.not_lt.mpr hcap)]

end

end

/-- After an append DBUF_LEN is the new length, reduced to its width. -/
theorem Appends.dbufLen {s t : State} {n : Nat} (h : Appends s n t) :
    t.regs.dbufLen = BitVec.ofNat 32 (s.outLen + n) := by
  rw [← h.length, State.outLen, BitVec.ofNat_toNat, BitVec.setWidth_eq]

/-- What the end of the copy step is after its appends: everything but the cursor, DBUF with its length, and the phase
is as it was. -/
theorem Appends.setPos_setPhase_eq {s t : State} {n : Nat} (h : Appends s n t) (q : Nat) (p : Phase) :
    (t.setPos q).setPhase p =
      { s.setPos q with
        regs := { s.regs with dbufLen := BitVec.ofNat 32 (s.outLen + n) }, mem := t.mem, phase := p } := by
  have hregs : t.regs = { s.regs with dbufLen := t.regs.dbufLen } := congrArg State.regs h.frame
  have hmem : t.mem = { s.mem with dbuf := t.mem.dbuf } := congrArg State.mem h.frame
  have hframe : t = { s with regs := t.regs, mem := t.mem } := h.frame.trans (by rw [← hregs, ← hmem])
  rw [← h.dbufLen, ← hregs]
  calc (t.setPos q).setPhase p
      = (({ s with regs := t.regs, mem := t.mem } : State).setPos q).setPhase p :=
        congrArg (fun x : State => (x.setPos q).setPhase p) hframe
    _ = { s.setPos q with regs := t.regs, mem := t.mem, phase := p } := rfl

/-- R88: two bytes of IN as a little-endian number fit 16 bits. -/
theorem littleEndian_lt (x y : Byte) : x.toNat + 256 * y.toNat < 65536 := by
  have := x.isLt
  have := y.isLt
  omega

/-- Settles O13: each clause's premises decide one read or one check of R204, and where all pass the copy of
`storedCopy_spec` runs from the byte after NLEN. -/
theorem storedStep : Obligations.StoredStep := by
  unfold Obligations.StoredStep
  intro s a len nlen hp hw hf hc ha hlen hnlen
  have hl : len < 65536 := hlen ▸ littleEndian_lt _ _
  have hn : nlen < 65536 := hnlen ▸ littleEndian_lt _ _
  have hlw : (BitVec.ofNat 32 len).toNat = len := by
    rw [BitVec.toNat_ofNat]
    exact Nat.mod_eq_of_lt (by omega)
  have hxor : BitVec.ofNat 32 len ^^^ 0xFFFF = BitVec.ofNat 32 nlen ↔ len ^^^ 0xFFFF = nlen :=
    Decidable.not_iff_not.mp (xor_word hl hn)
  have hbody : 8 * (a + 4) ≤ s.streamEnd →
      storedBody s = storedData (BitVec.ofNat 32 len) (BitVec.ofNat 32 nlen) (s.setPos (8 * (a + 4))) := by
    intro h
    rw [storedBody_eq hf ha h, lsbValue_bytes2, lsbValue_bytes2, ← hlen, ← hnlen]
  have hpos : 8 * (a + 4) ≤ s.streamEnd → (s.setPos (8 * (a + 4))).pos = 8 * (a + 4) := pos_setPos_end
  have hafter : 8 * (a + 4) ≤ s.streamEnd →
      (s.setPos (8 * (a + 4))).pos + 8 * (BitVec.ofNat 32 len).toNat = 8 * (a + 4 + len) := by
    intro h
    rw [hpos h, hlw, Nat.mul_add 8 (a + 4)]
  rw [exec_btypeStored_body hp]
  refine ⟨fun h => ?noLen, fun h h' => ?noNlen, fun h hx => ?mismatch, fun h hx hend => ?short, fun h hx hcap => ?full,
    fun h hx hcap => ?copy⟩
  case noLen => rw [storedBody_noLen hc ha h, toOutcome_raise]
  case noNlen => rw [storedBody_noNlen hf ha h h', toOutcome_raise]
  case mismatch => rw [hbody h, storedData_mismatch (mt hxor.mp hx), toOutcome_raise]
  case short => rw [hbody h, storedData_short (hxor.mpr hx) (by rwa [hafter h]), toOutcome_raise]
  case full =>
    have h4 : 8 * (a + 4) ≤ s.streamEnd := by omega
    rw [hbody h4, storedData_full (hxor.mpr hx) (by rwa [hafter h4]) (by rwa [hlw]), toOutcome_raise]
  case copy =>
    have h4 : 8 * (a + 4) ≤ s.streamEnd := by omega
    have hcap32 := Params.dbufCap_lt_of_wf hw
    obtain ⟨t, hcopy, happ, hbytes⟩ := storedCopy_spec len (a + 4) (s.setPos (8 * (a + 4))) hf (hpos h4) h
      (by rw [State.setPos_outLen]; omega)
    refine ⟨(t.setPos (8 * (a + 4 + len))).setPhase .blockEnd, ?_, ?_, hbytes, happ.old⟩
    · rw [hbody h4, storedData_copy (hxor.mpr hx) (by rwa [hafter h4]) (by rwa [hlw]), hlw, hcopy, bind_ok, toOutcome_ok]
    · exact happ.setPos_setPhase_eq _ _

end Sys2Proof.Machine
end

section
/-! PROOFS. The repeat symbols of the code-length sequence (42_deflate_blocks.md R209 to R212). -/

namespace Sys2Proof.Machine

/-! ## The run of R209 -/

section
variable {s : State} {v : BitVec 4} {c : Nat}

theorem repeatLength_over (h : s.lengthCount < s.hdr.nl.toNat + c) : repeatLength v c s = raise .invalidCodeLengths s := by
  rw [repeatLength, if_pos h]

theorem repeatLength_eq (h : s.hdr.nl.toNat + c ≤ s.lengthCount) : repeatLength v c s = .ok () (pushLengths v c s) := by
  rw [repeatLength, if_neg (Nat.not_lt.mpr h)]

end

/-! ## The three symbols as one -/

theorem exec_clRepeatPrev16 (s : State) : exec .clRepeatPrev16 s = (clRepeatPrev s).toOutcome := rfl

theorem exec_clRepeatZero17 (s : State) : exec .clRepeatZero17 s = (clRepeatZeroShort s).toOutcome := rfl

theorem exec_clRepeatZero18 (s : State) : exec .clRepeatZero18 s = (clRepeatZeroLong s).toOutcome := rfl

/-- A repeat symbol with its number of extra bits, its least run and the length it repeats (R210, R211, R212). -/
def RepeatRow (s : State) (i : Instr) (n base : Nat) (v : BitVec 4) : Prop :=
  (i = .clRepeatPrev16 ∧ n = 2 ∧ base = 3 ∧ v = s.hdr.lens.getD (s.hdr.nl.toNat - 1) 0) ∨
    (i = .clRepeatZero17 ∧ n = 3 ∧ base = 3 ∧ v = 0) ∨ (i = .clRepeatZero18 ∧ n = 7 ∧ base = 11 ∧ v = 0)

section
variable {s : State} {i : Instr} {n base : Nat} {v : BitVec 4}

/-- The extra bits come before every check. -/
theorem RepeatRow.exec_of_short (hr : RepeatRow s i n base v) (h : s.streamEnd < s.pos + n) :
    exec i s = .next (errorEntry .outOfData s) := by
  obtain ⟨rfl, rfl, rfl, rfl⟩ | ⟨rfl, rfl, rfl, rfl⟩ | ⟨rfl, rfl, rfl, rfl⟩ := hr
  · rw [exec_clRepeatPrev16, clRepeatPrev, readBitsLSB_end (by decide) h, bind_raise, toOutcome_raise]
  · rw [exec_clRepeatZero17, clRepeatZeroShort, readBitsLSB_end (by decide) h, bind_raise, toOutcome_raise]
  · rw [exec_clRepeatZero18, clRepeatZeroLong, readBitsLSB_end (by decide) h, bind_raise, toOutcome_raise]

/-- A 16 with no length before it (R210). -/
theorem exec_clRepeatPrev16_of_nl_zero (hf : FitsIn s) (h : s.pos + 2 ≤ s.streamEnd) (hnl : s.hdr.nl = 0) :
    exec .clRepeatPrev16 s = .next (errorEntry .invalidCodeLengths (s.setPos (s.pos + 2))) := by
  rw [exec_clRepeatPrev16, clRepeatPrev, readBitsLSB_eq hf (by decide) h, bind_ok, State.setPos_hdr, if_pos hnl,
    toOutcome_raise]

/-- With its bits at hand, and for 16 a length before it, a repeat symbol is R209's run. -/
theorem RepeatRow.exec_eq_repeatLength (hr : RepeatRow s i n base v) (hf : FitsIn s) (h : s.pos + n ≤ s.streamEnd)
    (hprev : ¬(i = .clRepeatPrev16 ∧ s.hdr.nl = 0)) :
    exec i s = (repeatLength v (s.lsbValue s.pos n + base) (s.setPos (s.pos + n))).toOutcome := by
  obtain ⟨rfl, rfl, rfl, rfl⟩ | ⟨rfl, rfl, rfl, rfl⟩ | ⟨rfl, rfl, rfl, rfl⟩ := hr
  · have hnl : s.hdr.nl ≠ 0 := fun h0 => hprev ⟨rfl, h0⟩
    rw [exec_clRepeatPrev16, clRepeatPrev, readBitsLSB_eq hf (by decide) h, bind_ok, State.setPos_hdr, if_neg hnl,
      lsbWord _ _ (by decide)]
  · rw [exec_clRepeatZero17, clRepeatZeroShort, readBitsLSB_eq hf (by decide) h, bind_ok, lsbWord _ _ (by decide)]
  · rw [exec_clRepeatZero18, clRepeatZeroLong, readBitsLSB_eq hf (by decide) h, bind_ok, lsbWord _ _ (by decide)]

theorem RepeatRow.exec_of_no_previous (hr : RepeatRow s i n base v) (hf : FitsIn s) (h : s.pos + n ≤ s.streamEnd)
    (hi : i = .clRepeatPrev16) (hnl : s.hdr.nl = 0) :
    exec i s = .next (errorEntry .invalidCodeLengths (s.setPos (s.pos + n))) := by
  subst hi
  obtain ⟨-, rfl, -, -⟩ | ⟨hi, -⟩ | ⟨hi, -⟩ := hr
  · exact exec_clRepeatPrev16_of_nl_zero hf h hnl
  · exact Instr.noConfusion hi
  · exact Instr.noConfusion hi

/-- A run past HLIT + HDIST raises; where a 16 has no length before it either, that check raises the same. -/
theorem RepeatRow.exec_of_over (hr : RepeatRow s i n base v) (hf : FitsIn s) (h : s.pos + n ≤ s.streamEnd)
    (hover : s.lengthCount < s.hdr.nl.toNat + (s.lsbValue s.pos n + base)) :
    exec i s = .next (errorEntry .invalidCodeLengths (s.setPos (s.pos + n))) := by
  by_cases hprev : i = .clRepeatPrev16 ∧ s.hdr.nl = 0
  · exact hr.exec_of_no_previous hf h hprev.1 hprev.2
  · rw [hr.exec_eq_repeatLength hf h hprev, repeatLength_over (by simpa using hover), toOutcome_raise]

end

/-- Settles O16: the extra bits first, then the check of 16, then R209's run, which `fillLens_getD` reads entry by
entry. -/
theorem clRepeats : Obligations.ClRepeats := by
  unfold Obligations.ClRepeats
  intro s i n base v hf _ hlens hcount hr
  replace hr : RepeatRow s i n base v := hr
  refine ⟨hr.exec_of_short, fun h hi hnl => hr.exec_of_no_previous hf h hi hnl, fun h hover => hr.exec_of_over hf h hover,
    fun h hprev hrun => ?run⟩
  case run =>
    refine ⟨pushLengths v (s.lsbValue s.pos n + base) (s.setPos (s.pos + n)), ?_, rfl, ?_, fun k _ => ?_,
      fun _ _ => rfl⟩
    · rw [hr.exec_eq_repeatLength hf h hprev, repeatLength_eq (by simpa using hrun), toOutcome_ok]
    · rw [pushLengths_lens, fillLens_length, State.setPos_hdr, hlens]
    · exact fillLens_getD v _ _ _ k (by rw [State.setPos_hdr, hlens]; omega)

end Sys2Proof.Machine
end

section
/-! PROOFS. Literals, end of block, and LL symbols 286 and 287 (43_lz77_expander.md R240, R242, R243, R245). -/

namespace Sys2Proof.Machine

/-! ## The meanings of these LL symbols -/

theorem exec_llLiteral (b : Byte) (s : State) : exec (.llLiteral b) s = (append b s).toOutcome := rfl

theorem exec_llEob (s : State) : exec .llEob s = .next { s with phase := .blockEnd } := rfl

theorem exec_llInvalid286287 (sym : BitVec 9) (s : State) :
    exec (.llInvalid286287 sym) s = .next (errorEntry .invalidLengthCode s) := rfl

section
variable {s : State} (b : Byte)

theorem exec_llLiteral_of_room (h : s.outLen < s.params.dbufCap) : exec (.llLiteral b) s = .next (pushByte b s) := by
  rw [exec_llLiteral, append_eq b h, toOutcome_ok]

theorem exec_llLiteral_of_full (h : s.params.dbufCap ≤ s.outLen) :
    exec (.llLiteral b) s = .next (errorEntry .outputOverflow s) := by
  rw [exec_llLiteral, append_full b h, toOutcome_raise]

end

/-- Settles O18: a literal is one `Append` (R240), and where there is room DBUF_CAP, which fits 32 bits, keeps
DBUF_LEN + 1 from wrapping. -/
theorem literal : Obligations.Literal := by
  unfold Obligations.Literal
  intro s b hw
  refine ⟨fun hroom => ?room, exec_llLiteral_of_full b⟩
  case room =>
    have hlen : s.outLen + 1 < 2 ^ 32 := Nat.lt_of_le_of_lt hroom (Params.dbufCap_lt_of_wf hw)
    exact ⟨pushByte b s, exec_llLiteral_of_room b hroom, rfl, outLen_pushByte b s hlen, byteAt_pushByte b s⟩

/-- Settles O19: neither meaning reads the state to decide what it does, and 286 and 287 share theirs. -/
theorem endAndInvalid : Obligations.EndAndInvalid := by
  unfold Obligations.EndAndInvalid
  intro s
  exact ⟨exec_llEob s, fun sym _ => exec_llInvalid286287 sym s⟩

end Sys2Proof.Machine
end

section
/-! PROOFS. The defilter (44_png_defilter.md R270 to R278). -/

namespace Sys2Proof.Machine

/-! ## The predictors (R275, R276) -/

/-- Half the sum of two bytes is a byte. -/
theorem toNat_predAverage (a b c : Byte) : (predAverage a b c).toNat = (a.toNat + b.toNat) / 2 := by
  have ha := a.isLt
  have hb := b.isLt
  rw [predAverage, BitVec.toNat_ofNat, Nat.mod_eq_of_lt (by omega)]

/-- Paeth by the distances of a, b and c from the estimate a + b - c. -/
theorem predPaeth_eq (a b c : Byte) :
    predPaeth a b c =
      if ((b.toNat : Int) - c.toNat).natAbs ≤ ((a.toNat : Int) - c.toNat).natAbs ∧
          ((b.toNat : Int) - c.toNat).natAbs ≤ ((a.toNat : Int) + b.toNat - 2 * c.toNat).natAbs then a
      else if ((a.toNat : Int) - c.toNat).natAbs ≤ ((a.toNat : Int) + b.toNat - 2 * c.toNat).natAbs then b else c := by
  have hpa : (a.toNat : Int) + b.toNat - c.toNat - a.toNat = b.toNat - c.toNat := by omega
  have hpb : (a.toNat : Int) + b.toNat - c.toNat - b.toNat = a.toNat - c.toNat := by omega
  have hpc : (a.toNat : Int) + b.toNat - c.toNat - c.toNat = a.toNat + b.toNat - 2 * c.toNat := by omega
  simp only [predPaeth, hpa, hpb, hpc]

/-- Settles O39: half of an exact sum is still a byte, and the two tests of `predPaeth` compare the distances in the
order of the ties. -/
theorem predictors : Obligations.Predictors := by
  unfold Obligations.Predictors
  intro a b c
  refine ⟨toNat_predAverage a b c, fun da db dc hda hdb hdc => ?_⟩
  rw [predPaeth_eq, ← hda, ← hdb, ← hdc]
  refine ⟨fun hab hac => ?nearA, fun hba hbc => ?nearB, fun hca hcb => ?nearC⟩
  case nearA => rw [if_pos ⟨hab, hac⟩]
  case nearB => rw [if_neg (fun h => Nat.not_le.mpr hba h.1), if_pos hbc]
  case nearC => rw [if_neg (fun h => Nat.not_le.mpr hca h.2), if_neg (Nat.not_le.mpr hcb)]

/-! ## The row step (R271) -/

/-- Each filter type is the row step with its predictor (R272 to R276). -/
theorem exec_filter {i : Instr} {pred : Byte → Byte → Byte → Byte}
    (h : (i, pred) ∈ [(Instr.filterNone, fun _ _ _ => (0 : Byte)), (.filterSub, fun a _ _ => a), (.filterUp, fun _ b _ => b),
      (.filterAverage, predAverage), (.filterPaeth, predPaeth)]) (s : State) :
    exec i s = (defilterRow pred s).toOutcome := by
  simp only [List.mem_cons, Prod.mk.injEq, List.not_mem_nil, or_false] at h
  obtain ⟨rfl, rfl⟩ | ⟨rfl, rfl⟩ | ⟨rfl, rfl⟩ | ⟨rfl, rfl⟩ | ⟨rfl, rfl⟩ := h <;> rfl

section
variable (cur : List Byte) (s : State)

/-- The stored row is the previous row of the next one. -/
theorem byteAt_slPrev_storeRow {k : Nat} (h : k < cur.length) : (storeRow cur s).byteAt .slPrev k = cur.getD k 0 := by
  rw [byteAt_storeRow, if_neg (by simp), if_pos ⟨rfl, h⟩]

/-- The stored row stands in PIX from PIX_LEN on. -/
theorem byteAt_pix_storeRow {k : Nat} (h : k < cur.length) :
    (storeRow cur s).byteAt .pix (s.regs.pixLen.toNat + k) = cur.getD k 0 := by
  rw [byteAt_storeRow, if_pos ⟨rfl, by omega, by omega⟩, Nat.add_sub_cancel_left]

end

/-- Settles O38: the five filters share `defilterRow`, whose row `reconRow_byte` gives byte by byte and whose writes
`byteAt_storeRow` places. -/
theorem filterRows : Obligations.FilterRows := by
  unfold Obligations.FilterRows
  intro s i pred W hi _ hW hdbuf hprev hpix
  replace hW : W = s.rowBytes := hW
  subst hW
  have hlen : (reconRow pred s s.rowBase s.rowBytes).length = s.rowBytes := reconRow_length pred s _ _
  have hnew : ∀ k, k < s.rowBytes → (storeRow (reconRow pred s s.rowBase s.rowBytes) s).byteAt .slPrev k =
      (reconRow pred s s.rowBase s.rowBytes).getD k 0 :=
    fun k hk => byteAt_slPrev_storeRow _ s (by rwa [hlen])
  refine ⟨storeRow (reconRow pred s s.rowBase s.rowBytes) s, ?exec, rfl, fun k hk => ?row, fun k hk => ?pix,
    fun sp a hpixa hprva => ?frame⟩
  case exec => rw [exec_filter hi, defilterRow_eq pred hdbuf hprev hpix, toOutcome_ok]
  case row =>
    rw [hnew k hk, hnew (k - 3) (by omega)]
    exact reconRow_byte pred s s.rowBase hk
  case pix => rw [hnew k hk, byteAt_pix_storeRow _ s (by rwa [hlen])]
  case frame => rw [byteAt_storeRow, hlen, if_neg hpixa, if_neg hprva]

/-! ## The start of the stage (R270) -/

section
variable {s : State}

theorem step_defilterStart (hin : s.env.inputs = []) (hp : s.phase = .defilterStart) :
    step s = (defilterStart s).toOutcome := by
  refine step_of_fetch (x := .over (defilterStart s).toOutcome) ?_
  simp only [fetch, hin, fetchEngine, hp]

theorem defilterStart_short (h : s.outLen < s.imageNeed) :
    defilterStart s = raise .imageDataShort { s with defl := { s.defl with stg := true } } :=
  if_pos h

theorem defilterStart_eq (h : s.imageNeed ≤ s.outLen) (hw : s.rowBytes ≤ 3 * s.params.maxWidth) :
    defilterStart s = .ok () (beginRows { s with defl := { s.defl with stg := true } }) :=
  (if_neg (Nat.not_lt.mpr h)).trans (if_neg (Nat.not_lt.mpr hw))

end

/-- Settles O42: `imageNeed` is the exact product, and past its check the row fits SL_PREV, so `byteAt_beginRows` says
what each byte is. -/
theorem defilterStartStep : Obligations.DefilterStart := by
  unfold Obligations.DefilterStart
  intro s hin hp hw
  rw [step_defilterStart hin hp]
  refine ⟨fun hshort => ?short, fun henough => ?rows⟩
  case short => rw [defilterStart_short hshort, toOutcome_raise]
  case rows =>
    refine ⟨beginRows { s with defl := { s.defl with stg := true } }, ?_, rfl, byteAt_beginRows _⟩
    rw [defilterStart_eq henough hw, toOutcome_ok]

/-! ## Filter bytes without a filter (R278) -/

/-- The seven rows of R128 without a filter share one meaning. -/
theorem exec_decodeFilter_of_ge {b : Byte} (h : 5 ≤ b.toNat) (s : State) :
    exec (decodeFilter b) s = .next (errorEntry .invalidFilterType s) := by
  unfold decodeFilter
  split
  case h_6 => rfl
  case h_7 => (repeat' split) <;> rfl
  all_goals omega

/-- Settles O40: error entry writes no memory and no length, and takes ROW along in the defilter stage. -/
theorem invalidFilters : Obligations.InvalidFilters := by
  unfold Obligations.InvalidFilters
  intro s b hb hstg
  refine ⟨errorEntry .invalidFilterType s, exec_decodeFilter_of_ge hb s, rfl, ?row, rfl,
    errorEntry_byteAt _ s⟩
  case row => rw [errorEntry_row, if_pos hstg]

end Sys2Proof.Machine
end

section
/-! PROOFS. The commands of CTRL (45_host_commands.md R300 to R303). -/

namespace Sys2Proof.Machine

/-- The geometry START refuses, as numbers (R300). -/
theorem badGeometry_eq_true_iff {s : State} : badGeometry s = true ↔
    s.regs.width.toNat = 0 ∨ s.regs.height.toNat = 0 ∨ s.params.maxWidth < s.regs.width.toNat ∨
      s.params.pixCap < 3 * s.regs.width.toNat * s.regs.height.toNat := by
  simp [badGeometry, BitVec.toNat_eq, or_assoc]

section
variable {s : State}

/-! ## START (R300) -/

theorem exec_ctrlStart (w : Word) (s : State) : exec (.ctrlStart w) s = (startCommand s).toOutcome := rfl

theorem startCommand_busy (h : s.phase.busy = true) : startCommand s = .ok () s := by
  rw [startCommand, if_pos h]

theorem startCommand_begin (hidle : s.phase.busy = false) (hlen : s.regs.inLen.toNat ≤ s.params.inCap)
    (hgeom : ¬(s.regs.defilterEn = true ∧ badGeometry s = true)) :
    startCommand s = .ok () ((startState s).setPhase .header) := by
  rw [startCommand, if_neg (Bool.eq_false_iff.mp hidle), if_neg (Nat.not_lt.mpr hlen), if_neg hgeom]

theorem startCommand_invalid (hidle : s.phase.busy = false)
    (hbad : s.params.inCap < s.regs.inLen.toNat ∨ (s.regs.defilterEn = true ∧ badGeometry s = true)) :
    startCommand s = raise .invalidConfig (startState s) := by
  rw [startCommand, if_neg (Bool.eq_false_iff.mp hidle)]
  by_cases hlen : s.params.inCap < s.regs.inLen.toNat
  · rw [if_pos hlen]
  · rw [if_neg hlen, if_pos (hbad.resolve_left hlen)]

/-! ## ABORT, CLEAR and a word without a command (R301 to R303) -/

theorem exec_ctrlAbort_busy (w : Word) (h : s.phase.busy = true) :
    exec (.ctrlAbort w) s = .next (errorEntry .aborted s) := by
  rw [show exec (.ctrlAbort w) s = execCtrlAbort w s from rfl, execCtrlAbort, if_pos h, toOutcome_raise]

theorem exec_ctrlAbort_idle (w : Word) (h : s.phase.busy = false) : exec (.ctrlAbort w) s = .next s := by
  rw [show exec (.ctrlAbort w) s = execCtrlAbort w s from rfl, execCtrlAbort, if_neg (Bool.eq_false_iff.mp h),
    toOutcome_ok]

theorem exec_ctrlClear_ended (w : Word) (h : s.phase = .done ∨ s.phase = .error) :
    exec (.ctrlClear w) s = .next ((clearErrors s).setPhase .idle) := by
  rw [show exec (.ctrlClear w) s = execCtrlClear w s from rfl, execCtrlClear,
    if_pos ((Phase.ended_eq_true_iff _).mpr h)]

theorem exec_ctrlClear_ignored (w : Word) (h : ¬(s.phase = .done ∨ s.phase = .error)) :
    exec (.ctrlClear w) s = .next s := by
  rw [show exec (.ctrlClear w) s = execCtrlClear w s from rfl, execCtrlClear,
    if_neg (mt (Phase.ended_eq_true_iff _).mp h)]

theorem exec_ctrlNone (w : Word) (s : State) : exec (.ctrlNone w) s = .next s := rfl

/-! ## The command of a CTRL word (R303) -/

variable {w : Word}

theorem decodeCtrl_abort (h1 : w.getLsbD 1 = true) : decodeCtrl w = .ctrlAbort w := by
  rw [decodeCtrl_bits, if_pos h1]

theorem decodeCtrl_clear (h1 : w.getLsbD 1 = false) (h2 : w.getLsbD 2 = true) : decodeCtrl w = .ctrlClear w := by
  rw [decodeCtrl_bits, if_neg (Bool.eq_false_iff.mp h1), if_pos h2]

theorem decodeCtrl_start (h1 : w.getLsbD 1 = false) (h2 : w.getLsbD 2 = false) (h0 : w.getLsbD 0 = true) :
    decodeCtrl w = .ctrlStart w := by
  rw [decodeCtrl_bits, if_neg (Bool.eq_false_iff.mp h1), if_neg (Bool.eq_false_iff.mp h2), if_pos h0]

theorem decodeCtrl_none (h1 : w.getLsbD 1 = false) (h2 : w.getLsbD 2 = false) (h0 : w.getLsbD 0 = false) :
    decodeCtrl w = .ctrlNone w := by
  rw [decodeCtrl_bits, if_neg (Bool.eq_false_iff.mp h1), if_neg (Bool.eq_false_iff.mp h2),
    if_neg (Bool.eq_false_iff.mp h0)]

/-- An aligned 32-bit write of CTRL runs its command, in any state. -/
theorem step_ctrlWrite {ts : List Turn} (hin : s.env.inputs = .regWrite 0 32 w :: ts) :
    step s = exec (decodeCtrl w) (s.withInputs ts) := step_turn hin

end

/-- Settles O45: each command's one test is decided by the premise. -/
theorem abortClearNone : Obligations.AbortClearNone := by
  unfold Obligations.AbortClearNone
  exact fun s w => ⟨exec_ctrlAbort_busy w, exec_ctrlAbort_idle w, exec_ctrlClear_ended w, exec_ctrlClear_ignored w,
    exec_ctrlNone w s⟩

/-- Settles O44: the state written before the checks is `startState`, and the two refusing premises are
`startCommand`'s two tests. -/
theorem start : Obligations.Start := by
  unfold Obligations.Start
  intro s u w hu
  have hstart : u = startState s := hu
  rw [hstart, exec_ctrlStart]
  refine ⟨fun hbusy => ?ignored, fun hidle hlen hgeom => ?begins, fun hidle hbad => ?invalid⟩
  case ignored => rw [startCommand_busy hbusy, toOutcome_ok]
  case begins =>
    have hgood : ¬(s.regs.defilterEn = true ∧ badGeometry s = true) := by
      rintro ⟨hen, hbad⟩
      have hbad := badGeometry_eq_true_iff.mp hbad
      have hgood := hgeom hen
      omega
    rw [startCommand_begin hidle hlen hgood, toOutcome_ok, State.setPhase]
  case invalid =>
    rw [← badGeometry_eq_true_iff] at hbad
    rw [startCommand_invalid hidle hbad, toOutcome_raise]
    rfl

/-- Settles O46: the three bits decide the one command that runs; what that does in each state is O45. -/
theorem commandPriority : Obligations.CommandPriority := by
  unfold Obligations.CommandPriority
  rintro s u w ts hin rfl
  obtain ⟨habort, habortIgnored, hclear, hclearIgnored, hnone⟩ := abortClearNone (s.withInputs ts) w
  rw [step_ctrlWrite hin]
  refine ⟨fun h1 hbusy => ?abort, fun h1 hidle => ?abortIgnored, fun h1 h2 hended => ?clear,
    fun h1 h2 hnot => ?clearIgnored, fun h1 h2 h0 => ?start, fun h1 h2 h0 => ?none⟩
  case abort => rw [decodeCtrl_abort h1, habort hbusy]
  case abortIgnored => rw [decodeCtrl_abort h1, habortIgnored hidle]
  case clear => rw [decodeCtrl_clear h1 h2, hclear hended]
  case clearIgnored => rw [decodeCtrl_clear h1 h2, hclearIgnored hnot]
  case start => rw [decodeCtrl_start h1 h2 h0]
  case none => rw [decodeCtrl_none h1 h2 h0, hnone]

end Sys2Proof.Machine
end

section
/-! PROOFS. The host's register accesses (45_host_commands.md R304, R305, 10_state.md R30 to R44, 20_memory.md R92). -/

namespace Sys2Proof.Machine

theorem regAccess_eq_true_iff {off width : Nat} : regAccess off width = true ↔ width = 32 ∧ off % 4 = 0 := by
  rw [regAccess, Bool.and_eq_true, decide_eq_true_iff, decide_eq_true_iff]

/-- An access of another width or alignment (R92). -/
theorem regAccess_eq_false {off width : Nat} (h : width ≠ 32 ∨ off % 4 ≠ 0) : regAccess off width = false := by
  rw [Bool.eq_false_iff, Ne, regAccess_eq_true_iff]
  omega

/-! ## The words a host reads -/

/-- Joining bit fields adds their weights. -/
theorem toNat_append_eq_add {m n : Nat} (x : BitVec m) (y : BitVec n) :
    (x ++ y).toNat = 2 ^ n * x.toNat + y.toNat := by
  rw [BitVec.toNat_append, ← Nat.shiftLeft_add_eq_or_of_lt y.isLt, Nat.shiftLeft_eq, Nat.mul_comm]

/-- CONFIG as a number (R32). -/
theorem State.configWord_toNat (s : State) :
    s.configWord.toNat = 2 * s.regs.irqEn.toNat + s.regs.defilterEn.toNat := by
  simp only [State.configWord, toNat_append_eq_add, BitVec.toNat_ofBool, BitVec.toNat_ofNat]
  omega

/-- STATE as a number (R33). -/
theorem State.stateCode_toNat (s : State) : s.stateCode.toNat =
    if s.phase = .idle then 0 else if s.phase = .done then 2 else if s.phase = .error then 3 else 1 := by
  unfold State.stateCode
  cases s.phase <;> rfl

/-- STATUS as a number (R33). -/
theorem State.statusWord_toNat (s : State) : s.statusWord.toNat =
    16 * s.err.code.toNat + 8 * s.irq.toNat + 4 * s.defl.stg.toNat + s.stateCode.toNat := by
  simp only [State.statusWord, toNat_append_eq_add, BitVec.toNat_ofBool, BitVec.toNat_ofNat]
  omega

/-- The three bits of a bit index, widened to a register, keep their value (R39, R43). -/
theorem setWidth_bitIndex_toNat (b : BitVec 3) : (b.setWidth 32).toNat = b.toNat :=
  BitVec.toNat_setWidth_of_le (by decide)

/-- Reserved offsets read 0 (R44). -/
theorem State.regWord_reserved (s : State) {off : Nat} (h : 0x3C ≤ off) : s.regWord off = 0 := by
  unfold State.regWord
  split
  case h_15 => rfl
  all_goals omega

/-! ## Reads (R304) -/

/-- What a read of an offset returns, of any width and alignment (R92, R304). -/
def State.readValue (s : State) (off width : Nat) : Word := if regAccess off width = true then s.regWord off else 0

theorem step_regRead {s : State} {off width : Nat} {ts : List Turn}
    (hin : s.env.inputs = .regRead off width :: ts) :
    step s = .next ((s.withInputs ts).deliver (s.readValue off width)) := step_turn hin

theorem State.readValue_malformed (s : State) {off width : Nat} (h : width ≠ 32 ∨ off % 4 ≠ 0) :
    s.readValue off width = 0 := by
  rw [State.readValue, regAccess_eq_false h, if_neg Bool.false_ne_true]

theorem State.readValue_aligned (s : State) {off width k : Nat} (hk : k % 4 = 0) (hw : width = 32) (ho : off = k) :
    s.readValue off width = s.regWord k := by
  rw [State.readValue, ho, if_pos (regAccess_eq_true_iff.mpr ⟨hw, hk⟩)]

theorem State.readValue_reserved (s : State) {off width : Nat} (h : 0x3C ≤ off) : s.readValue off width = 0 := by
  rw [State.readValue, s.regWord_reserved h, ite_self]

/-- Settles O47: the step delivers `readValue`, and at each offset of R30 that is the register there. -/
theorem registerReads : Obligations.RegisterReads := by
  unfold Obligations.RegisterReads
  intro s off width ts hin
  have hget {k : Nat} (hk : k % 4 = 0) (hw : width = 32) (ho : off = k) := s.readValue_aligned hk hw ho
  refine ⟨_, step_regRead hin, rfl, s.readValue_malformed, hget rfl, ?config, ?status, hget rfl, hget rfl, hget rfl,
    hget rfl, hget rfl, hget rfl, ?curBit, hget rfl, hget rfl, ?errBit, hget rfl, hget rfl,
    fun _ h => s.readValue_reserved h⟩
  case config => exact fun hw ho => (congrArg BitVec.toNat (hget rfl hw ho)).trans s.configWord_toNat
  case status =>
    intro hw ho
    rw [← s.stateCode_toNat]
    exact (congrArg BitVec.toNat (hget rfl hw ho)).trans s.statusWord_toNat
  case curBit => exact fun hw ho => (congrArg BitVec.toNat (hget rfl hw ho)).trans (setWidth_bitIndex_toNat _)
  case errBit => exact fun hw ho => (congrArg BitVec.toNat (hget rfl hw ho)).trans (setWidth_bitIndex_toNat _)

/-! ## Writes (R305) -/

section
variable {s : State} {off width : Nat} {v : Word} {ts : List Turn}

theorem step_regWrite_malformed (hin : s.env.inputs = .regWrite off width v :: ts) (h : width ≠ 32 ∨ off % 4 ≠ 0) :
    step s = .next (s.withInputs ts) := by
  rw [step_turn hin, fetchTurn, if_pos (regAccess_eq_false h)]

theorem step_regWrite_store (hin : s.env.inputs = .regWrite off 32 v :: ts) (halign : off % 4 = 0) (h0 : off ≠ 0) :
    step s = .next (hostRegStore off v (s.withInputs ts)) := by
  have hacc : ¬ regAccess off 32 = false := by rw [regAccess_eq_true_iff.mpr ⟨rfl, halign⟩]; decide
  rw [step_turn hin, fetchTurn, if_neg hacc, if_neg h0]

/-- A write that stores nothing is ignored, at any alignment. -/
theorem step_regWrite_ignored (hin : s.env.inputs = .regWrite off 32 v :: ts) (h0 : off ≠ 0)
    (hkeep : hostRegStore off v (s.withInputs ts) = s.withInputs ts) : step s = .next (s.withInputs ts) := by
  by_cases halign : off % 4 = 0
  · rw [step_regWrite_store hin halign h0, hkeep]
  · exact step_regWrite_malformed hin (.inr halign)

/-- Offsets of read-only and reserved registers store nothing (R305). -/
theorem hostRegStore_readOnly (h4 : off ≠ 0x04) (hC : off ≠ 0x0C) (h10 : off ≠ 0x10) (h14 : off ≠ 0x14) :
    hostRegStore off v s = s := by
  unfold hostRegStore
  split
  · rfl
  · split
    case h_5 => rfl
    all_goals contradiction

/-- The four offsets that store, while not BUSY (R305). -/
theorem hostRegStore_idle (h : s.phase.busy = false) :
    hostRegStore 0x04 v s = { s with regs := { s.regs with defilterEn := v.getLsbD 0, irqEn := v.getLsbD 1 } } ∧
    hostRegStore 0x0C v s = { s with regs := { s.regs with inLen := v } } ∧
    hostRegStore 0x10 v s = { s with regs := { s.regs with width := v } } ∧
    hostRegStore 0x14 v s = { s with regs := { s.regs with height := v } } := by
  simp only [hostRegStore, if_neg (Bool.eq_false_iff.mp h), and_self]

end

/-- Settles O48: a write is malformed, is CTRL's, or is a register store, which does nothing while BUSY and
at the offsets that store nothing. -/
theorem registerWrites : Obligations.RegisterWrites := by
  unfold Obligations.RegisterWrites
  rintro s u off width v ts hin rfl
  refine ⟨fun hbad => step_regWrite_malformed hin hbad, ?ctrl, ?busy, ?config, ?inLen, ?width, ?height, ?other⟩
  case ctrl =>
    rintro rfl rfl
    exact step_ctrlWrite hin
  case busy =>
    rintro rfl h0 hbusy
    exact step_regWrite_ignored hin h0 (hostRegStore_busy off v hbusy)
  case other =>
    rintro rfl h0 h4 hC h10 h14
    exact step_regWrite_ignored hin h0 (hostRegStore_readOnly h4 hC h10 h14)
  all_goals
    rintro rfl rfl hidle
    obtain ⟨hconfig, hinLen, hwidth, hheight⟩ := hostRegStore_idle (s := s.withInputs ts) (v := v) hidle
    rw [step_regWrite_store hin rfl (by decide)]
  case config => rw [hconfig, State.withInputs_regs]
  case inLen => rw [hinLen, State.withInputs_regs]
  case width => rw [hwidth, State.withInputs_regs]
  case height => rw [hheight, State.withInputs_regs]

end Sys2Proof.Machine
end

section
/-! PROOFS. Error entry (60_exceptions.md R330) and the error codes (R320). -/

namespace Sys2Proof.Machine

/-- The codes of R320 in its order: 1 to 13, and 15 for Aborted. -/
theorem errorKind_codes :
    [ErrorKind.outOfData, .invalidBlockType, .lengthMismatch, .invalidCodeLengths, .noMatchingCode,
      .invalidDistanceCode, .invalidBackReference, .invalidLengthCode, .outputOverflow, .invalidFilterType,
      .imageDataShort, .invalidConfig, .callerError, .aborted].map (fun e => e.code.toNat) =
        [1, 2, 3, 4, 5, 6, 7, 8, 9, 10, 11, 12, 13, 15] := by
  decide

/-- Only the error registers and the phase are written (R330). -/
theorem errorEntry_frame (e : ErrorKind) (s : State) :
    errorEntry e s = { s with err := (errorEntry e s).err, phase := .error } := rfl

/-- The run has ended in error, so `irq` is at the level of IRQ_EN (R48). -/
@[simp] theorem errorEntry_irq (e : ErrorKind) (s : State) : (errorEntry e s).irq = s.regs.irqEn := by
  have hended : (errorEntry e s).phase.ended = true := (Phase.ended_eq_true_iff _).mpr (.inr (errorEntry_phase e s))
  rw [State.irq, hended, Bool.and_true, errorEntry_regs]

/-- Settles O51, field by field: the six writes are the rules of `errorEntry`, irq follows from the phase, and the
frame holds every byte since memory and epoch are kept. -/
theorem errorEntry_spec : Obligations.ErrorEntry := by
  unfold Obligations.ErrorEntry
  refine ⟨errorKind_codes, fun e s => ?_⟩
  exact ⟨errorEntry_code e s, errorEntry_byte e s, errorEntry_bit e s, errorEntry_block e s, errorEntry_row e s,
    errorEntry_phase e s, errorEntry_irq e s, errorEntry_frame e s, errorEntry_byteAt e s⟩

end Sys2Proof.Machine
end

section
/-! PROOFS. The decoder, the encoder and the opcode table (30_encoding.md R111 to R135). -/

namespace Sys2Proof

/-! ## The rows of CTRL words (R130): the low three bits decide -/

theorem rowMatches_mod_eight {m : Nat} (p v : Nat) (hm : m < 8) : rowMatches m p v = rowMatches m p (v % 8) := by
  have hand : v &&& m < 2 ^ 3 := Nat.lt_of_le_of_lt Nat.and_le_right hm
  have hlow : v &&& m = v % 8 &&& m := by
    calc v &&& m = (v &&& m) % 2 ^ 3 := (Nat.mod_eq_of_lt hand).symm
      _ = v % 2 ^ 3 &&& m % 2 ^ 3 := Nat.and_mod_two_pow
      _ = v % 8 &&& m := by rw [Nat.mod_eq_of_lt (show m < 2 ^ 3 from hm)]
  rw [rowMatches, rowMatches, hlow]

/-- CLEAR excludes ABORT, START excludes both, and a word without a command is what the three leave over. -/
theorem ctrlRows_exclusive (v : Nat) :
    (rowMatches 6 4 v = true → rowMatches 2 2 v = false) ∧
    (rowMatches 7 1 v = true → rowMatches 2 2 v = false ∧ rowMatches 6 4 v = false) ∧
    (rowMatches 7 0 v = true ↔ rowMatches 2 2 v = false ∧ rowMatches 6 4 v = false ∧ rowMatches 7 1 v = false) := by
  have hfinite : ∀ x, x < 8 →
      (rowMatches 6 4 x = true → rowMatches 2 2 x = false) ∧
      (rowMatches 7 1 x = true → rowMatches 2 2 x = false ∧ rowMatches 6 4 x = false) ∧
      (rowMatches 7 0 x = true ↔ rowMatches 2 2 x = false ∧ rowMatches 6 4 x = false ∧ rowMatches 7 1 x = false) := by
    decide
  rw [rowMatches_mod_eight 2 v (by decide), rowMatches_mod_eight 4 v (by decide), rowMatches_mod_eight 1 v (by decide),
    rowMatches_mod_eight 0 v (by decide)]
  exact hfinite _ (Nat.mod_lt _ (by decide))

section
variable {w : BitVec 32}

theorem decodeCtrl_of_abortRow (h : rowMatches 2 2 w.toNat = true) : decodeCtrl w = .ctrlAbort w := if_pos h

theorem decodeCtrl_of_clearRow (h : rowMatches 6 4 w.toNat = true) : decodeCtrl w = .ctrlClear w := by
  have habort := (ctrlRows_exclusive w.toNat).1 h
  rw [decodeCtrl, if_neg (Bool.eq_false_iff.mp habort), if_pos h]

theorem decodeCtrl_of_startRow (h : rowMatches 7 1 w.toNat = true) : decodeCtrl w = .ctrlStart w := by
  obtain ⟨habort, hclear⟩ := (ctrlRows_exclusive w.toNat).2.1 h
  rw [decodeCtrl, if_neg (Bool.eq_false_iff.mp habort), if_neg (Bool.eq_false_iff.mp hclear), if_pos h]

theorem decodeCtrl_of_noneRow (h : rowMatches 7 0 w.toNat = true) : decodeCtrl w = .ctrlNone w := by
  obtain ⟨habort, hclear, hstart⟩ := (ctrlRows_exclusive w.toNat).2.2.mp h
  rw [decodeCtrl, if_neg (Bool.eq_false_iff.mp habort), if_neg (Bool.eq_false_iff.mp hclear),
    if_neg (Bool.eq_false_iff.mp hstart)]

/-- A CTRL word keeps all its bits in the instruction, and lies in the row of its command. -/
theorem encode_decodeCtrl (w : BitVec 32) : encode (decodeCtrl w) = .ctrl w ∧ (decodeCtrl w).wf = true := by
  by_cases habort : rowMatches 2 2 w.toNat = true
  · rw [decodeCtrl_of_abortRow habort]
    exact ⟨rfl, habort⟩
  by_cases hclear : rowMatches 6 4 w.toNat = true
  · rw [decodeCtrl_of_clearRow hclear]
    exact ⟨rfl, hclear⟩
  by_cases hstart : rowMatches 7 1 w.toNat = true
  · rw [decodeCtrl_of_startRow hstart]
    exact ⟨rfl, hstart⟩
  · have hnone : rowMatches 7 0 w.toNat = true := (ctrlRows_exclusive w.toNat).2.2.mpr
      ⟨Bool.eq_false_iff.mpr habort, Bool.eq_false_iff.mpr hclear, Bool.eq_false_iff.mpr hstart⟩
    rw [decodeCtrl_of_noneRow hnone]
    exact ⟨rfl, hnone⟩

end

/-! ## Symbols and bytes: the operand that is the whole value -/

theorem decodeLL_literal (b : BitVec 8) : decodeLL (b.setWidth 9) = .ok (.llLiteral b) := by
  have hval : (b.setWidth 9).toNat = b.toNat := BitVec.toNat_setWidth_of_le (by decide)
  rw [decodeLL, if_pos (by rw [hval]; exact b.isLt), BitVec.setWidth_setWidth_of_le _ (by decide), BitVec.setWidth_eq]

theorem decodeCL_length (l : BitVec 4) : decodeCL (l.setWidth 5) = .ok (.clLen015 l) := by
  have hval : (l.setWidth 5).toNat = l.toNat := BitVec.toNat_setWidth_of_le (by decide)
  rw [decodeCL, if_pos (by rw [hval]; exact l.isLt), BitVec.setWidth_setWidth_of_le _ (by decide), BitVec.setWidth_eq]

theorem decodeLL_invalid : ∀ sym : BitVec 9, (Instr.llInvalid286287 sym).wf = true →
    decodeLL sym = .ok (.llInvalid286287 sym) := by decide +kernel

theorem decodeDist_invalid : ∀ sym : BitVec 5, (Instr.dInvalid3031 sym).wf = true →
    decodeDist sym = .dInvalid3031 sym := by decide +kernel

/-- The filter bytes without a filter, range by range (R128). -/
theorem decodeFilter_invalid : ∀ b : BitVec 8,
    ((Instr.filterInvalid67 b).wf = true → decodeFilter b = .filterInvalid67 b) ∧
    ((Instr.filterInvalid815 b).wf = true → decodeFilter b = .filterInvalid815 b) ∧
    ((Instr.filterInvalid1631 b).wf = true → decodeFilter b = .filterInvalid1631 b) ∧
    ((Instr.filterInvalid3263 b).wf = true → decodeFilter b = .filterInvalid3263 b) ∧
    ((Instr.filterInvalid64127 b).wf = true → decodeFilter b = .filterInvalid64127 b) ∧
    ((Instr.filterInvalid128255 b).wf = true → decodeFilter b = .filterInvalid128255 b) := by decide +kernel

/-! ## Port requests: an op above an operand (R131, R132) -/

theorem bcRequest_op (op : BitVec 3) (n : BitVec 6) : (op ++ n).extractLsb' 6 3 = op :=
  BitVec.extractLsb'_append_eq_left

theorem bcRequest_operand (op : BitVec 3) (n : BitVec 6) : (op ++ n).extractLsb' 0 6 = n :=
  BitVec.extractLsb'_append_eq_right

theorem htRequest_op (op : BitVec 2) (tid : BitVec 3) : (op ++ tid).extractLsb' 3 2 = op :=
  BitVec.extractLsb'_append_eq_left

theorem htRequest_operand (op : BitVec 2) (tid : BitVec 3) : (op ++ tid).extractLsb' 0 3 = tid :=
  BitVec.extractLsb'_append_eq_right

theorem bcReserved_op : ∀ op : BitVec 3, rowMatches 6 6 op.toNat = true → op = 6 ∨ op = 7 := by decide

theorem decodeBC_reserved {op : BitVec 3} {n : BitVec 6} (h : (Instr.bcReserved67 op n).wf = true) :
    decodeBC (op ++ n) = .bcReserved67 op n := by
  obtain rfl | rfl := bcReserved_op op h <;> rw [decodeBC, bcRequest_op, bcRequest_operand] <;> rfl

/-- Settles O2: an instruction without an operand is its element's one meaning; an operand comes back from its field,
and one that holds the whole value lies, being well-formed, in its row alone. -/
theorem decodeEncode : Obligations.DecodeEncode := by
  unfold Obligations.DecodeEncode
  intro i hwf
  cases i
  case llLiteral b => exact decodeLL_literal b
  case llInvalid286287 sym => exact decodeLL_invalid sym hwf
  case dInvalid3031 sym => exact congrArg Decoding.ok (decodeDist_invalid sym hwf)
  case clLen015 l => exact decodeCL_length l
  case filterInvalid67 b => exact congrArg Decoding.ok ((decodeFilter_invalid b).1 hwf)
  case filterInvalid815 b => exact congrArg Decoding.ok ((decodeFilter_invalid b).2.1 hwf)
  case filterInvalid1631 b => exact congrArg Decoding.ok ((decodeFilter_invalid b).2.2.1 hwf)
  case filterInvalid3263 b => exact congrArg Decoding.ok ((decodeFilter_invalid b).2.2.2.1 hwf)
  case filterInvalid64127 b => exact congrArg Decoding.ok ((decodeFilter_invalid b).2.2.2.2.1 hwf)
  case filterInvalid128255 b => exact congrArg Decoding.ok ((decodeFilter_invalid b).2.2.2.2.2 hwf)
  case ctrlAbort w => exact congrArg Decoding.ok (decodeCtrl_of_abortRow hwf)
  case ctrlClear w => exact congrArg Decoding.ok (decodeCtrl_of_clearRow hwf)
  case ctrlStart w => exact congrArg Decoding.ok (decodeCtrl_of_startRow hwf)
  case ctrlNone w => exact congrArg Decoding.ok (decodeCtrl_of_noneRow hwf)
  case bcReserved67 op n => exact congrArg Decoding.ok (decodeBC_reserved hwf)
  case bcReadBitMsb n | bcReadBitsMsb n | bcPeekBitsMsb n | bcReadBitsLsb n | bcSkipBits n | bcAlignToByte n =>
    rw [encode, decode, decodeBC, bcRequest_op, bcRequest_operand]
    rfl
  case htBuildFixed tid | htBuildFromLengths tid | htDecode tid | htReserved3 tid =>
    rw [encode, decode, decodeHT, htRequest_op, htRequest_operand]
    rfl
  all_goals rfl

/-! ## From an element and back -/

/-- The element is refused, or it is the encoding of what it decodes to and that is well-formed. -/
def Element.comesBack (e : Element) : Bool :=
  match decode e with
  | .ok i => decide (encode i = e) && i.wf
  | .error _ => true

theorem Element.encode_of_comesBack {e : Element} {i : Instr} (h : e.comesBack = true) (hd : decode e = .ok i) :
    encode i = e ∧ i.wf = true := by
  rw [Element.comesBack, hd] at h
  simpa using h

/-- Every space but that of CTRL words is small enough to look at each of its values. -/
theorem Element.comesBack_eq_true (e : Element) : e.comesBack = true := by
  cases e
  case btype t => revert t; decide
  case ll s => revert s; decide +kernel
  case dist s => revert s; decide +kernel
  case cl s => revert s; decide +kernel
  case filter b => revert b; decide +kernel
  case bc r => revert r; decide +kernel
  case ht r => revert r; decide +kernel
  case ctrl w =>
    obtain ⟨hback, hwf⟩ := encode_decodeCtrl w
    simp [Element.comesBack, decode, hback, hwf]

/-- Settles O3: what decodes comes back, space by space. -/
theorem encodeDecode : Obligations.EncodeDecode := by
  unfold Obligations.EncodeDecode
  exact fun e i hd => Element.encode_of_comesBack e.comesBack_eq_true hd

/-! ## The two alphabets' ends (R117, R118) -/

theorem decodeLL_above : ∀ s : BitVec 9, 288 ≤ s.toNat → decodeLL s = .error .llSymbolAbove287 := by decide +kernel

theorem decodeCL_above : ∀ s : BitVec 5, 19 ≤ s.toNat → decodeCL s = .error .clSymbolAbove18 := by decide +kernel

theorem decodeCL_ok {s : BitVec 5} (h : s.toNat < 19) : ∃ i, decodeCL s = .ok i := by
  by_cases hlen : s.toNat < 16
  · exact ⟨_, if_pos hlen⟩
  · have hrepeat : s.toNat = 16 ∨ s.toNat = 17 ∨ s.toNat = 18 := by omega
    rw [decodeCL, if_neg hlen]
    obtain hs | hs | hs := hrepeat <;> rw [hs] <;> exact ⟨_, rfl⟩

theorem decodeLL_error_iff {s : BitVec 9} {r : Reject} :
    decodeLL s = .error r ↔ 288 ≤ s.toNat ∧ r = .llSymbolAbove287 := by
  by_cases hs : 288 ≤ s.toNat
  · simp [decodeLL_above s hs, hs, eq_comm]
  · obtain ⟨i, hi⟩ := Machine.decodeLL_ok (Nat.lt_of_not_le hs)
    simp [hi, hs]

theorem decodeCL_error_iff {s : BitVec 5} {r : Reject} :
    decodeCL s = .error r ↔ 19 ≤ s.toNat ∧ r = .clSymbolAbove18 := by
  by_cases hs : 19 ≤ s.toNat
  · simp [decodeCL_above s hs, hs, eq_comm]
  · obtain ⟨i, hi⟩ := decodeCL_ok (Nat.lt_of_not_le hs)
    simp [hi, hs]

/-- Settles O4: only the LL and the CL decoder can refuse, and each does so beyond its alphabet. -/
theorem decodeRejects : Obligations.DecodeRejects := by
  unfold Obligations.DecodeRejects
  intro e r
  cases e
  case ll s => simp [decode, decodeLL_error_iff]
  case cl s => simp [decode, decodeCL_error_iff]
  all_goals simp [decode]

/-! ## The opcode table (R135) -/

/-- The rows of a space that hold a value. -/
def rowsHolding (sp : Space) (v : Nat) : List TableRow :=
  opcodeRows.filter fun r => decide (r.space = sp) && r.holds v

theorem mem_rowsHolding {sp : Space} {v : Nat} {r : TableRow} :
    r ∈ rowsHolding sp v ↔ r ∈ opcodeRows ∧ r.space = sp ∧ r.holds v = true := by
  simp [rowsHolding]

/-- A CTRL row looks at the low three bits alone, so it holds a word when it holds those bits. -/
theorem rowsHolding_ctrl (v : Nat) : rowsHolding .ctrl v = rowsHolding .ctrl (v % 8) := by
  have hmask : ∀ r ∈ opcodeRows, r.space = .ctrl → r.mask < 8 := by decide +kernel
  refine List.filter_congr fun r hr => ?_
  by_cases hsp : r.space = .ctrl
  · rw [TableRow.holds, TableRow.holds, rowMatches_mod_eight r.pat v (hmask r hr hsp)]
  · rw [decide_eq_false hsp, Bool.false_and, Bool.false_and]

/-- Every element that decodes has one row of its space. -/
theorem length_rowsHolding {e : Element} {i : Instr} (hd : decode e = .ok i) :
    (rowsHolding e.space e.rowValue).length = 1 := by
  have hbtype : ∀ v, v < 4 → (rowsHolding .btype v).length = 1 := by decide +kernel
  have hll : ∀ v, v < 288 → (rowsHolding .ll v).length = 1 := by decide +kernel
  have hdist : ∀ v, v < 32 → (rowsHolding .dist v).length = 1 := by decide +kernel
  have hcl : ∀ v, v < 19 → (rowsHolding .cl v).length = 1 := by decide +kernel
  have hfilter : ∀ v, v < 256 → (rowsHolding .filter v).length = 1 := by decide +kernel
  have hctrl : ∀ v, v < 8 → (rowsHolding .ctrl v).length = 1 := by decide +kernel
  have hbc : ∀ v, v < 8 → (rowsHolding .bc v).length = 1 := by decide +kernel
  have hht : ∀ v, v < 4 → (rowsHolding .ht v).length = 1 := by decide +kernel
  cases e
  case btype t => exact hbtype _ t.isLt
  case dist s => exact hdist _ s.isLt
  case filter b => exact hfilter _ b.isLt
  case ll s =>
    refine hll _ (Nat.lt_of_not_le fun hs => ?_)
    rw [decode, decodeLL_above s hs] at hd
    exact Decoding.noConfusion hd
  case cl s =>
    refine hcl _ (Nat.lt_of_not_le fun hs => ?_)
    rw [decode, decodeCL_above s hs] at hd
    exact Decoding.noConfusion hd
  case ctrl w => exact (congrArg List.length (rowsHolding_ctrl w.toNat)).trans (hctrl _ (Nat.mod_lt _ (by decide)))
  case bc r => exact hbc _ (Nat.div_lt_of_lt_mul r.isLt)
  case ht r => exact hht _ (Nat.div_lt_of_lt_mul r.isLt)

/-- Settles O5: a well-formed instruction's element decodes (O2), so one row holds its value. -/
theorem oneTableRow : Obligations.OneTableRow := by
  unfold Obligations.OneTableRow
  intro i hwf
  obtain ⟨r, hr⟩ := List.length_eq_one_iff.mp (length_rowsHolding (decodeEncode i hwf))
  have hmem : r ∈ rowsHolding (encode i).space (encode i).rowValue := hr ▸ List.mem_singleton_self r
  obtain ⟨hrow, hholds⟩ := mem_rowsHolding.mp hmem
  refine ⟨r, hrow, hholds, fun q hq hsp hv => ?_⟩
  exact List.mem_singleton.mp (hr ▸ mem_rowsHolding.mpr ⟨hq, hsp, hv⟩)

/-- Settles O1: each word by its row. -/
theorem decodedWords : Obligations.DecodedWords := by
  unfold Obligations.DecodedWords
  decide

end Sys2Proof
end

section
/-! PROOFS. The invariant (10_state.md R57) and the engine's steps (42_deflate_blocks.md R200): what each phase's step does
from a good state, told once, and what follows from it for every engine step. -/

namespace Sys2Proof.Machine

/-! ## The invariant under the updates of the model -/

section
variable {s t u : State}

/-- The invariant reads no environment, no block flag and no token, and of the rest it asks little. -/
theorem Inv.of_frame (h : Inv s)
    (hf : t = { s with cur := t.cur, blk := t.blk, hdr := t.hdr, tok := t.tok, tabs := t.tabs, env := t.env })
    (hcur : t.pos ≤ s.streamEnd) (hcl : t.tabs.cl.Wf 19) (hll : t.tabs.ll.Wf 288)
    (hd : t.tabs.d.Wf 32) (hcll : t.hdr.cll.length = 19) (hlens : t.hdr.lens.length = 320) : Inv t := by
  rw [hf]
  exact { h with cursor := fun _ => hcur, tableCl := hcl, tableLl := hll, tableD := hd, cllLength := hcll, lensLength := hlens }

/-- Progress of the decompression stage keeps the invariant. -/
theorem Inv.of_grows (h : Inv s) (hg : Grows s u) : Inv u := by
  have hph := hg.phase
  have hregs := hg.regs
  have hdefl := hg.defl
  have hwidth : u.regs.width = s.regs.width := by rw [hregs]
  have hheight : u.regs.height = s.regs.height := by rw [hregs]
  have hpix : u.regs.pixLen = s.regs.pixLen := by rw [hregs]
  have hen : u.regs.defilterEn = s.regs.defilterEn := by rw [hregs]
  have hin : u.regs.inLen = s.regs.inLen := by rw [hregs]
  have hgeom : badGeometry u = badGeometry s := by simp only [badGeometry, hwidth, hheight, hg.params]
  have hrow : u.rowBytes = s.rowBytes := by simp only [State.rowBytes, hwidth]
  have hneed : u.imageNeed = s.imageNeed := by simp only [State.imageNeed, hheight, hrow]
  refine
    { params := by rw [hg.params]; exact h.params
      cursor := fun _ => by rw [hg.streamEnd]; exact hg.cursor.2
      input := by rw [hph, hin, hg.params]; exact h.input
      output := by rw [hg.params]; exact hg.output.2
      pixels := by rw [hpix, hg.params]; exact h.pixels
      geometry := by rw [hph, hen, hgeom]; exact h.geometry
      stage := by rw [hph, hen]; exact h.stage
      beforeRows := by rw [hph, hpix, hdefl]; exact h.beforeRows
      rows := ?rows
      errCode := by rw [hph, hg.err]; exact h.errCode
      errKnown := by rw [hg.err]; exact h.errKnown
      tableCl := hg.tableCl, tableLl := hg.tableLl, tableD := hg.tableD
      cllLength := hg.cllLength, lensLength := hg.lensLength
      memories := ?memories }
  case rows =>
    rw [hph, hdefl, hheight, hpix, hrow, hneed]
    intro hp
    obtain ⟨hstg, hlt, hlen, hout⟩ := h.rows hp
    exact ⟨hstg, hlt, hlen, Nat.le_trans hout hg.output.1⟩
  case memories =>
    have hmem := hg.mem
    intro sp
    have hok := h.memories sp
    cases sp
    case dbuf =>
      show MemoryOk u.mem.dbuf u.params.dbufCap
      rw [hg.params]
      exact hg.memory hok
    all_goals
      simp only [State.memory, State.sizeOf, hg.params] at hok ⊢
      rw [hmem]
      exact hok

/-- R320: no kind has the code 0 or 14. -/
theorem ErrorKind.code_range (e : ErrorKind) : e.code ≠ 0 ∧ e.code ≠ 14 := by cases e <;> decide

theorem ErrorKind.code_eq_five {e : ErrorKind} (h : e.code = 5) : e = .noMatchingCode := by
  cases e <;> first | rfl | exact absurd h (by decide)

/-- Error entry leaves nothing that the invariant asks of a busy block. -/
theorem Inv.raised (h : Inv s) (e : ErrorKind) : Inv (errorEntry e s) where
  params := h.params
  cursor hb := Bool.noConfusion hb
  input hb := Bool.noConfusion hb
  output := h.output
  pixels := h.pixels
  geometry hb _ := Bool.noConfusion hb
  stage hp := by rcases hp with hp | hp <;> exact Phase.noConfusion hp
  beforeRows hp := Bool.noConfusion hp
  rows hp := Phase.noConfusion hp
  errCode := ⟨fun _ => rfl, fun _ => e.code_range.1⟩
  errKnown := e.code_range.2
  tableCl := h.tableCl
  tableLl := h.tableLl
  tableD := h.tableD
  cllLength := h.cllLength
  lensLength := h.lensLength
  memories := h.memories

/-- A busy block has recorded no error. -/
theorem Inv.code_zero (h : Inv s) (hb : s.phase.busy = true) : s.err.code = 0 := by
  refine Decidable.byContradiction fun hne => ?_
  rw [h.errCode.mp hne] at hb
  exact Bool.noConfusion hb

/-- The run ends. -/
theorem Inv.setPhase_done (h : Inv s) (hb : s.phase.busy = true) : Inv (s.setPhase .done) where
  params := h.params
  cursor hb := Bool.noConfusion hb
  input hb := Bool.noConfusion hb
  output := h.output
  pixels := h.pixels
  geometry hb _ := Bool.noConfusion hb
  stage hp := by rcases hp with hp | hp <;> exact Phase.noConfusion hp
  beforeRows hp := Bool.noConfusion hp
  rows hp := Phase.noConfusion hp
  errCode := ⟨fun hne => absurd (h.code_zero hb) hne, fun hp => Phase.noConfusion hp⟩
  errKnown := h.errKnown
  tableCl := h.tableCl
  tableLl := h.tableLl
  tableD := h.tableD
  cllLength := h.cllLength
  lensLength := h.lensLength
  memories := h.memories

/-- From one decompression phase to another. -/
theorem Inv.setPhase (h : Inv s) {p : Phase} (hs : s.phase.beforeRows = true) (hp : p.beforeRows = true)
    (hstage : p = .defilterStart → s.regs.defilterEn = true) : Inv (s.setPhase p) := by
  have hb : s.phase.busy = true := (Bool.and_eq_true _ _ ▸ hs).1
  have hcode := h.code_zero hb
  have hnotRow : p ≠ .defilterRow := fun hrow => by rw [hrow] at hp; exact Bool.noConfusion hp
  have hnotErr : p ≠ .error := fun herr => by rw [herr] at hp; exact Bool.noConfusion hp
  exact
    { h with
      cursor := fun _ => h.cursor hb
      input := fun _ => h.input hb
      geometry := fun _ => h.geometry hb
      stage := fun hor => hstage (hor.resolve_right hnotRow)
      beforeRows := fun _ => h.beforeRows hs
      rows := fun hrow => absurd hrow hnotRow
      errCode := ⟨fun hne => absurd hcode hne, fun herr => absurd herr hnotErr⟩ }

end

/-! ## What every engine step keeps, and how far a run still has to go -/

/-- What the engine never does (R37, R82 to R84, R169, R362, R363): from s to t no register of the host, no byte of IN and
no byte of output already there changes, and neither the output nor the cursor goes back or past the end of the
stream. -/
structure Advances (s t : State) : Prop where
  params : t.params = s.params
  env : t.env = s.env
  inMem : t.mem.inMem = s.mem.inMem
  regs : t.regs = { s.regs with
    dbufLen := t.regs.dbufLen, pixLen := t.regs.pixLen, blockCount := t.regs.blockCount }
  output : s.outLen ≤ t.outLen
  pixels : s.regs.pixLen.toNat ≤ t.regs.pixLen.toNat
  dbuf : ∀ a, a < s.outLen → t.byteAt .dbuf a = s.byteAt .dbuf a
  pix : ∀ a, a < s.regs.pixLen.toNat → t.byteAt .pix a = s.byteAt .pix a
  cursor : s.pos ≤ t.pos
  inStream : s.pos ≤ s.streamEnd → t.pos ≤ s.streamEnd

/-- An upper bound of the engine steps a run still takes (R216): two for each bit left, and what the phase has before it
when no bit is left. -/
def runBound (s : State) : Nat :=
  match s.phase with
  | .idle => 0
  | .header => 2 * (s.streamEnd - s.pos) + (s.regs.height.toNat + 2)
  | .stored => 2 * (s.streamEnd - s.pos) + (s.regs.height.toNat + 4)
  | .dynamic => 2 * (s.streamEnd - s.pos) + (s.regs.height.toNat + 4)
  | .tokens => 2 * (s.streamEnd - s.pos) + (s.regs.height.toNat + 3)
  | .blockEnd => 2 * (s.streamEnd - s.pos) + (s.regs.height.toNat + 3)
  | .defilterStart => s.regs.height.toNat + 1
  | .defilterRow => s.regs.height.toNat - s.defl.row.toNat
  | .done => 0
  | .error => 0

/-- A step from s that raises nothing ends in t. -/
structure Continues (s t : State) : Prop where
  inv : Inv t
  advances : Advances s t
  phase : t.phase ∈ phaseNext s.phase
  err : t.err = s.err
  bound : s.phase.busy = true → runBound t < runBound s

/-- A step from s that raises e does so in u. -/
structure Raises (s : State) (e : ErrorKind) (u : State) : Prop where
  inv : Inv (errorEntry e u)
  advances : Advances s u
  kind : e ∈ phaseErrors s.phase

section
variable {s t u : State}

theorem Advances.refl (s : State) : Advances s s :=
  ⟨rfl, rfl, rfl, rfl, Nat.le_refl _, Nat.le_refl _, fun _ _ => rfl, fun _ _ => rfl, Nat.le_refl _, id⟩

/-- Where neither memory, lengths nor host registers change, the cursor decides. -/
theorem Advances.of_frame (hc : s.pos ≤ t.pos) (hend : s.pos ≤ s.streamEnd → t.pos ≤ s.streamEnd)
    (hf : t = { s with
      cur := t.cur, phase := t.phase, err := t.err, blk := t.blk, hdr := t.hdr, tok := t.tok, tabs := t.tabs
      defl := t.defl, regs := { s.regs with blockCount := t.regs.blockCount } }) : Advances s t := by
  have hmem : t.mem = s.mem := by rw [hf]
  have henv : t.env = s.env := by rw [hf]
  have hbytes : ∀ sp a, t.byteAt sp a = s.byteAt sp a := fun sp a => by
    simp only [State.byteAt, State.memory, hmem, henv]
  exact
    { params := by rw [hf]
      env := henv
      inMem := by rw [hmem]
      regs := by rw [hf]
      output := Nat.le_of_eq (by rw [hf]; rfl)
      pixels := Nat.le_of_eq (by rw [hf])
      dbuf := fun a _ => hbytes .dbuf a
      pix := fun a _ => hbytes .pix a
      cursor := hc
      inStream := hend }

/-- Error entry and a change of phase are no part of it. -/
theorem Advances.errorEntry (h : Advances s u) (e : ErrorKind) : Advances s (Machine.errorEntry e u) := { h with }

theorem Advances.setPhase (h : Advances s u) (p : Phase) : Advances s (u.setPhase p) := { h with }

theorem Grows.advances (h : Grows s u) : Advances s u := by
  have hregs := h.regs
  have hmem := h.mem
  have hpix : u.regs.pixLen = s.regs.pixLen := by rw [hregs]
  refine ⟨h.params, h.env, by rw [hmem], ?_, h.output.1, Nat.le_of_eq (by rw [hpix]), h.bytes, fun a _ => ?_, h.cursor.1,
    fun _ => h.cursor.2⟩
  · conv => lhs; rw [hregs]
    rw [hpix, hregs]
  · simp only [State.byteAt, State.memory, h.env]
    rw [hmem]

/-- Progress of the decompression stage, as a raise. -/
theorem Inv.raises (h : Inv s) (hg : Grows s u) {e : ErrorKind}
    (he : e ∈ phaseErrors s.phase) : Raises s e u := ⟨(h.of_grows hg).raised e, hg.advances, he⟩

/-- Progress of the decompression stage that ends in another of its phases. -/
theorem Inv.continues (h : Inv s) (hs : s.phase.beforeRows = true) (hg : Grows s (t.setPhase s.phase))
    (ht : t.phase.beforeRows = true) (hstage : t.phase ≠ .defilterStart) (hp : t.phase ∈ phaseNext s.phase)
    (hbound : runBound t < runBound s) : Continues s t := by
  have hinv : Inv (t.setPhase s.phase) := h.of_grows hg
  exact ⟨hinv.setPhase (p := t.phase) hs ht (fun hst => absurd hst hstage), hg.advances.setPhase t.phase, hp, hg.err,
    fun _ => hbound⟩

/-! ## The step of each phase -/

/-- The four block types at the end of the header, as one (R203). -/
theorem exec_blockType (hp : u.phase = .header) (b : BitVec 2) :
    (∃ p, p ∈ [Phase.stored, .dynamic] ∧ exec (decodeBtype b) u = .next (u.setPhase p)) ∨
      exec (decodeBtype b) u = .next { u with blk := { u.blk with act := false }, phase := .tokens } ∨
      exec (decodeBtype b) u = .next (errorEntry .invalidBlockType u) := by
  obtain ⟨hstored, hfixed, hdynamic, hreserved⟩ := blockTypes u hp
  have hb : b = 0 ∨ b = 1 ∨ b = 2 ∨ b = 3 := by revert b; decide
  obtain rfl | rfl | rfl | rfl := hb
  · exact .inl ⟨.stored, by decide, hstored⟩
  · exact .inr (.inl hfixed)
  · exact .inl ⟨.dynamic, by decide, hdynamic⟩
  · exact .inr (.inr hreserved)

/-- The state after the three header bits, with what they put in the block registers (R202). -/
def State.afterHeader (s : State) (b : BlockRegs) : State := { s.setPos (s.pos + 3) with blk := b }

section
variable (h : Inv s) (hp : s.phase = .header) (hend : s.pos + 3 ≤ s.streamEnd)
include h hp hend

theorem Inv.afterHeader (b : BlockRegs) : Inv (s.afterHeader b) := by
  have hb : s.phase.busy = true := by rw [hp]; rfl
  exact { h.of_grows (grows_setPos (h.sound hb) (Nat.le_add_right _ _) hend) with }

omit h hp in
theorem advances_afterHeader (b : BlockRegs) : Advances s (s.afterHeader b) := by
  have hpos : (s.afterHeader b).pos = s.pos + 3 := pos_setPos_end (s := s) hend
  exact Advances.of_frame (by rw [hpos]; omega) (fun _ => by rw [hpos]; exact hend) rfl

theorem Inv.continues_afterHeader (b : BlockRegs) {p : Phase} (hmem : p ∈ [Phase.stored, .dynamic, .tokens]) :
    Continues s ((s.afterHeader b).setPhase p) := by
  have hs : s.phase.beforeRows = true := by rw [hp]; rfl
  have hpos : ((s.afterHeader b).setPhase p).pos = s.pos + 3 := pos_setPos_end (s := s) hend
  have hstream : ((s.afterHeader b).setPhase p).streamEnd = s.streamEnd := rfl
  have hregs : ((s.afterHeader b).setPhase p).regs = s.regs := rfl
  have hnext : ∀ p ∈ [Phase.stored, .dynamic, .tokens],
      p.beforeRows = true ∧ p ≠ .defilterStart ∧ p ∈ phaseNext .header := by decide
  obtain ⟨hbefore, hstage, hsucc⟩ := hnext p hmem
  refine ⟨(h.afterHeader hp hend b).setPhase hs hbefore (fun hst => absurd hst hstage),
    (advances_afterHeader hend b).setPhase p, hp ▸ hsucc, rfl, fun _ => ?_⟩
  simp only [List.mem_cons, List.not_mem_nil, or_false] at hmem
  obtain rfl | rfl | rfl := hmem <;> simp only [runBound, State.setPhase_phase, hp, hstream, hpos, hregs] <;> omega

end

/-- The P_HEADER step from a good state, where STAGE is 0 already. -/
theorem engineStep_header (h : Inv s) (hp : s.phase = .header) : Ends (Continues s) (Raises s) (engineStep s) := by
  have hb : s.phase.busy = true := by rw [hp]; rfl
  have hsound := h.sound hb
  have hdefl : ({ s.defl with stg := false } : Defilter) = s.defl := by
    rw [← (h.beforeRows (by rw [hp]; rfl)).2]
  have hstep : engineStep s = ran (.ofRes (fetchHeader s)) := by rw [engineStep, fetchEngine, hp]; rfl
  rw [hstep]
  by_cases h1 : s.streamEnd < s.pos + 1
  · rw [fetchHeader_end1 h1, hdefl]
    exact ends_error (h.raises (Grows.refl hsound) (by rw [hp]; decide))
  by_cases h3 : s.streamEnd < s.pos + 3
  · rw [fetchHeader_end3 hsound.fits (by omega) h3, hdefl]
    exact ends_error (h.raises (grows_setPos hsound (Nat.le_add_right _ _) (by omega)) (by rw [hp]; decide))
  have hend : s.pos + 3 ≤ s.streamEnd := Nat.le_of_not_lt h3
  rw [fetchHeader_eq hsound.fits hend, hdefl]
  generalize ({ s.blk with bfinal := s.streamBit s.pos, btype := BitVec.ofNat 2 (s.lsbValue (s.pos + 1) 2) } : BlockRegs) = b
  obtain ⟨p, hmem, hexec⟩ | hexec | hexec := exec_blockType (u := s.afterHeader b) hp
    (BitVec.ofNat 2 (s.lsbValue (s.pos + 1) 2))
  · exact ⟨_, hexec, .inl (h.continues_afterHeader hp hend b (List.mem_append_left [Phase.tokens] hmem))⟩
  · exact ⟨_, hexec, .inl (h.continues_afterHeader hp hend { b with act := false } (by decide))⟩
  · exact ⟨_, hexec, .inr ⟨_, _, rfl, (h.afterHeader hp hend b).raised _, advances_afterHeader hend b, by rw [hp]; decide⟩⟩

/-- The step of a phase before the rows, where all it does is progress of the decompression stage: the bound falls by the
bits read and by what the phases have before them. -/
theorem Inv.ends_of_grows (h : Inv s) (hs : s.phase.beforeRows = true) {P : State → Prop} {Q : ErrorKind → State → Prop}
    {o : Host.Outcome State Fault Refusal} (ho : Ends P Q o)
    (hP : ∀ t, P t → Grows s (t.setPhase s.phase) ∧ (t.phase.beforeRows = true ∧ t.phase ≠ .defilterStart) ∧
      t.phase ∈ phaseNext s.phase ∧ runBound t < runBound s)
    (hQ : ∀ e u, Q e u → Grows s u ∧ e ∈ phaseErrors s.phase) : Ends (Continues s) (Raises s) o := by
  obtain ⟨t, rfl, hPt | ⟨e, u, rfl, hQu⟩⟩ := ho
  · obtain ⟨hg, ⟨ht, hstage⟩, hnext, hbound⟩ := hP t hPt
    exact ends_next (h.continues hs hg ht hstage hnext hbound)
  · obtain ⟨hg, he⟩ := hQ e u hQu
    exact ends_error (h.raises hg he)

/-- The host's height and the end of the stream stay, whatever phase progress ends in. -/
theorem Grows.height_setPhase {p : Phase} (hg : Grows s (t.setPhase p)) :
    t.regs.height = s.regs.height ∧ t.streamEnd = s.streamEnd ∧ s.pos ≤ t.pos ∧ t.pos ≤ s.streamEnd := by
  have hregs : t.regs = { s.regs with dbufLen := t.regs.dbufLen } := hg.regs
  exact ⟨by rw [hregs], hg.streamEnd, hg.cursor⟩

theorem engineStep_stored (h : Inv s) (hp : s.phase = .stored) : Ends (Continues s) (Raises s) (engineStep s) := by
  refine h.ends_of_grows (by rw [hp]; rfl) (engine_stored (h.sound (by rw [hp]; rfl)) hp) (fun t ⟨hg, ht⟩ => ?_)
    (fun e u hu => hp ▸ hu)
  obtain ⟨hheight, hend, hlo, hhi⟩ := hg.height_setPhase
  refine ⟨hg, by rw [ht]; decide, by rw [hp, ht]; decide, ?_⟩
  simp only [runBound, hp, ht, hheight, hend]
  omega

theorem engineStep_dynamic (h : Inv s) (hp : s.phase = .dynamic) : Ends (Continues s) (Raises s) (engineStep s) := by
  refine h.ends_of_grows (by rw [hp]; rfl) (engine_dynamic (h.sound (by rw [hp]; rfl)) hp) (fun t ⟨hg, ht⟩ => ?_)
    (fun e u hu => hp ▸ hu)
  obtain ⟨hheight, hend, hlo, hhi⟩ := hg.height_setPhase
  refine ⟨hg, by rw [ht]; decide, by rw [hp, ht]; decide, ?_⟩
  simp only [runBound, hp, ht, hheight, hend]
  omega

theorem engineStep_tokens (h : Inv s) (hp : s.phase = .tokens) : Ends (Continues s) (Raises s) (engineStep s) := by
  refine h.ends_of_grows (by rw [hp]; rfl) (engine_tokens (h.sound (by rw [hp]; rfl)) hp) (fun t ⟨hg, hlt, ht⟩ => ?_)
    (fun e u hu => hp ▸ hu)
  obtain ⟨hheight, hend, hlo, hhi⟩ := hg.height_setPhase
  obtain ht | ht := ht
  all_goals
    refine ⟨hg, by rw [ht]; decide, by rw [hp, ht]; decide, ?_⟩
    simp only [runBound, hp, ht, hheight, hend]
    omega

/-- The block counted (R214). -/
def State.blockCounted (s : State) : State := { s with regs := { s.regs with blockCount := s.regs.blockCount + 1 } }

/-- Where the P_BLOCK_END step goes. -/
theorem blockEndStep_cases (s : State) :
    blockEndStep s = s.blockCounted.setPhase .header ∨
      (s.regs.defilterEn = true ∧ blockEndStep s = s.blockCounted.setPhase .defilterStart) ∨
      blockEndStep s = s.blockCounted.setPhase .done := by
  rw [blockEndStep]
  by_cases hlast : s.blk.bfinal = false
  · exact .inl (by rw [if_pos hlast]; rfl)
  by_cases hen : s.regs.defilterEn = true
  · exact .inr (.inl ⟨hen, by rw [if_neg hlast, if_pos hen]; rfl⟩)
  · exact .inr (.inr (by rw [if_neg hlast, if_neg hen]; rfl))

/-- The P_BLOCK_END step from a good state. -/
theorem engineStep_blockEnd (h : Inv s) (hp : s.phase = .blockEnd) : Ends (Continues s) (Raises s) (engineStep s) := by
  have hs : s.phase.beforeRows = true := by rw [hp]; rfl
  have hb : s.phase.busy = true := by rw [hp]; rfl
  have hstep : engineStep s = .next (blockEndStep s) := by rw [engineStep, fetchEngine, hp]
  have hinv : Inv s.blockCounted := { h with }
  have hadv (p : Phase) : Advances s (s.blockCounted.setPhase p) := Advances.of_frame (Nat.le_refl _) id rfl
  have hend (p : Phase) : (s.blockCounted.setPhase p).streamEnd - (s.blockCounted.setPhase p).pos = s.streamEnd - s.pos := rfl
  have hheight (p : Phase) : (s.blockCounted.setPhase p).regs.height = s.regs.height := rfl
  rw [hstep]
  obtain heq | ⟨hen, heq⟩ | heq := blockEndStep_cases s <;> rw [heq]
  · refine ends_next ⟨hinv.setPhase hs rfl (fun hst => Phase.noConfusion hst), hadv _, by rw [hp, State.setPhase_phase]; decide, rfl, fun _ => ?_⟩
    simp only [runBound, hp, State.setPhase_phase, hend, hheight]
    omega
  · refine ends_next ⟨hinv.setPhase hs rfl (fun _ => hen), hadv _, by rw [hp, State.setPhase_phase]; decide, rfl, fun _ => ?_⟩
    simp only [runBound, hp, State.setPhase_phase, hheight]
    omega
  · refine ends_next ⟨hinv.setPhase_done hb, hadv _, by rw [hp, State.setPhase_phase]; decide, rfl, fun _ => ?_⟩
    simp only [runBound, hp, State.setPhase_phase]
    omega

/-! ## The defilter stage -/

/-- The image START admitted for the defilter stage (R300), which it cannot leave while BUSY. -/
theorem Inv.image (h : Inv s) (hp : s.phase = .defilterStart ∨ s.phase = .defilterRow) :
    s.regs.height.toNat ≠ 0 ∧ s.rowBytes ≤ 3 * s.params.maxWidth ∧ s.regs.height.toNat * s.rowBytes ≤ s.params.pixCap := by
  have hb : s.phase.busy = true := by rcases hp with hp | hp <;> rw [hp] <;> rfl
  obtain ⟨-, hheight, hmax, hpix⟩ := badGeometry_false.mp (h.geometry hb (h.stage hp))
  refine ⟨fun h0 => hheight (BitVec.eq_of_toNat_eq h0), Nat.mul_le_mul_left 3 hmax, ?_⟩
  rw [State.rowBytes, Nat.mul_comm]
  exact hpix

/-- The P_DEFILTER_START step from a good state (R270). -/
theorem engineStep_defilterStart (h : Inv s) (hp : s.phase = .defilterStart) :
    Ends (Continues s) (Raises s) (engineStep s) := by
  have hs : s.phase.beforeRows = true := by rw [hp]; rfl
  have hb : s.phase.busy = true := by rw [hp]; rfl
  have hstep : engineStep s = (defilterStart s).toOutcome := by rw [engineStep, fetchEngine, hp]
  obtain ⟨hheight, hwidth, -⟩ := h.image (.inl hp)
  rw [hstep]
  by_cases hshort : s.outLen < s.imageNeed
  · rw [defilterStart_short hshort, toOutcome_raise]
    exact ends_error ⟨{ h.raised .imageDataShort with beforeRows := Bool.noConfusion, rows := Phase.noConfusion }, Advances.of_frame (Nat.le_refl _) id rfl, by rw [hp]; decide⟩
  have henough : s.imageNeed ≤ s.outLen := Nat.le_of_not_lt hshort
  rw [defilterStart_eq henough hwidth, toOutcome_ok]
  refine ends_next ⟨?inv, ?advances, by rw [hp]; exact List.mem_cons_self, rfl, fun _ => ?bound⟩
  case inv =>
    exact
      { h with
        cursor := fun _ => h.cursor hb
        input := fun _ => h.input hb
        geometry := fun _ => h.geometry hb
        stage := fun _ => h.stage (.inl hp)
        beforeRows := fun hno => Bool.noConfusion hno
        rows := fun _ => ⟨rfl, Nat.pos_of_ne_zero hheight, by
          show s.regs.pixLen.toNat = 0 * s.rowBytes
          rw [(h.beforeRows hs).1, Nat.zero_mul]
          rfl, henough⟩
        errCode := ⟨fun hne => absurd (h.code_zero hb) hne, fun herr => Phase.noConfusion herr⟩
        memories := fun sp => by
          have hok := h.memories sp
          cases sp
          case slPrev => exact memoryOk_writeList _ hok (by rw [List.length_replicate, Nat.zero_add]; exact hwidth)
          all_goals exact hok }
  case advances =>
    exact ⟨rfl, rfl, rfl, rfl, Nat.le_refl _, Nat.le_refl _, fun _ _ => rfl, fun _ _ => rfl, Nat.le_refl _, id⟩
  case bound =>
    show s.regs.height.toNat - 0 < runBound s
    simp only [runBound, hp]
    omega

/-- Every filter byte below 5 has a filter (R128). -/
theorem decodeFilter_of_lt {b : Byte} (hb : b.toNat < 5) : ∃ i pred,
    (i, pred) ∈ [(Instr.filterNone, fun _ _ _ => (0 : Byte)), (.filterSub, fun a _ _ => a), (.filterUp, fun _ b _ => b),
      (.filterAverage, predAverage), (.filterPaeth, predPaeth)] ∧ decodeFilter b = i := by
  have hval : b = 0 ∨ b = 1 ∨ b = 2 ∨ b = 3 ∨ b = 4 := by
    have hfinite : ∀ b : Byte, b.toNat < 5 → b = 0 ∨ b = 1 ∨ b = 2 ∨ b = 3 ∨ b = 4 := by decide +kernel
    exact hfinite b hb
  obtain rfl | rfl | rfl | rfl | rfl := hval
  · exact ⟨_, _, List.mem_cons_self, rfl⟩
  · exact ⟨_, _, .tail _ List.mem_cons_self, rfl⟩
  · exact ⟨_, _, .tail _ (.tail _ List.mem_cons_self), rfl⟩
  · exact ⟨_, _, .tail _ (.tail _ (.tail _ List.mem_cons_self)), rfl⟩
  · exact ⟨_, _, .tail _ (.tail _ (.tail _ (.tail _ List.mem_cons_self))), rfl⟩

/-- During the rows the next row stands in DBUF, and has room in PIX (R57(c), R270). -/
theorem Inv.row_fits (h : Inv s) (hp : s.phase = .defilterRow) :
    s.rowBase + 1 + s.rowBytes ≤ s.params.dbufCap ∧ s.regs.pixLen.toNat + s.rowBytes ≤ s.params.pixCap := by
  obtain ⟨-, hrow, hlen, hneed⟩ := h.rows hp
  obtain ⟨-, -, hpix⟩ := h.image (.inr hp)
  have hout := h.output
  have hdbuf := Nat.mul_le_mul_right (1 + s.rowBytes) (Nat.succ_le_of_lt hrow)
  have hnext := Nat.mul_le_mul_right s.rowBytes (Nat.succ_le_of_lt hrow)
  rw [Nat.succ_mul] at hdbuf hnext
  unfold State.rowBase
  unfold State.imageNeed at hneed
  omega

/-- The P_DEFILTER_ROW step from a good state: InvalidFilterType, or a row of some filter (R271, R278). -/
theorem engineStep_defilterRow_cases (h : Inv s) (hp : s.phase = .defilterRow) :
    engineStep s = .next (errorEntry .invalidFilterType s) ∨
      ∃ pred, engineStep s = .next (storeRow (reconRow pred s s.rowBase s.rowBytes) s) := by
  obtain ⟨hdbuf, hpix⟩ := h.row_fits hp
  obtain ⟨-, hwidth, -⟩ := h.image (.inr hp)
  have hfetch : fetchFilter s = .ok (decodeFilter (s.byteAt .dbuf s.rowBase)) s := by
    rw [fetchFilter, if_neg (by omega)]
  have hstep : engineStep s = exec (decodeFilter (s.byteAt .dbuf s.rowBase)) s := by
    rw [engineStep, fetchEngine, hp]
    simp only [hfetch, Fetched.ofRes]
  rw [hstep]
  by_cases hb : (s.byteAt .dbuf s.rowBase).toNat < 5
  · obtain ⟨i, pred, hmem, hi⟩ := decodeFilter_of_lt hb
    exact .inr ⟨pred, by rw [hi, exec_filter hmem, defilterRow_eq pred hdbuf hwidth hpix, toOutcome_ok]⟩
  · exact .inl (exec_decodeFilter_of_ge (Nat.le_of_not_lt hb) s)

/-- The registers after a row from a good state (R271): none of them wraps. -/
theorem Inv.storeRow_regs (h : Inv s) (hp : s.phase = .defilterRow) (cur : List Byte) :
    (storeRow cur s).regs.pixLen.toNat = s.regs.pixLen.toNat + s.rowBytes ∧
      (storeRow cur s).defl.row.toNat = s.defl.row.toNat + 1 ∧
      ((storeRow cur s).phase = .done ∧ s.defl.row.toNat + 1 = s.regs.height.toNat ∨
        (storeRow cur s).phase = .defilterRow ∧ s.defl.row.toNat + 1 < s.regs.height.toNat) := by
  obtain ⟨-, hpix⟩ := h.row_fits hp
  obtain ⟨-, hrow, -, -⟩ := h.rows hp
  have hcap := h.params
  simp only [Params.wf, Bool.and_eq_true, decide_eq_true_eq] at hcap
  have hheight := s.regs.height.isLt
  have hnext : (s.defl.row + 1).toNat = s.defl.row.toNat + 1 := by
    rw [BitVec.toNat_add]
    exact Nat.mod_eq_of_lt (show s.defl.row.toNat + 1 < 2 ^ 32 by omega)
  refine ⟨?_, hnext, ?_⟩
  · show (BitVec.ofNat 32 (s.regs.pixLen.toNat + s.rowBytes)).toNat = _
    rw [BitVec.toNat_ofNat]
    exact Nat.mod_eq_of_lt (by omega)
  · by_cases hlast : s.defl.row + 1 = s.regs.height
    · exact .inl ⟨if_pos hlast, by rw [← hnext, hlast]⟩
    · have hne : s.defl.row.toNat + 1 ≠ s.regs.height.toNat := fun heq =>
        hlast (BitVec.eq_of_toNat_eq (hnext.trans heq))
      exact .inr ⟨(if_neg hlast).trans hp, by omega⟩

/-- A stored row keeps the invariant. -/
theorem Inv.storeRow (h : Inv s) (hp : s.phase = .defilterRow) {cur : List Byte} (hlen : cur.length = s.rowBytes) :
    Inv (Machine.storeRow cur s) := by
  have hb : s.phase.busy = true := by rw [hp]; rfl
  obtain ⟨-, hpixFits⟩ := h.row_fits hp
  obtain ⟨-, hwidth, -⟩ := h.image (.inr hp)
  obtain ⟨hpix, hrow, hphase⟩ := h.storeRow_regs hp cur
  obtain ⟨hstg, -, hpixLen, hneed⟩ := h.rows hp
  have hnotBefore : (Machine.storeRow cur s).phase.beforeRows = false := by
    obtain ⟨heq, -⟩ | ⟨heq, -⟩ := hphase <;> rw [heq] <;> rfl
  exact
    { h with
      cursor := fun _ => h.cursor hb
      input := fun _ => h.input hb
      pixels := by rw [hpix]; exact hpixFits
      geometry := fun _ => h.geometry hb
      stage := fun _ => h.stage (.inr hp)
      beforeRows := fun hno => Bool.noConfusion (hnotBefore.symm.trans hno)
      rows := fun hrows => by
        have hmore := (hphase.resolve_left fun hdone => Phase.noConfusion (hrows.symm.trans hdone.1)).2
        refine ⟨hstg, by rw [hrow]; exact hmore, ?_, hneed⟩
        rw [hpix, hrow, hpixLen, Nat.succ_mul]
        rfl
      errCode := ⟨fun hne => absurd (h.code_zero hb) hne, fun herr => by
        obtain ⟨heq, -⟩ | ⟨heq, -⟩ := hphase <;> exact Phase.noConfusion (heq.symm.trans herr)⟩
      memories := fun sp => by
        have hok := h.memories sp
        cases sp
        case pix => exact memoryOk_writeList cur hok (by rw [hlen]; exact hpixFits)
        case slPrev => exact memoryOk_writeList cur hok (by rw [hlen, Nat.zero_add]; exact hwidth)
        all_goals exact hok }

theorem Inv.advances_storeRow (h : Inv s) (hp : s.phase = .defilterRow) {cur : List Byte} :
    Advances s (Machine.storeRow cur s) := by
  obtain ⟨hpix, -, -⟩ := h.storeRow_regs hp cur
  refine ⟨rfl, rfl, rfl, rfl, Nat.le_refl _, by omega, fun a ha => ?_, fun a ha => ?_, Nat.le_refl _, id⟩
  · rw [byteAt_storeRow, if_neg (by simp), if_neg (by simp)]
  · rw [byteAt_storeRow, if_neg (by omega), if_neg (by simp)]

/-- The P_DEFILTER_ROW step from a good state. -/
theorem engineStep_defilterRow (h : Inv s) (hp : s.phase = .defilterRow) :
    Ends (Continues s) (Raises s) (engineStep s) := by
  obtain hstep | ⟨pred, hstep⟩ := engineStep_defilterRow_cases h hp <;> rw [hstep]
  · exact ends_error ⟨h.raised _, Advances.refl s, by rw [hp]; decide⟩
  obtain ⟨-, hrow, hphase⟩ := h.storeRow_regs hp (reconRow pred s s.rowBase s.rowBytes)
  have hheight : (Machine.storeRow (reconRow pred s s.rowBase s.rowBytes) s).regs.height = s.regs.height := rfl
  refine ends_next ⟨h.storeRow hp (reconRow_length pred s _ _), h.advances_storeRow hp, ?next, rfl, fun _ => ?bound⟩
  case next => obtain ⟨heq, -⟩ | ⟨heq, -⟩ := hphase <;> rw [heq, hp] <;> decide
  case bound =>
    obtain ⟨heq, hlast⟩ | ⟨heq, hmore⟩ := hphase <;> simp only [runBound, heq, hp, hheight, hrow] <;> omega

/-- Every engine step from a good state. -/
theorem engineStep_spec (h : Inv s) : Ends (Continues s) (Raises s) (engineStep s) := by
  have hrest : s.phase.busy = false → engineStep s = .next s → s.phase ∈ phaseNext s.phase →
      Ends (Continues s) (Raises s) (engineStep s) := fun hb hstep hmem =>
    hstep ▸ ends_next ⟨h, Advances.refl s, hmem, rfl, fun hbusy => Bool.noConfusion (hb.symm.trans hbusy)⟩
  cases hp : s.phase
  case header => exact engineStep_header h hp
  case stored => exact engineStep_stored h hp
  case dynamic => exact engineStep_dynamic h hp
  case tokens => exact engineStep_tokens h hp
  case blockEnd => exact engineStep_blockEnd h hp
  case defilterStart => exact engineStep_defilterStart h hp
  case defilterRow => exact engineStep_defilterRow h hp
  case idle | done | error =>
    exact hrest (by rw [hp]; rfl) (by rw [engineStep, fetchEngine, hp]) (by rw [hp]; decide)

end

end Sys2Proof.Machine
end

section
/-! PROOFS. What follows from the step of each phase: the frame and the errors of an engine step, the phases it leads to,
the pixels at DONE, and that every run ends (42_deflate_blocks.md R200, R216, 60_exceptions.md R324). -/

namespace Sys2Proof.Machine

section
variable {s t : State}

/-- An engine step from a good state goes on, or raises. -/
theorem Inv.step_cases (h : Inv s) (hin : s.env.inputs = []) (hstep : step s = .next t) :
    Continues s t ∨ ∃ e u, t = errorEntry e u ∧ Raises s e u := by
  obtain ⟨t', ht', hcase⟩ := engineStep_spec h
  rw [step_engine hin, ht'] at hstep
  obtain rfl : t' = t := by injection hstep
  exact hcase

theorem Inv.step_advances (h : Inv s) (hin : s.env.inputs = []) (hstep : step s = .next t) : Advances s t := by
  obtain hc | ⟨e, u, rfl, hr⟩ := h.step_cases hin hstep
  · exact hc.advances
  · exact hr.advances.errorEntry e

theorem Inv.step_inv (h : Inv s) (hin : s.env.inputs = []) (hstep : step s = .next t) : Inv t := by
  obtain hc | ⟨e, u, rfl, hr⟩ := h.step_cases hin hstep
  · exact hc.inv
  · exact hr.inv

/-- A step of a busy block that ends in P_ERROR has raised. -/
theorem Inv.step_raises (h : Inv s) (hb : s.phase.busy = true) (hin : s.env.inputs = []) (hstep : step s = .next t)
    (herr : t.phase = .error) : ∃ e u, t = errorEntry e u ∧ Raises s e u := by
  refine (h.step_cases hin hstep).resolve_left fun hc => ?_
  exact hc.inv.errCode.mpr herr (hc.err ▸ h.code_zero hb)

theorem phaseNext_error {p : Phase} {e : ErrorKind} (h : e ∈ phaseErrors p) : .error ∈ phaseNext p := by
  cases p <;> first | exact absurd h List.not_mem_nil | decide

end

/-- Settles O53: a step that goes on does so to a successor, and only phases with errors raise. -/
theorem phaseSuccessors : Obligations.PhaseSuccessors := by
  unfold Obligations.PhaseSuccessors
  intro s t h hin hstep
  obtain hc | ⟨e, u, rfl, hr⟩ := h.step_cases hin hstep
  · exact hc.phase
  · exact phaseNext_error hr.kind

/-- Settles O55: the frame of an engine step, field by field. -/
theorem engineFrame : Obligations.EngineFrame := by
  unfold Obligations.EngineFrame
  intro s t h hin hstep
  obtain ⟨hparams, henv, hmem, hregs, hout, hpix, hdbufBytes, hpixBytes, -, -⟩ := h.step_advances hin hstep
  refine ⟨hparams, henv, hmem, ?_, ?_, ?_, ?_, ?_, hout, hpix, hdbufBytes, hpixBytes⟩ <;> rw [hregs]

/-- Settles O56: the row that ends in P_DONE is the last, and R57(c) counts the rows before it. -/
theorem pixelsAtDone : Obligations.PixelsAtDone := by
  unfold Obligations.PixelsAtDone
  intro s t h hp hin hstep hdone
  obtain hcase | ⟨pred, hcase⟩ := engineStep_defilterRow_cases h hp <;> rw [step_engine hin, hcase] at hstep <;>
    obtain rfl := Host.Outcome.next.inj hstep
  · exact Phase.noConfusion hdone
  obtain ⟨hpix, -, hphase⟩ := h.storeRow_regs hp (reconRow pred s s.rowBase s.rowBytes)
  obtain ⟨-, -, hlen, -⟩ := h.rows hp
  have hlast : s.defl.row.toNat + 1 = s.regs.height.toNat :=
    (hphase.resolve_right fun hmore => Phase.noConfusion (hdone.symm.trans hmore.1)).2
  refine ⟨?_, h.code_zero (by rw [hp]; rfl)⟩
  calc _ = s.defl.row.toNat * s.rowBytes + s.rowBytes := by rw [hpix, hlen]
    _ = s.regs.height.toNat * (3 * s.regs.width.toNat) := by rw [← hlast, Nat.succ_mul]; rfl
    _ = s.regs.width.toNat * s.regs.height.toNat * 3 := by
      rw [Nat.mul_comm s.regs.height.toNat, Nat.mul_assoc, Nat.mul_comm 3]

/-! ## Every run ends (R216) -/

/-- What is not BUSY is P_IDLE or has ended. -/
theorem Phase.ended_of_not_busy {p : Phase} (hb : p.busy = false) (hidle : p ≠ .idle) : p.ended = true := by
  cases p <;> first | rfl | exact absurd rfl hidle | exact Bool.noConfusion hb

theorem runSteps_succ {s t : State} (k : Nat) (h : step s = .next t) : runSteps (k + 1) s = runSteps k t := by
  simp only [runSteps, Host.Core.run, Host.Check.core_step, h]
  rfl

/-- P_IDLE is no successor of another phase. -/
theorem idle_not_mem_phaseNext {p : Phase} (hp : p ≠ .idle) : Phase.idle ∉ phaseNext p := by
  cases p <;> first | exact absurd rfl hp | decide

/-- A busy block has a step before it. -/
theorem Inv.runBound_pos {s : State} (h : Inv s) (hb : s.phase.busy = true) : 0 < runBound s := by
  unfold runBound
  split
  case h_8 hp => exact Nat.sub_pos_of_lt (h.rows hp).2.1
  all_goals first | omega | (rename_i hp; rw [hp] at hb; exact Bool.noConfusion hb)

/-- From a good state that is not idle the engine reaches P_DONE or P_ERROR within the state's bound: every step that
does not raise lowers it. -/
theorem Inv.run_ends : ∀ (n : Nat) {s : State}, Inv s → s.env.inputs = [] → s.phase ≠ .idle → runBound s ≤ n →
    ∃ k u, k ≤ n ∧ runSteps k s = .next u ∧ u.phase.ended = true := by
  intro n
  induction n with
  | zero =>
    intro s h _ hidle hle
    have hb : s.phase.busy = false := Bool.eq_false_iff.mpr fun hb => by
      have := h.runBound_pos hb
      omega
    exact ⟨0, s, Nat.le_refl _, rfl, Phase.ended_of_not_busy hb hidle⟩
  | succ n ih =>
    intro s h hin hidle hle
    by_cases hb : s.phase.busy = true
    · obtain ⟨t, hstep, hc | ⟨e, u, rfl, -⟩⟩ := engineStep_spec h <;> rw [← step_engine hin] at hstep
      · have hlt := hc.bound hb
        have htidle : t.phase ≠ .idle := fun ht => idle_not_mem_phaseNext hidle (ht ▸ hc.phase)
        obtain ⟨k, v, hk, hrun, hend⟩ := ih hc.inv (by rw [hc.advances.env, hin]) htidle (by omega)
        exact ⟨k + 1, v, Nat.succ_le_succ hk, by rw [runSteps_succ k hstep, hrun], hend⟩
      · exact ⟨1, _, by omega, by rw [runSteps_succ 0 hstep]; rfl, rfl⟩
    · exact ⟨0, s, Nat.zero_le _, rfl, Phase.ended_of_not_busy (Bool.eq_false_iff.mpr hb) hidle⟩

/-- CLEAR leaves a good block good (R302). -/
theorem Inv.clear {s : State} (h : Inv s) : Inv ((clearErrors s).setPhase .idle) where
  params := h.params
  cursor hb := Bool.noConfusion hb
  input hb := Bool.noConfusion hb
  output := h.output
  pixels := h.pixels
  geometry hb _ := Bool.noConfusion hb
  stage hp := by rcases hp with hp | hp <;> exact Phase.noConfusion hp
  beforeRows hp := Bool.noConfusion hp
  rows hp := Phase.noConfusion hp
  errCode := ⟨fun hne => absurd rfl hne, fun hp => Phase.noConfusion hp⟩
  errKnown := (show (0 : BitVec 4) ≠ 14 by decide)
  tableCl := h.tableCl
  tableLl := h.tableLl
  tableD := h.tableD
  cllLength := h.cllLength
  lensLength := h.lensLength
  memories := h.memories

/-- What START writes before its checks is good in P_IDLE. -/
theorem Inv.startState {s : State} (h : Inv s) : Inv ((Machine.startState s).setPhase .idle) :=
  { h.clear with
    output := Nat.zero_le _
    pixels := Nat.zero_le _
    cursor := fun hb => Bool.noConfusion hb
    geometry := fun hb _ => Bool.noConfusion hb
    beforeRows := fun hp => Bool.noConfusion hp
    rows := fun hp => Phase.noConfusion hp }

/-- START leaves a good block good, whether it begins a run or raises (R300). -/
theorem Inv.startCommand {s : State} (h : Inv s) (hidle : s.phase.busy = false) :
    Machine.startCommand s = .ok () ((Machine.startState s).setPhase .header) ∧
        Inv ((Machine.startState s).setPhase .header) ∨
      Machine.startCommand s = raise .invalidConfig (Machine.startState s) ∧
        Inv (errorEntry .invalidConfig (Machine.startState s)) := by
  by_cases hbad : s.params.inCap < s.regs.inLen.toNat ∨ (s.regs.defilterEn = true ∧ badGeometry s = true)
  · exact .inr ⟨startCommand_invalid hidle hbad, h.startState.raised .invalidConfig⟩
  · obtain ⟨hlen, hgeom⟩ := not_or.mp hbad
    refine .inl ⟨startCommand_begin hidle (Nat.le_of_not_lt hlen) hgeom, ?_⟩
    exact
      { h.startState with
        cursor := fun _ => Nat.zero_le _
        input := fun _ => Nat.le_of_not_lt hlen
        geometry := fun _ hen => Bool.eq_false_iff.mpr fun hb => hgeom ⟨hen, hb⟩
        stage := fun hp => by rcases hp with hp | hp <;> exact Phase.noConfusion hp
        beforeRows := fun _ => ⟨rfl, rfl⟩
        rows := fun hp => Phase.noConfusion hp
        errCode := ⟨fun hne => absurd rfl hne, fun hp => Phase.noConfusion hp⟩ }

/-- Settles O57: at START the bound is the statement's. -/
theorem runEnds : Obligations.RunEnds := by
  unfold Obligations.RunEnds
  intro s t w h hidle hin hexec
  rw [exec_ctrlStart] at hexec
  obtain ⟨hstart, hinv⟩ | ⟨hstart, -⟩ := h.startCommand hidle <;> rw [hstart] at hexec <;>
    obtain rfl := Host.Outcome.next.inj hexec
  · have hbound : runBound ((startState s).setPhase .header) = 2 * 8 * s.regs.inLen.toNat + s.regs.height.toNat + 2 := by
      show 2 * (8 * s.regs.inLen.toNat - 0) + (s.regs.height.toNat + 2) = _
      omega
    exact hbound ▸ hinv.run_ends _ hin Phase.noConfusion (Nat.le_refl _)
  · exact ⟨0, _, Nat.zero_le _, rfl, rfl⟩

end Sys2Proof.Machine
end

section
/-! PROOFS. Turns that are not the engine's: the internal ports (30_encoding.md R131, R132), the host and the platform's
reset, and that every step keeps the invariant and completes (10_state.md R57, 20_memory.md R80, R93). -/

namespace Sys2Proof.Machine

/-! ## Requests on the bit_cursor port (R131) -/

/-- How a bit_cursor request ends: with a response and the cursor moved forward inside the stream, with an error entry
where it stood, or, where the stream does not fit IN, at a byte that does not exist. -/
inductive CursorEnds (s : State) : Host.Outcome State Fault Refusal → Prop where
  | moved (p : Nat) (e : Env) (hlo : s.pos ≤ p) (hhi : p ≤ s.streamEnd) : CursorEnds s (.next { s.setPos p with env := e })
  | raised (k : ErrorKind) (e : Env) : CursorEnds s (.next { errorEntry k s with env := e })
  | fault (f : Fault) (h : ¬ FitsIn s) : CursorEnds s (.fault f)

/-- The same of the operation, before its response. -/
abbrev CursorRes {α : Type} (s : State) (r : Res α) : Prop :=
  Res.Sat (fun _ u => ∃ p, s.pos ≤ p ∧ p ≤ s.streamEnd ∧ u = s.setPos p) (fun _ u => u = s) (fun _ => ¬ FitsIn s) r

section
variable {s : State}

theorem CursorRes.answer {r : Res Word} (h : CursorRes s r) : CursorEnds s (answer r).toOutcome := by
  cases h with
  | ok h =>
    obtain ⟨p, hlo, hhi, rfl⟩ := h
    exact .moved p _ hlo hhi
  | raised h =>
    subst h
    exact .raised _ _
  | fault h => exact .fault _ h

theorem CursorRes.answerUnit {r : Res Unit} (h : CursorRes s r) : CursorEnds s (answerUnit r).toOutcome := by
  cases h with
  | ok h =>
    obtain ⟨p, hlo, hhi, rfl⟩ := h
    exact .moved p _ hlo hhi
  | raised h =>
    subst h
    exact .raised _ _
  | fault h => exact .fault _ h

/-- The checks of a read, in their order (R168, R160). -/
theorem checkRead_sat (n : Nat) (s : State) : Res.Sat (fun _ u => u = s ∧ s.pos + n ≤ s.streamEnd) (fun _ u => u = s)
    (fun _ => ¬ FitsIn s) (checkRead n s) := by
  by_cases hwide : 32 < n
  · rw [checkRead_wide hwide]
    exact sat_raise rfl
  by_cases hend : s.streamEnd < s.pos + n
  · rw [checkRead_end (Nat.le_of_not_lt hwide) hend]
    exact sat_raise rfl
  by_cases hf : FitsIn s
  · rw [checkRead_eq hf (Nat.le_of_not_lt hwide) (Nat.le_of_not_lt hend)]
    exact .ok ⟨rfl, Nat.le_of_not_lt hend⟩
  · rw [checkRead, if_neg (show ¬ Config.maxReadBits < n from hwide), if_neg hend]
    split
    · exact .fault hf
    · exact .ok ⟨rfl, Nat.le_of_not_lt hend⟩

/-- A read moves the cursor by its bits, or not at all. -/
theorem cursorRes_read (hc : s.pos ≤ s.streamEnd) (n : Nat) (v : State → Word) {q : Nat} (hq : q = n ∨ q = 0) :
    CursorRes s ((checkRead n s).bind fun _ s => .ok (v s) (s.setPos (s.pos + q))) := by
  refine sat_bind (sat_mono (checkRead_sat n s) ?_ (fun _ _ h => h) (fun _ h => h))
  rintro _ u ⟨rfl, hn⟩
  exact .ok ⟨_, Nat.le_add_right _ _, by omega, rfl⟩

theorem cursorRes_peekBitsMSB (hc : s.pos ≤ s.streamEnd) (n : Nat) : CursorRes s (peekBitsMSB n s) := by
  refine sat_bind (sat_mono (checkRead_sat n s) ?_ (fun _ _ h => h) (fun _ h => h))
  rintro _ u ⟨rfl, -⟩
  exact .ok ⟨u.pos, Nat.le_refl _, hc, (setPos_pos u).symm⟩

/-- Every request on the bit_cursor port. -/
theorem exec_decodeBC (hc : s.pos ≤ s.streamEnd) (r : BitVec 9) : CursorEnds s (exec (decodeBC r) s) := by
  dsimp only [decodeBC]
  split
  case h_1 => exact (cursorRes_read hc 1 _ (.inl rfl)).answer
  case h_2 => exact (cursorRes_read hc _ _ (.inl rfl)).answer
  case h_3 => exact (cursorRes_peekBitsMSB hc _).answer
  case h_4 => exact (cursorRes_read hc _ _ (.inl rfl)).answer
  case h_5 => exact CursorRes.answerUnit (skipBits_sat (fun h => ⟨_, Nat.le_add_right _ _, h, rfl⟩) rfl)
  case h_6 =>
    exact CursorRes.answerUnit (.ok (a := ()) ⟨8 * ((s.pos + 7) / 8), by omega, aligned_le_streamEnd hc, alignToByte_eq s⟩)
  case h_7 => exact CursorRes.answerUnit (sat_raise rfl)

end

/-- Settles O35: `skipBits` has one check, and alignment never leaves the stream, whose end is a byte boundary. -/
theorem cursorMoves : Obligations.CursorMoves := by
  unfold Obligations.CursorMoves
  intro s n hc
  have halign := aligned_le_streamEnd hc
  refine ⟨fun h => ?skips, fun h => ?ends, ?aligns⟩
  case skips =>
    have hskip : skipBits n.toNat s = .ok () (s.setPos (s.pos + n.toNat)) := if_neg (Nat.not_lt.mpr h)
    refine ⟨respondFree false (s.setPos (s.pos + n.toNat)), ?_, rfl⟩
    show (answerUnit (skipBits n.toNat s)).toOutcome = _
    rw [hskip]
    rfl
  case ends =>
    have hskip : skipBits n.toNat s = raise .outOfData s := if_pos h
    refine ⟨respondFree true (errorEntry .outOfData s), ?_, rfl⟩
    show (answerUnit (skipBits n.toNat s)).toOutcome = _
    rw [hskip]
    rfl
  case aligns =>
    have hpos : (s.setPos (8 * ((s.pos + 7) / 8))).pos = 8 * ((s.pos + 7) / 8) := pos_setPos_end halign
    refine ⟨respondFree false (s.setPos (8 * ((s.pos + 7) / 8))), ?_, hpos, by rw [respondFree_pos, hpos]; exact halign, rfl⟩
    rw [← alignToByte_eq]
    rfl

/-- Settles O37: a request moves the cursor forward inside the stream or not at all, and so does an engine step. -/
theorem cursorMonotone : Obligations.CursorMonotone := by
  unfold Obligations.CursorMonotone
  refine ⟨fun s t r hc hexec => ?_, fun s t h hb hin hstep => ?_⟩
  · have hends := exec_decodeBC hc r
    rw [hexec] at hends
    cases hends with
    | moved p e hlo hhi =>
      have hpos : (s.setPos p).pos = p := pos_setPos_end hhi
      show s.pos ≤ (s.setPos p).pos ∧ (s.setPos p).pos ≤ s.streamEnd
      rw [hpos]
      exact ⟨hlo, hhi⟩
    | raised k e => exact ⟨Nat.le_refl _, hc⟩
  · have hadv := h.step_advances hin hstep
    have hend : t.streamEnd = s.streamEnd := by rw [State.streamEnd, hadv.regs]; rfl
    exact ⟨hadv.cursor, hend ▸ hadv.inStream (h.cursor hb)⟩

/-! ## Requests on the huffman_decoder port (R132) -/

/-- The tables of a sound state, and the ROM tables, are well-formed. -/
theorem tableOf_wf {s : State} (hs : Sound s) {tid : BitVec 3} {T : HuffTable} (hT : s.tableOf tid = some T) :
    ∃ n, T.Wf n := by
  unfold State.tableOf at hT
  split at hT
  case h_1 => exact ⟨19, Option.some.inj hT ▸ hs.tableCl⟩
  case h_2 => exact ⟨288, Option.some.inj hT ▸ hs.tableLl⟩
  case h_3 => exact ⟨32, Option.some.inj hT ▸ hs.tableD⟩
  case h_4 => exact ⟨288, Option.some.inj hT ▸ fLL_wf⟩
  case h_5 => exact ⟨32, Option.some.inj hT ▸ fD_wf⟩
  case h_6 => cases hT

/-- Every request on the huffman_decoder port: progress, and of the environment only the response. -/
theorem exec_decodeHT {s : State} (hs : Sound s) (r : BitVec 5) :
    Ends (fun t => ∃ u e, Grows s u ∧ t = { u with env := e }) (fun _ u => Grows s u) (exec (decodeHT r) s) := by
  have hrefl := Grows.refl hs
  dsimp only [decodeHT]
  split
  case h_1 =>
    show Ends _ _ (execHtBuildFixed _ s)
    rw [execHtBuildFixed]
    split
    · exact ends_next ⟨s, s.env, hrefl, rfl⟩
    · exact ends_error hrefl
  case h_2 =>
    show Ends _ _ (execHtBuildFromLengths _ s)
    rw [execHtBuildFromLengths]
    split
    · exact ends_of_sat (grows_build hs _ (lengthVector_length _ _)) (fun _ u hu => ⟨u, u.env, hu, rfl⟩) (fun _ _ hu => hu.1)
    · exact ends_error hrefl
  case h_3 =>
    show Ends _ _ (execHtDecode _ s)
    rw [execHtDecode]
    split
    · rename_i T hT
      obtain ⟨n, hwf⟩ := tableOf_wf hs hT
      refine ends_of_sat (Q := fun _ u => Grows s u) (P := fun _ t => ∃ u e, Grows s u ∧ t = { u with env := e })
        (sat_bind (sat_mono (grows_decodeSymbol hs hwf) (fun x u hu => ?_) (fun _ _ hu => hu.1) (fun _ h => h)))
        (fun _ _ h => h) (fun _ _ h => h)
      exact .ok ⟨u, _, hu, rfl⟩
    · exact ends_error hrefl
  case h_4 => exact ends_error hrefl

/-! ## The host -/

section
variable {s : State}

/-- A register store reaches none of what the invariant asks outside BUSY, and does nothing while BUSY (R305). -/
theorem Inv.hostRegStore (h : Inv s) (offset : Nat) (v : Word) : Inv (Machine.hostRegStore offset v s) := by
  by_cases hb : s.phase.busy = true
  · rw [hostRegStore_busy offset v hb]
    exact h
  have hnotRow : s.phase ≠ .defilterRow := fun hp => hb (by rw [hp]; rfl)
  have hnotStage : ¬(s.phase = .defilterStart ∨ s.phase = .defilterRow) := by
    rintro (hp | hp) <;> exact hb (by rw [hp]; rfl)
  have hnotBefore : ¬ s.phase.beforeRows = true := fun hp => hb (Bool.and_eq_true _ _ ▸ hp).1
  rw [hostRegStore_frame]
  exact
    { h with
      cursor := fun hb' => absurd hb' hb
      input := fun hb' => absurd hb' hb
      geometry := fun hb' => absurd hb' hb
      stage := fun hp => absurd hp hnotStage
      beforeRows := fun hp => absurd hp hnotBefore
      rows := fun hp => absurd hp hnotRow }

/-- Every command word (R300 to R303) leaves a good block good. -/
theorem Inv.exec_decodeCtrl (h : Inv s) (w : Word) : ∃ t, exec (decodeCtrl w) s = .next t ∧ Inv t := by
  rw [decodeCtrl_bits]
  split
  · by_cases hb : s.phase.busy = true
    · exact ⟨_, exec_ctrlAbort_busy w hb, h.raised _⟩
    · exact ⟨_, exec_ctrlAbort_idle w (Bool.eq_false_iff.mpr hb), h⟩
  split
  · by_cases hend : s.phase = .done ∨ s.phase = .error
    · exact ⟨_, exec_ctrlClear_ended w hend, h.clear⟩
    · exact ⟨_, exec_ctrlClear_ignored w hend, h⟩
  split
  · rw [exec_ctrlStart]
    by_cases hb : s.phase.busy = true
    · exact ⟨s, by rw [startCommand_busy hb, toOutcome_ok], h⟩
    · obtain ⟨hstart, hinv⟩ | ⟨hstart, hinv⟩ := h.startCommand (Bool.eq_false_iff.mpr hb)
      · exact ⟨_, by rw [hstart, toOutcome_ok], hinv⟩
      · exact ⟨_, by rw [hstart, toOutcome_raise], hinv⟩
  · exact ⟨s, exec_ctrlNone w s, h⟩

/-! ## Host memory (R93, R101, R306) -/

/-- A read inside the space gives the written byte or a draw, and changes nothing else. -/
theorem hostMemRead_eq {m : HostMem} {a : Nat} (ha : a < s.sizeOf m.space) : ∃ b : Byte, ∃ d : Nat,
    hostMemRead m a s = .next { s with env := { s.env with hostData := b.setWidth 32, draws := d } } := by
  rw [hostMemRead, if_neg (Nat.not_le.mpr ha)]
  split
  · exact ⟨_, s.env.draws, rfl⟩
  · exact ⟨_, s.env.draws + 1, rfl⟩

/-- A write to IN while not BUSY. -/
theorem hostMemWrite_in {a : Nat} {v : Byte} (ha : a < s.params.inCap) (hb : s.phase.busy = false) :
    hostMemWrite .inMem a v s = .next (s.setMemory .inMem (Memory.write s.mem.inMem a v)) := by
  have howns : ¬ s.hostOwns = false := by rw [State.hostOwns_eq, hb]; decide
  rw [hostMemWrite, if_neg (Nat.not_le.mpr ha), if_neg howns]

theorem hostMemWrite_busy {a : Nat} {v : Byte} (ha : a < s.params.inCap) (hb : s.phase.busy = true) :
    hostMemWrite .inMem a v s = .next s := by
  have howns : s.hostOwns = false := by rw [State.hostOwns_eq, hb]; rfl
  rw [hostMemWrite, if_neg (Nat.not_le.mpr ha), if_pos howns]

/-- The byte is stored, and every other byte stays. -/
theorem byteAt_write_inMem (a : Nat) (v : Byte) (sp : MemSpace) (x : Nat) :
    (s.setMemory .inMem (Memory.write s.mem.inMem a v)).byteAt sp x = if sp = .inMem ∧ x = a then v else s.byteAt sp x := by
  cases sp
  case inMem => by_cases hx : x = a <;> simp [State.byteAt, read?_write, State.memory, State.setMemory, hx]
  all_goals rfl

theorem Inv.write_inMem (h : Inv s) {a : Nat} (ha : a < s.params.inCap) (v : Byte) :
    Inv (s.setMemory .inMem (Memory.write s.mem.inMem a v)) :=
  { h with
    memories := fun sp => by
      have hok := h.memories sp
      cases sp
      case inMem => exact memoryOk_write v hok ha
      all_goals exact hok }

end

/-- Settles O49: a read that is refused, a written byte or a draw; a write that is refused, ignored or stored. -/
theorem hostMemory : Obligations.HostMemory := by
  unfold Obligations.HostMemory
  constructor
  · rintro s u m a ts hin rfl
    have hstep : step s = hostMemRead m a (s.withInputs ts) := step_turn hin
    rw [hstep]
    refine ⟨fun ha => if_pos ha, fun ha => ?some, fun ha hb hwritten => ?written⟩
    case some =>
      obtain ⟨b, d, hread⟩ := hostMemRead_eq (s := s.withInputs ts) ha
      refine ⟨_, hread, rfl, ?_⟩
      rw [BitVec.toNat_setWidth_of_le (by decide)]
      exact b.isLt
    case written => exact hostMemRead_hostOwns (s := s.withInputs ts) (by rw [State.hostOwns_eq]; exact congrArg not hb) ha hwritten
  · rintro s u m a v ts hin rfl
    have hstep : step s = hostMemWrite m a v (s.withInputs ts) := step_turn hin
    rw [hstep]
    refine ⟨fun hm => ?output, ?_, ?_, ?_⟩
    case output => cases m <;> first | exact absurd rfl hm | rfl
    all_goals rintro rfl ha
    · exact if_pos ha
    · exact fun hb => hostMemWrite_busy (s := s.withInputs ts) ha hb
    · exact fun hb => ⟨_, hostMemWrite_in (s := s.withInputs ts) ha hb, rfl, byteAt_write_inMem a v⟩

/-! ## Reset -/

/-- Settles O7: at reset nothing is busy, no byte is listed, and the tables are empty. -/
theorem resetInv : Obligations.ResetInv := by
  unfold Obligations.ResetInv
  intro p hp
  exact
    { params := hp
      cursor := fun hb => Bool.noConfusion hb
      input := fun hb => Bool.noConfusion hb
      output := Nat.zero_le _
      pixels := Nat.zero_le _
      geometry := fun hb _ => Bool.noConfusion hb
      stage := fun hp => by rcases hp with hp | hp <;> exact Phase.noConfusion hp
      beforeRows := fun hp => Bool.noConfusion hp
      rows := fun hp => Phase.noConfusion hp
      errCode := ⟨fun hne => absurd rfl hne, fun hp => Phase.noConfusion hp⟩
      errKnown := (show (0 : BitVec 4) ≠ 14 by decide)
      tableCl := empty_wf (by decide)
      tableLl := empty_wf (by decide)
      tableD := empty_wf (by decide)
      cllLength := resetWith_cllLength p
      lensLength := resetWith_lensLength p
      memories := fun sp => by
        rw [resetWith_memory]
        exact ⟨rfl, fun c hc => absurd hc List.not_mem_nil⟩ }

/-- Settles O6: the values are those of R56 by definition, and the reset turn takes all of them but the model's own
schedule and counters (log 20). -/
theorem resetValues : Obligations.ResetValues := by
  unfold Obligations.ResetValues
  refine ⟨fun p => ⟨rfl, BitVec.eq_of_toNat_eq (State.configWord_toNat _), BitVec.eq_of_toNat_eq (State.statusWord_toNat _), rfl, rfl, rfl, rfl, rfl, rfl, rfl, rfl, rfl, rfl, rfl⟩, fun s ts hin => ?_⟩
  have hstep : step s = .next (resetEvent (s.withInputs ts)) := step_turn hin
  exact ⟨_, hstep, rfl, rfl, rfl, rfl, rfl, rfl, rfl, rfl, rfl⟩

/-! ## Every turn -/

/-- From a good state a turn other than a host access the host may not make completes in a good state. -/
theorem Inv.fetchTurn {s : State} (h : Inv s) (t : Turn) (hread : ∀ m a, t = .memRead m a → a < s.sizeOf m.space)
    (hwrite : ∀ m a v, t = .memWrite m a v → m = .inMem ∧ a < s.params.inCap) :
    ∃ u, ran (Machine.fetchTurn t s) = .next u ∧ Inv u := by
  cases t
  case engine =>
    obtain ⟨u, hstep, hc | ⟨e, v, rfl, hr⟩⟩ := engineStep_spec h
    · exact ⟨u, hstep, hc.inv⟩
    · exact ⟨_, hstep, hr.inv⟩
  case regRead offset width => exact ⟨_, rfl, { h with }⟩
  case regWrite offset width v =>
    rw [Machine.fetchTurn]
    split
    · exact ⟨s, rfl, h⟩
    split
    · exact h.exec_decodeCtrl v
    · exact ⟨_, rfl, h.hostRegStore offset v⟩
  case memRead m a =>
    obtain ⟨b, d, hstep⟩ := hostMemRead_eq (hread m a rfl)
    exact ⟨_, hstep, { h with }⟩
  case memWrite m a v =>
    obtain ⟨rfl, ha⟩ := hwrite m a v rfl
    by_cases hb : s.phase.busy = true
    · exact ⟨s, hostMemWrite_busy ha hb, h⟩
    · exact ⟨_, hostMemWrite_in ha (Bool.eq_false_iff.mpr hb), h.write_inMem ha v⟩
  case bcRequest r =>
    rw [Machine.fetchTurn]
    split
    · rename_i hb
      obtain ⟨p, e, hlo, hhi, hexec⟩ | ⟨k, e, hexec⟩ : (∃ p e, s.pos ≤ p ∧ p ≤ s.streamEnd ∧
          exec (decodeBC r) s = .next { s.setPos p with env := e }) ∨
          ∃ k e, exec (decodeBC r) s = .next { errorEntry k s with env := e } := by
        have hends := exec_decodeBC (h.cursor hb) r
        generalize exec (decodeBC r) s = o at hends
        cases hends with
        | moved p e hlo hhi => exact .inl ⟨p, e, hlo, hhi, rfl⟩
        | raised k e => exact .inr ⟨k, e, rfl⟩
        | fault f hf => exact absurd (h.input hb) hf
      · exact ⟨_, hexec, { h.of_grows (grows_setPos (h.sound hb) hlo hhi) with }⟩
      · exact ⟨_, hexec, { h.raised k with }⟩
    · exact ⟨s, rfl, h⟩
  case htRequest r lens =>
    rw [Machine.fetchTurn]
    split
    · rename_i hb
      have hlens : Inv { s with env := { s.env with portLens := lens } } := { h with }
      obtain ⟨t, hexec, ⟨u, e, hg, rfl⟩ | ⟨e, u, rfl, hg⟩⟩ := exec_decodeHT (hlens.sound hb) r
      · exact ⟨_, hexec, { hlens.of_grows hg with }⟩
      · exact ⟨_, hexec, (hlens.of_grows hg).raised e⟩
    · exact ⟨s, rfl, h⟩
  case reset => exact ⟨_, rfl, { resetInv s.params h.params with }⟩

/-- A step is the engine's or a turn's. -/
theorem Inv.step {s : State} (h : Inv s) (hread : ∀ m a ts, s.env.inputs = .memRead m a :: ts → a < s.sizeOf m.space)
    (hwrite : ∀ m a v ts, s.env.inputs = .memWrite m a v :: ts → m = .inMem ∧ a < s.params.inCap) :
    ∃ u, Machine.step s = .next u ∧ Inv u := by
  cases hin : s.env.inputs with
  | nil =>
    obtain ⟨u, hstep, -⟩ := engineStep_spec h
    rw [← step_engine hin] at hstep
    exact ⟨u, hstep, h.step_inv hin hstep⟩
  | cons t ts =>
    have hrest : Inv (s.withInputs ts) := { h with }
    obtain ⟨u, hran, hinv⟩ := hrest.fetchTurn t (fun m a ht => hread m a ts (ht ▸ hin))
      (fun m a v ht => hwrite m a v ts (ht ▸ hin))
    exact ⟨u, (step_turn hin).trans hran, hinv⟩

/-- Settles O9: the two premises are the two kinds of turn that a model refuses. -/
theorem noFault : Obligations.NoFault := by
  unfold Obligations.NoFault
  intro s h hread hwrite
  obtain ⟨t, hstep, -⟩ := h.step hread hwrite
  exact ⟨t, hstep⟩

/-- Settles O8: a step that answers a next state is no refused host access, and every other keeps the invariant. -/
theorem stepKeepsInv : Obligations.StepKeepsInv := by
  unfold Obligations.StepKeepsInv
  intro s t h hstep
  have hread : ∀ m a ts, s.env.inputs = .memRead m a :: ts → a < s.sizeOf m.space := by
    intro m a ts hin
    refine Nat.lt_of_not_le fun ha => ?_
    rw [(hostMemory.1 s _ m a ts hin rfl).1 ha] at hstep
    cases hstep
  have hwrite : ∀ m a v ts, s.env.inputs = .memWrite m a v :: ts → m = .inMem ∧ a < s.params.inCap := by
    intro m a v ts hin
    obtain ⟨houtput, hbeyond, -⟩ := hostMemory.2 s _ m a v ts hin rfl
    by_cases hm : m = .inMem
    · refine ⟨hm, Nat.lt_of_not_le fun ha => ?_⟩
      rw [hbeyond hm ha] at hstep
      cases hstep
    · rw [houtput hm] at hstep
      cases hstep
  obtain ⟨u, hu, hinv⟩ := h.step hread hwrite
  rw [hstep] at hu
  exact Host.Outcome.next.inj hu ▸ hinv

/-! ## P_ERROR (R321, R332) -/

/-- What P_ERROR holds: its phase, what error entry recorded, the cursor, BLOCK_COUNT and DBUF_LEN. -/
structure SameRecord (s t : State) : Prop where
  phase : t.phase = s.phase
  err : t.err = s.err
  cur : t.cur = s.cur
  blockCount : t.regs.blockCount = s.regs.blockCount
  dbufLen : t.regs.dbufLen = s.regs.dbufLen

theorem SameRecord.hostRegStore (offset : Nat) (v : Word) (s : State) : SameRecord s (Machine.hostRegStore offset v s) := by
  rw [hostRegStore_frame]
  exact ⟨rfl, rfl, rfl, rfl, rfl⟩

/-- A command that is neither CLEAR nor START does nothing in P_ERROR. -/
theorem exec_decodeCtrl_of_error {s : State} (hp : s.phase = .error) {w : Word}
    (hw : w.getLsbD 1 = true ∨ (w.getLsbD 2 = false ∧ w.getLsbD 0 = false)) : exec (decodeCtrl w) s = .next s := by
  by_cases h1 : w.getLsbD 1 = true
  · rw [decodeCtrl_abort h1, exec_ctrlAbort_idle w (by rw [hp]; rfl)]
  · obtain ⟨h2, h0⟩ := hw.resolve_left h1
    rw [decodeCtrl_none (Bool.eq_false_iff.mpr h1) h2 h0, exec_ctrlNone]

/-- In P_ERROR a turn that is no CLEAR, START or reset keeps what error entry recorded. -/
theorem sameRecord_of_turn {s t : State} (hp : s.phase = .error) {u : Turn} (hu : u.leavesError = false)
    (hstep : ran (fetchTurn u s) = .next t) : SameRecord s t := by
  have hb : ¬ s.phase.busy = true := by rw [hp]; decide
  have hself : ∀ {x : State}, ran (.over (.next s)) = .next x → SameRecord s x := fun hx =>
    Host.Outcome.next.inj hx ▸ ⟨rfl, rfl, rfl, rfl, rfl⟩
  cases u
  case engine =>
    refine hself (hstep.symm.trans ?_).symm
    simp only [fetchTurn, fetchEngine, hp]
  case regRead offset width => exact Host.Outcome.next.inj hstep ▸ ⟨rfl, rfl, rfl, rfl, rfl⟩
  case regWrite offset width v =>
    by_cases hacc : regAccess offset width = false
    · rw [fetchTurn, if_pos hacc] at hstep
      exact hself hstep
    by_cases h0 : offset = 0
    · subst h0
      rw [fetchTurn, if_neg hacc, if_pos rfl] at hstep
      have hcmd : v.getLsbD 1 = true ∨ (v.getLsbD 2 = false ∧ v.getLsbD 0 = false) := by
        have hword : regAccess 0 width = true := eq_true_of_ne_false hacc
        simp only [Turn.leavesError, hword, decide_true, Bool.true_and] at hu
        rcases Bool.eq_false_or_eq_true (v.getLsbD 1) with h1 | h1
        · exact .inl h1
        · rw [h1] at hu
          exact .inr (by simpa using hu)
      exact hself ((exec_decodeCtrl_of_error hp hcmd).symm.trans hstep)
    · rw [fetchTurn, if_neg hacc, if_neg h0] at hstep
      exact Host.Outcome.next.inj hstep ▸ SameRecord.hostRegStore offset v s
  case memRead m a =>
    replace hstep : hostMemRead m a s = .next t := hstep
    by_cases ha : a < s.sizeOf m.space
    · obtain ⟨b, d, hread⟩ := hostMemRead_eq ha
      rw [hread] at hstep
      exact Host.Outcome.next.inj hstep ▸ ⟨rfl, rfl, rfl, rfl, rfl⟩
    · rw [hostMemRead, if_pos (Nat.le_of_not_lt ha)] at hstep
      cases hstep
  case memWrite m a v =>
    cases m
    case inMem =>
      by_cases ha : a < s.params.inCap
      · have hwrite := hostMemWrite_in (v := v) ha (Bool.eq_false_iff.mpr hb)
        exact Host.Outcome.next.inj (hwrite.symm.trans hstep) ▸ ⟨rfl, rfl, rfl, rfl, rfl⟩
      · have hwrite : hostMemWrite .inMem a v s = .refused .hostAddress := if_pos (Nat.le_of_not_lt ha)
        cases hwrite.symm.trans hstep
    all_goals cases hstep
  case bcRequest r =>
    rw [fetchTurn, if_neg hb] at hstep
    exact hself hstep
  case htRequest r lens =>
    rw [fetchTurn, if_neg hb] at hstep
    exact hself hstep
  case reset => cases hu

/-- Settles O54: the engine has no step there, and every turn but the three that leave it keeps the record. -/
theorem errorIsFinal : Obligations.ErrorIsFinal := by
  unfold Obligations.ErrorIsFinal
  intro s hp
  have hengine (hin : s.env.inputs = []) : step s = .next s := step_hostOwns (by rw [State.hostOwns_eq, hp]; rfl) hin
  refine ⟨hengine, fun w ts hin h1 => ?_, fun t hleave hstep => ?_⟩
  · rw [step_ctrlWrite hin]
    exact exec_decodeCtrl_of_error (s := s.withInputs ts) hp (.inl h1)
  · cases hin : s.env.inputs with
    | nil =>
      rw [hengine hin] at hstep
      obtain rfl := Host.Outcome.next.inj hstep
      exact ⟨hp, rfl, rfl, rfl, rfl⟩
    | cons u ts =>
      obtain ⟨hphase, herr, hcur, hcount, hlen⟩ :=
        sameRecord_of_turn (s := s.withInputs ts) hp (hleave u ts hin) ((step_turn hin).symm.trans hstep)
      exact ⟨hphase.trans hp, herr, hcur, hcount, hlen⟩

end Sys2Proof.Machine
end

section
/-! PROOFS. Table construction (41_huffman_decoder.md R180 to R182): a built table is canonical, and what the
huffman_decoder port makes of it (30_encoding.md R132). -/

namespace Sys2Proof.Machine

/-! ## The least and the greatest length with a code -/

theorem minLenOf_spec (cs : List Nat) : ∀ L, (minLenOf L cs = 0 ∧ ∀ k, cs.getD k 0 = 0) ∨
    ∃ k, k < cs.length ∧ minLenOf L cs = L + k ∧ 0 < cs.getD k 0 ∧ ∀ j, j < k → cs.getD j 0 = 0 := by
  induction cs with
  | nil => exact fun L => .inl ⟨rfl, fun k => rfl⟩
  | cons c cs ih =>
    intro L
    by_cases hc : 0 < c
    · exact .inr ⟨0, by simp, if_pos hc, hc, fun j hj => absurd hj (Nat.not_lt_zero j)⟩
    have hc0 : c = 0 := Nat.eq_zero_of_not_pos hc
    rw [minLenOf, if_neg hc]
    obtain ⟨hmin, hnone⟩ | ⟨k, hk, hmin, hpos, hbelow⟩ := ih (L + 1)
    · refine .inl ⟨hmin, fun k => ?_⟩
      cases k with
      | zero => exact hc0
      | succ k => exact hnone k
    · refine .inr ⟨k + 1, Nat.succ_lt_succ hk, by omega, hpos, fun j hj => ?_⟩
      cases j with
      | zero => exact hc0
      | succ j => exact hbelow j (Nat.lt_of_succ_lt_succ hj)

theorem maxLenOf_spec (cs : List Nat) : ∀ L, 1 ≤ L → (maxLenOf L cs = 0 ∧ ∀ k, cs.getD k 0 = 0) ∨
    ∃ k, k < cs.length ∧ maxLenOf L cs = L + k ∧ 0 < cs.getD k 0 ∧ ∀ j, k < j → cs.getD j 0 = 0 := by
  induction cs with
  | nil => exact fun L _ => .inl ⟨rfl, fun k => rfl⟩
  | cons c cs ih =>
    intro L hL
    rw [maxLenOf]
    obtain ⟨hmax, hnone⟩ | ⟨k, hk, hmax, hpos, habove⟩ := ih (L + 1) (by omega)
    · rw [if_pos hmax]
      by_cases hc : 0 < c
      · refine .inr ⟨0, by simp, if_pos hc, hc, fun j hj => ?_⟩
        obtain ⟨j, rfl⟩ : ∃ i, j = i + 1 := ⟨j - 1, by omega⟩
        exact hnone j
      · refine .inl ⟨if_neg hc, fun k => ?_⟩
        cases k with
        | zero => exact Nat.eq_zero_of_not_pos hc
        | succ k => exact hnone k
    · rw [if_neg (by omega)]
      refine .inr ⟨k + 1, Nat.succ_lt_succ hk, by omega, hpos, fun j hj => ?_⟩
      obtain ⟨j, rfl⟩ : ∃ i, j = i + 1 := ⟨j - 1, by omega⟩
      exact habove j (Nat.lt_of_succ_lt_succ hj)

/-! ## Counting symbols -/

/-- A default is not looked at inside the list (core Lean has no such lemma). -/
theorem getD_eq_getElem_of_lt {α : Type} {xs : List α} {i : Nat} (d : α) (h : i < xs.length) : xs.getD i d = xs[i] := by
  rw [List.getD_eq_getElem?_getD, List.getElem?_eq_getElem h, Option.getD_some]

/-- And it is the answer past the end. -/
theorem getD_of_length_le {α : Type} {xs : List α} {i : Nat} (d : α) (h : xs.length ≤ i) : xs.getD i d = d := by
  rw [List.getD_eq_getElem?_getD, List.getElem?_eq_none h, Option.getD_none]

theorem getD_append_of_lt {α : Type} {xs : List α} {i : Nat} (ys : List α) (d : α) (h : i < xs.length) :
    (xs ++ ys).getD i d = xs.getD i d := by
  rw [List.getD_eq_getElem?_getD, List.getD_eq_getElem?_getD, List.getElem?_append_left h]

theorem getD_append_of_le {α : Type} {xs : List α} {i : Nat} (ys : List α) (d : α) (h : xs.length ≤ i) :
    (xs ++ ys).getD i d = ys.getD (i - xs.length) d := by
  rw [List.getD_eq_getElem?_getD, List.getD_eq_getElem?_getD, List.getElem?_append_right h]

/-- Two counts over the same list, added place by place (core Lean has no such lemma). -/
theorem sum_map_add_nat {α : Type} (f g : α → Nat) (xs : List α) :
    (xs.map fun x => f x + g x).sum = (xs.map f).sum + (xs.map g).sum := by
  induction xs with
  | nil => rfl
  | cons x xs ih =>
    simp only [List.map_cons, List.sum_cons, ih]
    omega

/-- The counts add up to the number of symbols with a length. -/
theorem sum_countsOf (lens : List (BitVec 4)) : (countsOf lens).sum = lens.countP (fun l => l.toNat != 0) := by
  induction lens with
  | nil => rfl
  | cons l ls ih =>
    have hone : ∀ l : BitVec 4, (codeLengths.map fun L => if l.toNat = L then 1 else 0).sum =
        if (l.toNat != 0) = true then 1 else 0 := by decide
    have hfun : countOf (l :: ls) = fun L => countOf ls L + if l.toNat = L then 1 else 0 := funext (countOf_cons l ls)
    rw [countsOf] at ih
    rw [countsOf, hfun, sum_map_add_nat, hone, ih, List.countP_cons]

/-- The k-th symbol of a length: it has that length, and k symbols of that length are below it. -/
theorem symbolsOfLength_getElem? {L : Nat} (lens : List (BitVec 4)) : ∀ {s k x : Nat},
    (symbolsOfLength L s lens)[k]? = some x →
      ∃ i, x = s + i ∧ i < lens.length ∧ (lens.getD i 0).toNat = L ∧ countBelow lens L i = k := by
  induction lens with
  | nil =>
    intro s k x hx
    simp [symbolsOfLength] at hx
  | cons l ls ih =>
    intro s k x hx
    rw [symbolsOfLength] at hx
    by_cases hl : l.toNat = L
    · rw [if_pos hl] at hx
      cases k with
      | zero => exact ⟨0, by simpa using hx.symm, by simp, hl, rfl⟩
      | succ k =>
        obtain ⟨i, rfl, hi, hlen, hbelow⟩ := ih hx
        refine ⟨i + 1, by omega, Nat.succ_lt_succ hi, hlen, ?_⟩
        rw [countBelow, List.take_succ_cons, List.countP_cons_of_pos (by simpa using hl)]
        exact congrArg (· + 1) hbelow
    · rw [if_neg hl] at hx
      obtain ⟨i, rfl, hi, hlen, hbelow⟩ := ih hx
      refine ⟨i + 1, by omega, Nat.succ_lt_succ hi, hlen, ?_⟩
      rw [countBelow, List.take_succ_cons, List.countP_cons_of_neg (by simpa using hl)]
      exact hbelow

/-! ## A built table, field by field -/

section
variable {t : HuffTable} {lens : List (BitVec 4)}

theorem Built.minLen (h : Built t lens) : t.minLen.toNat = minLenOf 1 (countsOf lens) := by
  have hle : minLenOf 1 (countsOf lens) < 2 ^ 4 := by
    obtain ⟨hmin, -⟩ | ⟨k, hk, hmin, -, -⟩ := minLenOf_spec (countsOf lens) 1
    · omega
    · rw [countsOf_length] at hk
      omega
  obtain ⟨old, rfl⟩ := h.eq
  exact (BitVec.toNat_ofNat _ _).trans (Nat.mod_eq_of_lt hle)

theorem Built.used_ne_zero (h : Built t lens) (hu : t.used ≠ 0) : ∃ k, k < 15 ∧ 0 < (countsOf lens).getD k 0 := by
  refine Classical.byContradiction fun hnone => ?_
  refine hu (BitVec.eq_of_toNat_eq (h.used.trans ?_))
  refine List.sum_eq_zero_iff_forall_eq_nat.mpr fun c hc => ?_
  obtain ⟨k, hk, rfl⟩ := List.mem_iff_getElem.mp hc
  refine Nat.eq_zero_of_not_pos fun hpos => hnone ⟨k, by simpa using hk, ?_⟩
  rwa [List.getD_eq_getElem?_getD, List.getElem?_eq_getElem hk]

/-- The symbol at a place of a length (R182). -/
theorem Built.symbolAt (h : Built t lens) {L k : Nat} (hL : 1 ≤ L ∧ L ≤ 15) (hk : k < atLength t.count L) :
    ∃ x : BitVec 9, t.sym[atLength t.offset L + k]? = some x ∧ x.toNat < lens.length ∧
      (lens.getD x.toNat 0).toNat = L ∧ countBelow lens L x.toNat = k := by
  obtain ⟨j, rfl⟩ : ∃ j, L = j + 1 := ⟨L - 1, by omega⟩
  have hj : j < 15 := by omega
  rw [h.count hj, countsOf_getD lens hj] at hk
  rw [h.offset hj]
  have hplace := sortedSymbols_place lens hj hk
  have hlt : k < (symbolsOfLength (j + 1) 0 lens).length := by rwa [symbolsOfLength_length]
  rw [List.getElem?_eq_getElem hlt] at hplace
  obtain ⟨x, hx, hxlen, hlen, hbelow⟩ := symbolsOfLength_getElem? lens (List.getElem?_eq_getElem hlt)
  rw [hx, Nat.zero_add] at hplace
  have hxnat : (BitVec.ofNat 9 x).toNat = x := by
    have := h.size
    rw [BitVec.toNat_ofNat]
    exact Nat.mod_eq_of_lt (by omega)
  have hused : sumTo (countsOf lens) j + k < (countsOf lens).sum := by
    have := sumTo_le_sum (countsOf lens) (j + 1)
    rw [sumTo_succ, countsOf_getD lens hj] at this
    omega
  obtain ⟨old, rfl⟩ := h.eq
  exact ⟨BitVec.ofNat 9 x, by rw [build_sym_lt hused, hplace]; rfl, by rwa [hxnat], by rwa [hxnat], by rwa [hxnat]⟩

end

/-- What the construction gives is canonical (R182). -/
theorem canonical_buildTable (old : HuffTable) {lens : List (BitVec 4)} (hl : lens.length ≤ 320)
    (hK : kraftSum lens ≤ 2 ^ 15) : Canonical (buildTable old lens) old lens := by
  have h : Built (buildTable old lens) lens := ⟨hl, hK, old, rfl⟩
  have hcount : ∀ k, k < 15 → atLength (buildTable old lens).count (k + 1) = (countsOf lens).getD k 0 := fun k => h.count
  refine
    { count := fun L h1 h15 => ?count
      used := h.used.trans (sum_countsOf lens)
      firstOne := ?firstOne
      firstNext := fun L h1 h15 => ?firstNext
      offsetOne := ?offsetOne
      offsetNext := fun L h1 h15 => ?offsetNext
      symbols := fun L k h1 h15 hk => h.symbolAt ⟨h1, h15⟩ hk
      rest := fun i hi => build_sym_ge (h.used ▸ hi)
      emptyLens := fun hu => ?emptyLens
      minLen := fun hu => ?minLen
      maxLen := fun hu => ?maxLen }
  case count =>
    obtain ⟨k, rfl⟩ : ∃ k, L = k + 1 := ⟨L - 1, by omega⟩
    rw [hcount k (by omega), countsOf_getD lens (by omega), countBelow, List.take_length, countOf]
  case firstOne =>
    rw [h.first (k := 0) (by decide)]
    rfl
  case firstNext =>
    obtain ⟨k, rfl⟩ : ∃ k, L = k + 1 := ⟨L - 1, by omega⟩
    rw [h.first (k := k + 1) (by omega), h.first (k := k) (by omega), hcount k (by omega),
      firstsFrom_succ _ _ _ (by rw [countsOf_length]; omega)]
  case offsetOne =>
    rw [h.offset (k := 0) (by decide), sumTo_zero]
  case offsetNext =>
    obtain ⟨k, rfl⟩ : ∃ k, L = k + 1 := ⟨L - 1, by omega⟩
    rw [h.offset (k := k + 1) (by omega), h.offset (k := k) (by omega), hcount k (by omega), sumTo_succ]
  case emptyLens =>
    have hzero : ∀ k, (countsOf lens).getD k 0 = 0 := fun k => by
      have hsum : (countsOf lens).sum = 0 := h.used.symm.trans (by rw [hu]; rfl)
      have hle := sumTo_le_sum (countsOf lens) (k + 1)
      rw [sumTo_succ] at hle
      omega
    refine ⟨BitVec.eq_of_toNat_eq (h.minLen.trans ?_), BitVec.eq_of_toNat_eq (h.maxLen.trans ?_)⟩
    · obtain ⟨hmin, -⟩ | ⟨k, -, -, hpos, -⟩ := minLenOf_spec (countsOf lens) 1
      · exact hmin
      · exact absurd (hzero k) (Nat.ne_of_gt hpos)
    · obtain ⟨hmax, -⟩ | ⟨k, -, -, hpos, -⟩ := maxLenOf_spec (countsOf lens) 1 (Nat.le_refl _)
      · exact hmax
      · exact absurd (hzero k) (Nat.ne_of_gt hpos)
  case minLen =>
    obtain ⟨j, -, hjpos⟩ := h.used_ne_zero hu
    rw [h.minLen]
    obtain ⟨-, hnone⟩ | ⟨k, hk, hmin, hpos, hbelow⟩ := minLenOf_spec (countsOf lens) 1
    · exact absurd (hnone j) (Nat.ne_of_gt hjpos)
    rw [countsOf_length] at hk
    rw [hmin, Nat.add_comm 1 k, hcount k hk]
    refine ⟨Nat.succ_pos k, hpos, fun L h1 hL => ?_⟩
    obtain ⟨i, rfl⟩ : ∃ i, L = i + 1 := ⟨L - 1, by omega⟩
    rw [hcount i (by omega), hbelow i (by omega)]
  case maxLen =>
    obtain ⟨j, -, hjpos⟩ := h.used_ne_zero hu
    rw [h.maxLen]
    obtain ⟨-, hnone⟩ | ⟨k, hk, hmax, hpos, habove⟩ := maxLenOf_spec (countsOf lens) 1 (Nat.le_refl _)
    · exact absurd (hnone j) (Nat.ne_of_gt hjpos)
    rw [countsOf_length] at hk
    rw [hmax, Nat.add_comm 1 k, hcount k hk]
    refine ⟨hpos, fun L hL h15 => ?_⟩
    obtain ⟨i, rfl⟩ : ∃ i, L = i + 1 := ⟨L - 1, by omega⟩
    rw [hcount i (by omega), habove i (by omega)]

end Sys2Proof.Machine
end

section
/-! PROOFS. Table construction through the huffman_decoder port (30_encoding.md R132, 41_huffman_decoder.md R181, R182). -/

namespace Sys2Proof.Machine

section
variable {s : State} {tid : BitVec 3} {k : Slot}

theorem exec_htBuildFromLengths (hk : slotOf tid = some k) :
    exec (.htBuildFromLengths tid) s = (buildFromLengths k (lengthVector k.size s.env.portLens) s).toOutcome := by
  rw [show exec (.htBuildFromLengths tid) s = execHtBuildFromLengths tid s from rfl, execHtBuildFromLengths, hk]

theorem exec_htBuildFromLengths_none (hk : slotOf tid = none) :
    exec (.htBuildFromLengths tid) s = .next (errorEntry .callerError s) := by
  rw [show exec (.htBuildFromLengths tid) s = execHtBuildFromLengths tid s from rfl, execHtBuildFromLengths, hk]
  rfl

theorem buildFromLengths_ok {lens : List (BitVec 4)} (hK : kraftSum lens ≤ 2 ^ 15) :
    buildFromLengths k lens s = .ok () (s.setTable k (buildTable (s.tabs.get k) lens)) := if_neg (by omega)

theorem buildFromLengths_over {lens : List (BitVec 4)} (hK : 2 ^ 15 < kraftSum lens) :
    buildFromLengths k lens s = raise .invalidCodeLengths s := if_pos hK

end

/-- Settles O24: the id names the slot, and what is built there is canonical. -/
theorem buildTable_spec : Obligations.BuildTable := by
  unfold Obligations.BuildTable
  intro s tid n old put hmem hK
  have hbuild : ∀ k, slotOf tid = some k → n = k.size → exec (.htBuildFromLengths tid) s =
      .next (s.setTable k (buildTable (s.tabs.get k) (lengthVector n s.env.portLens))) := by
    rintro k hk rfl
    rw [exec_htBuildFromLengths hk, buildFromLengths_ok hK, toOutcome_ok]
  simp only [List.mem_cons, Prod.mk.injEq, List.not_mem_nil, or_false] at hmem
  obtain ⟨rfl, rfl, rfl, rfl⟩ | ⟨rfl, rfl, rfl, rfl⟩ | ⟨rfl, rfl, rfl, rfl⟩ := hmem
  · exact ⟨_, _, hbuild .cl rfl rfl, rfl, canonical_buildTable _ (by simp) hK, fun _ _ => rfl⟩
  · exact ⟨_, _, hbuild .ll rfl rfl, rfl, canonical_buildTable _ (by simp) hK, fun _ _ => rfl⟩
  · exact ⟨_, _, hbuild .d rfl rfl, rfl, canonical_buildTable _ (by simp) hK, fun _ _ => rfl⟩

/-- Settles O25: the Kraft check comes before any write, and an id of 3 or more names no slot. -/
theorem buildFails : Obligations.BuildFails := by
  unfold Obligations.BuildFails
  intro s tid
  constructor
  · intro n hmem hK
    have hraise : ∀ k, slotOf tid = some k → n = k.size →
        exec (.htBuildFromLengths tid) s = .next (errorEntry .invalidCodeLengths s) := by
      rintro k hk rfl
      rw [exec_htBuildFromLengths hk, buildFromLengths_over hK, toOutcome_raise]
    simp only [List.mem_cons, Prod.mk.injEq, List.not_mem_nil, or_false] at hmem
    obtain ⟨rfl, rfl⟩ | ⟨rfl, rfl⟩ | ⟨rfl, rfl⟩ := hmem
    · exact hraise .cl rfl rfl
    · exact hraise .ll rfl rfl
    · exact hraise .d rfl rfl
  · intro h3
    have hnone : ∀ tid : BitVec 3, 3 ≤ tid.toNat → slotOf tid = none := by decide
    exact exec_htBuildFromLengths_none (hnone tid h3)

/-- Settles O27: buildFixed decides on its id, no id above 4 names a table, and op 3 has no operation. -/
theorem huffmanPort : Obligations.HuffmanPort := by
  unfold Obligations.HuffmanPort
  intro s tid
  have hid : (tid = 3 ∨ tid = 4) ↔ (tid.toNat = 3 ∨ tid.toNat = 4) := by
    rw [← BitVec.toNat_inj, ← BitVec.toNat_inj]
    rfl
  have hfixed : exec (.htBuildFixed tid) s =
      (if tid = 3 ∨ tid = 4 then Res.ok () s else raise .callerError s).toOutcome := rfl
  refine ⟨fun h => ?_, fun h => ?_, fun h5 => ?_, rfl⟩
  · rw [hfixed, if_pos (hid.mpr h), toOutcome_ok]
  · rw [hfixed, if_neg (mt hid.mp h), toOutcome_raise]
  · have hnone : s.tableOf tid = none := by
      obtain h | h | h : tid.toNat = 5 ∨ tid.toNat = 6 ∨ tid.toNat = 7 := by omega
      all_goals simp only [State.tableOf, h]
    rw [show exec (.htDecode tid) s = execHtDecode tid s from rfl, execHtDecode, hnone]
    rfl

end Sys2Proof.Machine
end

section
/-! PROOFS. Canonical codes (41_huffman_decoder.md R180 to R188): every symbol with a length has a code and its code
decodes to it; the first code of a length; the fixed tables. -/

namespace Sys2Proof.Machine

/-! ## The code of a symbol in a built table -/

section
variable {t : HuffTable} {lens : List (BitVec 4)} {s : State}

/-- The places below `used` hold the sorted symbols and nothing else. -/
theorem Built.take_used (h : Built t lens) : t.sym.take t.used.toNat = (sortedSymbols lens).map (BitVec.ofNat 9) := by
  rw [h.used, ← sortedSymbols_length]
  obtain ⟨old, rfl⟩ := h.eq
  exact List.take_left' (List.length_map _)

theorem codeAt_none {i : Nat} : ∀ k L, codeAt t i k L = none → ∀ j, L ≤ j → j < L + k →
    ¬(atLength t.offset j ≤ i ∧ i < atLength t.offset j + atLength t.count j) := by
  intro k
  induction k with
  | zero =>
    intro L _ j h1 h2
    omega
  | succ k ih =>
    intro L h j h1 h2
    rw [codeAt] at h
    split at h
    case isTrue => simp at h
    case isFalse hc =>
      obtain rfl | hj : L = j ∨ L + 1 ≤ j := by omega
      · exact hc
      · exact ih (L + 1) h j hj (by omega)

/-- The lengths' places lie one after the other, so every place below `used` is one of some length. -/
theorem Built.codeAt_ne_none (h : Built t lens) {i : Nat} (hi : i < (countsOf lens).sum) : codeAt t i 15 1 ≠ none := by
  intro hnone
  have hbeyond : ∀ k, k ≤ 15 → sumTo (countsOf lens) k ≤ i := by
    intro k
    induction k with
    | zero => exact fun _ => by simp
    | succ k ih =>
      intro hk
      have hplace := codeAt_none 15 1 hnone (k + 1) (by omega) (by omega)
      rw [h.offset (by omega), h.count (by omega), ← sumTo_succ] at hplace
      have := ih (by omega)
      omega
  have hall := hbeyond 15 (Nat.le_refl _)
  rw [sumTo, List.take_of_length_le (by simp)] at hall
  omega

/-- A symbol with a length has a code. -/
theorem Built.codeOf_ne_none (h : Built t lens) {x : BitVec 9} (hx : x.toNat < lens.length)
    (hlen : (lens.getD x.toNat 0).toNat ≠ 0) : codeOf t x ≠ none := by
  have hmem : x ∈ t.sym.take t.used.toNat := by
    rw [h.take_used]
    exact List.mem_map.mpr ⟨x.toNat, (mem_sortedSymbols lens _).mpr ⟨hx, by omega⟩, by simp⟩
  rw [codeOf]
  split
  case h_1 i hi =>
    refine h.codeAt_ne_none ?_
    rw [List.findIdx?_eq_some_iff_getElem] at hi
    obtain ⟨hlt, -⟩ := hi
    rwa [h.take_used, List.length_map, sortedSymbols_length] at hlt
  case h_2 hnone =>
    have := List.findIdx?_eq_none_iff.mp hnone x hmem
    simp at this

/-- A symbol's code has the symbol's length and is a value of that many bits. -/
theorem Built.codeOf_bounds (h : Built t lens) {x : BitVec 9} {n v : Nat} (hc : codeOf t x = some (n, v)) :
    (lens.getD x.toNat 0).toNat = n ∧ 1 ≤ n ∧ n ≤ 15 ∧ v < 2 ^ n := by
  obtain ⟨i, hsym, h1, h15, hlo, hhi, hv⟩ := codeOf_spec hc
  obtain ⟨y, hy, -, hlen, -⟩ := h.symbolAt (k := i - atLength t.offset n) ⟨h1, h15⟩ (by omega)
  have hxy : x = y := by
    rw [show atLength t.offset n + (i - atLength t.offset n) = i by omega, hsym] at hy
    exact Option.some.inj hy
  have := h.first_add_count h1 h15
  exact ⟨hxy ▸ hlen, h1, h15, by omega⟩

end

/-- Settles O29: the symbol has a place below `used`, a place has a code, and a code decodes to its place's symbol. -/
theorem everySymbolDecodes : Obligations.EverySymbolDecodes := by
  unfold Obligations.EverySymbolDecodes
  intro k old lens sym hsize hK hsym hlen
  have hb : Built (buildTable old lens) lens := ⟨by rw [hsize]; cases k <;> decide, hK, old, rfl⟩
  obtain ⟨⟨n, code⟩, hcode⟩ := Option.ne_none_iff_exists'.mp (hb.codeOf_ne_none (hsize ▸ hsym) hlen)
  obtain ⟨hn, -, -, hlt⟩ := hb.codeOf_bounds hcode
  subst hn
  refine ⟨code, hcode, fun s hf hbits => ?_⟩
  obtain ⟨hfits, hvalue⟩ := streamHas_code hbits hlt
  rw [hb.decode_codeOf hf hcode hfits hvalue, BitVec.ofNat_toNat, BitVec.setWidth_eq]

/-- Settles O28: the first code of a length picks the length's first place, where its least symbol stands. -/
theorem firstCodes : Obligations.FirstCodes := by
  unfold Obligations.FirstCodes
  intro k old lens s L hsize hK hpos h15 hf hfits hvalue
  have hb : Built (buildTable old lens) lens := ⟨by rw [hsize]; cases k <;> decide, hK, old, rfl⟩
  obtain ⟨-, -, hmax⟩ := hb.range h15 hpos
  have h1 : 1 ≤ L := Nat.one_le_iff_ne_zero.mpr fun h0 => by simp [h0, atLength] at hpos
  obtain ⟨x, hx, hxlen, hlen, hbelow⟩ := hb.symbolAt ⟨h1, h15⟩ hpos
  have hm : (buildTable old lens).MatchesAt s L := ⟨Nat.le_of_eq hvalue.symm, by omega⟩
  have hplace : (buildTable old lens).sym[(buildTable old lens).placeAt s L]? = some x := by
    rwa [HuffTable.placeAt, hvalue, Nat.sub_self]
  refine ⟨x, hx, hb.decode hf h15 (by omega) hm hplace, hlen, fun y hy hylen => ?_⟩
  have hymem : lens.getD y 0 ∈ lens.take x.toNat := by
    rw [getD_eq_getElem_of_lt _ (by omega)]
    exact List.mem_take_iff_getElem.mpr ⟨y, by omega, rfl⟩
  exact List.countP_eq_zero.mp hbelow _ hymem (beq_iff_eq.mpr hylen)

/-! ## The fixed tables -/

/-- The code of each D symbol in F_D is its value in five bits (R184). -/
theorem codeOf_fD : ∀ d, d < 32 → codeOf fD (BitVec.ofNat 9 d) = some (5, d) := by decide +kernel

/-- Settles O30: five bits are the code of the symbol of their value. -/
theorem fixedDistance : Obligations.FixedDistance := by
  unfold Obligations.FixedDistance
  intro s hf _
  constructor
  · intro hfits
    have hlt : s.msbValue s.pos 5 < 2 ^ 5 := msbValue_lt s s.pos 5
    have hx : (BitVec.ofNat 9 (s.msbValue s.pos 5)).toNat = s.msbValue s.pos 5 := by
      rw [BitVec.toNat_ofNat]
      omega
    refine ⟨BitVec.ofNat 9 (s.msbValue s.pos 5), hx, fD_built.decode_codeOf hf (codeOf_fD _ hlt) hfits rfl, ?_⟩
    rw [readBitsMSB_eq hf (by decide) hfits]
    exact congrArg (Res.ok · _) (BitVec.eq_of_toNat_eq (by rw [msbWord s _ (by decide), BitVec.toNat_setWidth, hx]; omega))
  · intro hend
    exact ⟨decodeSymbol_short hf (by decide) (Nat.le_refl 5) (Nat.le_refl 5) hend fun j h1 h2 => absurd h2 (Nat.not_lt.mpr h1),
      readBitsMSB_end (by decide) hend⟩

/-- The code of each LL symbol in F_LL (R121). -/
theorem codeOf_fLL : ∀ sym, sym < 288 → codeOf fLL (BitVec.ofNat 9 sym) =
    if sym < 144 then some (8, 0x30 + sym) else if sym < 256 then some (9, 0x190 + (sym - 144))
    else if sym < 280 then some (7, sym - 256) else some (8, 0xC0 + (sym - 280)) := by decide +kernel

/-- Settles O31: closed facts, each evaluated once. -/
theorem fixedTables : Obligations.FixedTables := by
  unfold Obligations.FixedTables
  exact ⟨fLL_eq, fD_eq, codeOf_fLL⟩

/-- The fixed LL code has lengths 7, 8 and 9, the codes of each in one range (R183). -/
theorem fLL_matchesAt (s : State) : (fLL.MatchesAt s 7 ↔ s.msbValue s.pos 7 < 24) ∧
    (fLL.MatchesAt s 8 ↔ 48 ≤ s.msbValue s.pos 8 ∧ s.msbValue s.pos 8 < 200) ∧
    (fLL.MatchesAt s 9 ↔ 400 ≤ s.msbValue s.pos 9 ∧ s.msbValue s.pos 9 < 512) :=
  ⟨and_iff_right (Nat.zero_le _), Iff.rfl, Iff.rfl⟩

theorem decodeSymbol_fLL_hit {s : State} (hf : FitsIn s) {L : Nat} (hL : 7 ≤ L ∧ L ≤ 9) (hfits : s.pos + L ≤ s.streamEnd)
    (hm : fLL.MatchesAt s L) : ∃ x L, decodeSymbol fLL s = .ok (x, L) (s.setPos (s.pos + L.toNat)) ∧ 7 ≤ L.toNat ∧ L.toNat ≤ 9 := by
  have hplace := List.getElem?_eq_getElem (place_lt fLL_wf (by omega) hm)
  have hLnat : (BitVec.ofNat 4 L).toNat = L := by rw [BitVec.toNat_ofNat]; omega
  exact ⟨_, BitVec.ofNat 4 L, by rw [hLnat]; exact fLL_built.decode hf (by omega) hfits hm hplace, by rwa [hLnat]⟩

theorem decodeSymbol_fLL_short {s : State} (hf : FitsIn s) {L : Nat} (hL : 7 ≤ L ∧ L ≤ 9) (hend : s.streamEnd < s.pos + L)
    (hbefore : ∀ j, 7 ≤ j → j < L → s.pos + j ≤ s.streamEnd ∧ ¬ fLL.MatchesAt s j) :
    decodeSymbol fLL s = raise .outOfData s :=
  decodeSymbol_short hf (by decide) hL.1 hL.2 hend hbefore

/-- Settles O32: 7 bits below 24 are a code, else 8 bits below 200, else 9 bits, whatever they are. -/
theorem fixedCodeComplete : Obligations.FixedCodeComplete := by
  unfold Obligations.FixedCodeComplete
  intro s hf _
  obtain ⟨h7, h8, h9⟩ := fLL_matchesAt s
  have e8 : s.msbValue s.pos 8 = 2 * s.msbValue s.pos 7 + (s.streamBit (s.pos + 7)).toNat := rfl
  have e9 : s.msbValue s.pos 9 = 2 * s.msbValue s.pos 8 + (s.streamBit (s.pos + 8)).toNat := rfl
  by_cases end7 : s.streamEnd < s.pos + 7
  · exact .inr (decodeSymbol_fLL_short hf ⟨by decide, by decide⟩ end7 fun j _ _ => by omega)
  by_cases m7 : fLL.MatchesAt s 7
  · exact .inl (decodeSymbol_fLL_hit hf ⟨by decide, by decide⟩ (by omega) m7)
  by_cases end8 : s.streamEnd < s.pos + 8
  · refine .inr (decodeSymbol_fLL_short hf ⟨by decide, by decide⟩ end8 fun j _ _ => ?_)
    obtain rfl : j = 7 := by omega
    exact ⟨by omega, m7⟩
  by_cases m8 : fLL.MatchesAt s 8
  · exact .inl (decodeSymbol_fLL_hit hf ⟨by decide, by decide⟩ (by omega) m8)
  by_cases end9 : s.streamEnd < s.pos + 9
  · refine .inr (decodeSymbol_fLL_short hf ⟨by decide, by decide⟩ end9 fun j _ _ => ?_)
    obtain rfl | rfl : j = 7 ∨ j = 8 := by omega
    · exact ⟨by omega, m7⟩
    · exact ⟨by omega, m8⟩
  have hlt : s.msbValue s.pos 9 < 2 ^ 9 := msbValue_lt s s.pos 9
  exact .inl (decodeSymbol_fLL_hit hf ⟨by decide, by decide⟩ (by omega) (h9.mpr (by omega)))

end Sys2Proof.Machine
end

section
/-! PROOFS. The code-length sequence (42_deflate_blocks.md R208): one length, and where the loop ends. -/

namespace Sys2Proof.Machine

/-- Settles O15: one place of LENS, which `fillLens_getD` reads entry by entry. -/
theorem clLengths : Obligations.ClLengths := by
  unfold Obligations.ClLengths
  intro s l hlens hroom hcount
  have hnl : BitVec.ofNat 9 (s.hdr.nl.toNat + 1) = s.hdr.nl + 1 :=
    BitVec.eq_of_toNat_eq (by rw [BitVec.toNat_ofNat, BitVec.toNat_add]; rfl)
  refine ⟨pushLengths l 1 s, rfl, ?_, ?_, fun i _ => ?_, fun _ _ => rfl⟩
  · rw [← hnl]
    rfl
  · rw [pushLengths_lens, fillLens_length, hlens]
  · rw [pushLengths_lens, fillLens_getD l 1 _ _ i (by omega)]
    exact ite_congr (propext (by omega)) (fun _ => rfl) fun _ => rfl

/-- From s to t: a symbol of the sequence has filled at least one length, none past HLIT + HDIST. -/
structure Fills (s t : State) : Prop where
  frame : t = { s with cur := t.cur, hdr := { s.hdr with lens := t.hdr.lens, nl := t.hdr.nl } }
  more : s.hdr.nl.toNat < t.hdr.nl.toNat
  room : t.hdr.nl.toNat ≤ s.lengthCount

section
variable {s t : State} {v : BitVec 4} {c n : Nat}

theorem pushLengths_nl_toNat (hcount : s.lengthCount ≤ 320) (hc : s.hdr.nl.toNat + c ≤ s.lengthCount) :
    (pushLengths v c s).hdr.nl.toNat = s.hdr.nl.toNat + c := by
  rw [pushLengths, BitVec.toNat_ofNat]
  omega

theorem fills_pushLengths (hcount : s.lengthCount ≤ 320) (h1 : 1 ≤ c) (hc : s.hdr.nl.toNat + c ≤ s.lengthCount) :
    Fills s (pushLengths v c s) := by
  have hnl := pushLengths_nl_toNat (v := v) hcount hc
  exact ⟨rfl, by omega, by omega⟩

theorem repeatLength_fills (hcount : s.lengthCount ≤ 320) (h1 : 1 ≤ c) (h : repeatLength v c s = .ok () t) : Fills s t := by
  by_cases hc : s.hdr.nl.toNat + c ≤ s.lengthCount
  · rw [repeatLength_eq hc] at h
    cases h
    exact fills_pushLengths hcount h1 hc
  · rw [repeatLength_over (by omega)] at h
    cases h

theorem Fills.of_setPos {p : Nat} (h : Fills (s.setPos p) t) : Fills s t := ⟨h.frame, h.more, h.room⟩

theorem readBitsLSB_ok {w : Word} (h : readBitsLSB n s = .ok w t) : t = s.setPos (s.pos + n) := by
  obtain ⟨_, u, hcheck, hread⟩ := bind_eq_ok.mp h
  have hu : u = s := by
    rw [checkRead] at hcheck
    split at hcheck
    · cases hcheck
    split at hcheck
    · cases hcheck
    split at hcheck
    · cases hcheck
    · cases hcheck
      rfl
  subst hu
  cases hread
  rfl

/-- Every symbol of the sequence fills at least one length (R208 to R212). -/
theorem clSymbol_fills {x : BitVec 9} (hcount : s.lengthCount ≤ 320) (hroom : s.hdr.nl.toNat < s.lengthCount)
    (h : clSymbol x s = .ok () t) : Fills s t := by
  have hrepeat : ∀ {n p c v}, repeatLength v c (s.setPos p) = .ok () t → n ≤ c → 1 ≤ n → Fills s t :=
    fun {_ p _ _} h hc h1 => (repeatLength_fills (s := s.setPos p) hcount (by omega) h).of_setPos
  rw [clSymbol] at h
  split at h
  · cases h
    exact fills_pushLengths hcount (Nat.le_refl 1) (by omega)
  split at h
  · obtain ⟨e, u, hread, hrest⟩ := bind_eq_ok.mp h
    rw [readBitsLSB_ok hread] at hrest
    split at hrest
    · cases hrest
    · exact hrepeat hrest (Nat.le_add_left 3 _) (by decide)
  split at h
  · obtain ⟨e, u, hread, hrest⟩ := bind_eq_ok.mp h
    rw [readBitsLSB_ok hread] at hrest
    exact hrepeat hrest (Nat.le_add_left 3 _) (by decide)
  split at h
  · obtain ⟨e, u, hread, hrest⟩ := bind_eq_ok.mp h
    rw [readBitsLSB_ok hread] at hrest
    exact hrepeat hrest (Nat.le_add_left 11 _) (by decide)
  · cases h

theorem decodeSymbol_ok {T : HuffTable} {r : BitVec 9 × BitVec 4} (hw : T.Wf n) (hf : FitsIn s)
    (h : decodeSymbol T s = .ok r t) : Decoded T s r t := by
  have hsat : Res.Sat (Decoded T s) (fun _ _ => True) (fun _ => True) (decodeSymbol T s) :=
    decodeSymbol_sat hw hf (fun _ _ h => h) trivial trivial
  rw [h] at hsat
  exact sat_ok_elim hsat

end

/-- With fuel for every length still to come, the loop ends where the lengths are all there. -/
theorem clLoop_ends : ∀ k (s t : State), s.tabs.cl.Wf 19 → FitsIn s → s.lengthCount ≤ 320 →
    s.hdr.nl.toNat ≤ s.lengthCount → s.lengthCount ≤ s.hdr.nl.toNat + k → clLoop k s = .ok () t →
    t.hdr.nl.toNat = s.lengthCount ∧ t.lengthCount = s.lengthCount := by
  intro k
  induction k with
  | zero =>
    intro s t _ _ _ hle hk h
    cases h
    exact ⟨by omega, rfl⟩
  | succ k ih =>
    intro s t hw hf hcount hle hk h
    rw [clLoop] at h
    split at h
    case isFalse hdone =>
      cases h
      exact ⟨by omega, rfl⟩
    case isTrue hroom =>
      obtain ⟨r, u, hdec, hrest⟩ := bind_eq_ok.mp h
      obtain ⟨_, v, hsym, hloop⟩ := bind_eq_ok.mp hrest
      have hu := (decodeSymbol_ok hw hf hdec).next
      subst hu
      have hfill : Fills s v := (clSymbol_fills (s := s.setPos _) hcount hroom hsym).of_setPos
      have hframe := hfill.frame
      have hmore := hfill.more
      have hroom' := hfill.room
      have hsame : v.lengthCount = s.lengthCount := by rw [hframe]; rfl
      rw [← hsame]
      exact ih v t (by rw [hframe]; exact hw) (by rw [hframe]; exact hf) (by omega) (by omega) (by omega) hloop

/-- Settles O17: every symbol fills a length, so the bound HLIT + HDIST of the model's loop suffices (log 21). -/
theorem sequenceEnds : Obligations.SequenceEnds := by
  unfold Obligations.SequenceEnds
  intro s t hw hf hcount h
  exact clLoop_ends s.lengthCount { s with hdr := { s.hdr with nl := 0 } } t hw hf hcount (Nat.zero_le _)
    (Nat.le_add_left _ _) h

end Sys2Proof.Machine
end

section
/-! PROOFS. Back-references (43_lz77_expander.md R244 to R249): the copy, the D symbols, and the length codes in a fixed
and in a dynamic block, with their errors in the order of 60_exceptions.md R323(d). -/

namespace Sys2Proof.Machine

section
variable {s : State}

/-! ## The copy's two checks (R248) -/

theorem copyMatch_back (h : s.outLen < s.tok.dist.toNat) : copyMatch s = raise .invalidBackReference s := if_pos h

theorem copyMatch_full (h1 : s.tok.dist.toNat ≤ s.outLen) (h2 : s.params.dbufCap < s.outLen + s.tok.len.toNat) :
    copyMatch s = raise .outputOverflow s := by
  rw [copyMatch, if_neg (by omega), if_pos h2]

/-! ## Distance resolution (R247) -/

theorem distanceSymbol_invalid {d : BitVec 5} (h : 29 < d.toNat) : distanceSymbol d s = raise .invalidDistanceCode s := if_pos h

section
variable {d : BitVec 5} {n eD bD dist q : Nat}

theorem distRows_dist (hrow : (n, eD, bD) ∈ distRows) (p : Nat) :
    1 ≤ bD + s.lsbValue p eD ∧ bD + s.lsbValue p eD ≤ 32768 := by
  obtain ⟨hn, hentry⟩ := distRows_entry hrow
  have hrange := distEntry_range (d := n) (v := s.lsbValue p eD) (by omega) (by rw [hentry]; exact lsbValue_lt s p eD)
  rw [hentry] at hrange
  exact ⟨by have := hrange.1; omega, hrange.2⟩

theorem distanceSymbol_short (hrow : (d.toNat, eD, bD) ∈ distRows) (hend : s.streamEnd < s.pos + eD) :
    distanceSymbol d s = raise .outOfData s := by
  obtain ⟨hn, hentry⟩ := distRows_entry hrow
  have hextra := distEntry_extra d.toNat
  rw [distanceSymbol, if_neg (by omega), readExtra_end hextra (by rwa [hentry]), bind_raise]

variable (hrow : (d.toNat, eD, bD) ∈ distRows) (hf : FitsIn s) (hq : q = s.pos + eD) (hfits : q ≤ s.streamEnd)
  (hdist : dist = bD + s.lsbValue s.pos eD)
include hrow hf hq hfits hdist

/-- With its extra bits at hand a D symbol is the copy of LEN bytes from `dist` back. -/
theorem distanceSymbol_copy : distanceSymbol d s = copyMatch ((s.setPos q).setDist dist) ∧
    ((s.setPos q).setDist dist).tok.dist.toNat = dist := by
  obtain ⟨hn, hentry⟩ := distRows_entry hrow
  have hrange := distRows_dist (s := s) hrow s.pos
  subst hq hdist
  refine ⟨distanceSymbol_eq hf hn hentry hfits, ?_⟩
  rw [State.setDist_dist, BitVec.toNat_ofNat]
  omega

theorem distanceSymbol_back (hback : s.outLen < dist) :
    distanceSymbol d s = raise .invalidBackReference ((s.setPos q).setDist dist) := by
  obtain ⟨hcopy, hreg⟩ := distanceSymbol_copy hrow hf hq hfits hdist
  rw [hcopy, copyMatch_back (by rwa [hreg])]

theorem distanceSymbol_full (hback : dist ≤ s.outLen) (hfull : s.params.dbufCap < s.outLen + s.tok.len.toNat) :
    distanceSymbol d s = raise .outputOverflow ((s.setPos q).setDist dist) := by
  obtain ⟨hcopy, hreg⟩ := distanceSymbol_copy hrow hf hq hfits hdist
  rw [hcopy]
  exact copyMatch_full (by rwa [hreg]) hfull

/-- The copy that succeeds: byte k is byte k mod `dist` of the last `dist` bytes (R249). -/
theorem distanceSymbol_done (hw : s.params.wf = true) (hback : dist ≤ s.outLen)
    (hroom : s.outLen + s.tok.len.toNat ≤ s.params.dbufCap) :
    ∃ t, distanceSymbol d s = .ok () t ∧
      t = { (s.setPos q).setDist dist with
            regs := { s.regs with dbufLen := BitVec.ofNat 32 (s.outLen + s.tok.len.toNat) }, mem := t.mem } ∧
      t.outLen = s.outLen + s.tok.len.toNat ∧
      (∀ k, k < s.tok.len.toNat → t.byteAt .dbuf (s.outLen + k) = s.byteAt .dbuf (s.outLen - dist + k % dist)) ∧
      ∀ sp a, ¬(sp = .dbuf ∧ s.outLen ≤ a ∧ a < s.outLen + s.tok.len.toNat) → t.byteAt sp a = s.byteAt sp a := by
  obtain ⟨hcopy, hreg⟩ := distanceSymbol_copy hrow hf hq hfits hdist
  have hcap : s.params.dbufCap < 2 ^ 32 := by
    simp only [Params.wf, Bool.and_eq_true, decide_eq_true_eq] at hw
    omega
  have hpos : 1 ≤ dist := hdist ▸ (distRows_dist hrow s.pos).1
  obtain ⟨t, hok, hframe, hlen, hcopied, hrest⟩ :=
    copyMatch_done (s := (s.setPos q).setDist dist) hcap (by rwa [hreg]) (by rwa [hreg]) hroom
  rw [hreg] at hcopied
  exact ⟨t, hcopy.trans hok, hframe, hlen, hcopied, hrest⟩

end

/-! ## The distance code (R246) -/

section
variable {T : HuffTable} {L v : Nat} {x : BitVec 9}

/-- What is decoded does not depend on LEN. -/
theorem matchesAt_setLen : T.MatchesAt (s.setLen v) L ↔ T.MatchesAt s L := by
  rw [HuffTable.MatchesAt, State.setLen_pos, State.setLen_msbValue]

theorem HuffTable.FirstMatch.setLen (h : T.FirstMatch s L x) (v : Nat) : T.FirstMatch (s.setLen v) L x where
  used := h.used
  range := h.range
  fits := h.fits
  matchesAt := matchesAt_setLen.mpr h.matchesAt
  first := fun j h1 h2 hm => h.first j h1 h2 (matchesAt_setLen.mp hm)
  symbol := by
    rw [HuffTable.placeAt, State.setLen_pos, State.setLen_msbValue]
    exact h.symbol

theorem HuffTable.FailsAt.setLen (h : T.FailsAt s) (v : Nat) : T.FailsAt (s.setLen v) :=
  h.imp id fun h => ⟨h.1, fun j h1 h2 hm => h.2 j h1 h2 (matchesAt_setLen.mp hm)⟩

theorem HuffTable.EndsAt.setLen (h : T.EndsAt s L) (v : Nat) : T.EndsAt (s.setLen v) L where
  used := h.used
  range := h.range
  ends := h.ends
  before := fun j h1 h2 => ⟨(h.before j h1 h2).1, fun hm => (h.before j h1 h2).2 (matchesAt_setLen.mp hm)⟩

end

theorem readDistance_fixed (hact : s.blk.act = false) :
    readDistance s = (readBitsMSB 5 s).bind fun v s => .ok () (s.setDsym v.toNat) := if_pos hact

theorem readDistance_dynamic (hact : s.blk.act = true) :
    readDistance s = (decodeSymbol s.tabs.d s).bind fun r s => .ok () (s.setDsym r.1.toNat) :=
  if_neg (by rw [hact]; decide)

/-- The state in which a D symbol executes: LEN and DSYM in their registers, the cursor after the distance code. -/
def State.atDistance (s : State) (q len d : Nat) : State := ((s.setPos q).setLen len).setDsym d

theorem State.atDistance_pos {q len d : Nat} (h : q ≤ s.streamEnd) : (s.atDistance q len d).pos = q :=
  pos_setPos_end (s := s) (t := s) h

theorem State.atDistance_len (q len d : Nat) : (s.atDistance q len d).tok.len = BitVec.ofNat 9 len := rfl

theorem State.atDistance_lsbValue (q len d p n : Nat) : (s.atDistance q len d).lsbValue p n = s.lsbValue p n :=
  lsbValue_congr (s := s.atDistance q len d) (t := s) rfl rfl p n

/-- A whole distance code at the cursor gives its D symbol and moves the cursor past it. -/
theorem readDistance_of_code {p d n len : Nat} (hf : FitsIn s) (hc : DistanceCode s p d n) :
    readDistance ((s.setPos p).setLen len) = .ok () (s.atDistance (p + n) len d) := by
  obtain ⟨hfits, hd, ⟨hact, rfl, hval⟩ | ⟨hact, x, rfl, hx⟩⟩ := hc
  · have hpos : ((s.setPos p).setLen len).pos = p := pos_setPos_end (s := s) (t := s) (by omega)
    have hread := readBitsMSB_eq (n := 5) (s := (s.setPos p).setLen len) hf (by decide) (by rw [hpos]; exact hfits)
    rw [hpos] at hread
    rw [readDistance_fixed (s := (s.setPos p).setLen len) hact, hread, bind_ok, msbWord _ _ (by decide), State.setLen_msbValue,
      State.setPos_msbValue, ← hval]
    rfl
  · have hpos : (s.setPos p).pos = p := pos_setPos_end (s := s) (t := s) (by omega)
    have hdec := (hx.setLen len).decode hf
    rw [State.setLen_pos, hpos] at hdec
    rw [readDistance_dynamic (s := (s.setPos p).setLen len) hact]
    exact congrArg (Res.bind · _) hdec

/-! ## Length codes (R244) -/

section
variable {sym : BitVec 9} {i : Instr} {e b len p : Nat} (hdec : decode (.ll sym) = .ok i)
  (hrow : (sym.toNat, e, b) ∈ lengthRows)

theorem lengthRows_len {n : Nat} (hrow : (n, e, b) ∈ lengthRows) (q : Nat) : b + s.lsbValue q e ≤ 258 := by
  obtain ⟨h1, h2, hentry⟩ := lengthRows_entry hrow
  have hrange := lengthEntry_range (v := s.lsbValue q e) h1 h2 (by rw [hentry]; exact lsbValue_lt s q e)
  rw [hentry] at hrange
  exact hrange.2

include hdec hrow

theorem exec_length_short (hend : s.streamEnd < s.pos + e) : exec i s = .next (errorEntry .outOfData s) := by
  obtain ⟨h1, h2, hentry⟩ := lengthRows_entry hrow
  rw [exec_length hdec h1 h2, lengthSymbol, readExtra_end (lengthEntry_extra _) (by rwa [hentry]), bind_raise, toOutcome_raise]

/-- With its extra bits at hand a length code goes on with its distance code. -/
theorem exec_length_distance (hf : FitsIn s) (hlen : len = b + s.lsbValue s.pos e) (hp : p = s.pos + e)
    (hfits : p ≤ s.streamEnd) : exec i s =
      ((readDistance ((s.setPos p).setLen len)).bind fun _ s => distanceSymbol s.tok.dsym s).toOutcome := by
  obtain ⟨h1, h2, hentry⟩ := lengthRows_entry hrow
  have hread := readExtra_eq (e := lengthEntry sym.toNat) hf (lengthEntry_extra _) (by rw [hentry]; omega)
  rw [exec_length hdec h1 h2, lengthSymbol, hread, bind_ok, hentry, ← hlen, ← hp]

/-- And with its distance code at hand, with its D symbol. -/
theorem exec_length_symbol {d n : Nat} (hf : FitsIn s) (hlen : len = b + s.lsbValue s.pos e) (hp : p = s.pos + e)
    (hc : DistanceCode s p d n) : exec i s =
      (distanceSymbol (BitVec.ofNat 5 d) (s.atDistance (p + n) len d)).toOutcome := by
  have hfits : p ≤ s.streamEnd := by
    have := hc.1
    omega
  rw [exec_length_distance hdec hrow hf hlen hp hfits, readDistance_of_code hf hc]
  rfl

/-- A whole back-reference that is legal and fits. -/
theorem exec_length_done {d n eD bD dist q : Nat} (hw : s.params.wf = true) (hf : FitsIn s)
    (hlen : len = b + s.lsbValue s.pos e) (hp : p = s.pos + e) (hc : DistanceCode s p d n)
    (hrowD : (d, eD, bD) ∈ distRows) (hdist : dist = bD + s.lsbValue (p + n) eD) (hq : q = p + n + eD)
    (hfits : q ≤ s.streamEnd) (hback : dist ≤ s.outLen) (hroom : s.outLen + len ≤ s.params.dbufCap) :
    ∃ t, exec i s = .next t ∧
      t = { s.setPos q with
            tok := { s.tok with len := BitVec.ofNat 9 len, dsym := BitVec.ofNat 5 d, dist := BitVec.ofNat 16 dist }
            regs := { s.regs with dbufLen := BitVec.ofNat 32 (s.outLen + len) }
            mem := t.mem } ∧
      (t.tok.len.toNat = len ∧ t.tok.dist.toNat = dist ∧ t.outLen = s.outLen + len) ∧
      (∀ k, k < len → t.byteAt .dbuf (s.outLen + k) = s.byteAt .dbuf (s.outLen - dist + k % dist)) ∧
      ∀ sp a, ¬(sp = .dbuf ∧ s.outLen ≤ a ∧ a < s.outLen + len) → t.byteAt sp a = s.byteAt sp a := by
  have hpos : (s.atDistance (p + n) len d).pos = p + n := State.atDistance_pos hc.1
  have hdsym : (BitVec.ofNat 5 d).toNat = d := by
    have := (distRows_entry hrowD).1
    rw [BitVec.toNat_ofNat]
    omega
  have hreg : (BitVec.ofNat 9 len).toNat = len := by
    have := lengthRows_len (s := s) hrow s.pos
    rw [BitVec.toNat_ofNat]
    omega
  have hdone := distanceSymbol_done (s := s.atDistance (p + n) len d) (d := BitVec.ofNat 5 d) (eD := eD)
    (bD := bD) (dist := dist) (q := q) (by rwa [hdsym]) hf (by rw [hpos]; exact hq) hfits
    (by rw [hpos, State.atDistance_lsbValue]; exact hdist) hw hback
    (by rw [State.atDistance_len, hreg]; exact hroom)
  rw [State.atDistance_len, hreg] at hdone
  obtain ⟨t, hok, hframe, hout, hcopied, hrest⟩ := hdone
  refine ⟨t, ?_, hframe, ⟨?_, ?_, hout⟩, hcopied, hrest⟩
  · rw [exec_length_symbol hdec hrow hf hlen hp hc, hok, toOutcome_ok]
  · rw [hframe]
    exact hreg
  · have := (distRows_dist (s := s) hrowD (p + n)).2
    rw [hframe]
    exact (BitVec.toNat_ofNat _ _).trans (Nat.mod_eq_of_lt (by omega))

end

end

/-- Settles O23: a D symbol's three checks in their order, or its copy. -/
theorem distanceSymbols : Obligations.DistanceSymbols := by
  unfold Obligations.DistanceSymbols
  intro s d hw hf _
  rw [exec_dist]
  refine ⟨fun h => by rw [distanceSymbol_invalid h, toOutcome_raise], ?_⟩
  rintro u eD bD dist q hrow hdist hq rfl
  refine ⟨fun hend => ?_, fun hfits hback => ?_, fun hfits hback hfull => ?_, fun hfits hback hroom => ?_⟩
  · rw [distanceSymbol_short hrow (hq ▸ hend), toOutcome_raise]
  · rw [distanceSymbol_back hrow hf hq hfits hdist hback]
    rfl
  · rw [distanceSymbol_full hrow hf hq hfits hdist hback hfull]
    rfl
  · obtain ⟨t, hok, hframe, -, hcopied, hrest⟩ := distanceSymbol_done hrow hf hq hfits hdist hw hback hroom
    refine ⟨t, by rw [hok, toOutcome_ok], hframe, ?_, hcopied, hrest⟩
    rw [hframe]
    exact (distanceSymbol_copy hrow hf hq hfits hdist).2

/-- Settles O20: five bits are the distance code. -/
theorem lengthCodesFixed : Obligations.LengthCodesFixed := by
  unfold Obligations.LengthCodesFixed
  intro s i sym e b len p d eD bD dist q hdec hrow hw hf hact hlen hp hd hrowD hdist hq hfits hback hroom
  have hc : DistanceCode s p d 5 := ⟨by omega, by have := (distRows_entry hrowD).1; omega, .inl ⟨hact, rfl, hd⟩⟩
  exact exec_length_done hdec hrow hw hf hlen hp hc hrowD hdist hq hfits hback hroom

/-- Settles O21: the first length of T_D that matches is the distance code. -/
theorem lengthCodesDynamic : Obligations.LengthCodesDynamic := by
  unfold Obligations.LengthCodesDynamic
  intro s i sym d e b len p L eD bD dist q hdec hrow hw hf hact hlen hp hmatch hrowD hdist hq hfits hback hroom
  have hc : DistanceCode s p d.toNat L :=
    ⟨by omega, by have := (distRows_entry hrowD).1; omega, .inr ⟨hact, d, rfl, hmatch⟩⟩
  obtain ⟨t, hexec, hframe, -, hcopied, hrest⟩ :=
    exec_length_done hdec hrow hw hf hlen hp hc hrowD hdist hq hfits hback hroom
  exact ⟨t, hexec, hframe, hcopied, hrest⟩

/-- Settles O22: each check of R323(d) after those before it have passed. -/
theorem backReferenceErrors : Obligations.BackReferenceErrors := by
  unfold Obligations.BackReferenceErrors
  rintro s u1 i sym e b len p hdec hrow hf hlen hp rfl
  have hdistance : p ≤ s.streamEnd → ∀ {k : ErrorKind},
      readDistance ((s.setPos p).setLen len) = raise k ((s.setPos p).setLen len) →
      exec i s = .next (errorEntry k ((s.setPos p).setLen len)) := fun hfits k hraise => by
    rw [exec_length_distance hdec hrow hf hlen hp hfits, hraise, bind_raise, toOutcome_raise]
  have hpos : p ≤ s.streamEnd → ((s.setPos p).setLen len).pos = p := fun hfits => pos_setPos_end (s := s) hfits
  have htable : s.blk.act = true → ∀ {k : ErrorKind},
      decodeSymbol s.tabs.d ((s.setPos p).setLen len) = raise k ((s.setPos p).setLen len) →
      readDistance ((s.setPos p).setLen len) = raise k ((s.setPos p).setLen len) := fun hact k hraise => by
    rw [readDistance_dynamic (s := (s.setPos p).setLen len) hact]
    exact congrArg (Res.bind · _) hraise
  refine ⟨fun hend => exec_length_short hdec hrow (hp ▸ hend), fun hfits hact hend => hdistance hfits ?_,
    fun hfits hact hfail => hdistance hfits (htable hact ((hfail.setLen len).decode hf)),
    fun L hfits hact hend => hdistance hfits (htable hact ((hend.setLen len).decode hf)), ?_⟩
  · rw [readDistance_fixed (s := (s.setPos p).setLen len) hact, readBitsMSB_end (by decide) (by rw [hpos hfits]; exact hend), bind_raise]
  rintro u2 d n hc rfl
  have hsymbol := exec_length_symbol hdec hrow hf hlen hp hc
  have hdsym : (BitVec.ofNat 5 d).toNat = d := (BitVec.toNat_ofNat _ _).trans (Nat.mod_eq_of_lt hc.2.1)
  have hpos2 : (s.atDistance (p + n) len d).pos = p + n := State.atDistance_pos hc.1
  refine ⟨fun hd => ?_, ?_⟩
  · rw [hsymbol, distanceSymbol_invalid (by rwa [hdsym]), toOutcome_raise]
    rfl
  rintro u3 eD bD dist q hrowD hdist hq rfl
  replace hrowD : ((BitVec.ofNat 5 d).toNat, eD, bD) ∈ distRows := by rwa [hdsym]
  have hq2 : q = (s.atDistance (p + n) len d).pos + eD := by rw [hpos2]; exact hq
  have hdist2 : dist = bD + (s.atDistance (p + n) len d).lsbValue (s.atDistance (p + n) len d).pos eD := by
    rw [hpos2, State.atDistance_lsbValue]
    exact hdist
  have hreg : (s.atDistance (p + n) len d).tok.len.toNat = len := by
    have := lengthRows_len (s := s) hrow s.pos
    rw [State.atDistance_len, BitVec.toNat_ofNat]
    omega
  refine ⟨fun hend => ?_, fun hfits hback => ?_, fun hfits hback hfull => ?_⟩
  · rw [hsymbol, distanceSymbol_short hrowD (hq2 ▸ hend), toOutcome_raise]
    rfl
  · rw [hsymbol, distanceSymbol_back (s := s.atDistance (p + n) len d) hrowD hf hq2 hfits hdist2 hback, toOutcome_raise]
    rfl
  · rw [hsymbol, distanceSymbol_full (s := s.atDistance (p + n) len d) hrowD hf hq2 hfits hdist2 hback (by rw [hreg]; exact hfull), toOutcome_raise]
    rfl

end Sys2Proof.Machine
end

section
/-! PROOFS. What a step runs (R200, R241, R271, R303), the errors of each phase (60_exceptions.md R324, R330), and
filters over zero neighbours (44_png_defilter.md R279). -/

namespace Sys2Proof.Machine

/-! ## What a step runs -/

section
variable {s u : State} {T : HuffTable}

theorem fetchToken_of_ok {r : BitVec 9 × BitVec 4} {i : Instr}
    (hact : (s.blk.act = false ∧ T = fLL) ∨ (s.blk.act = true ∧ T = s.tabs.ll)) (hdec : decodeSymbol T s = .ok r u)
    (hi : decodeLL r.1 = .ok i) : fetchToken s = .ok i (u.setSym r.1) := by
  rw [fetchToken, activeLL_of hact, hdec, bind_ok, hi]

theorem fetchToken_of_raise {e : ErrorKind}
    (hact : (s.blk.act = false ∧ T = fLL) ∨ (s.blk.act = true ∧ T = s.tabs.ll)) (hdec : decodeSymbol T s = raise e s) :
    fetchToken s = raise e s := by
  rw [fetchToken, activeLL_of hact, hdec, bind_raise]

theorem step_tokens_of_ok {i : Instr} (hin : s.env.inputs = []) (hp : s.phase = .tokens) (h : fetchToken s = .ok i u) :
    step s = exec i u := by
  rw [step_of_fetch (fetch_tokens hin hp), h]
  rfl

theorem step_tokens_of_raise {e : ErrorKind} (hin : s.env.inputs = []) (hp : s.phase = .tokens)
    (h : fetchToken s = raise e s) : step s = .next (errorEntry e s) := by
  rw [step_of_fetch (fetch_tokens hin hp), h]
  rfl

theorem step_stored (hin : s.env.inputs = []) (hp : s.phase = .stored) : step s = exec .btypeStored s := by
  rw [step_engine hin, engineStep, fetchEngine, hp]

theorem step_dynamic (hin : s.env.inputs = []) (hp : s.phase = .dynamic) : step s = exec .btypeDynamic s := by
  rw [step_engine hin, engineStep, fetchEngine, hp]

theorem step_defilterRow (hin : s.env.inputs = []) (hp : s.phase = .defilterRow) (hbase : s.rowBase < s.params.dbufCap) :
    step s = exec (decodeFilter (s.byteAt .dbuf s.rowBase)) s := by
  rw [step_engine hin, engineStep, fetchEngine, hp, fetchFilter, if_neg (by omega)]
  rfl

end

/-- Settles O10: by phase, and by the turn where one is pending. -/
theorem stepRuns : Obligations.StepRuns := by
  unfold Obligations.StepRuns
  refine ⟨fun s u i h => step_of_fetch h, fun s => step_stored, fun s => step_dynamic,
    fun s hin hp hf hfits => step_header_of_fetchHeader_ok hin hp (fetchHeader_eq hf hfits),
    fun s T hin hp hact => ⟨?ofDecode, ?ofMatch, ?fails, ?ends⟩, fun s => step_defilterRow,
    fun s w ts hin => step_turn hin, fun s r ts hb hin => ?bitCursor, fun s r ls ts hb hin => ?huffman⟩
  case ofDecode => exact fun u r i hdec hi => step_tokens_of_ok hin hp (fetchToken_of_ok hact hdec hi)
  case ofMatch => exact fun L x i hf hm hi => step_tokens_of_ok hin hp (fetchToken_of_ok hact (hm.decode hf) hi)
  case fails => exact fun hf hfail => step_tokens_of_raise hin hp (fetchToken_of_raise hact (hfail.decode hf))
  case ends => exact fun L hf hend => step_tokens_of_raise hin hp (fetchToken_of_raise hact (hend.decode hf))
  case bitCursor =>
    rw [step_turn hin, fetchTurn, if_pos (show (s.withInputs ts).phase.busy = true from hb)]
  case huffman =>
    rw [step_turn hin, fetchTurn, if_pos (show (s.withInputs ts).phase.busy = true from hb)]
    rfl

/-! ## The errors of each phase -/

section
variable {s : State}

/-- In a fixed block the distance code is five bits, which have no code that is missing. -/
theorem grows_readDistance_fixed (hs : Sound s) (hact : s.blk.act = false) : GrowsRes s (readDistance s) [.outOfData] := by
  rw [readDistance_fixed hact]
  exact GrowsRes.bind hs (grows_readBitsMSB hs (by decide)) fun _ _ _ ht => .ok (grows_tok ht _)

theorem grows_lengthSymbol_fixed (hs : Sound s) (hact : s.blk.act = false) (sym : Nat) :
    GrowsRes s (lengthSymbol sym s) [.outOfData, .invalidDistanceCode, .invalidBackReference, .outputOverflow] := by
  rw [lengthSymbol]
  by_cases hfits : s.pos + (lengthEntry sym).1 ≤ s.streamEnd
  · rw [readExtra_eq hs.fits (lengthEntry_extra sym) hfits, bind_ok]
    have hmove := grows_setPos hs (by omega) hfits
    have hg := hmove.trans (grows_tok (hmove.sound hs)
      { s.tok with len := BitVec.ofNat 9 ((lengthEntry sym).2 + s.lsbValue s.pos (lengthEntry sym).1) })
    have hrest := GrowsRes.bind (hg.sound hs)
      ((grows_readDistance_fixed (hg.sound hs) hact).mono
        (ks' := [.outOfData, .invalidDistanceCode, .invalidBackReference, .outputOverflow]) (by simp))
      fun _ u _ hu => grows_distanceSymbol hu u.tok.dsym
    exact sat_mono hrest (fun _ _ h => hg.trans h) (fun _ _ h => ⟨hg.trans h.1, h.2⟩) (fun _ h => h)
  · rw [readExtra_end (lengthEntry_extra sym) (by omega), bind_raise]
    exact GrowsRes.raise hs (by simp)

theorem exec_token_fixed (hs : Sound s) (hb : s.phase = .tokens) (hact : s.blk.act = false) {sym : BitVec 9} {i : Instr}
    (h : decodeLL sym = .ok i) :
    Ends (fun t => t.phase ≠ .error) (fun e _ => e ≠ .noMatchingCode) (exec i s) := by
  have hgrown : ∀ t, Grows s t → t.phase ≠ .error := fun t ht => by rw [ht.phase, hb]; decide
  have hother : ∀ ks : List ErrorKind, ErrorKind.noMatchingCode ∉ ks → ∀ e ∈ ks, e ≠ .noMatchingCode :=
    fun ks hks e he heq => hks (heq ▸ he)
  obtain ⟨b, rfl⟩ | rfl | ⟨h1, h2⟩ | ⟨x, rfl⟩ := decodeLL_cases h
  · exact ends_of_sat (grows_append hs b) (fun _ t ht => hgrown t ht) fun e u hu => hother _ (by decide) e hu.2
  · exact ends_next (Phase.noConfusion : Phase.blockEnd ≠ Phase.error)
  · rw [exec_length h h1 h2]
    exact ends_of_sat (grows_lengthSymbol_fixed hs hact sym.toNat) (fun _ t ht => hgrown t ht)
      fun e u hu => hother _ (by decide) e hu.2
  · exact ends_error (by decide)

/-- With the fixed tables, whose codes are complete, no P_TOKENS step raises NoMatchingCode. -/
theorem step_tokens_fixed (hs : Sound s) (hin : s.env.inputs = []) (hp : s.phase = .tokens) (hact : s.blk.act = false) :
    Ends (fun t => t.phase ≠ .error) (fun e _ => e ≠ .noMatchingCode) (step s) := by
  obtain ⟨x, L, hdec, -, -⟩ | hdec := fixedCodeComplete s hs.fits hs.cursor
  · have hd := decodeSymbol_ok fLL_wf hs.fits hdec
    obtain ⟨i, hi⟩ := decodeLL_ok (fLL_wf.symbols _ hd.symbol_mem)
    have hmove := grows_setPos hs (Nat.le_add_right _ _) hd.fits
    rw [step_tokens_of_ok hin hp (fetchToken_of_ok (.inl ⟨hact, rfl⟩) hdec hi)]
    exact exec_token_fixed ((hmove.trans (grows_tok (hmove.sound hs) _)).sound hs) hp hact hi
  · rw [step_tokens_of_raise hin hp (fetchToken_of_raise (.inl ⟨hact, rfl⟩) hdec)]
    exact ends_error (by decide)

end

/-- Settles O52: a step that ends in P_ERROR has entered it with one of its phase's kinds. -/
theorem errorsByPhase : Obligations.ErrorsByPhase := by
  unfold Obligations.ErrorsByPhase
  intro s t h hb hin hstep herr
  have hkinds := h.step_raises hb hin hstep herr
  refine ⟨?_, fun hp hact h5 => ?_, ?_⟩
  · obtain ⟨e, u, rfl, hr⟩ := hkinds
    exact ⟨e, hr.kind, rfl⟩
  · obtain ⟨t', ht', hcase⟩ := step_tokens_fixed (h.sound hb) hin hp hact
    obtain rfl : t = t' := Host.Outcome.next.inj (hstep.symm.trans ht')
    obtain hne | ⟨e, u, rfl, hne⟩ := hcase
    · exact hne herr
    · exact hne (ErrorKind.code_eq_five h5)
  · obtain ⟨e, u, rfl, -⟩ := hkinds
    exact ⟨rfl, rfl, rfl, rfl⟩

/-! ## Zero neighbours -/

/-- Every predictor of zero neighbours is 0. -/
theorem pred_zero : ∀ p ∈ [predNone, predSub, predUp, predAverage, predPaeth], p 0 0 0 = 0 := by
  intro p hp
  simp only [List.mem_cons, List.not_mem_nil, or_false] at hp
  obtain rfl | rfl | rfl | rfl | rfl := hp <;> decide

theorem exec_filter_pred {i : Instr} (hi : i ∈ [Instr.filterNone, .filterSub, .filterUp, .filterAverage, .filterPaeth])
    (s : State) : ∃ p ∈ [predNone, predSub, predUp, predAverage, predPaeth], exec i s = (defilterRow p s).toOutcome := by
  simp only [List.mem_cons, List.not_mem_nil, or_false] at hi
  obtain rfl | rfl | rfl | rfl | rfl := hi
  · exact ⟨predNone, by simp, rfl⟩
  · exact ⟨predSub, by simp, rfl⟩
  · exact ⟨predUp, by simp, rfl⟩
  · exact ⟨predAverage, by simp, rfl⟩
  · exact ⟨predPaeth, by simp, rfl⟩

/-- Where the row step answers a next state, the row is stored. -/
theorem defilterRow_next {pred : Byte → Byte → Byte → Byte} {s t : State} (h : (defilterRow pred s).toOutcome = .next t) :
    t = storeRow (reconRow pred s s.rowBase s.rowBytes) s := by
  rw [defilterRow] at h
  split at h
  · cases h
  split at h
  · cases h
  split at h
  · cases h
  · cases h
    rfl

/-- Settles O41: a one-pixel row has no left neighbours, and those above are 0. -/
theorem zeroNeighbours : Obligations.ZeroNeighbours := by
  unfold Obligations.ZeroNeighbours
  refine ⟨fun p hp x => by rw [pred_zero p hp]; exact BitVec.add_zero x, ?_⟩
  intro s t i hi _ hwidth hprev hexec k hk
  obtain ⟨p, hp, hrow⟩ := exec_filter_pred hi s
  have ht := defilterRow_next (hrow ▸ hexec)
  have hbytes : s.rowBytes = 3 := by
    rw [State.rowBytes, hwidth]
    rfl
  have hbase : s.rowBase = 4 * s.defl.row.toNat := by
    rw [State.rowBase, hbytes, Nat.mul_comm]
  rw [ht, byteAt_pix_storeRow _ s (by rwa [reconRow_length, hbytes]), reconRow_byte _ _ _ (by omega), if_neg (by omega),
    if_neg (by omega), hprev k hk, pred_zero p hp, hbase]
  exact BitVec.add_zero _

end Sys2Proof.Machine
end

section
/-! PROOFS. The P_DYNAMIC step as far as T_CL: the three counts (42_deflate_blocks.md R206) and the CL lengths (R207). -/

namespace Sys2Proof.Machine

/-! ## Sequencing -/

section
variable {α β : Type} {r : Res α} {f : α → State → Res β} {s : State}

theorem bind_of_ok {a : α} (h : r = .ok a s) : r.bind f = f a s := by rw [h, bind_ok]

theorem bind_of_raise {e : ErrorKind} (h : r = raise e s) : r.bind f = raise e s := by rw [h, bind_raise]

end

/-- The header registers replaced. -/
def State.withHdr (s : State) (h : DynHeader) : State := { s with hdr := h }

/-- A state of the header's reading: the cursor at p and these header registers. -/
theorem withHdr_pos {s : State} {p : Nat} (h : DynHeader) (hp : p ≤ s.streamEnd) : ((s.setPos p).withHdr h).pos = p :=
  pos_setPos_end (s := s) (t := s) hp

theorem withHdr_lsbValue (s : State) (p : Nat) (h : DynHeader) (q n : Nat) :
    ((s.setPos p).withHdr h).lsbValue q n = s.lsbValue q n :=
  lsbValue_congr (s := (s.setPos p).withHdr h) (t := s) rfl rfl q n

/-- A read in such a state. -/
theorem readBitsLSB_withHdr {s : State} {p n : Nat} (h : DynHeader) (hf : FitsIn s) (hn : n ≤ 32)
    (hfits : p + n ≤ s.streamEnd) : readBitsLSB n ((s.setPos p).withHdr h) =
      .ok (BitVec.ofNat 32 (s.lsbValue p n)) ((s.setPos (p + n)).withHdr h) := by
  have hpos : ((s.setPos p).withHdr h).pos = p := withHdr_pos h (by omega)
  have hread := readBitsLSB_eq (s := (s.setPos p).withHdr h) hf hn (by rw [hpos]; exact hfits)
  rwa [hpos, withHdr_lsbValue] at hread

theorem readBitsLSB_withHdr_end {s : State} {p n : Nat} (h : DynHeader) (hn : n ≤ 32) (hp : p ≤ s.streamEnd)
    (hend : s.streamEnd < p + n) : readBitsLSB n ((s.setPos p).withHdr h) = raise .outOfData ((s.setPos p).withHdr h) :=
  readBitsLSB_end hn (by rw [withHdr_pos h hp]; exact hend)

/-! ## The counts -/

section
variable {s : State}

/-- The header registers with the counts at the cursor (R206). -/
def State.countsHdr (s : State) : DynHeader := { s.hdr with
  hlit := BitVec.ofNat 9 (s.lsbValue s.pos 5 + 257)
  hdist := BitVec.ofNat 6 (s.lsbValue (s.pos + 5) 5 + 1)
  hclen := BitVec.ofNat 5 (s.lsbValue (s.pos + 10) 4 + 4) }

theorem readCounts_end5 (hend : s.streamEnd < s.pos + 5) : readCounts s = raise .outOfData s :=
  bind_of_raise (readBitsLSB_end (by decide) hend)

theorem readCounts_end10 (hf : FitsIn s) (hfits : s.pos + 5 ≤ s.streamEnd) (hend : s.streamEnd < s.pos + 10) :
    readCounts s = raise .outOfData
      ((s.setPos (s.pos + 5)).withHdr { s.hdr with hlit := BitVec.ofNat 9 (s.lsbValue s.pos 5 + 257) }) := by
  rw [← lsbWord s s.pos (n := 5) (by decide)]
  exact (bind_of_ok (readBitsLSB_eq hf (by decide) hfits)).trans
    (bind_of_raise (readBitsLSB_withHdr_end _ (by decide) hfits hend))

theorem readCounts_end14 (hf : FitsIn s) (hfits : s.pos + 10 ≤ s.streamEnd) (hend : s.streamEnd < s.pos + 14) :
    readCounts s = raise .outOfData ((s.setPos (s.pos + 10)).withHdr { s.hdr with
      hlit := BitVec.ofNat 9 (s.lsbValue s.pos 5 + 257)
      hdist := BitVec.ofNat 6 (s.lsbValue (s.pos + 5) 5 + 1) }) := by
  rw [← lsbWord s s.pos (n := 5) (by decide), ← lsbWord s (s.pos + 5) (n := 5) (by decide)]
  exact (bind_of_ok (readBitsLSB_eq hf (by decide) (by omega))).trans
    ((bind_of_ok (readBitsLSB_withHdr (p := s.pos + 5) (n := 5) _ hf (by decide) (by omega))).trans
      (bind_of_raise (readBitsLSB_withHdr_end (p := s.pos + 10) _ (by decide) hfits hend)))

theorem readCounts_eq (hf : FitsIn s) (hfits : s.pos + 14 ≤ s.streamEnd) :
    readCounts s = .ok () ((s.setPos (s.pos + 14)).withHdr s.countsHdr) := by
  rw [State.countsHdr, ← lsbWord s s.pos (n := 5) (by decide), ← lsbWord s (s.pos + 5) (n := 5) (by decide),
    ← lsbWord s (s.pos + 10) (n := 4) (by decide)]
  exact (bind_of_ok (readBitsLSB_eq hf (by decide) (by omega))).trans
    ((bind_of_ok (readBitsLSB_withHdr (p := s.pos + 5) (n := 5) _ hf (by decide) (by omega))).trans
      (bind_of_ok (readBitsLSB_withHdr (p := s.pos + 10) (n := 4) _ hf (by decide) (by omega))))

/-! ## The CL lengths -/

/-- CLL after the first n lengths, as they are transmitted (R207). -/
def cllAfter (v : Nat → BitVec 3) : Nat → List (BitVec 3)
  | 0 => List.replicate 19 0
  | n + 1 => (cllAfter v n).set (clOrder.getD n 0) (v n)

@[simp] theorem cllAfter_length (v : Nat → BitVec 3) (n : Nat) : (cllAfter v n).length = 19 := by
  induction n with
  | zero => rfl
  | succ n ih => rw [cllAfter, List.length_set, ih]

/-- R116's order names each of the nineteen CL symbols once. -/
theorem transmitOrder_lt : ∀ i, i < 19 → transmitOrder.getD i 0 < 19 := by decide

theorem transmitOrder_inj : ∀ i, i < 19 → ∀ j, j < 19 → transmitOrder.getD i 0 = transmitOrder.getD j 0 → i = j := by decide

theorem transmitOrder_surj : ∀ j, j < 19 → ∃ i, i < 19 ∧ transmitOrder.getD i 0 = j := by decide

theorem cllAfter_getD (v : Nat → BitVec 3) : ∀ {n i : Nat}, n ≤ 19 → i < 19 →
    (cllAfter v n).getD (transmitOrder.getD i 0) 0 = if i < n then v i else 0 := by
  intro n
  induction n with
  | zero =>
    intro i _ hi
    rw [if_neg (Nat.not_lt_zero i)]
    exact (getD_eq_getElem_of_lt (xs := List.replicate 19 0) _ (transmitOrder_lt i hi)).trans (List.getElem_replicate _)
  | succ n ih =>
    intro i hn hi
    have hlt := transmitOrder_lt i hi
    rw [cllAfter, clOrder_eq, List.getD_eq_getElem?_getD]
    by_cases hin : i = n
    · rw [hin, List.getElem?_set_self (by rw [cllAfter_length]; exact hin ▸ hlt), if_pos (Nat.lt_succ_self n)]
      rfl
    · have hne : transmitOrder.getD n 0 ≠ transmitOrder.getD i 0 := fun h => hin (transmitOrder_inj n hn i hi h).symm
      rw [List.getElem?_set_ne hne, ← List.getD_eq_getElem?_getD, ih (by omega) hi]
      exact ite_congr (propext (by omega)) (fun _ => rfl) fun _ => rfl

/-- The lengths of the CL symbols in order, from CLL (R116). -/
theorem map_cll_eq_clVector {cll cls : List (BitVec 3)} (hlen : cll.length = 19)
    (h : ∀ i, i < 19 → cll.getD (transmitOrder.getD i 0) 0 = cls.getD i 0) :
    cll.map (fun l => l.setWidth 4) = clVector cls := by
  refine List.ext_getElem (by rw [List.length_map, hlen]; rfl) fun j h1 h2 => ?_
  obtain ⟨i, hi, hij⟩ := transmitOrder_surj j (by rwa [List.length_map, hlen] at h1)
  have hvec := clVector_transmitOrder cls hi
  rw [hij, getD_eq_getElem_of_lt _ h2, ← h i hi, hij, getD_eq_getElem_of_lt _ (by rwa [List.length_map] at h1)] at hvec
  rw [List.getElem_map, hvec]

/-- The header registers with the counts and the first n CL lengths at the cursor (R206, R207). -/
def State.clsHdr (s : State) (n : Nat) : DynHeader :=
  { s.countsHdr with cll := cllAfter (fun i => BitVec.ofNat 3 (s.lsbValue (s.pos + 14 + 3 * i) 3)) n }

/-- The state after the counts and the first n CL lengths. -/
def State.afterCls (s : State) (n : Nat) : State := (s.setPos (s.pos + 14 + 3 * n)).withHdr (s.clsHdr n)

theorem clsHdr_held {n : Nat} (hn : n ≤ 19) : CountsHeld s n (s.clsHdr n) where
  hlit := (BitVec.toNat_ofNat _ _).trans (Nat.mod_eq_of_lt (by have := lsbValue_lt s s.pos 5; omega))
  hdist := (BitVec.toNat_ofNat _ _).trans (Nat.mod_eq_of_lt (by have := lsbValue_lt s (s.pos + 5) 5; omega))
  hclen := (BitVec.toNat_ofNat _ _).trans (Nat.mod_eq_of_lt (by have := lsbValue_lt s (s.pos + 10) 4; omega))
  cllLength := cllAfter_length _ n
  cll := fun i hi => by
    rw [State.clsHdr, cllAfter_getD _ hn hi]
    split
    · exact (BitVec.toNat_ofNat _ _).trans (Nat.mod_eq_of_lt (lsbValue_lt s _ 3))
    · rfl
  nl := rfl
  lens := rfl

theorem readClLengths_step {k n : Nat} (hf : FitsIn s) (hfits : s.pos + 14 + 3 * (n + 1) ≤ s.streamEnd) :
    readClLengths (k + 1) n (s.afterCls n) = readClLengths k (n + 1) (s.afterCls (n + 1)) := by
  have hread := readBitsLSB_withHdr (p := s.pos + 14 + 3 * n) (s.clsHdr n) hf (n := 3) (by decide) hfits
  rw [readClLengths, State.afterCls, hread, bind_ok, BitVec.setWidth_ofNat_of_le (by decide)]
  rfl

theorem readClLengths_eq (hf : FitsIn s) : ∀ n k, s.pos + 14 + 3 * n ≤ s.streamEnd →
    readClLengths (n + k) 0 (s.afterCls 0) = readClLengths k n (s.afterCls n) := by
  intro n
  induction n with
  | zero =>
    intro k _
    rw [Nat.zero_add]
  | succ n ih =>
    intro k hfits
    rw [Nat.add_right_comm, Nat.add_assoc, ih (k + 1) (by omega), readClLengths_step hf hfits]

theorem readClLengths_short {k n : Nat} (hfits : s.pos + 14 + 3 * n ≤ s.streamEnd)
    (hend : s.streamEnd < s.pos + 14 + 3 * (n + 1)) :
    readClLengths (k + 1) n (s.afterCls n) = raise .outOfData (s.afterCls n) :=
  bind_of_raise (readBitsLSB_withHdr_end (s.clsHdr n) (by decide) hfits hend)

/-- The P_DYNAMIC step after the counts and some CL lengths. -/
theorem dynamicBody_afterCls (hf : FitsIn s) {n k : Nat} (hk : n + k = s.lsbValue (s.pos + 10) 4 + 4)
    (hfits : s.pos + 14 + 3 * n ≤ s.streamEnd) :
    dynamicBody s = ((readClLengths k n (s.afterCls n)).bind fun _ s =>
      buildFromLengths .cl (s.hdr.cll.map (fun l => l.setWidth 4)) s).bind fun _ s =>
        (readSequence s).bind fun _ s => buildTables s := by
  have hclen : (s.clsHdr 0).hclen.toNat = n + k := (clsHdr_held (Nat.zero_le 19)).hclen.trans hk.symm
  rw [← readClLengths_eq hf n k hfits, ← hclen]
  exact bind_of_ok (readCounts_eq hf (by omega))

/-- And after all of them, with T_CL to build. -/
theorem dynamicBody_build (hf : FitsIn s) {n : Nat} (hn : n = s.lsbValue (s.pos + 10) 4 + 4)
    (hfits : s.pos + 14 + 3 * n ≤ s.streamEnd) {cls : List (BitVec 3)}
    (hcls : ∀ i, i < 19 → (s.clsHdr n).cll.getD (transmitOrder.getD i 0) 0 = cls.getD i 0) :
    dynamicBody s = (buildFromLengths .cl (clVector cls) (s.afterCls n)).bind fun _ s =>
      (readSequence s).bind fun _ s => buildTables s := by
  rw [dynamicBody_afterCls hf (k := 0) hn hfits, ← map_cll_eq_clVector (cllAfter_length _ n) hcls]
  rfl

end

end Sys2Proof.Machine
end

section
/-! PROOFS. The code-length sequence as its symbols stand in the stream (30_encoding.md R117, 42_deflate_blocks.md R208 to
R212): each fills its lengths, and the loop goes on after it. -/

namespace Sys2Proof.Machine

/-! ## What stands in the stream -/

section
variable {s : State} {p n v : Nat}

/-- A read of a value that stands at p. -/
theorem readBitsLSB_of_has (hf : FitsIn s) (hn : n ≤ 32) (h : s.streamHas p (lsbBits n v)) (hv : v < 2 ^ n) :
    readBitsLSB n (s.setPos p) = .ok (BitVec.ofNat 32 v) (s.setPos (p + n)) := by
  obtain ⟨hfits, hval⟩ := streamHas_lsb h hv
  have hpos : (s.setPos p).pos = p := pos_setPos_end (s := s) (t := s) (by omega)
  have hread := readBitsLSB_eq (s := s.setPos p) hf hn (by rw [hpos]; exact hfits)
  rwa [hpos, State.setPos_lsbValue, hval] at hread

theorem streamHas_lsb3 (cls : List (BitVec 3)) : ∀ {p : Nat}, s.streamHas p (cls.flatMap fun l => lsbBits 3 l.toNat) →
    ∀ i, i < cls.length → s.lsbValue (p + 3 * i) 3 = (cls.getD i 0).toNat := by
  induction cls with
  | nil => exact fun _ i hi => absurd hi (Nat.not_lt_zero i)
  | cons l ls ih =>
    intro p h i hi
    rw [List.flatMap_cons] at h
    obtain ⟨hhead, htail⟩ := streamHas_append h
    cases i with
    | zero => exact (streamHas_lsb hhead l.isLt).2
    | succ i =>
      rw [lsbBits_length] at htail
      rw [Nat.mul_succ, Nat.add_comm (3 * i), ← Nat.add_assoc]
      exact ih htail i (Nat.lt_of_succ_lt_succ hi)

theorem length_lsb3 (cls : List (BitVec 3)) : (cls.flatMap fun l => lsbBits 3 l.toNat).length = 3 * cls.length := by
  induction cls with
  | nil => rfl
  | cons l ls ih => rw [List.flatMap_cons, List.length_append, ih, lsbBits_length, List.length_cons]; omega

/-- The cursor is where its position says. -/
theorem cur_eq_setPos {t : State} (h : t.pos = p) : t.cur = (s.setPos p).cur := by
  subst h
  exact (congrArg State.cur (setPos_pos t)).symm

end

/-! ## The symbols of the sequence -/

/-- The extra bits of a symbol of the sequence (R117). -/
def ClOp.extraBits : ClOp → List Bool
  | .len _ => []
  | .prev e => lsbBits 2 e.toNat
  | .zeros e => lsbBits 3 e.toNat
  | .zerosLong e => lsbBits 7 e.toNat

theorem ClOp.bits_eq (T : HuffTable) (op : ClOp) : op.bits T = symbolBits T op.symbol ++ op.extraBits := by
  cases op <;> rfl

/-- The length a symbol writes and how often, after the lengths `ls` (R208 to R212). -/
def ClOp.run (ls : List (BitVec 4)) : ClOp → BitVec 4 × Nat
  | .len l => (l, 1)
  | .prev e => (ls.getLastD 0, e.toNat + 3)
  | .zeros e => (0, e.toNat + 3)
  | .zerosLong e => (0, e.toNat + 11)

theorem ClOp.apply_eq_run {ls ls' : List (BitVec 4)} {op : ClOp} (h : op.apply ls = some ls') :
    ls' = ls ++ List.replicate (op.run ls).2 (op.run ls).1 ∧ 1 ≤ (op.run ls).2 := by
  cases op with
  | len l =>
    cases h
    exact ⟨rfl, Nat.le_refl 1⟩
  | prev e =>
    rw [ClOp.apply] at h
    split at h
    · cases h
    · cases h
      exact ⟨rfl, Nat.succ_pos _⟩
  | zeros e =>
    cases h
    exact ⟨rfl, Nat.succ_pos _⟩
  | zerosLong e =>
    cases h
    exact ⟨rfl, Nat.succ_pos _⟩

/-- From s to t: LENS holds the lengths `ls`, as before from there on, and NL counts them; the cursor may have moved. -/
structure Filled (s : State) (ls : List (BitVec 4)) (t : State) : Prop where
  frame : t = { s with cur := t.cur, hdr := { s.hdr with lens := t.hdr.lens, nl := t.hdr.nl } }
  nl : t.hdr.nl.toNat = ls.length
  lensLength : t.hdr.lens.length = 320
  lens : ∀ i, i < 320 → t.hdr.lens.getD i 0 = if i < ls.length then ls.getD i 0 else s.hdr.lens.getD i 0

section
variable {s t : State} {ls ls' : List (BitVec 4)}

theorem Filled.start (hlens : s.hdr.lens.length = 320) : Filled s [] { s with hdr := { s.hdr with nl := 0 } } :=
  ⟨rfl, rfl, hlens, fun _ _ => rfl⟩

theorem Filled.lengthCount (h : Filled s ls t) : t.lengthCount = s.lengthCount := by
  rw [h.frame]
  rfl

theorem Filled.tabs (h : Filled s ls t) : t.tabs = s.tabs := by rw [h.frame]

theorem Filled.fitsIn (h : Filled s ls t) (hf : FitsIn s) : FitsIn t := by
  rw [h.frame]
  exact hf

theorem Filled.streamHas (h : Filled s ls t) {p : Nat} {bits : List Bool} (hs : s.streamHas p bits) : t.streamHas p bits := by
  rw [h.frame]
  exact hs

/-- A run of one length after those there. -/
theorem Filled.push (h : Filled s ls t) {v : BitVec 4} {c : Nat} (hroom : ls.length + c ≤ 320) (p : Nat) :
    Filled s (ls ++ List.replicate c v) (pushLengths v c (t.setPos p)) where
  frame := by
    rw [h.frame]
    rfl
  nl := by
    rw [pushLengths_nl, State.setPos_hdr, h.nl, BitVec.toNat_ofNat, List.length_append, List.length_replicate]
    omega
  lensLength := by rw [pushLengths_lens, fillLens_length, State.setPos_hdr, h.lensLength]
  lens := fun i hi => by
    rw [pushLengths_lens, State.setPos_hdr, h.nl, fillLens_getD _ _ _ _ _ (by rw [h.lensLength]; exact hroom), h.lens i hi,
      List.length_append, List.length_replicate]
    by_cases hold : i < ls.length
    · rw [if_neg (by omega), if_pos hold, if_pos (by omega), getD_append_of_lt _ _ hold]
    by_cases hnew : i < ls.length + c
    · rw [if_pos (by omega), if_pos hnew, getD_append_of_le _ _ (by omega),
        getD_eq_getElem_of_lt _ (by rw [List.length_replicate]; omega), List.getElem_replicate]
    · rw [if_neg (by omega), if_neg hold, if_neg hnew]

/-- The last of the lengths there is what 16 repeats. -/
theorem Filled.getD_last (h : Filled s ls t) (hne : ls ≠ []) (hroom : ls.length ≤ 320) :
    t.hdr.lens.getD (t.hdr.nl.toNat - 1) 0 = ls.getLastD 0 := by
  have hpos : 0 < ls.length := List.length_pos_iff.mpr hne
  rw [h.nl, h.lens _ (by omega), if_pos (by omega), List.getLastD_eq_getLast?, List.getLast?_eq_getElem?,
    List.getD_eq_getElem?_getD]

theorem clSymbol_len (l : BitVec 4) (s : State) : clSymbol (l.setWidth 9) s = clLength l s := by
  have hnat : (l.setWidth 9).toNat = l.toNat := by
    rw [BitVec.toNat_setWidth]
    omega
  rw [clSymbol, if_pos (by omega)]
  exact congrArg (clLength · s) (BitVec.eq_of_toNat_eq (by rw [BitVec.toNat_setWidth, hnat]; omega))

theorem clSymbol_prev (s : State) : clSymbol 16 s = clRepeatPrev s := rfl

theorem clSymbol_zeros (s : State) : clSymbol 17 s = clRepeatZeroShort s := rfl

theorem clSymbol_zerosLong (s : State) : clSymbol 18 s = clRepeatZeroLong s := rfl

/-- A symbol whose extra bits stand at the cursor writes its run. -/
theorem Filled.clSymbol (h : Filled s ls t) (hf : FitsIn s) (hcount : s.lengthCount ≤ 320) {op : ClOp}
    (happly : op.apply ls = some ls') (hroom : ls'.length ≤ s.lengthCount) {p : Nat} (hbits : s.streamHas p op.extraBits) :
    Machine.clSymbol op.symbol (t.setPos p) =
      .ok () (pushLengths (op.run ls).1 (op.run ls).2 (t.setPos (p + op.extraBits.length))) := by
  obtain ⟨hls', -⟩ := ClOp.apply_eq_run happly
  have htf := h.fitsIn hf
  have hnl := h.nl
  have hcountT := h.lengthCount
  have hrun : t.hdr.nl.toNat + (op.run ls).2 ≤ t.lengthCount := by
    rw [hls', List.length_append, List.length_replicate] at hroom
    omega
  have hword : ∀ {w : Nat} (e : BitVec w), w ≤ 32 → (BitVec.ofNat 32 e.toNat).toNat = e.toNat := fun e hw => by
    have := e.isLt
    have : 2 ^ _ ≤ 2 ^ 32 := Nat.pow_le_pow_right (by decide) hw
    rw [BitVec.toNat_ofNat]
    exact Nat.mod_eq_of_lt (by omega)
  cases op with
  | len l => exact clSymbol_len l _
  | prev e =>
    have hread := readBitsLSB_of_has htf (by decide) (h.streamHas hbits) e.isLt
    have hne : ls ≠ [] := fun h0 => by simp [ClOp.apply, h0] at happly
    have hnl0 : (t.setPos (p + 2)).hdr.nl ≠ 0 := fun h0 => hne (List.length_eq_zero_iff.mp (hnl.symm.trans (congrArg BitVec.toNat h0)))
    have hlast := h.getD_last hne (by rw [← hnl]; omega)
    rw [ClOp.symbol, clSymbol_prev, clRepeatPrev, hread, bind_ok, if_neg hnl0, hword e (by decide), State.setPos_hdr, hlast]
    exact repeatLength_eq hrun
  | zeros e =>
    have hread := readBitsLSB_of_has htf (by decide) (h.streamHas hbits) e.isLt
    rw [ClOp.symbol, clSymbol_zeros, clRepeatZeroShort, hread, bind_ok, hword e (by decide)]
    exact repeatLength_eq hrun
  | zerosLong e =>
    have hread := readBitsLSB_of_has htf (by decide) (h.streamHas hbits) e.isLt
    rw [ClOp.symbol, clSymbol_zerosLong, clRepeatZeroLong, hread, bind_ok, hword e (by decide)]
    exact repeatLength_eq hrun

end

/-! ## The loop -/

theorem length_le_of_expandLens : ∀ {ops : List ClOp} {ls ls' : List (BitVec 4)}, expandLens ops ls = some ls' →
    ls.length ≤ ls'.length := by
  intro ops
  induction ops with
  | nil =>
    intro ls ls' h
    cases h
    exact Nat.le_refl _
  | cons op ops ih =>
    intro ls ls' h
    rw [expandLens] at h
    split at h
    case h_1 mid happly =>
      have hmid := congrArg List.length (ClOp.apply_eq_run happly).1
      rw [List.length_append] at hmid
      have := ih h
      omega
    case h_2 => cases h

theorem clLoop_done {s : State} (h : s.lengthCount ≤ s.hdr.nl.toNat) (k : Nat) : clLoop k s = .ok () s := by
  cases k with
  | zero => rfl
  | succ k => exact if_neg (Nat.not_lt.mpr h)

theorem clLoop_more {s : State} (h : s.hdr.nl.toNat < s.lengthCount) (k : Nat) : clLoop (k + 1) s =
    (decodeSymbol s.tabs.cl s).bind fun r s => (clSymbol r.1 s).bind fun _ s => clLoop k s := if_pos h

section
variable {s : State} (hf : FitsIn s) (hcount : s.lengthCount ≤ 320) {cl : List (BitVec 4)} (hb : Built s.tabs.cl cl)
include hf hcount hb

/-- One symbol of the sequence. -/
theorem Filled.clLoop_op {t : State} {ls ls' : List (BitVec 4)} (h : Filled s ls t) {op : ClOp}
    (hcode : codeOf s.tabs.cl op.symbol ≠ none) (happly : op.apply ls = some ls') (hroom : ls'.length ≤ s.lengthCount)
    (hbits : s.streamHas t.pos (op.bits s.tabs.cl)) :
    ∃ u, Filled s ls' u ∧ u.pos = t.pos + (op.bits s.tabs.cl).length ∧ ∀ k, clLoop (k + 1) t = clLoop k u := by
  obtain ⟨hls', hone⟩ := ClOp.apply_eq_run happly
  have hfits := hbits.1
  rw [ClOp.bits_eq] at hbits hfits ⊢
  obtain ⟨hsym, hextra⟩ := streamHas_append hbits
  have hmore : t.hdr.nl.toNat < t.lengthCount := by
    rw [hls', List.length_append, List.length_replicate] at hroom
    rw [h.nl, h.lengthCount]
    omega
  have hdec := hb.decode_symbolBits (h.fitsIn hf) hcode (h.streamHas hsym)
  have hlen := congrArg List.length hls'
  rw [List.length_append, List.length_replicate] at hlen
  rw [List.length_append] at hfits ⊢
  refine ⟨_, hls' ▸ h.push (by omega) (t.pos + (symbolBits s.tabs.cl op.symbol).length + op.extraBits.length), ?_, fun k => ?_⟩
  · rw [pushLengths_pos, Nat.add_assoc]
    exact pos_setPos_end (t := s) hfits
  · rw [clLoop_more hmore k, h.tabs, hdec, bind_ok, h.clSymbol hf hcount happly hroom hextra, bind_ok]

/-- The symbols of a sequence, one after the other; what fuel is left suffices for the lengths that are not there. -/
theorem Filled.clLoop_ops : ∀ {ops : List ClOp} {ls ls' : List (BitVec 4)} {t : State} {k : Nat}, Filled s ls t →
    (∀ op ∈ ops, codeOf s.tabs.cl op.symbol ≠ none) → expandLens ops ls = some ls' → ls'.length ≤ s.lengthCount →
    s.streamHas t.pos (ops.flatMap fun op => op.bits s.tabs.cl) → s.lengthCount ≤ ls.length + k →
    ∃ k' u, clLoop k t = clLoop k' u ∧ Filled s ls' u ∧ u.pos = t.pos + (ops.flatMap fun op => op.bits s.tabs.cl).length ∧
      s.lengthCount ≤ ls'.length + k' := by
  intro ops
  induction ops with
  | nil =>
    intro ls ls' t k h _ hexp _ _ hk
    cases hexp
    exact ⟨k, t, rfl, h, rfl, hk⟩
  | cons op ops ih =>
    intro ls ls' t k h hcodes hexp hroom hbits hk
    rw [expandLens] at hexp
    split at hexp
    case h_2 => cases hexp
    case h_1 mid happly =>
      rw [List.flatMap_cons] at hbits ⊢
      obtain ⟨hop, hrest⟩ := streamHas_append hbits
      have hmidle := length_le_of_expandLens hexp
      obtain ⟨hmid, hone⟩ := ClOp.apply_eq_run happly
      have hmidlen := congrArg List.length hmid
      rw [List.length_append, List.length_replicate] at hmidlen
      obtain ⟨u, hu, hupos, hloop⟩ :=
        h.clLoop_op hf hcount hb (hcodes op List.mem_cons_self) happly (by omega) hop
      obtain ⟨k, rfl⟩ : ∃ j, k = j + 1 := ⟨k - 1, by omega⟩
      rw [← hupos] at hrest
      obtain ⟨k', v, hloop', hv, hvpos, hk'⟩ := ih (k := k) hu (fun op hop => hcodes op (List.mem_cons_of_mem _ hop)) hexp hroom hrest
        (by omega)
      exact ⟨k', v, (hloop k).trans hloop', hv, by rw [hvpos, hupos, List.length_append, Nat.add_assoc], hk'⟩

theorem readSequence_ops (hlens : s.hdr.lens.length = 320) {ops : List ClOp} {ls : List (BitVec 4)}
    (hcodes : ∀ op ∈ ops, codeOf s.tabs.cl op.symbol ≠ none) (hexp : expandLens ops [] = some ls)
    (hroom : ls.length ≤ s.lengthCount) (hbits : s.streamHas s.pos (ops.flatMap fun op => op.bits s.tabs.cl)) :
    ∃ k u, readSequence s = clLoop k u ∧ Filled s ls u ∧
      u.pos = s.pos + (ops.flatMap fun op => op.bits s.tabs.cl).length ∧ s.lengthCount ≤ ls.length + k :=
  (Filled.start hlens).clLoop_ops hf hcount hb hcodes hexp hroom hbits (Nat.le_add_left _ _)

end

end Sys2Proof.Machine
end

section
/-! PROOFS. The P_DYNAMIC step (42_deflate_blocks.md R206 to R213) where the stream holds a header, and its errors. -/

namespace Sys2Proof.Machine

/-! ## A header up to the lengths of its sequence -/

theorem exec_btypeDynamic {s : State} (hp : s.phase = .dynamic) : exec .btypeDynamic s = (dynamicBody s).toOutcome := by
  rw [show exec .btypeDynamic s = execBtypeDynamic s from rfl, execBtypeDynamic, if_pos hp]

section
variable {s : State} {h : Header} {lens : List (BitVec 4)}

theorem Header.bits_length (h : Header) (old : HuffTable) : (h.bits old).length =
    14 + 3 * h.cls.length + (h.ops.flatMap fun op => op.bits (h.clTable old)).length := by
  simp only [Header.bits, List.length_append, lsbBits_length, length_lsb3]

/-- The parts of a header where they stand. -/
theorem streamHas_header {p : Nat} {old : HuffTable} (hbits : s.streamHas p (h.bits old)) :
    s.streamHas p (lsbBits 5 (h.hlit - 257)) ∧ s.streamHas (p + 5) (lsbBits 5 (h.hdist - 1)) ∧
      s.streamHas (p + 10) (lsbBits 4 (h.cls.length - 4)) ∧
      s.streamHas (p + 14) (h.cls.flatMap fun l => lsbBits 3 l.toNat) ∧
      s.streamHas (p + 14 + 3 * h.cls.length) (h.ops.flatMap fun op => op.bits (h.clTable old)) := by
  rw [Header.bits] at hbits
  obtain ⟨hbits, hops⟩ := streamHas_append hbits
  obtain ⟨hbits, hcls⟩ := streamHas_append hbits
  obtain ⟨hbits, hclen⟩ := streamHas_append hbits
  obtain ⟨hlit, hdist⟩ := streamHas_append hbits
  simp only [List.length_append, lsbBits_length, length_lsb3] at hops hcls hclen hdist
  rw [← Nat.add_assoc] at hops
  exact ⟨hlit, hdist, hclen, hcls, hops⟩

/-- What the header registers hold once the CL lengths are read. -/
theorem Header.Reads.counts (hr : h.Reads s.tabs.cl lens) (hbits : s.streamHas s.pos (h.bits s.tabs.cl)) :
    h.cls.length = s.lsbValue (s.pos + 10) 4 + 4 ∧ (s.clsHdr h.cls.length).hlit.toNat = h.hlit ∧
      (s.clsHdr h.cls.length).hdist.toNat = h.hdist ∧ (s.clsHdr h.cls.length).hclen.toNat = h.cls.length ∧
      ∀ i, i < 19 → (s.clsHdr h.cls.length).cll.getD (transmitOrder.getD i 0) 0 = h.cls.getD i 0 := by
  obtain ⟨hlitBits, hdistBits, hclenBits, hclsBits, -⟩ := streamHas_header hbits
  have hlit := hr.hlit
  have hdist := hr.hdist
  have hclen := hr.hclen
  have vlit := (streamHas_lsb hlitBits (by omega)).2
  have vdist := (streamHas_lsb hdistBits (by omega)).2
  have vclen := (streamHas_lsb hclenBits (by omega)).2
  have hheld := clsHdr_held (s := s) hclen.2
  have hcount : h.cls.length = s.lsbValue (s.pos + 10) 4 + 4 := by omega
  refine ⟨hcount, by rw [hheld.hlit]; omega, by rw [hheld.hdist]; omega, by rw [hheld.hclen]; omega, fun i hi => ?_⟩
  refine BitVec.eq_of_toNat_eq ?_
  rw [hheld.cll i hi]
  split
  case isTrue hin => exact streamHas_lsb3 h.cls hclsBits i hin
  case isFalse hin => rw [getD_of_length_le _ (by omega)]; rfl

/-- With the bits of a header at the cursor, up to the lengths `lens` of its sequence, the step goes on in a state that
holds them, T_CL built, with fuel left for the lengths still to come. -/
theorem Header.Reads.dynamicBody_eq (hr : h.Reads s.tabs.cl lens) (hf : FitsIn s) (hlens : s.hdr.lens.length = 320)
    (hroom : lens.length ≤ h.hlit + h.hdist) (hbits : s.streamHas s.pos (h.bits s.tabs.cl)) :
    ∃ k u, dynamicBody s = (clLoop k u).bind (fun _ s => buildTables s) ∧
      u = { s.setPos (s.pos + (h.bits s.tabs.cl).length) with
            hdr := u.hdr, tabs := { s.tabs with cl := h.clTable s.tabs.cl } } ∧
      h.Held lens s.hdr u.hdr ∧ h.hlit + h.hdist ≤ lens.length + k := by
  obtain ⟨hcount, hlit, hdist, hclen, hcll⟩ := hr.counts hbits
  obtain ⟨-, -, -, hclsBits, hopsBits⟩ := streamHas_header hbits
  have hend : s.pos + 14 + 3 * h.cls.length ≤ s.streamEnd := by
    have := hclsBits.1
    rwa [length_lsb3] at this
  have hlitMax := hr.hlit.2
  have hdistMax := hr.hdist.2
  let c : State := (s.afterCls h.cls.length).setTable .cl (h.clTable s.tabs.cl)
  have hcpos : c.pos = s.pos + 14 + 3 * h.cls.length := pos_setPos_end (s := s) (t := s) hend
  have hccount : c.lengthCount = h.hlit + h.hdist := by
    rw [← hlit, ← hdist]
    rfl
  have hbuilt : Built c.tabs.cl (clVector h.cls) := ⟨by rw [clVector, List.length_map]; decide, hr.clKraft, _, rfl⟩
  obtain ⟨k, u, hseq, hfill, hupos, hk⟩ := readSequence_ops (s := c) hf (by omega) hbuilt hlens hr.codes hr.expand
    (by omega) (by rw [hcpos]; exact hopsBits)
  have hframe := hfill.frame
  refine ⟨k, u, ?_, ?_, ?_, by omega⟩
  · rw [dynamicBody_build hf hcount hend hcll, buildFromLengths_ok hr.clKraft, bind_ok]
    exact congrArg (Res.bind · _) hseq
  · have hupos' : u.pos = s.pos + (h.bits s.tabs.cl).length := by
      rw [hupos, hcpos, Header.bits_length, Nat.add_assoc s.pos, Nat.add_assoc s.pos]
      rfl
    rw [hframe, cur_eq_setPos (s := s) hupos']
    rfl
  · exact
      { hlit := by
          rw [hframe]
          exact hlit
        hdist := by
          rw [hframe]
          exact hdist
        hclen := by
          rw [hframe]
          exact hclen
        cllLength := by
          rw [hframe]
          exact cllAfter_length _ _
        cll := fun i hi => by
          rw [hframe]
          exact hcll i hi
        nl := hfill.nl
        lensLength := hfill.lensLength
        lens := hfill.lens }

end

/-! ## The split of R213 -/

section
variable {u : State} {h : Header} {lens : List (BitVec 4)} {old : DynHeader} (hheld : h.Held lens old u.hdr)
  (hlen : lens.length = h.hlit + h.hdist)
include hheld hlen

theorem Header.Held.llLengths : Machine.llLengths u = lengthVector 288 (lens.take h.hlit) := by
  refine List.map_congr_left fun i hi => ?_
  have hi : i < 288 := List.mem_range.mp hi
  rw [hheld.hlit]
  by_cases hin : i < h.hlit
  · rw [if_pos hin, hheld.lens i (by omega), if_pos (by omega), List.getD_eq_getElem?_getD, List.getD_eq_getElem?_getD,
      List.getElem?_take_of_lt hin]
  · rw [if_neg hin, getD_of_length_le _ (by rw [List.length_take]; omega)]

theorem Header.Held.dLengths (hmax : h.hlit ≤ 288) : Machine.dLengths u = lengthVector 32 (lens.drop h.hlit) := by
  refine List.map_congr_left fun i hi => ?_
  have hi : i < 32 := List.mem_range.mp hi
  rw [hheld.hdist, hheld.hlit]
  by_cases hin : i < h.hdist
  · rw [if_pos hin, hheld.lens _ (by omega), if_pos (by omega), List.getD_eq_getElem?_getD, List.getD_eq_getElem?_getD,
      List.getElem?_drop]
  · rw [if_neg hin, getD_of_length_le _ (by rw [List.length_drop]; omega)]

end

section
variable {u : State} {ll dl : List (BitVec 4)} (hll : llLengths u = ll) (hdl : dLengths u = dl)
include hll hdl

theorem buildTables_eq (hL : kraftSum ll ≤ 2 ^ 15) (hD : kraftSum dl ≤ 2 ^ 15) : buildTables u = .ok ()
    { u with
      tabs := { u.tabs with ll := buildTable u.tabs.ll ll, d := buildTable u.tabs.d dl }
      blk := { u.blk with act := true }
      phase := .tokens } := by
  subst hll hdl
  exact (bind_of_ok (buildFromLengths_ok hL)).trans (bind_of_ok (buildFromLengths_ok (s := u.setTable .ll _) hD))

omit hdl in
theorem buildTables_llOver (hL : 2 ^ 15 < kraftSum ll) : buildTables u = raise .invalidCodeLengths u := by
  subst hll
  exact bind_of_raise (buildFromLengths_over hL)

theorem buildTables_dOver (hL : kraftSum ll ≤ 2 ^ 15) (hD : 2 ^ 15 < kraftSum dl) : buildTables u =
    raise .invalidCodeLengths { u with tabs := { u.tabs with ll := buildTable u.tabs.ll ll } } := by
  subst hll hdl
  exact (bind_of_ok (buildFromLengths_ok hL)).trans (bind_of_raise (buildFromLengths_over (s := u.setTable .ll _) hD))

end

/-- Settles O14: the header's lengths are all there, so the loop is done, and R213 splits and builds. -/
theorem dynamicStep : Obligations.DynamicStep := by
  unfold Obligations.DynamicStep
  rintro s h lens ll dl q hinv hp hr hlen hbits rfl rfl rfl
  have hf : FitsIn s := hinv.input (by rw [hp]; rfl)
  obtain ⟨k, u, hbody, hframe, hheld, -⟩ := hr.dynamicBody_eq hf hinv.lensLength (Nat.le_of_eq hlen) hbits
  have hdone : u.lengthCount ≤ u.hdr.nl.toNat := by
    rw [State.lengthCount, hheld.hlit, hheld.hdist, hheld.nl]
    exact Nat.le_of_eq hlen.symm
  have hll := hheld.llLengths hlen
  have hdl := hheld.dLengths hlen hr.hlit.2
  rw [exec_btypeDynamic hp, hbody, clLoop_done hdone, bind_ok]
  have hbytes : ∀ sp a, u.byteAt sp a = s.byteAt sp a := fun sp a => by
    rw [hframe]
    rfl
  refine ⟨fun hL hD => ⟨_, congrArg Res.toOutcome (buildTables_eq hll hdl hL hD), ?_, hheld, hbytes⟩,
    fun hL => ⟨_, congrArg Res.toOutcome (buildTables_llOver hll hL), congrArg (errorEntry _) hframe, hheld, hbytes⟩,
    fun hL hD => ⟨_, congrArg Res.toOutcome (buildTables_dOver hll hdl hL hD), ?_, hheld, hbytes⟩⟩
  · conv => lhs; rw [hframe]
    rfl
  · conv => lhs; rw [hframe]
    rfl

/-! ## The other raises -/

section
variable {s t : State}

/-- The meaning of a decoded CL symbol. -/
theorem exec_cl {c : BitVec 5} {x : BitVec 9} {i : Instr} (hcx : c.toNat = x.toNat) (hdec : decode (.cl c) = .ok i)
    (s : State) : exec i s = (clSymbol x s).toOutcome := by
  obtain rfl : x = c.setWidth 9 := BitVec.eq_of_toNat_eq (by rw [BitVec.toNat_setWidth, hcx]; omega)
  have hcases : ∀ c : BitVec 5, c.toNat ≤ 15 ∨ c = 16 ∨ c = 17 ∨ c = 18 ∨ 19 ≤ c.toNat := by decide
  obtain h15 | rfl | rfl | rfl | h19 := hcases c
  · obtain ⟨l, rfl⟩ : ∃ l : BitVec 4, c = l.setWidth 5 :=
      ⟨c.setWidth 4, BitVec.eq_of_toNat_eq (by simp only [BitVec.toNat_setWidth]; omega)⟩
    rw [show decode (.cl (l.setWidth 5)) = .ok (.clLen015 l) from decodeCL_length l] at hdec
    cases hdec
    rw [show (l.setWidth 5).setWidth 9 = l.setWidth 9 from
      BitVec.eq_of_toNat_eq (by simp only [BitVec.toNat_setWidth]; omega), clSymbol_len]
    rfl
  · cases hdec
    rfl
  · cases hdec
    rfl
  · cases hdec
    rfl
  · rw [show decode (.cl c) = _ from decodeCL_above c h19] at hdec
    cases hdec

/-- A symbol that ends in P_ERROR has raised. -/
theorem clSymbol_raised {x : BitVec 9} (hcount : s.lengthCount ≤ 320) (hroom : s.hdr.nl.toNat < s.lengthCount)
    (hp : s.phase ≠ .error) (h : (clSymbol x s).toOutcome = .next t) (ht : t.phase = .error) : clSymbol x s = .raised t := by
  cases hsym : clSymbol x s with
  | ok a u =>
    rw [hsym] at h
    cases h
    rw [(clSymbol_fills hcount hroom hsym).frame] at ht
    exact absurd ht hp
  | raised u =>
    rw [hsym] at h
    cases h
    rfl
  | fault f =>
    rw [hsym] at h
    cases h

end

/-- Settles O60: each raise after the reads before it, which `readCounts`, `readClLengths` and the sequence give. -/
theorem dynamicErrors : Obligations.DynamicErrors := by
  unfold Obligations.DynamicErrors
  rintro s p hc hinv hp rfl hhc
  have hf : FitsIn s := hinv.input (by rw [hp]; rfl)
  have hclen : hc ≤ 19 := by
    have := lsbValue_lt s (s.pos + 10) 4
    omega
  rw [exec_btypeDynamic hp]
  have hraise : ∀ {e : ErrorKind} {u : State}, dynamicBody s = raise e u →
      (dynamicBody s).toOutcome = .next (errorEntry e u) := fun h => by rw [h, toOutcome_raise]
  refine ⟨fun hend => hraise (bind_of_raise (readCounts_end5 hend)),
    fun hfits hend => hraise (bind_of_raise (readCounts_end10 hf hfits hend)),
    fun hfits hend => hraise (bind_of_raise (readCounts_end14 hf hfits hend)),
    fun i hi hfits hend => ?clLength, fun hfits hK => ?clKraft, fun h lens hr hless hbits => ?sequence⟩
  case clLength =>
    obtain ⟨k, hk⟩ : ∃ k, i + (k + 1) = hc := ⟨hc - i - 1, by omega⟩
    have hbody := dynamicBody_afterCls hf (hk.trans hhc) hfits
    rw [readClLengths_short hfits hend] at hbody
    exact ⟨_, hraise hbody, rfl, clsHdr_held (by omega)⟩
  case clKraft =>
    have hcls : ∀ i, i < 19 → (s.clsHdr hc).cll.getD (transmitOrder.getD i 0) 0 =
        ((List.range hc).map fun i => BitVec.ofNat 3 (s.lsbValue (s.pos + 14 + 3 * i) 3)).getD i 0 := fun i hi => by
      rw [State.clsHdr, cllAfter_getD _ hclen hi, List.getD_eq_getElem?_getD, List.getElem?_map]
      split
      case isTrue hin => rw [List.getElem?_range hin]; rfl
      case isFalse hin => rw [List.getElem?_eq_none (by rw [List.length_range]; omega)]; rfl
    have hbody := dynamicBody_build hf hhc hfits hcls
    rw [buildFromLengths_over hK] at hbody
    exact ⟨_, hraise hbody, rfl, clsHdr_held hclen⟩
  case sequence =>
    obtain ⟨k, u, hbody, hframe, hheld, hk⟩ := hr.dynamicBody_eq hf hinv.lensLength (Nat.le_of_lt hless) hbits
    have hcount : u.lengthCount = h.hlit + h.hdist := by rw [State.lengthCount, hheld.hlit, hheld.hdist]
    have hmore : u.hdr.nl.toNat < u.lengthCount := by rw [hheld.nl, hcount]; exact hless
    have huf : FitsIn u := by
      rw [hframe]
      exact hf
    have hmax := hr.hlit.2
    have hdmax := hr.hdist.2
    obtain ⟨k, rfl⟩ : ∃ j, k = j + 1 := ⟨k - 1, by omega⟩
    rw [clLoop_more hmore] at hbody
    refine ⟨u, hframe, hheld, fun hfail => hraise ?_, fun L hend => hraise ?_, fun L x c i t hm hcx hdec hexec ht => ?_⟩
    · rw [hbody, hfail.decode huf, bind_raise, bind_raise]
    · rw [hbody, hend.decode huf, bind_raise, bind_raise]
    · have hphase : (u.setPos (u.pos + L)).phase ≠ .error := by
        rw [State.setPos_phase, hframe]
        exact fun h => Phase.noConfusion (hp.symm.trans h)
      have hraised := clSymbol_raised (s := u.setPos (u.pos + L)) (by rw [State.setPos_lengthCount]; omega) hmore hphase
        (exec_cl hcx hdec _ ▸ hexec) ht
      rw [hbody, hm.decode huf, bind_ok, hraised]
      rfl

end Sys2Proof.Machine
end

section
/-! PROOFS. A fixed block as R134 writes it: the bits of its tokens, and the block's steps over them (30_encoding.md R114,
R120 to R127, 43_lz77_expander.md R240 to R249). -/

namespace Sys2Proof.Machine

/-! ## The symbol for a length and for a distance (R134) -/

/-- The place found is the last of those from the first on whose base is at most v. -/
theorem entryFor_spec {v : Nat} : ∀ {es : List (Nat × Nat)} (i : Nat), 0 < es.length → (es.getD 0 (0, 0)).2 ≤ v →
    ∃ k, k < es.length ∧ entryFor v i es = i + k ∧ (es.getD k (0, 0)).2 ≤ v ∧
      (k + 1 < es.length → v < (es.getD (k + 1) (0, 0)).2) := by
  intro es
  induction es with
  | nil => exact fun i h => absurd h (Nat.lt_irrefl 0)
  | cons e es ih =>
    intro i _ hfirst
    have hhead : entryFor v i (e :: es) = max i (entryFor v (i + 1) es) := if_pos hfirst
    by_cases hnext : 0 < es.length ∧ (es.getD 0 (0, 0)).2 ≤ v
    · obtain ⟨k, hk, hplace, hbase, hlast⟩ := ih (i + 1) hnext.1 hnext.2
      exact ⟨k + 1, Nat.succ_lt_succ hk, by rw [hhead, hplace]; omega, hbase, fun h => hlast (Nat.lt_of_succ_lt_succ h)⟩
    · have hzero : entryFor v (i + 1) es = 0 := by
        cases es with
        | nil => rfl
        | cons e' es => exact if_neg fun h => hnext ⟨Nat.succ_pos _, h⟩
      refine ⟨0, Nat.succ_pos _, by rw [hhead, hzero]; omega, hfirst, fun h => ?_⟩
      exact Nat.lt_of_not_le fun hle => hnext ⟨Nat.lt_of_succ_lt_succ h, hle⟩

/-- Where each row's range ends before the next one's base, the row found holds v in its range. -/
theorem entryFor_range {v : Nat} {es : List (Nat × Nat)} (hpos : 0 < es.length) (hfirst : (es.getD 0 (0, 0)).2 ≤ v)
    (hchain : ∀ k, k < es.length - 1 → (es.getD (k + 1) (0, 0)).2 ≤ (es.getD k (0, 0)).2 + 2 ^ (es.getD k (0, 0)).1)
    (hlast : v < (es.getD (es.length - 1) (0, 0)).2 + 2 ^ (es.getD (es.length - 1) (0, 0)).1) :
    entryFor v 0 es < es.length ∧ (es.getD (entryFor v 0 es) (0, 0)).2 ≤ v ∧
      v < (es.getD (entryFor v 0 es) (0, 0)).2 + 2 ^ (es.getD (entryFor v 0 es) (0, 0)).1 := by
  obtain ⟨k, hk, hplace, hbase, hnext⟩ := entryFor_spec (v := v) 0 hpos hfirst
  rw [hplace, Nat.zero_add]
  refine ⟨hk, hbase, ?_⟩
  by_cases hend : k + 1 < es.length
  · exact Nat.lt_of_lt_of_le (hnext hend) (hchain k (by omega))
  · obtain rfl : k = es.length - 1 := by omega
    exact hlast

/-- The length symbol for a length is a row whose range holds it. -/
theorem lengthSymbolFor_row {len : Nat} (h3 : 3 ≤ len) (h258 : len ≤ 258) : ∃ e b, (lengthSymbolFor len, e, b) ∈ lengthRows ∧
    lengthEntry (lengthSymbolFor len) = (e, b) ∧ b ≤ len ∧ len - b < 2 ^ e := by
  have hrows : ∀ k, k < 28 → (257 + k, (lengthTable.take 28).getD k (0, 0)) ∈ lengthRows := by decide
  obtain rfl | hlt : len = 258 ∨ len ≤ 257 := by omega
  · exact ⟨0, 258, by decide, rfl, by decide, by decide⟩
  · obtain ⟨hk, hbase, hrange⟩ := entryFor_range (v := len) (es := lengthTable.take 28) (by decide) h3 (by decide)
      (Nat.lt_of_le_of_lt hlt (by decide))
    have hrow := hrows _ hk
    rw [show 257 + entryFor len 0 (lengthTable.take 28) = lengthSymbolFor len from (if_neg (by omega)).symm] at hrow
    generalize (lengthTable.take 28).getD (entryFor len 0 (lengthTable.take 28)) (0, 0) = row at hrow hbase hrange
    obtain ⟨e, b⟩ := row
    dsimp only at hbase hrange
    exact ⟨e, b, hrow, (lengthRows_entry hrow).2.2, hbase, by omega⟩

/-- The D symbol for a distance is a row whose range holds it. -/
theorem distSymbolFor_row {dist : Nat} (h1 : 1 ≤ dist) (hmax : dist ≤ 32768) : ∃ e b, (distSymbolFor dist, e, b) ∈ distRows ∧
    distEntry (distSymbolFor dist) = (e, b) ∧ b ≤ dist ∧ dist - b < 2 ^ e := by
  have hrows : ∀ k, k < 30 → (k, distTable.getD k (0, 0)) ∈ distRows := by decide
  obtain ⟨hk, hbase, hrange⟩ := entryFor_range (v := dist) (es := distTable) (by decide) h1 (by decide)
    (Nat.lt_of_le_of_lt hmax (by decide))
  have hrow : (distSymbolFor dist, distTable.getD (entryFor dist 0 distTable) (0, 0)) ∈ distRows := hrows _ hk
  generalize distTable.getD (entryFor dist 0 distTable) (0, 0) = row at hrow hbase hrange
  obtain ⟨e, b⟩ := row
  dsimp only at hbase hrange
  exact ⟨e, b, hrow, (distRows_entry hrow).2, hbase, by omega⟩

/-! ## The bits of a block -/

/-- The bits of a token in a fixed block (R120, R134). -/
def Tok.bits : Tok → List Bool
  | .lit b => symbolBits fLL (b.setWidth 9)
  | .backRef len dist =>
    symbolBits fLL (BitVec.ofNat 9 (lengthSymbolFor len)) ++
      lsbBits (lengthEntry (lengthSymbolFor len)).1 (len - (lengthEntry (lengthSymbolFor len)).2) ++
      symbolBits fD (BitVec.ofNat 9 (distSymbolFor dist)) ++
      lsbBits (distEntry (distSymbolFor dist)).1 (dist - (distEntry (distSymbolFor dist)).2)

theorem Asm.line_tok {a : Asm} (ha : a.fixedBlock = true) (t : Tok) : a.line t.line = a.emit t.bits := by
  have hll : a.llTable = fLL := if_pos ha
  have hd : a.dTable = fD := if_pos ha
  cases t with
  | lit b => rw [Tok.line, Asm.line, hll, BitVec.ofNat_toNat, Tok.bits]
  | backRef len dist => rw [Tok.line, Asm.line, matchBits, hll, hd, Tok.bits]

theorem Asm.foldl_toks : ∀ (toks : List Tok) {a : Asm}, a.fixedBlock = true →
    (toks.map Tok.line).foldl Asm.line a = a.emit (toks.flatMap Tok.bits) := by
  intro toks
  induction toks with
  | nil =>
    intro a _
    rw [List.map_nil, List.foldl_nil, List.flatMap_nil, Asm.emit, List.append_nil]
  | cons t ts ih =>
    intro a ha
    rw [List.map_cons, List.foldl_cons, Asm.line_tok ha, ih (a := a.emit t.bits) ha, List.flatMap_cons, Asm.emit, Asm.emit, Asm.emit,
      List.append_assoc]

/-- The bits of a fixed block: its header, its tokens, and the end-of-block code. -/
theorem assembleBits_fixed (f : Bool) (toks : List Tok) :
    assembleBits ([.fixed f.toNat] ++ toks.map Tok.line ++ [.eob]) =
      lsbBits 1 f.toNat ++ lsbBits 2 1 ++ (toks.flatMap Tok.bits ++ symbolBits fLL 256) := by
  have hfixed : ([Line.fixed f.toNat].foldl Asm.line Asm.start).fixedBlock = true := rfl
  rw [assembleBits, List.foldl_append, List.foldl_append, Asm.foldl_toks toks hfixed, ← List.append_assoc]
  rfl

/-! ## What a token says -/

/-- The output after a token. -/
def Tok.output (out : List Byte) : Tok → List Byte
  | .lit b => out ++ [b]
  | .backRef len dist => extendOutput dist len out

theorem tokensOutput_cons {t : Tok} {ts : List Tok} {out r : List Byte} (h : tokensOutput (t :: ts) out = some r) :
    t.okAfter out.length = true ∧ tokensOutput ts (t.output out) = some r := by
  have hcases : (if t.okAfter out.length = false then none else tokensOutput ts (t.output out)) = some r := by
    cases t <;> exact h
  split at hcases
  case isTrue => cases hcases
  case isFalse hok => exact ⟨by simpa using hok, hcases⟩

/-- A back-reference appends `n` bytes, byte k being byte k mod `dist` of the last `dist` ones (R249). -/
theorem extendOutput_spec {dist : Nat} (h1 : 1 ≤ dist) : ∀ (n : Nat) (out : List Byte), dist ≤ out.length →
    (extendOutput dist n out).length = out.length + n ∧
      (∀ a, a < out.length → (extendOutput dist n out).getD a 0 = out.getD a 0) ∧
      ∀ k, k < n → (extendOutput dist n out).getD (out.length + k) 0 = out.getD (out.length - dist + k % dist) 0 := by
  intro n
  induction n with
  | zero => exact fun out _ => ⟨rfl, fun _ _ => rfl, fun k hk => absurd hk (Nat.not_lt_zero k)⟩
  | succ n ih =>
    intro out hd
    obtain ⟨hlen, hold, hnew⟩ := ih (out ++ [out.getD (out.length - dist) 0]) (by rw [List.length_append]; omega)
    rw [List.length_append, List.length_singleton] at hlen hold hnew
    have hlast : (out ++ [out.getD (out.length - dist) 0]).getD out.length 0 = out.getD (out.length - dist) 0 := by
      rw [getD_append_of_le _ _ (Nat.le_refl _), Nat.sub_self]
      rfl
    refine ⟨by rw [extendOutput, hlen]; omega, fun a ha => ?_, fun k hk => ?_⟩
    · rw [extendOutput, hold a (by omega), getD_append_of_lt _ _ ha]
    · rw [extendOutput]
      cases k with
      | zero => rw [Nat.add_zero, hold _ (Nat.lt_succ_self _), hlast, Nat.zero_mod, Nat.add_zero]
      | succ k =>
        rw [← Nat.add_assoc, Nat.add_right_comm, hnew k (by omega)]
        have hmod : k % dist < dist := Nat.mod_lt k h1
        have hdiv := Nat.div_add_mod k dist
        by_cases hwrap : k % dist + 1 = dist
        · have hzero : (k + 1) % dist = 0 := by
            rw [← hdiv, Nat.add_assoc, hwrap, ← Nat.mul_succ, Nat.mul_mod_right]
          rw [hzero, show out.length + 1 - dist + k % dist = out.length by omega, hlast, Nat.add_zero]
        · have hstep : (k + 1) % dist = k % dist + 1 := by
            rw [← hdiv, Nat.add_assoc, Nat.mul_add_mod, Nat.mod_eq_of_lt (by omega), Nat.mul_add_mod, Nat.mod_mod]
          rw [hstep, show out.length + 1 - dist + k % dist = out.length - dist + (k % dist + 1) by omega,
            getD_append_of_lt _ _ (by omega)]

theorem Tok.okAfter_backRef {n len dist : Nat} (h : (Tok.backRef len dist).okAfter n = true) :
    3 ≤ len ∧ len ≤ 258 ∧ 1 ≤ dist ∧ dist ≤ 32768 ∧ dist ≤ n := by
  simpa [Tok.okAfter, and_assoc] using h

theorem Tok.length_le_output {t : Tok} {out : List Byte} (h : t.okAfter out.length = true) :
    out.length ≤ (t.output out).length := by
  cases t with
  | lit b =>
    rw [Tok.output, List.length_append]
    exact Nat.le_add_right _ _
  | backRef len dist =>
    obtain ⟨-, -, h1, -, hd⟩ := Tok.okAfter_backRef h
    rw [Tok.output, (extendOutput_spec h1 len out hd).1]
    exact Nat.le_add_right _ _

theorem length_le_tokensOutput : ∀ {toks : List Tok} {out r : List Byte}, tokensOutput toks out = some r →
    out.length ≤ r.length := by
  intro toks
  induction toks with
  | nil =>
    intro out r h
    cases h
    exact Nat.le_refl _
  | cons t ts ih =>
    intro out r h
    obtain ⟨hok, hrest⟩ := tokensOutput_cons h
    exact Nat.le_trans (Tok.length_le_output hok) (ih hrest)

/-! ## The block's steps -/

theorem Advances.streamHas {s t : State} (h : Advances s t) {p : Nat} {bits : List Bool} (hs : s.streamHas p bits) :
    t.streamHas p bits := by
  have hend : t.streamEnd = s.streamEnd := by rw [State.streamEnd, h.regs]; rfl
  have hbit : ∀ k, t.streamBit k = s.streamBit k := fun k => by
    simp only [State.streamBit, State.byteAt, State.memory, h.inMem, h.env]
  exact ⟨hend ▸ hs.1, fun i hi => (hbit _).trans (hs.2 i hi)⟩

theorem Advances.trans {s t u : State} (h : Advances s t) (h' : Advances t u) : Advances s u where
  params := h'.params.trans h.params
  env := h'.env.trans h.env
  inMem := h'.inMem.trans h.inMem
  regs := by rw [h'.regs, h.regs]
  output := Nat.le_trans h.output h'.output
  pixels := Nat.le_trans h.pixels h'.pixels
  dbuf := fun a ha => (h'.dbuf a (Nat.lt_of_lt_of_le ha h.output)).trans (h.dbuf a ha)
  pix := fun a ha => (h'.pix a (Nat.lt_of_lt_of_le ha h.pixels)).trans (h.pix a ha)
  cursor := Nat.le_trans h.cursor h'.cursor
  inStream := fun hs => by
    have hend : t.streamEnd = s.streamEnd := by rw [State.streamEnd, h.regs]; rfl
    exact hend ▸ h'.inStream (hend.symm ▸ h.inStream hs)

/-- In a fixed block begun from s: these bytes have been put out, and the cursor stands at p. -/
structure InFixed (s : State) (f : Bool) (out : List Byte) (p : Nat) (t : State) : Prop where
  inv : Inv t
  advances : Advances s t
  phase : t.phase = .tokens
  act : t.blk.act = false
  bfinal : t.blk.bfinal = f
  pos : t.pos = p
  outLen : t.outLen = out.length
  bytes : ∀ a, a < out.length → t.byteAt .dbuf a = out.getD a 0

theorem codeOf_fLL_ne_none {sym : BitVec 9} (h : sym.toNat < 288) : codeOf fLL sym ≠ none := by
  have hcode := codeOf_fLL sym.toNat h
  rw [BitVec.ofNat_toNat, BitVec.setWidth_eq] at hcode
  rw [hcode]
  (repeat' split) <;> exact Option.some_ne_none _

theorem symbolBits_fD {d : Nat} (h : d < 32) : symbolBits fD (BitVec.ofNat 9 d) = codeBits 5 d := by
  rw [symbolBits, codeOf_fD d h]

section
variable {s t : State} {f : Bool} {out : List Byte} {p : Nat} (hin : s.env.inputs = []) (h : InFixed s f out p t)
include h

theorem InFixed.fitsIn : FitsIn t := h.inv.input (by rw [h.phase]; rfl)

include hin

/-- The step on an LL symbol that stands at the cursor. -/
theorem InFixed.step_symbol {sym : BitVec 9} {i : Instr} (hbits : s.streamHas p (symbolBits fLL sym))
    (hi : decodeLL sym = .ok i) : step t = exec i ((t.setPos (p + (symbolBits fLL sym).length)).setSym sym) := by
  have hsym : sym.toNat < 288 := Nat.lt_of_not_le fun h288 => by
    rw [decodeLL_above sym h288] at hi
    cases hi
  have hdec := fLL_built.decode_symbolBits h.fitsIn (codeOf_fLL_ne_none hsym) (h.pos.symm ▸ h.advances.streamHas hbits)
  rw [h.pos] at hdec
  exact step_tokens_of_ok (h.advances.env ▸ hin) h.phase (fetchToken_of_ok (.inl ⟨h.act, rfl⟩) hdec hi)

/-- A step that stays in the block, by what it leaves. -/
theorem InFixed.after {u : State} {out' : List Byte} {q : Nat} (hstep : step t = .next u) (hphase : u.phase = t.phase)
    (hblk : u.blk = t.blk) (hpos : u.pos = q) (hlen : u.outLen = out'.length)
    (hbytes : ∀ a, a < out'.length → u.byteAt .dbuf a = out'.getD a 0) : InFixed s f out' q u := by
  have htin : t.env.inputs = [] := h.advances.env ▸ hin
  exact ⟨h.inv.step_inv htin hstep, h.advances.trans (h.inv.step_advances htin hstep), hphase.trans h.phase,
    hblk ▸ h.act, hblk ▸ h.bfinal, hpos, hlen, hbytes⟩

theorem InFixed.literal_step {b : Byte} (hbits : s.streamHas p (Tok.lit b).bits) (hroom : out.length < s.params.dbufCap) :
    ∃ u, step t = .next u ∧ InFixed s f (out ++ [b]) (p + (Tok.lit b).bits.length) u := by
  have hend := (h.advances.streamHas hbits).1
  have hstep : step t = exec (.llLiteral b) ((t.setPos (p + (Tok.lit b).bits.length)).setSym (b.setWidth 9)) :=
    h.step_symbol hin hbits (decodeLL_literal b)
  have hparams := h.advances.params
  have hlen := h.outLen
  obtain ⟨u, hexec, hframe, hout, hbytes⟩ :=
    (literal ((t.setPos (p + (Tok.lit b).bits.length)).setSym (b.setWidth 9)) b h.inv.params).1
      (show t.outLen < t.params.dbufCap by rw [hparams]; omega)
  rw [← hstep] at hexec
  refine ⟨u, hexec, h.after hin hexec (by rw [hframe]; rfl) (by rw [hframe]; rfl) ?_ ?_ fun a ha => ?_⟩
  · rw [hframe]
    exact pos_setPos_end (s := t) (t := t) hend
  · rw [hout, List.length_append, List.length_singleton]
    exact congrArg (· + 1) hlen
  · rw [List.length_append, List.length_singleton] at ha
    rw [hbytes, show ((t.setPos (p + (Tok.lit b).bits.length)).setSym (b.setWidth 9)).outLen = out.length from hlen]
    by_cases hlast : a = out.length
    · rw [if_pos ⟨rfl, hlast⟩, hlast, getD_append_of_le _ _ (Nat.le_refl _), Nat.sub_self]
      rfl
    · rw [if_neg fun hc => hlast hc.2, getD_append_of_lt _ _ (by omega)]
      exact h.bytes a (by omega)

theorem InFixed.backRef_step {len dist : Nat} (hok : (Tok.backRef len dist).okAfter out.length = true)
    (hbits : s.streamHas p (Tok.backRef len dist).bits) (hroom : (extendOutput dist len out).length ≤ s.params.dbufCap) :
    ∃ u, step t = .next u ∧ InFixed s f (extendOutput dist len out) (p + (Tok.backRef len dist).bits.length) u := by
  obtain ⟨h3, h258, h1, hmax, hback⟩ := Tok.okAfter_backRef hok
  obtain ⟨hlenOut, hold, hnew⟩ := extendOutput_spec h1 len out hback
  obtain ⟨e, b, hrow, hentry, hble, hbits_e⟩ := lengthSymbolFor_row h3 h258
  obtain ⟨eD, bD, hrowD, hentryD, hbleD, hbits_eD⟩ := distSymbolFor_row h1 hmax
  have hrange := lengthRows_entry hrow
  have hd := (distRows_entry hrowD).1
  have hsym : (BitVec.ofNat 9 (lengthSymbolFor len)).toNat = lengthSymbolFor len := by
    rw [BitVec.toNat_ofNat]
    omega
  obtain ⟨i, hi⟩ := decodeLL_ok (sym := BitVec.ofNat 9 (lengthSymbolFor len)) (by omega)
  rw [Tok.bits, hentry, hentryD, symbolBits_fD (by omega)] at hbits ⊢
  obtain ⟨hbits, hdistBits⟩ := streamHas_append hbits
  obtain ⟨hbits, hcodeBits⟩ := streamHas_append hbits
  obtain ⟨hsymBits, hlenBits⟩ := streamHas_append hbits
  simp only [List.length_append, lsbBits_length, codeBits_length, ← Nat.add_assoc] at hdistBits hcodeBits hlenBits ⊢
  have hstep := h.step_symbol hin hsymBits hi
  generalize hq0 : p + (symbolBits fLL (BitVec.ofNat 9 (lengthSymbolFor len))).length = q0 at *
  obtain ⟨hend0, hlenVal⟩ := streamHas_lsb (h.advances.streamHas hlenBits) hbits_e
  obtain ⟨-, hcodeVal⟩ := streamHas_code (h.advances.streamHas hcodeBits) (by omega)
  obtain ⟨hend, hdistVal⟩ := streamHas_lsb (h.advances.streamHas hdistBits) hbits_eD
  have hvpos : ((t.setPos q0).setSym (BitVec.ofNat 9 (lengthSymbolFor len))).pos = q0 :=
    pos_setPos_end (s := t) (t := t) (by omega)
  have hvlsb : ∀ q n, ((t.setPos q0).setSym (BitVec.ofNat 9 (lengthSymbolFor len))).lsbValue q n = t.lsbValue q n :=
    fun q n => (State.setSym_lsbValue _ _ q n).trans (State.setPos_lsbValue t q0 q n)
  have hvmsb : ∀ q n, ((t.setPos q0).setSym (BitVec.ofNat 9 (lengthSymbolFor len))).msbValue q n = t.msbValue q n :=
    fun q n => (State.setSym_msbValue _ _ q n).trans (State.setPos_msbValue t q0 q n)
  have hlen := h.outLen
  have hparams := h.advances.params
  obtain ⟨u, hexec, hframe, ⟨-, -, hout⟩, hcopied, hrest⟩ :=
    exec_length_done (s := (t.setPos q0).setSym (BitVec.ofNat 9 (lengthSymbolFor len))) (len := len) (p := q0 + e)
      (d := distSymbolFor dist) (n := 5) (dist := dist) (q := q0 + e + 5 + eD) hi (by rwa [hsym]) h.inv.params h.fitsIn
      (by rw [hvpos, hvlsb]; omega) (by rw [hvpos])
      ⟨by show _ ≤ t.streamEnd; omega, by omega, .inl ⟨h.act, rfl, by rw [hvmsb]; exact hcodeVal.symm⟩⟩ hrowD
      (by rw [hvlsb]; omega) rfl hend (by show dist ≤ t.outLen; omega)
      (by show t.outLen + len ≤ t.params.dbufCap; rw [hparams]; omega)
  rw [← hstep] at hexec
  refine ⟨u, hexec, h.after hin hexec (by rw [hframe]; rfl) (by rw [hframe]; rfl) ?_ ?_ fun a ha => ?_⟩
  · rw [hframe]
    exact pos_setPos_end (s := t) (t := t) hend
  · rw [hout, hlenOut]
    exact congrArg (· + len) hlen
  · rw [hlenOut] at ha
    replace hcopied : ∀ k, k < len → u.byteAt .dbuf (t.outLen + k) = t.byteAt .dbuf (t.outLen - dist + k % dist) := hcopied
    rw [hlen] at hcopied
    by_cases hlt : a < out.length
    · rw [hold a hlt, ← h.bytes a hlt]
      exact hrest .dbuf a fun hc => by
        have : t.outLen ≤ a := hc.2.1
        omega
    · obtain ⟨k, rfl⟩ : ∃ k, a = out.length + k := ⟨a - out.length, by omega⟩
      have hmod := Nat.mod_lt k (show dist > 0 from h1)
      rw [hnew k (by omega), hcopied k (by omega), h.bytes _ (by omega)]

/-- One token, one step. -/
theorem InFixed.tok_step {tok : Tok} (hok : tok.okAfter out.length = true) (hbits : s.streamHas p tok.bits)
    (hroom : (tok.output out).length ≤ s.params.dbufCap) :
    ∃ u, step t = .next u ∧ InFixed s f (tok.output out) (p + tok.bits.length) u := by
  cases tok with
  | lit b =>
    rw [Tok.output, List.length_append, List.length_singleton] at hroom
    exact h.literal_step hin hbits hroom
  | backRef len dist => exact h.backRef_step hin hok hbits hroom

end

/-- The tokens of a block and its end-of-block code, a step each. -/
theorem InFixed.run {s : State} {f : Bool} (hin : s.env.inputs = []) : ∀ (toks : List Tok) {out r : List Byte} {p : Nat}
    {t : State}, InFixed s f out p t → s.streamHas p (toks.flatMap Tok.bits ++ symbolBits fLL 256) →
    tokensOutput toks out = some r → r.length ≤ s.params.dbufCap →
    ∃ u, runSteps (toks.length + 1) t = .next u ∧ u.phase = .blockEnd ∧ u.blk.bfinal = f ∧ u.outLen = r.length ∧
      u.pos = p + (toks.flatMap Tok.bits ++ symbolBits fLL 256).length ∧
      ∀ a, a < r.length → u.byteAt .dbuf a = r.getD a 0 := by
  intro toks
  induction toks with
  | nil =>
    intro out r p t h hbits hout _
    cases hout
    have hend := (h.advances.streamHas hbits).1
    have hstep : step t = .next (((t.setPos (p + (symbolBits fLL 256).length)).setSym 256).setPhase .blockEnd) :=
      h.step_symbol hin hbits (i := .llEob) rfl
    exact ⟨_, runSteps_succ 0 hstep, rfl, h.bfinal, h.outLen, pos_setPos_end (s := t) (t := t) hend, h.bytes⟩
  | cons tok toks ih =>
    intro out r p t h hbits hout hroom
    obtain ⟨hok, hrest⟩ := tokensOutput_cons hout
    rw [List.flatMap_cons, List.append_assoc] at hbits ⊢
    obtain ⟨htok, htoks⟩ := streamHas_append hbits
    obtain ⟨u, hstep, hu⟩ := h.tok_step hin hok htok (Nat.le_trans (length_le_tokensOutput hrest) hroom)
    rw [List.length_append, ← Nat.add_assoc]
    rw [List.length_cons, runSteps_succ _ hstep]
    exact ih hu htoks hrest hroom

/-- The header of a fixed block (R114, R202, R205). -/
theorem step_fixedHeader {s : State} {f : Bool} (hinv : Inv s) (hp : s.phase = .header) (hin : s.env.inputs = [])
    (hbits : s.streamHas s.pos (lsbBits 1 f.toNat ++ lsbBits 2 1)) :
    ∃ t, step s = .next t ∧ InFixed s f ((List.range s.outLen).map fun a => s.byteAt .dbuf a) (s.pos + 3) t := by
  obtain ⟨hfinal, htype⟩ := streamHas_append hbits
  have hbfinal : s.streamBit s.pos = f := by
    have hbit := hfinal.2 0 (by rw [lsbBits_length]; decide)
    rw [Nat.add_zero, lsbBits_getD 1 _ (by decide)] at hbit
    rw [hbit]
    cases f <;> rfl
  have hbtype := streamHas_lsb htype (v := 1) (by decide)
  rw [lsbBits_length] at hbtype
  have hb : s.phase.busy = true := by rw [hp]; rfl
  have hfits : s.pos + 3 ≤ s.streamEnd := hbtype.1
  have hstep := ((headerStep s hin hp (hinv.input hb) (hinv.cursor hb)).2.2 hfits _ rfl).2.1 hbtype.2
  refine ⟨_, hstep, hinv.step_inv hin hstep, hinv.step_advances hin hstep, rfl, rfl, hbfinal,
    pos_setPos_end (s := s) (t := s) hfits, ?_, fun a ha => ?_⟩
  · rw [List.length_map, List.length_range]
    rfl
  · rw [List.length_map, List.length_range] at ha
    rw [List.getD_eq_getElem?_getD, List.getElem?_map, List.getElem?_range ha]
    rfl

/-- Settles O59: the header's step, a step for each token, and one for the end of the block. -/
theorem fixedBlock : Obligations.FixedBlock := by
  unfold Obligations.FixedBlock
  intro s f toks out hinv hp hin hbits hout hroom
  rw [assembleBits_fixed] at hbits ⊢
  obtain ⟨hheader, hrest⟩ := streamHas_append hbits
  obtain ⟨t, hstep, ht⟩ := step_fixedHeader hinv hp hin hheader
  obtain ⟨u, hrun, hphase, hfinal, hlen, hpos, hbytes⟩ := ht.run hin toks hrest hout hroom
  refine ⟨u, (runSteps_succ _ hstep).trans hrun, hphase, hfinal, hlen, ?_, hbytes⟩
  rw [hpos]
  simp only [List.length_append, lsbBits_length]
  omega

end Sys2Proof.Machine
end

section
/-! PROOFS. Runs alike (70_reset_and_hazards.md R352): blocks that agree on what a run depends on, the reads of the bit
cursor and of the decoder in them, and what a table built for the same lengths decodes. -/

namespace Sys2Proof.Machine

/-! ## Blocks that agree -/

/-- The blocks agree on everything a run's result is made of and on the stream it reads; bytes beyond the stream and the
lengths, and the registers a run writes before it reads them, may differ. -/
structure Alike (s t : State) : Prop where
  wf : s.params.wf = true
  params : t.params = s.params
  regs : t.regs = s.regs
  cur : t.cur = s.cur
  phase : t.phase = s.phase
  err : t.err = s.err
  defl : t.defl = s.defl
  stream : ∀ a, a < s.regs.inLen.toNat → t.byteAt .inMem a = s.byteAt .inMem a
  dbuf : ∀ a, a < s.outLen → t.byteAt .dbuf a = s.byteAt .dbuf a
  pix : ∀ a, a < s.regs.pixLen.toNat → t.byteAt .pix a = s.byteAt .pix a

/-- Two sub-operations that end alike: with one value in states that R relates, by the same raise in blocks that agree,
or at the same fault. -/
inductive Sim {α : Type} (R : α → State → State → Prop) : Res α → Res α → Prop where
  | ok {a : α} {s t : State} (h : R a s t) : Sim R (.ok a s) (.ok a t)
  | raised {e : ErrorKind} {s t : State} (h : Alike s t) : Sim R (.raised (errorEntry e s)) (.raised (errorEntry e t))
  | fault (f : Fault) : Sim R (.fault f) (.fault f)

section
variable {α β : Type} {R : α → State → State → Prop} {R' : β → State → State → Prop} {r r' : Res α}

theorem sim_raise {e : ErrorKind} {s t : State} (h : Alike s t) : Sim R (raise e s) (raise e t) := .raised h

/-- Sequencing; what follows may use that the first block's part ended with its value. -/
theorem Sim.bind (h : Sim R r r') {f g : α → State → Res β}
    (hf : ∀ a s t, r = .ok a s → R a s t → Sim R' (f a s) (g a t)) : Sim R' (r.bind f) (r'.bind g) := by
  cases h with
  | ok h => exact hf _ _ _ rfl h
  | raised h => exact .raised h
  | fault f => exact .fault f

theorem Sim.mono (h : Sim R r r') {Q : α → State → State → Prop} (hQ : ∀ a s t, R a s t → Q a s t) : Sim Q r r' := by
  cases h with
  | ok h => exact .ok (hQ _ _ _ h)
  | raised h => exact .raised h
  | fault f => exact .fault f

end

/-- Both have moved their cursor to the same place. -/
def Moved (s t : State) (s' t' : State) : Prop := ∃ p, s' = s.setPos p ∧ t' = t.setPos p

section
variable {s t : State} (h : Alike s t)
include h

theorem Alike.pos : t.pos = s.pos := by rw [State.pos, State.pos, h.cur]

theorem Alike.streamEnd : t.streamEnd = s.streamEnd := by rw [State.streamEnd, State.streamEnd, h.regs]

theorem Alike.outLen : t.outLen = s.outLen := by rw [State.outLen, State.outLen, h.regs]

theorem Alike.rowBytes : t.rowBytes = s.rowBytes := by rw [State.rowBytes, State.rowBytes, h.regs]

theorem Alike.rowBase : t.rowBase = s.rowBase := by rw [State.rowBase, State.rowBase, h.rowBytes, h.defl]

theorem Alike.imageNeed : t.imageNeed = s.imageNeed := by rw [State.imageNeed, State.imageNeed, h.rowBytes, h.regs]

theorem Alike.setPos (p : Nat) : Alike (s.setPos p) (t.setPos p) := { h with cur := rfl }

theorem Alike.setPhase (p : Phase) : Alike (s.setPhase p) (t.setPhase p) := { h with phase := rfl }

theorem Alike.errorEntry (e : ErrorKind) : Alike (Machine.errorEntry e s) (Machine.errorEntry e t) :=
  { h with
    phase := rfl
    err := by
      simp only [Machine.errorEntry]
      rw [h.cur, h.regs, h.defl] }

theorem Alike.streamBit {k : Nat} (hk : k < s.streamEnd) : t.streamBit k = s.streamBit k := by
  have ha : k / 8 < s.regs.inLen.toNat := by
    rw [State.streamEnd] at hk
    omega
  rw [State.streamBit, State.streamBit, h.stream _ ha]

theorem Alike.lsbValue {p n : Nat} (hfits : p + n ≤ s.streamEnd) : t.lsbValue p n = s.lsbValue p n :=
  lsbValue_ext n fun _ hi => h.streamBit (by omega)

theorem Alike.msbValue {p n : Nat} (hfits : p + n ≤ s.streamEnd) : t.msbValue p n = s.msbValue p n :=
  msbValue_ext n fun _ hi => h.streamBit (by omega)

/-! ## Reads -/

theorem Alike.checkRead (n : Nat) : Sim (fun _ s' t' => s' = s ∧ t' = t ∧ s.pos + n ≤ s.streamEnd)
    (Machine.checkRead n s) (Machine.checkRead n t) := by
  rw [Machine.checkRead, Machine.checkRead, h.pos, h.streamEnd, h.params]
  split
  · exact sim_raise h
  split
  · exact sim_raise h
  split
  · exact .fault _
  · exact .ok ⟨rfl, rfl, by omega⟩

theorem Alike.readBitsLSB (n : Nat) : Sim (fun v s' t' => v.toNat < 2 ^ n ∧ Moved s t s' t')
    (Machine.readBitsLSB n s) (Machine.readBitsLSB n t) := by
  refine (h.checkRead n).bind ?_
  rintro _ s t - ⟨rfl, rfl, hfits⟩
  rw [h.pos, h.lsbValue hfits]
  refine .ok ⟨?_, _, rfl, rfl⟩
  rw [BitVec.toNat_ofNat]
  exact Nat.lt_of_le_of_lt (Nat.mod_le _ _) (lsbValue_lt s s.pos n)

theorem Alike.readBitsMSB (n : Nat) : Sim (fun _ s' t' => Moved s t s' t')
    (Machine.readBitsMSB n s) (Machine.readBitsMSB n t) := by
  refine (h.checkRead n).bind ?_
  rintro _ s t - ⟨rfl, rfl, hfits⟩
  rw [h.pos, h.msbValue hfits]
  exact .ok ⟨_, rfl, rfl⟩

theorem Alike.peekBitsMSB (n : Nat) : Sim (fun _ s' t' => s' = s ∧ t' = t)
    (Machine.peekBitsMSB n s) (Machine.peekBitsMSB n t) := by
  refine (h.checkRead n).bind ?_
  rintro _ s t - ⟨rfl, rfl, hfits⟩
  rw [h.pos, h.msbValue hfits]
  exact .ok ⟨rfl, rfl⟩

theorem Alike.skipBits (n : Nat) : Sim (fun _ s' t' => Moved s t s' t') (Machine.skipBits n s) (Machine.skipBits n t) := by
  rw [Machine.skipBits, Machine.skipBits, h.pos, h.streamEnd]
  split
  · exact sim_raise h
  · exact .ok ⟨_, rfl, rfl⟩

/-! ## Decoding with tables built for the same lengths -/

omit h in
/-- The tables are built for the same lengths, over whatever they held before. -/
def SameBuilt (T T' : HuffTable) : Prop := ∃ lens, Built T lens ∧ Built T' lens

omit h in
/-- They differ at most in places of T.sym that no code names. -/
theorem SameBuilt.eqs {T T' : HuffTable} (hT : SameBuilt T T') :
    T' = { T with sym := T'.sym } ∧ ∀ i, i < T.used.toNat → T'.sym[i]? = T.sym[i]? := by
  obtain ⟨lens, hb, hb'⟩ := hT
  have hused := hb.used
  obtain ⟨old, rfl⟩ := hb.eq
  obtain ⟨old', rfl⟩ := hb'.eq
  exact ⟨rfl, fun i hi => by rw [build_sym_lt (hused ▸ hi), build_sym_lt (hused ▸ hi)]⟩

omit h in
/-- The place of a code is below `used`. -/
theorem Built.place_lt_used {T : HuffTable} {lens : List (BitVec 4)} (hb : Built T lens) {L v : Nat} (hL : L ≤ 15)
    (hlo : atLength T.first L ≤ v) (hhi : v < atLength T.first L + atLength T.count L) :
    atLength T.offset L + (v - atLength T.first L) < T.used.toNat := by
  have h0 : L ≠ 0 := fun h0 => by
    subst h0
    exact absurd hhi (Nat.not_lt.mpr hlo)
  obtain ⟨k, rfl⟩ : ∃ k, L = k + 1 := ⟨L - 1, by omega⟩
  have hsum := sumTo_le_sum (countsOf lens) (k + 1)
  rw [sumTo_succ, ← hb.count (by omega), ← hb.offset (by omega)] at hsum
  rw [hb.used]
  omega

theorem Alike.tryLengths {T T' : HuffTable} (hT : SameBuilt T T') : ∀ k L, L + k ≤ 16 →
    Sim (fun _ s' t' => Moved s t s' t') (Machine.tryLengths T k L s) (Machine.tryLengths T' k L t) := by
  obtain ⟨heq, hsym⟩ := hT.eqs
  obtain ⟨lens, hb, -⟩ := hT
  intro k
  induction k with
  | zero => exact fun L _ => sim_raise h
  | succ k ih =>
    intro L hL
    rw [Machine.tryLengths, Machine.tryLengths]
    refine (h.peekBitsMSB L).bind ?_
    rintro v s t - ⟨rfl, rfl⟩
    rw [show T'.first = T.first by rw [heq], show T'.count = T.count by rw [heq], show T'.offset = T.offset by rw [heq]]
    split
    case isFalse => exact ih (L + 1) (by omega)
    case isTrue hm =>
      rw [hsym _ (hb.place_lt_used (by omega) hm.1 hm.2)]
      split
      · exact .fault _
      · refine (h.skipBits L).bind fun _ s' t' _ hmoved => .ok hmoved

theorem Alike.decodeSymbol {T T' : HuffTable} (hT : SameBuilt T T') :
    Sim (fun _ s' t' => Moved s t s' t') (Machine.decodeSymbol T s) (Machine.decodeSymbol T' t) := by
  have heq := hT.eqs.1
  have hmax := T.maxLen.isLt
  rw [Machine.decodeSymbol, Machine.decodeSymbol, show T'.used = T.used by rw [heq], show T'.minLen = T.minLen by rw [heq],
    show T'.maxLen = T.maxLen by rw [heq]]
  split
  · exact sim_raise h
  by_cases hrange : T.minLen.toNat ≤ T.maxLen.toNat
  · exact h.tryLengths hT _ _ (by omega)
  · rw [show T.maxLen.toNat + 1 - T.minLen.toNat = 0 by omega]
    exact sim_raise h

/-! ## The Output Buffer -/

/-- The same bytes appended. -/
theorem Alike.appends {n : Nat} {s' t' : State} (hs : Appends s n s') (ht : Appends t n t')
    (hnew : ∀ k, k < n → t'.byteAt .dbuf (s.outLen + k) = s'.byteAt .dbuf (s.outLen + k)) : Alike s' t' where
  wf := by rw [hs.frame]; exact h.wf
  params := by rw [hs.frame, ht.frame]; exact h.params
  regs := by
    have hlen : t'.regs.dbufLen = s'.regs.dbufLen := BitVec.eq_of_toNat_eq (by
      have := hs.length
      have := ht.length
      have := h.outLen
      simp only [State.outLen] at *
      omega)
    rw [hs.frame, ht.frame, h.regs, hlen]
  cur := by rw [hs.frame, ht.frame]; exact h.cur
  phase := by rw [hs.frame, ht.frame]; exact h.phase
  err := by rw [hs.frame, ht.frame]; exact h.err
  defl := by rw [hs.frame, ht.frame]; exact h.defl
  stream := fun a ha => by
    have hlen : s'.regs.inLen = s.regs.inLen := by rw [hs.frame]
    rw [ht.old _ _ (fun hc => MemSpace.noConfusion hc.1), hs.old _ _ (fun hc => MemSpace.noConfusion hc.1)]
    exact h.stream a (hlen ▸ ha)
  dbuf := fun a ha => by
    rw [hs.length] at ha
    have hlen := h.outLen
    by_cases hold : a < s.outLen
    · rw [ht.old _ _ (by omega), hs.old _ _ (by omega)]
      exact h.dbuf a hold
    · obtain ⟨k, rfl⟩ : ∃ k, a = s.outLen + k := ⟨a - s.outLen, by omega⟩
      exact hnew k (by omega)
  pix := fun a ha => by
    have hlen : s'.regs.pixLen = s.regs.pixLen := by rw [hs.frame]
    rw [ht.old _ _ (fun hc => MemSpace.noConfusion hc.1), hs.old _ _ (fun hc => MemSpace.noConfusion hc.1)]
    exact h.pix a (hlen ▸ ha)

theorem Alike.dbufCap_lt : s.params.dbufCap < 2 ^ 32 := by
  have hw := h.wf
  simp only [Params.wf, Bool.and_eq_true, decide_eq_true_eq] at hw
  omega

theorem Alike.pushByte (v : Byte) (hroom : s.outLen < s.params.dbufCap) : Alike (pushByte v s) (pushByte v t) := by
  have hcap := h.dbufCap_lt
  have hlen := h.outLen
  refine h.appends (appends_pushByte v s (by omega)) (appends_pushByte v t (by omega)) fun k hk => ?_
  obtain rfl : k = 0 := by omega
  rw [byteAt_pushByte, byteAt_pushByte, if_pos ⟨rfl, by omega⟩, if_pos ⟨rfl, by omega⟩]

/-- The copy reads only bytes that are there (R248). -/
theorem Alike.copyBytes {n dist : Nat} (h1 : 1 ≤ dist) (hback : dist ≤ s.outLen) (hroom : s.outLen + n ≤ s.params.dbufCap) :
    Appends s n (Machine.copyBytes n dist s) ∧ Appends t n (Machine.copyBytes n dist t) ∧
      Alike (Machine.copyBytes n dist s) (Machine.copyBytes n dist t) := by
  have hcap := h.dbufCap_lt
  have hlen := h.outLen
  obtain ⟨hs, hsnew⟩ := copyBytes_spec dist n s (by omega) h1 hback
  obtain ⟨ht, htnew⟩ := copyBytes_spec dist n t (by omega) h1 (by omega)
  refine ⟨hs, ht, h.appends hs ht fun k hk => ?_⟩
  have hmod := Nat.mod_lt k (show dist > 0 from h1)
  rw [hlen] at htnew
  rw [hsnew k hk, htnew k hk, h.dbuf _ (by omega)]

/-- What a result is made of is the same. -/
theorem Alike.sameResult : SameResult s t where
  status := by
    simp only [State.statusWord, State.irq, State.stateCode]
    rw [h.err, h.regs, h.phase, h.defl]
  dbufLen := by rw [h.regs]
  pixLen := by rw [h.regs]
  blockCount := by rw [h.regs]
  cursor := h.cur.symm
  errors := h.err.symm
  dbuf := fun a ha => (h.dbuf a ha).symm
  pix := fun a ha => (h.pix a ha).symm

end

end Sys2Proof.Machine
end

section
/-! PROOFS. Runs alike: the tokens (43_lz77_expander.md) and the dynamic header (42_deflate_blocks.md section 5), each in
two blocks that agree. -/

namespace Sys2Proof.Machine

/-! ## Tokens -/

/-- Blocks that agree, in P_TOKENS: on BFINAL and ACT, and in a dynamic block on the lengths their tables are built for. -/
structure TokAlike (s t : State) : Prop where
  core : Alike s t
  phase : s.phase = .tokens
  bfinal : t.blk.bfinal = s.blk.bfinal
  act : t.blk.act = s.blk.act
  tables : s.blk.act = true → SameBuilt s.tabs.ll t.tabs.ll ∧ SameBuilt s.tabs.d t.tabs.d

section
variable {s t : State} (h : TokAlike s t)
include h

theorem TokAlike.moved {s' t' : State} (hm : Moved s t s' t') : TokAlike s' t' := by
  obtain ⟨p, rfl, rfl⟩ := hm
  exact { h with core := h.core.setPos p }

/-- The token registers are no part of the agreement. -/
theorem TokAlike.withTok (a b : Token) : TokAlike { s with tok := a } { t with tok := b } :=
  { h with core := { h.core with } }

theorem TokAlike.appends {n : Nat} {s' t' : State} (hs : Appends s n s') (ht : Appends t n t') (ha : Alike s' t') :
    TokAlike s' t' where
  core := ha
  phase := by rw [hs.frame]; exact h.phase
  bfinal := by rw [hs.frame, ht.frame]; exact h.bfinal
  act := by rw [hs.frame, ht.frame]; exact h.act
  tables := by rw [hs.frame, ht.frame]; exact h.tables

theorem TokAlike.append (v : Byte) : Sim (fun _ s' t' => TokAlike s' t') (Machine.append v s) (Machine.append v t) := by
  have hcap := h.core.dbufCap_lt
  have hlen := h.core.outLen
  rw [Machine.append, Machine.append, hlen, h.core.params]
  split
  · exact sim_raise h.core
  · exact .ok (h.appends (appends_pushByte v s (by omega)) (appends_pushByte v t (by omega))
      (h.core.pushByte v (by omega)))

theorem TokAlike.copyMatch (hlen : t.tok.len = s.tok.len) (hdist : t.tok.dist = s.tok.dist) (h1 : 1 ≤ s.tok.dist.toNat) :
    Sim (fun _ s' t' => TokAlike s' t') (Machine.copyMatch s) (Machine.copyMatch t) := by
  rw [Machine.copyMatch, Machine.copyMatch, hlen, hdist, h.core.outLen, h.core.params]
  split
  · exact sim_raise h.core
  split
  · exact sim_raise h.core
  · obtain ⟨hs, ht, ha⟩ := h.core.copyBytes (n := s.tok.len.toNat) h1 (by omega) (by omega)
    exact .ok (h.appends hs ht ha)

theorem TokAlike.readExtra (e : Nat × Nat) : Sim (fun v s' t' => (∃ w, w < 2 ^ e.1 ∧ v = e.2 + w) ∧ Moved s t s' t')
    (Machine.readExtra e s) (Machine.readExtra e t) :=
  (h.core.readBitsLSB e.1).bind fun v _ _ _ hv => .ok ⟨⟨v.toNat, hv.1, rfl⟩, hv.2⟩

theorem TokAlike.distanceSymbol (hlen : t.tok.len = s.tok.len) (d : BitVec 5) :
    Sim (fun _ s' t' => TokAlike s' t') (Machine.distanceSymbol d s) (Machine.distanceSymbol d t) := by
  rw [Machine.distanceSymbol, Machine.distanceSymbol]
  split
  · exact sim_raise h.core
  case isFalse hd =>
    refine (h.readExtra (distEntry d.toNat)).bind ?_
    rintro _ s' t' - ⟨⟨w, hw, rfl⟩, p, rfl, rfl⟩
    have hrange := distEntry_range (d := d.toNat) (by omega) hw
    refine ((h.moved ⟨p, rfl, rfl⟩).withTok _ _).copyMatch hlen rfl ?_
    show 1 ≤ (BitVec.ofNat 16 _).toNat
    rw [BitVec.toNat_ofNat]
    omega

theorem TokAlike.readDistance (hlen : t.tok.len = s.tok.len) :
    Sim (fun _ s' t' => TokAlike s' t' ∧ t'.tok.dsym = s'.tok.dsym ∧ t'.tok.len = s'.tok.len)
      (Machine.readDistance s) (Machine.readDistance t) := by
  cases hact : s.blk.act with
  | false =>
    rw [readDistance_fixed hact, readDistance_fixed (h.act.trans hact)]
    refine (h.core.readBitsMSB 5).bind ?_
    rintro v s' t' - ⟨p, rfl, rfl⟩
    exact .ok ⟨(h.moved ⟨p, rfl, rfl⟩).withTok _ _, rfl, hlen⟩
  | true =>
    rw [readDistance_dynamic hact, readDistance_dynamic (h.act.trans hact)]
    refine (h.core.decodeSymbol (h.tables hact).2).bind ?_
    rintro r s' t' - ⟨p, rfl, rfl⟩
    exact .ok ⟨(h.moved ⟨p, rfl, rfl⟩).withTok _ _, rfl, hlen⟩

theorem TokAlike.lengthSymbol (sym : Nat) :
    Sim (fun _ s' t' => TokAlike s' t') (Machine.lengthSymbol sym s) (Machine.lengthSymbol sym t) := by
  refine (h.readExtra (lengthEntry sym)).bind ?_
  rintro v s' t' - ⟨-, p, rfl, rfl⟩
  have hlen : TokAlike ((s.setPos p).setLen v) ((t.setPos p).setLen v) := (h.moved ⟨p, rfl, rfl⟩).withTok _ _
  refine (hlen.readDistance rfl).bind ?_
  rintro _ s' t' - ⟨hd, hdsym, hlen⟩
  rw [hdsym]
  exact hd.distanceSymbol hlen _

end

/-! ## The dynamic header -/

/-- Blocks that agree, in P_DYNAMIC with the counts read. -/
structure CountsAlike (s t : State) : Prop where
  core : Alike s t
  phase : s.phase = .dynamic
  bfinal : t.blk.bfinal = s.blk.bfinal
  lens : s.hdr.lens.length = 320
  lens' : t.hdr.lens.length = 320
  hlit : t.hdr.hlit = s.hdr.hlit
  hdist : t.hdr.hdist = s.hdr.hdist
  hclen : t.hdr.hclen = s.hdr.hclen
  count : s.lengthCount ≤ 320

/-- And in the code-length sequence: on T_CL, NL and the lengths below it. -/
structure SeqAlike (s t : State) : Prop extends CountsAlike s t where
  table : SameBuilt s.tabs.cl t.tabs.cl
  nl : t.hdr.nl = s.hdr.nl
  filled : ∀ i, i < s.hdr.nl.toNat → t.hdr.lens.getD i 0 = s.hdr.lens.getD i 0

theorem readCounts_alike {s t : State} (h : Alike s t) (hp : s.phase = .dynamic) (hf : t.blk.bfinal = s.blk.bfinal)
    (hs : s.hdr.lens.length = 320) (ht : t.hdr.lens.length = 320) :
    Sim (fun _ s' t' => CountsAlike s' t') (readCounts s) (readCounts t) := by
  refine (h.readBitsLSB 5).bind ?_
  rintro a s' t' - ⟨ha, p, rfl, rfl⟩
  have h1 : Alike ((s.setPos p).withHdr { s.hdr with hlit := BitVec.ofNat 9 (a.toNat + 257) })
      ((t.setPos p).withHdr { t.hdr with hlit := BitVec.ofNat 9 (a.toNat + 257) }) := { h.setPos p with }
  refine (h1.readBitsLSB 5).bind ?_
  rintro b s' t' - ⟨hb, q, rfl, rfl⟩
  have h2 : Alike
      ((s.setPos q).withHdr { s.hdr with hlit := BitVec.ofNat 9 (a.toNat + 257), hdist := BitVec.ofNat 6 (b.toNat + 1) })
      ((t.setPos q).withHdr { t.hdr with hlit := BitVec.ofNat 9 (a.toNat + 257), hdist := BitVec.ofNat 6 (b.toNat + 1) }) :=
    { h.setPos q with }
  refine (h2.readBitsLSB 4).bind ?_
  rintro c s' t' - ⟨-, r, rfl, rfl⟩
  refine .ok
    { core := { h.setPos r with }
      phase := hp
      bfinal := hf
      lens := hs
      lens' := ht
      hlit := rfl
      hdist := rfl
      hclen := rfl
      count := ?_ }
  show (BitVec.ofNat 9 _).toNat + (BitVec.ofNat 6 _).toNat ≤ 320
  rw [BitVec.toNat_ofNat, BitVec.toNat_ofNat]
  omega

section
variable {s t : State}

theorem CountsAlike.moved (h : CountsAlike s t) {s' t' : State} (hm : Moved s t s' t') : CountsAlike s' t' := by
  obtain ⟨p, rfl, rfl⟩ := hm
  exact { h with core := h.core.setPos p }

theorem SeqAlike.moved (h : SeqAlike s t) {s' t' : State} (hm : Moved s t s' t') : SeqAlike s' t' := by
  obtain ⟨p, rfl, rfl⟩ := hm
  exact { h with core := h.core.setPos p }

/-- CLL is no part of the agreement, but what is read into it is the same. -/
theorem CountsAlike.withCll (h : CountsAlike s t) (a b : List (BitVec 3)) :
    CountsAlike { s with hdr := { s.hdr with cll := a } } { t with hdr := { t.hdr with cll := b } } :=
  { h with core := { h.core with } }

theorem CountsAlike.lengthCount (h : CountsAlike s t) : t.lengthCount = s.lengthCount := by
  rw [State.lengthCount, State.lengthCount, h.hlit, h.hdist]

theorem CountsAlike.readClLengths : ∀ (k i : Nat) {s t : State}, CountsAlike s t → s.hdr.cll.length = 19 →
    t.hdr.cll = s.hdr.cll →
    Sim (fun _ s' t' => CountsAlike s' t' ∧ s'.hdr.cll.length = 19 ∧ t'.hdr.cll = s'.hdr.cll)
      (Machine.readClLengths k i s) (Machine.readClLengths k i t) := by
  intro k
  induction k with
  | zero => exact fun _ _ _ h hlen hcll => .ok ⟨h, hlen, hcll⟩
  | succ k ih =>
    intro i s t h hlen hcll
    refine (h.core.readBitsLSB 3).bind ?_
    rintro v s' t' - ⟨-, p, rfl, rfl⟩
    exact ih (i + 1) ((h.moved ⟨p, rfl, rfl⟩).withCll _ _) (List.length_set.trans hlen) (congrArg (List.set · _ _) hcll)

/-- A table built for the same lengths. -/
theorem sim_buildFromLengths (h : Alike s t) (k : Slot) {lens : List (BitVec 4)} (hl : lens.length ≤ 320) :
    Sim (fun _ s' t' => ∃ T T', SameBuilt T T' ∧ s' = s.setTable k T ∧ t' = t.setTable k T')
      (buildFromLengths k lens s) (buildFromLengths k lens t) := by
  rw [buildFromLengths, buildFromLengths]
  split
  · exact sim_raise h
  · exact .ok ⟨_, _, ⟨lens, ⟨hl, by omega, _, rfl⟩, ⟨hl, by omega, _, rfl⟩⟩, rfl, rfl⟩

theorem CountsAlike.readClTable (h : CountsAlike s t) :
    Sim (fun _ s' t' => CountsAlike s' t' ∧ SameBuilt s'.tabs.cl t'.tabs.cl) (Machine.readClTable s) (Machine.readClTable t) := by
  rw [Machine.readClTable, Machine.readClTable, h.hclen]
  refine (CountsAlike.readClLengths _ 0 (h.withCll _ _) List.length_replicate rfl).bind ?_
  rintro _ s' t' - ⟨hc, hlen, hcll⟩
  rw [hcll]
  refine (sim_buildFromLengths hc.core .cl (by rw [List.length_map, hlen]; decide)).mono ?_
  rintro _ _ _ ⟨T, T', hT, rfl, rfl⟩
  exact ⟨{ hc with core := { hc.core with } }, hT⟩

theorem SeqAlike.push (h : SeqAlike s t) (v : BitVec 4) {c : Nat} (hc : s.hdr.nl.toNat + c ≤ s.lengthCount) :
    SeqAlike (pushLengths v c s) (pushLengths v c t) := by
  have hcount := h.count
  have hnl := pushLengths_nl_toNat (v := v) hcount hc
  exact
    { core := { h.core with }
      phase := h.phase
      bfinal := h.bfinal
      lens := by rw [pushLengths_lens, fillLens_length, h.lens]
      lens' := by rw [pushLengths_lens, fillLens_length, h.lens']
      hlit := h.hlit
      hdist := h.hdist
      hclen := h.hclen
      count := h.count
      table := h.table
      nl := by rw [pushLengths_nl, pushLengths_nl, h.nl]
      filled := fun i hi => by
        rw [hnl] at hi
        rw [pushLengths_lens, pushLengths_lens, h.nl, fillLens_getD _ _ _ _ _ (by rw [h.lens']; omega),
          fillLens_getD _ _ _ _ _ (by rw [h.lens]; omega)]
        split
        · rfl
        · exact h.filled i (by omega) }

theorem SeqAlike.repeatLength (h : SeqAlike s t) (v : BitVec 4) (c : Nat) :
    Sim (fun _ s' t' => SeqAlike s' t') (Machine.repeatLength v c s) (Machine.repeatLength v c t) := by
  rw [Machine.repeatLength, Machine.repeatLength, h.lengthCount, h.nl]
  split
  · exact sim_raise h.core
  · exact .ok (h.push v (by omega))

theorem SeqAlike.clSymbol (h : SeqAlike s t) (hroom : s.hdr.nl.toNat < s.lengthCount) (x : BitVec 9) :
    Sim (fun _ s' t' => SeqAlike s' t') (Machine.clSymbol x s) (Machine.clSymbol x t) := by
  rw [Machine.clSymbol, Machine.clSymbol]
  split
  · exact .ok (h.push _ (by omega))
  split
  · refine (h.core.readBitsLSB 2).bind ?_
    rintro e s' t' - ⟨-, p, rfl, rfl⟩
    rw [State.setPos_hdr, State.setPos_hdr, h.nl]
    split
    · exact sim_raise (h.core.setPos p)
    case isFalse hnl =>
      have hpos : s.hdr.nl.toNat ≠ 0 := fun h0 => hnl (BitVec.eq_of_toNat_eq h0)
      rw [h.filled _ (by omega)]
      exact (h.moved ⟨p, rfl, rfl⟩).repeatLength _ _
  split
  · refine (h.core.readBitsLSB 3).bind ?_
    rintro e s' t' - ⟨-, hm⟩
    exact (h.moved hm).repeatLength _ _
  split
  · refine (h.core.readBitsLSB 7).bind ?_
    rintro e s' t' - ⟨-, hm⟩
    exact (h.moved hm).repeatLength _ _
  · exact .fault _

theorem SeqAlike.clLoop : ∀ (k : Nat) {s t : State}, SeqAlike s t → s.lengthCount ≤ s.hdr.nl.toNat + k →
    Sim (fun _ s' t' => SeqAlike s' t' ∧ s'.lengthCount ≤ s'.hdr.nl.toNat) (Machine.clLoop k s) (Machine.clLoop k t) := by
  intro k
  induction k with
  | zero => exact fun h hk => .ok ⟨h, hk⟩
  | succ k ih =>
    intro s t h hk
    rw [Machine.clLoop, Machine.clLoop, h.lengthCount, h.nl]
    split
    case isFalse hdone => exact .ok ⟨h, by omega⟩
    case isTrue hroom =>
      refine (h.core.decodeSymbol h.table).bind ?_
      rintro r s' t' - ⟨p, rfl, rfl⟩
      refine ((h.moved ⟨p, rfl, rfl⟩).clSymbol hroom r.1).bind ?_
      rintro _ s' t' hsym hseq
      have hfill := (clSymbol_fills (s := s.setPos p) h.count hroom hsym).of_setPos
      have hmore := hfill.more
      have hcount : s'.lengthCount = s.lengthCount := by rw [hfill.frame]; rfl
      exact ih hseq (by omega)

theorem readSequence_alike (h : CountsAlike s t) (hT : SameBuilt s.tabs.cl t.tabs.cl) :
    Sim (fun _ s' t' => SeqAlike s' t' ∧ s'.lengthCount ≤ s'.hdr.nl.toNat) (readSequence s) (readSequence t) := by
  have hstart : SeqAlike { s with hdr := { s.hdr with nl := 0 } } { t with hdr := { t.hdr with nl := 0 } } :=
    { h with
      core := { h.core with }
      table := hT
      nl := rfl
      filled := fun i hi => absurd hi (Nat.not_lt_zero i) }
  rw [readSequence, readSequence, h.lengthCount]
  exact SeqAlike.clLoop _ hstart (Nat.le_add_left _ _)

theorem Alike.setTable (h : Alike s t) (k : Slot) (T T' : HuffTable) : Alike (s.setTable k T) (t.setTable k T') := by
  cases k <;> exact { h with }

/-- The end of P_DYNAMIC: with both tables built, ACT set and P_TOKENS entered. -/
def State.startTokens (s : State) : State := { s with blk := { s.blk with act := true }, phase := .tokens }

theorem buildTables_bind (s : State) : Machine.buildTables s = (buildFromLengths .ll (llLengths s) s).bind fun _ s =>
    (buildFromLengths .d (dLengths s) s).bind fun _ s => .ok () s.startTokens := rfl

theorem dLengths_setTable (s : State) (k : Slot) (T : HuffTable) : dLengths (s.setTable k T) = dLengths s := by
  cases k <;> rfl

theorem Alike.startTokens (h : Alike s t) (hf : t.blk.bfinal = s.blk.bfinal) (hll : SameBuilt s.tabs.ll t.tabs.ll)
    (hd : SameBuilt s.tabs.d t.tabs.d) : TokAlike s.startTokens t.startTokens where
  core := { h with phase := rfl }
  phase := rfl
  bfinal := hf
  act := rfl
  tables := fun _ => ⟨hll, hd⟩

theorem SeqAlike.buildTables (h : SeqAlike s t) (hall : s.lengthCount ≤ s.hdr.nl.toNat) :
    Sim (fun _ s' t' => TokAlike s' t') (Machine.buildTables s) (Machine.buildTables t) := by
  have hfilled : ∀ i, i < s.hdr.hlit.toNat + s.hdr.hdist.toNat → t.hdr.lens.getD i 0 = s.hdr.lens.getD i 0 :=
    fun i hi => h.filled i (Nat.lt_of_lt_of_le hi hall)
  have hll : llLengths t = llLengths s := List.map_congr_left fun i _ => by
    rw [h.hlit]
    split
    · exact hfilled i (by omega)
    · rfl
  have hdl : dLengths t = dLengths s := List.map_congr_left fun i _ => by
    rw [h.hlit, h.hdist]
    split
    · exact hfilled _ (by omega)
    · rfl
  rw [buildTables_bind, buildTables_bind, hll]
  refine (sim_buildFromLengths h.core .ll (by rw [llLengths_length]; decide)).bind ?_
  rintro _ _ _ - ⟨T, T', hT, rfl, rfl⟩
  rw [dLengths_setTable, dLengths_setTable, hdl]
  refine (sim_buildFromLengths (h.core.setTable .ll T T') .d (by rw [dLengths_length]; decide)).bind ?_
  rintro _ _ _ - ⟨D, D', hD, rfl, rfl⟩
  exact .ok (((h.core.setTable .ll T T').setTable .d D D').startTokens h.bfinal hT hD)

theorem dynamicBody_alike (h : Alike s t) (hp : s.phase = .dynamic) (hf : t.blk.bfinal = s.blk.bfinal)
    (hs : s.hdr.lens.length = 320) (ht : t.hdr.lens.length = 320) :
    Sim (fun _ s' t' => TokAlike s' t') (dynamicBody s) (dynamicBody t) := by
  refine (readCounts_alike h hp hf hs ht).bind fun _ s' t' _ hcounts => ?_
  refine hcounts.readClTable.bind fun _ s' t' _ hcl => ?_
  refine (readSequence_alike hcl.1 hcl.2).bind fun _ s' t' _ hseq => ?_
  exact hseq.1.buildTables hseq.2

end

end Sys2Proof.Machine
end

section
/-! PROOFS. A run depends only on its job (70_reset_and_hazards.md R352): the header, stored-block and defilter steps in
two blocks that agree, then every step of a run, from START on. -/

namespace Sys2Proof.Machine

/-! ## The stored block -/

/-- Blocks that agree, BFINAL included. -/
abbrev BlockAlike (s t : State) : Prop := Alike s t ∧ t.blk.bfinal = s.blk.bfinal

theorem BlockAlike.storedCopy : ∀ (n : Nat) {s t : State}, BlockAlike s t → s.outLen + n ≤ s.params.dbufCap →
    Sim (fun _ s' t' => BlockAlike s' t') (Machine.storedCopy n s) (Machine.storedCopy n t) := by
  intro n
  induction n with
  | zero => exact fun h _ => .ok h
  | succ n ih =>
    intro s t ⟨h, hf⟩ hroom
    have hcap := h.dbufCap_lt
    refine (h.readBitsLSB 8).bind ?_
    rintro b s' t' - ⟨-, p, rfl, rfl⟩
    have hlen := (appends_pushByte (b.setWidth 8) (s.setPos p) (show s.outLen + 1 < 2 ^ 32 by omega)).length
    have hlen' : (pushByte (b.setWidth 8) (s.setPos p)).outLen = s.outLen + 1 := hlen
    refine ih ⟨(h.setPos p).pushByte _ (show s.outLen < s.params.dbufCap by omega), hf⟩ ?_
    show _ ≤ s.params.dbufCap
    omega

theorem BlockAlike.storedData {s t : State} (h : BlockAlike s t) (len nlen : Word) :
    Sim (fun _ s' t' => BlockAlike s' t' ∧ s'.phase = .blockEnd) (Machine.storedData len nlen s)
      (Machine.storedData len nlen t) := by
  rw [Machine.storedData, Machine.storedData, h.1.pos, h.1.streamEnd, h.1.outLen, h.1.params]
  split
  · exact sim_raise h.1
  split
  · exact sim_raise h.1
  split
  · exact sim_raise h.1
  · exact (h.storedCopy _ (by omega)).bind fun _ s' t' _ h' => .ok ⟨⟨h'.1.setPhase _, h'.2⟩, rfl⟩

theorem BlockAlike.storedBody {s t : State} (h : BlockAlike s t) :
    Sim (fun _ s' t' => BlockAlike s' t' ∧ s'.phase = .blockEnd) (Machine.storedBody s) (Machine.storedBody t) := by
  rw [Machine.storedBody, Machine.storedBody, alignToByte_eq, alignToByte_eq, h.1.pos]
  refine ((h.1.setPos _).readBitsLSB 16).bind ?_
  rintro len s' t' - ⟨-, p, rfl, rfl⟩
  refine (((h.1.setPos _).setPos p).readBitsLSB 16).bind ?_
  rintro nlen s' t' - ⟨-, q, rfl, rfl⟩
  exact BlockAlike.storedData ⟨((h.1.setPos _).setPos p).setPos q, h.2⟩ len nlen

/-! ## The defilter -/

theorem defilterStart_ite (s : State) : defilterStart s =
    if s.outLen < s.imageNeed then raise .imageDataShort { s with defl := { s.defl with stg := true } }
    else if 3 * s.params.maxWidth < s.rowBytes then .fault .slPrevAddress
    else .ok () (beginRows { s with defl := { s.defl with stg := true } }) := rfl

/-- During the rows the next row is below DBUF_LEN (R270). -/
theorem Inv.row_below {s : State} (h : Inv s) (hp : s.phase = .defilterRow) : s.rowBase + 1 + s.rowBytes ≤ s.outLen := by
  obtain ⟨-, hrow, -, hneed⟩ := h.rows hp
  have hdbuf := Nat.mul_le_mul_right (1 + s.rowBytes) (Nat.succ_le_of_lt hrow)
  rw [Nat.succ_mul] at hdbuf
  unfold State.rowBase
  unfold State.imageNeed at hneed
  omega

section
variable {s t : State} (h : Alike s t)
include h

/-- A row is made from bytes of DBUF below DBUF_LEN and from the previous row. -/
theorem Alike.reconRow (hprev : ∀ a, a < s.rowBytes → t.byteAt .slPrev a = s.byteAt .slPrev a)
    (pred : Byte → Byte → Byte → Byte) (base : Nat) : ∀ n, n ≤ s.rowBytes → base + 1 + n ≤ s.outLen →
    Machine.reconRow pred t base n = Machine.reconRow pred s base n := by
  intro n
  induction n with
  | zero => exact fun _ _ => rfl
  | succ n ih =>
    intro hn hbase
    rw [Machine.reconRow, Machine.reconRow, ih (by omega) (by omega), h.dbuf _ (by omega), hprev _ (by omega),
      hprev (n - 3) (by omega)]

theorem Alike.storeRow {cur : List Byte} (hlen : cur.length = s.rowBytes) :
    Alike (Machine.storeRow cur s) (Machine.storeRow cur t) where
  wf := h.wf
  params := h.params
  regs := by simp only [Machine.storeRow, h.regs, h.rowBytes]
  cur := h.cur
  phase := by simp only [Machine.storeRow, h.regs, h.defl, h.phase]
  err := h.err
  defl := by simp only [Machine.storeRow, h.defl]
  stream a ha := by
    rw [byteAt_storeRow, byteAt_storeRow, if_neg (by simp), if_neg (by simp), if_neg (by simp), if_neg (by simp)]
    exact h.stream a ha
  dbuf a ha := by
    rw [byteAt_storeRow, byteAt_storeRow, if_neg (by simp), if_neg (by simp), if_neg (by simp), if_neg (by simp)]
    exact h.dbuf a ha
  pix a ha := by
    have hnew : a < s.regs.pixLen.toNat + s.rowBytes := by
      refine Nat.lt_of_lt_of_le ha ?_
      show (BitVec.ofNat 32 _).toNat ≤ _
      rw [BitVec.toNat_ofNat]
      exact Nat.mod_le _ _
    rw [byteAt_storeRow, byteAt_storeRow, h.regs]
    by_cases hold : a < s.regs.pixLen.toNat
    · rw [if_neg (by omega), if_neg (by simp), if_neg (by omega), if_neg (by simp)]
      exact h.pix a hold
    · rw [if_pos ⟨rfl, by omega, by omega⟩, if_pos ⟨rfl, by omega, by omega⟩]

theorem Alike.beginRows : Alike (Machine.beginRows s) (Machine.beginRows t) where
  wf := h.wf
  params := h.params
  regs := h.regs
  cur := h.cur
  phase := rfl
  err := h.err
  defl := by simp only [Machine.beginRows, h.defl]
  stream a ha := by
    rw [byteAt_beginRows, byteAt_beginRows, if_neg (by simp), if_neg (by simp)]
    exact h.stream a ha
  dbuf a ha := by
    rw [byteAt_beginRows, byteAt_beginRows, if_neg (by simp), if_neg (by simp)]
    exact h.dbuf a ha
  pix a ha := by
    rw [byteAt_beginRows, byteAt_beginRows, if_neg (by simp), if_neg (by simp)]
    exact h.pix a ha

theorem Alike.setStage (b : Bool) :
    Alike { s with defl := { s.defl with stg := b } } { t with defl := { t.defl with stg := b } } :=
  { h with defl := congrArg (fun d : Defilter => { d with stg := b }) h.defl }

theorem Alike.defilterStart : Sim (fun _ s' t' => ∃ u v, Alike u v ∧ s' = Machine.beginRows u ∧ t' = Machine.beginRows v)
    (Machine.defilterStart s) (Machine.defilterStart t) := by
  have hstg := h.setStage true
  have hwidth : t.params.maxWidth = s.params.maxWidth := congrArg Params.maxWidth h.params
  rw [defilterStart_ite, defilterStart_ite, h.outLen, h.imageNeed, h.rowBytes, hwidth]
  split
  · exact sim_raise hstg
  split
  · exact .fault _
  · exact .ok ⟨_, _, hstg, rfl, rfl⟩

end

/-! ## Every step -/

/-- What a step of the phase reads beyond what `Alike` says. -/
def PhaseAlike (p : Phase) (s t : State) : Prop :=
  match p with
  | .stored => t.blk.bfinal = s.blk.bfinal
  | .dynamic => t.blk.bfinal = s.blk.bfinal
  | .blockEnd => t.blk.bfinal = s.blk.bfinal
  | .tokens => TokAlike s t
  | .defilterRow => ∀ a, a < s.rowBytes → t.byteAt .slPrev a = s.byteAt .slPrev a
  | .idle => True
  | .header => True
  | .defilterStart => True
  | .done => True
  | .error => True

/-- Blocks whose engine steps go on alike. -/
abbrev RunAlike (s t : State) : Prop := Alike s t ∧ PhaseAlike s.phase s t

theorem Alike.raised {s t : State} (h : Alike s t) (e : ErrorKind) : RunAlike (Machine.errorEntry e s) (Machine.errorEntry e t) :=
  ⟨h.errorEntry e, trivial⟩

theorem TokAlike.run {s t : State} (h : TokAlike s t) : RunAlike s t :=
  ⟨h.core, by rw [h.phase]; exact h⟩

/-- The states two outcomes end in, if they both do, go on alike. -/
def Paired (o o' : Host.Outcome State Fault Refusal) : Prop :=
  ∀ u v, o = .next u → o' = .next v → RunAlike u v

theorem paired_next {u v : State} (h : RunAlike u v) : Paired (.next u) (.next v) := by
  rintro _ _ ⟨⟩ ⟨⟩
  exact h

section
variable {α : Type} {R : α → State → State → Prop}

theorem Sim.paired {r r' : Res α} (h : Sim R r r') (hR : ∀ a s t, R a s t → RunAlike s t) :
    Paired r.toOutcome r'.toOutcome := by
  cases h with
  | ok h => exact paired_next (hR _ _ _ h)
  | raised h => exact paired_next (h.raised _)
  | fault f => exact fun _ _ hf => nomatch hf

theorem Sim.paired_ran {R : Instr → State → State → Prop} {r r' : Res Instr} (h : Sim R r r')
    (hR : ∀ i s t, R i s t → Paired (exec i s) (exec i t)) : Paired (ran (.ofRes r)) (ran (.ofRes r')) := by
  cases h with
  | ok h => exact hR _ _ _ h
  | raised h => exact paired_next (h.raised _)
  | fault f => exact fun _ _ hf => nomatch hf

end

section
variable {s t : State}

theorem BlockAlike.exec_decodeBtype (h : BlockAlike s t) (hp : s.phase = .header) (b : BitVec 2) :
    Paired (exec (decodeBtype b) s) (exec (decodeBtype b) t) := by
  obtain ⟨hst, hfix, hdyn, hres⟩ := blockTypes s hp
  obtain ⟨hst', hfix', hdyn', hres'⟩ := blockTypes t (h.1.phase.trans hp)
  have hval : b = 0 ∨ b = 1 ∨ b = 2 ∨ b = 3 := by
    revert b
    decide
  obtain rfl | rfl | rfl | rfl := hval
  · show Paired (exec .btypeStored s) (exec .btypeStored t)
    rw [hst, hst']
    exact paired_next ⟨h.1.setPhase .stored, h.2⟩
  · show Paired (exec .btypeFixed s) (exec .btypeFixed t)
    rw [hfix, hfix']
    exact paired_next (TokAlike.run ⟨{ h.1 with phase := rfl }, rfl, h.2, rfl, fun hact => Bool.noConfusion hact⟩)
  · show Paired (exec .btypeDynamic s) (exec .btypeDynamic t)
    rw [hdyn, hdyn']
    exact paired_next ⟨h.1.setPhase .dynamic, h.2⟩
  · show Paired (exec .btypeReserved s) (exec .btypeReserved t)
    rw [hres, hres']
    exact paired_next (h.1.raised _)

theorem Alike.fetchHeader (h : Alike s t) :
    Sim (fun i s' t' => (∃ b, i = decodeBtype b) ∧ BlockAlike s' t' ∧ s'.phase = s.phase)
      (Machine.fetchHeader s) (Machine.fetchHeader t) := by
  rw [Machine.fetchHeader, Machine.fetchHeader]
  have h0 := h.setStage false
  refine (h0.readBitsLSB 1).bind ?_
  rintro f s' t' - ⟨-, p, rfl, rfl⟩
  refine ((h0.setPos p).readBitsLSB 2).bind ?_
  rintro b s' t' - ⟨-, q, rfl, rfl⟩
  exact .ok ⟨⟨_, rfl⟩, ⟨{ (h0.setPos p).setPos q with }, rfl⟩, rfl⟩

theorem TokAlike.activeLL (h : TokAlike s t) : SameBuilt s.activeLL t.activeLL := by
  cases hact : s.blk.act with
  | false =>
    rw [activeLL_of (.inl ⟨hact, rfl⟩), activeLL_of (.inl ⟨h.act.trans hact, rfl⟩)]
    exact ⟨_, fLL_built, fLL_built⟩
  | true =>
    rw [activeLL_of (.inr ⟨hact, rfl⟩), activeLL_of (.inr ⟨h.act.trans hact, rfl⟩)]
    exact (h.tables hact).1

theorem TokAlike.fetchToken (h : TokAlike s t) :
    Sim (fun i s' t' => (∃ sym, decodeLL sym = .ok i) ∧ TokAlike s' t') (Machine.fetchToken s) (Machine.fetchToken t) := by
  refine (h.core.decodeSymbol h.activeLL).bind fun r s' t' _ hm => ?_
  cases hi : decodeLL r.1 with
  | ok i => exact .ok ⟨⟨_, hi⟩, (h.moved hm).withTok _ _⟩
  | error e => exact .fault _

theorem TokAlike.exec_decodeLL (h : TokAlike s t) {sym : BitVec 9} {i : Instr} (hi : decodeLL sym = .ok i) :
    Paired (exec i s) (exec i t) := by
  obtain ⟨b, rfl⟩ | rfl | ⟨h1, h2⟩ | ⟨x, rfl⟩ := decodeLL_cases hi
  · exact (h.append b).paired fun _ _ _ => TokAlike.run
  · exact paired_next ⟨h.core.setPhase .blockEnd, h.bfinal⟩
  · rw [exec_length hi h1 h2, exec_length hi h1 h2]
    exact (h.lengthSymbol sym.toNat).paired fun _ _ _ => TokAlike.run
  · exact paired_next (h.core.raised _)

theorem BlockAlike.blockEndStep (h : BlockAlike s t) : RunAlike (Machine.blockEndStep s) (Machine.blockEndStep t) := by
  refine ⟨{ h.1 with
    regs := congrArg (fun r : Regs => { r with blockCount := r.blockCount + 1 }) h.1.regs
    phase := ?phase }, ?beyond⟩
  case phase =>
    show ite _ _ _ = ite _ _ _
    rw [h.2, h.1.regs]
  case beyond =>
    show PhaseAlike (ite _ _ _) _ _
    split
    · trivial
    split <;> trivial

theorem Alike.exec_decodeFilter (h : Alike s t) (hinv : Inv s) (hp : s.phase = .defilterRow)
    (hprev : ∀ a, a < s.rowBytes → t.byteAt .slPrev a = s.byteAt .slPrev a) (b : Byte) :
    Paired (exec (decodeFilter b) s) (exec (decodeFilter b) t) := by
  by_cases hb : b.toNat < 5
  case neg =>
    rw [exec_decodeFilter_of_ge (by omega), exec_decodeFilter_of_ge (by omega)]
    exact paired_next (h.raised _)
  obtain ⟨i, pred, hmem, hi⟩ := decodeFilter_of_lt hb
  rw [hi, exec_filter hmem, exec_filter hmem]
  intro u v hu hv
  rw [defilterRow_next hu, defilterRow_next hv, h.rowBase, h.rowBytes,
    h.reconRow hprev pred s.rowBase s.rowBytes (Nat.le_refl _) (hinv.row_below hp)]
  have hlen := reconRow_length pred s s.rowBase s.rowBytes
  refine ⟨h.storeRow hlen, ?_⟩
  obtain ⟨-, -, ⟨hdone, -⟩ | ⟨hmore, -⟩⟩ := hinv.storeRow_regs hp (Machine.reconRow pred s s.rowBase s.rowBytes)
  · rw [hdone]
    trivial
  · rw [hmore]
    intro a ha
    have hcur : a < (Machine.reconRow pred s s.rowBase s.rowBytes).length := hlen.symm ▸ ha
    rw [byteAt_slPrev_storeRow _ _ hcur, byteAt_slPrev_storeRow _ _ hcur]

/-- Outside a run the engine rests (log 3). -/
theorem step_stays (hin : s.env.inputs = []) (hp : s.phase = .idle ∨ s.phase = .done ∨ s.phase = .error) :
    Machine.step s = .next s := by
  rw [step_engine hin, engineStep, fetchEngine]
  obtain hp | hp | hp := hp <;> rw [hp]

/-- The steps of two good blocks that agree, phase by phase. -/
theorem RunAlike.step (h : RunAlike s t) (hs : Inv s) (ht : Inv t) (hin : s.env.inputs = []) (hin' : t.env.inputs = []) :
    Paired (Machine.step s) (Machine.step t) := by
  obtain ⟨hcore, hphase⟩ := h
  have hp' := hcore.phase
  cases hp : s.phase <;> rw [hp] at hp' hphase
  case header =>
    rw [step_header hin hp, step_header hin' hp']
    refine hcore.fetchHeader.paired_ran ?_
    rintro _ s' t' ⟨⟨b, rfl⟩, hblock, hsame⟩
    exact hblock.exec_decodeBtype (hsame.trans hp) b
  case stored =>
    rw [step_stored hin hp, step_stored hin' hp', exec_btypeStored_body hp, exec_btypeStored_body hp']
    refine (BlockAlike.storedBody ⟨hcore, hphase⟩).paired ?_
    rintro _ s' t' ⟨hblock, hend⟩
    exact ⟨hblock.1, by rw [hend]; exact hblock.2⟩
  case dynamic =>
    rw [step_dynamic hin hp, step_dynamic hin' hp', exec_btypeDynamic hp, exec_btypeDynamic hp']
    exact (dynamicBody_alike hcore hp hphase hs.lensLength ht.lensLength).paired fun _ _ _ => TokAlike.run
  case tokens =>
    rw [step_of_fetch (fetch_tokens hin hp), step_of_fetch (fetch_tokens hin' hp')]
    refine (TokAlike.fetchToken hphase).paired_ran ?_
    rintro i s' t' ⟨⟨sym, hi⟩, htok⟩
    exact htok.exec_decodeLL hi
  case blockEnd =>
    rw [step_blockEnd hin hp, step_blockEnd hin' hp']
    exact paired_next (BlockAlike.blockEndStep ⟨hcore, hphase⟩)
  case defilterStart =>
    rw [step_defilterStart hin hp, step_defilterStart hin' hp']
    refine hcore.defilterStart.paired ?_
    rintro _ _ _ ⟨u, v, huv, rfl, rfl⟩
    refine ⟨huv.beginRows, fun a ha => ?_⟩
    have hzero := byteAt_beginRows (s := u) (sp := .slPrev) (a := a)
    rw [if_pos ⟨rfl, ha⟩] at hzero
    rw [hzero, byteAt_beginRows, if_pos ⟨rfl, huv.rowBytes ▸ ha⟩]
  case defilterRow =>
    have hbelow := hs.row_below hp
    have hbase : s.rowBase < s.params.dbufCap := by
      have := hs.output
      omega
    rw [step_defilterRow hin hp hbase, step_defilterRow hin' hp' (by rw [hcore.rowBase, hcore.params]; exact hbase),
      hcore.rowBase, hcore.dbuf _ (by omega)]
    exact hcore.exec_decodeFilter hs hp hphase _
  case idle =>
    rw [step_stays hin (.inl hp), step_stays hin' (.inl hp')]
    exact paired_next ⟨hcore, by rw [hp]; trivial⟩
  case done =>
    rw [step_stays hin (.inr (.inl hp)), step_stays hin' (.inr (.inl hp'))]
    exact paired_next ⟨hcore, by rw [hp]; trivial⟩
  case error =>
    rw [step_stays hin (.inr (.inr hp)), step_stays hin' (.inr (.inr hp'))]
    exact paired_next ⟨hcore, by rw [hp]; trivial⟩

/-- Good blocks that agree stay alike through any number of steps. -/
theorem RunAlike.run : ∀ (k : Nat) {s t : State}, RunAlike s t → Inv s → Inv t → s.env.inputs = [] → t.env.inputs = [] →
    ∃ u v, runSteps k s = .next u ∧ runSteps k t = .next v ∧ Alike u v := by
  intro k
  induction k with
  | zero => exact fun h _ _ _ _ => ⟨_, _, rfl, rfl, h.1⟩
  | succ k ih =>
    intro s t h hs ht hin hin'
    obtain ⟨u, hu, -⟩ := engineStep_spec hs
    obtain ⟨v, hv, -⟩ := engineStep_spec ht
    rw [← step_engine hin] at hu
    rw [← step_engine hin'] at hv
    rw [runSteps_succ k hu, runSteps_succ k hv]
    exact ih (h.step hs ht hin hin' u v hu hv) (hs.step_inv hin hu) (ht.step_inv hin' hv)
      ((hs.step_advances hin hu).env ▸ hin) ((ht.step_advances hin' hv).env ▸ hin')

/-! ## START -/

/-- START leaves a good block good, with no turn made or taken. -/
theorem Inv.started (h : Inv s) (hidle : s.phase.busy = false) {u : State}
    (hu : (Machine.startCommand s).toOutcome = .next u) : Inv u ∧ u.env = s.env := by
  obtain ⟨hstart, hinv⟩ | ⟨hstart, hinv⟩ := h.startCommand hidle <;> rw [hstart] at hu <;>
    obtain rfl := Host.Outcome.next.inj hu <;> exact ⟨hinv, rfl⟩

/-- With the same job START sets what a run depends on to the same values (R300). -/
theorem SameJob.startState (h : SameJob s t) (hs : Inv s) (p : Phase) :
    Alike ((Machine.startState s).setPhase p) ((Machine.startState t).setPhase p) where
  wf := hs.params
  params := h.params.symm
  regs := by
    simp only [State.setPhase_regs, Machine.startState]
    rw [h.defilterEn, h.irqEn, h.inLen, h.width, h.height]
  cur := rfl
  phase := rfl
  err := rfl
  defl := rfl
  stream a ha := (h.stream a ha).symm
  dbuf a ha := absurd ha (Nat.not_lt_zero a)
  pix a ha := absurd ha (Nat.not_lt_zero a)

/-- And it makes the same checks (R300). -/
theorem SameJob.badGeometry (h : SameJob s t) : Machine.badGeometry t = Machine.badGeometry s := by
  rw [Machine.badGeometry, Machine.badGeometry, h.params, h.width, h.height]

theorem SameJob.startCommand (h : SameJob s t) (hs : Inv s) (hidle : s.phase.busy = false) (hidle' : t.phase.busy = false) :
    Paired (Machine.startCommand s).toOutcome (Machine.startCommand t).toOutcome := by
  have hsame : (t.params.inCap < t.regs.inLen.toNat ∨ (t.regs.defilterEn = true ∧ Machine.badGeometry t = true)) ↔
      (s.params.inCap < s.regs.inLen.toNat ∨ (s.regs.defilterEn = true ∧ Machine.badGeometry s = true)) := by
    rw [h.params, h.inLen, h.defilterEn, ← h.badGeometry]
  by_cases hbad : s.params.inCap < s.regs.inLen.toNat ∨ (s.regs.defilterEn = true ∧ Machine.badGeometry s = true)
  · rw [startCommand_invalid hidle hbad, startCommand_invalid hidle' (hsame.mpr hbad)]
    exact paired_next ((h.startState hs .idle).raised .invalidConfig)
  · obtain ⟨hlen, hgeom⟩ := not_or.mp hbad
    obtain ⟨hlen', hgeom'⟩ := not_or.mp (mt hsame.mp hbad)
    rw [startCommand_begin hidle (by omega) hgeom, startCommand_begin hidle' (by omega) hgeom']
    exact paired_next ⟨h.startState hs .header, trivial⟩

end

/-- Settles O58: START makes the blocks agree on all that the engine reads, and every step keeps that. -/
theorem runsAlike : Obligations.RunsAlike := by
  unfold Obligations.RunsAlike
  intro s t s' t' w k hs ht hidle hidle' hin hin' hjob hstart hstart'
  rw [exec_ctrlStart] at hstart hstart'
  have hpair := hjob.startCommand hs hidle hidle' s' t' hstart hstart'
  obtain ⟨hinv, henv⟩ := hs.started hidle hstart
  obtain ⟨hinv', henv'⟩ := ht.started hidle' hstart'
  obtain ⟨u, v, hu, hv, huv⟩ := hpair.run k hinv hinv' (henv ▸ hin) (henv' ▸ hin')
  exact ⟨u, v, hu, hv, huv.sameResult⟩

end Sys2Proof.Machine
end
